-- ==== Sys2Proof/Word.lean ====
section
/-!
DEFINITION. The word types of the DZ-940 (R4, R12) and nothing else: a 64-bit register value, an
8-bit predicate or byte, a 32-bit counter. Fields of encoded words are natural numbers, taken apart in Decode.lean.
-/
namespace Sys2Proof

/-- A 64-bit register value (R11, R12). -/
abbrev W64 := BitVec 64

/-- A 32-bit value: the region entry counter and the mode word (R11, R19). -/
abbrev W32 := BitVec 32

/-- A byte of memory or of the scratchpad (R4, R193). -/
abbrev Byte := BitVec 8

/-- Lanes of an issue group, lane `l` in bit `l` (R147). -/
abbrev LaneSet := BitVec 32

end Sys2Proof
end

