-- ==== Sys2Proof/Syntax.lean ====
section
/-!
DEFINITION. The instructions and steps of the Glothiha ISA, one constructor per row of the opcode
table (R76, R77, and the events of "What each step holds"). Operand fields are decoded: a register is a name with a
number, an immediate is its value. Constructors of the device's own steps carry the unit they act on, and, where the
outside world takes part (a host access, an arriving packet, a measurement), what it supplies.
-/
namespace Sys2Proof

/-- Subcauses of the illegal-instruction trap (Table 3.14), in code order. -/
inductive IllegalSub where
  | opcode | operand | executor | reserved | orphan
deriving DecidableEq, Repr

/-- Sub-element shapes (R12). -/
inductive Shape where
  | d | w | h | b
deriving DecidableEq, Repr

/-- Element kinds, in code order 000 to 110 (Table 3.5). -/
inductive Kind where
  | i | n | f | bf | e4 | e5 | e2
deriving DecidableEq, Repr

/-- The special registers in the order of Table 1.2. -/
inductive Special where
  | lane | tid | tidX | tidY | tidZ | wgX | wgY | wgZ | nwgX | nwgY | nwgZ
  | wgsz | core | die | pkg | cyc | retired | regions | mode
deriving DecidableEq, Repr

/-- A source operand (Tables 3.3 and 3.8). -/
inductive Src where
  | x (n : Nat) | k (n : Nat) | o (n : Nat) | l (n : Nat)
  | zero
  | special (s : Special)
  | imm (v : Int)
deriving DecidableEq, Repr

/-- A destination (Tables 3.4 and 3.8). -/
inductive Dst where
  | x (n : Nat) | k (n : Nat) | o (n : Nat)
  | none
deriving DecidableEq, Repr

/-- The guard of word 1 (Table 3.6): predicate `p`, inverted when `neg`. -/
structure Guard where
  neg : Bool
  p   : Nat
deriving DecidableEq, Repr

/-- The operands of a 32-bit instruction (Table 3.2). -/
structure F32 where
  shape : Shape
  d     : Dst
  a     : Src
  b     : Src
deriving DecidableEq, Repr

/-- The operands of a 64-bit instruction with X = 0 (Tables 3.5 and 3.6), less MOD. -/
structure F64 where
  shape : Shape
  kind  : Kind
  d     : Dst
  a     : Src
  b     : Src
  c     : Src
  guard : Option Guard
deriving DecidableEq, Repr

/-- The operands of a 64-bit instruction with X = 1 (Tables 3.5 and 3.7). -/
structure F64I where
  shape : Shape
  kind  : Kind
  d     : Dst
  a     : Src
  imm   : Nat
deriving DecidableEq, Repr

/-- As `F64`, for an instruction whose D8 field is a data source (`st`, `sts`, `stx`, `stash`, `kst`). -/
structure F64S where
  shape : Shape
  kind  : Kind
  data  : Src
  a     : Src
  b     : Src
  c     : Src
  guard : Option Guard
deriving DecidableEq, Repr

/-- As `F64I`, for an instruction whose D8 field is a data source. -/
structure F64IS where
  shape : Shape
  kind  : Kind
  data  : Src
  a     : Src
  imm   : Nat
deriving DecidableEq, Repr

/-- Conditions of `cmp`, `kcmp` and `waitv` (R98). -/
inductive Cond where
  | eq | ne | lt | le | gt | ge
deriving DecidableEq, Repr

/-- Conditions of `fcmp` (R105). -/
inductive FCond where
  | eq | ne | lt | le | gt | ge | un | ord
deriving DecidableEq, Repr

/-- A carry field of `addc` and `subb` (R99): predicate number and enable. -/
structure CarrySel where
  p  : Nat
  en : Bool
deriving DecidableEq, Repr

/-- Source shape, source kind and part of `cvt`, `qnt` and `dqn` (R110, R111). -/
structure CvtMod where
  shape : Shape
  kind  : Kind
  part  : Nat
deriving DecidableEq, Repr

/-- Vote modes (Table 6.2). -/
inductive VoteMode where
  | any | all | ballot | eq
deriving DecidableEq, Repr

/-- Reduction operations (Table 6.3). -/
inductive RedOp where
  | add | min | max | and | or | xor | fadd | fmin | fmax
deriving DecidableEq, Repr

/-- Atomic operations (Table 9.3). -/
inductive AtomOp where
  | add | min | max | and | or | xor | swap | cas | inc | fadd | fmin | fmax
deriving DecidableEq, Repr

/-- Atomic flavours (Table 8.4). -/
inductive Flavour where
  | plain | rel | acq | ar
deriving DecidableEq, Repr

/-- The L1 hint of a scoped load or store (R231). -/
inductive L1Hint where
  | normal | stream | nol1
deriving DecidableEq, Repr

/-- MOD of `ld`, `st`, `kld` and `kst` in the 64 form: index shift and allocation hints (R119, R231). -/
structure MemMod where
  shift : Nat
  l1h   : L1Hint
  nollc : Bool
deriving DecidableEq, Repr

/-- Targets of `pref` (R246). -/
inductive PrefTarget where
  | l1 | llc | ret
deriving DecidableEq, Repr

/-- Fields patched by `binpatch` (R274). -/
inductive PatchField where
  | gx | par | box
deriving DecidableEq, Repr

/-- The sense of a 64i `ubr` (R132). -/
inductive BrSense where
  | always | nz | z
deriving DecidableEq, Repr

/-- Levels of `gresume` (Table 13.6). -/
inductive StopLevel where
  | group | partition | package
deriving DecidableEq, Repr

/-- Modes of `tlbi` (R331). -/
inductive TlbiMode where
  | all | asid | range
deriving DecidableEq, Repr

/-- Rounding modes (Table 2.3). `dyn` stands only in a prefix. -/
inductive Rnd where
  | rne | rtz | rup | rdn | rna | rsr | dyn
deriving DecidableEq, Repr

/-- Saturation codes 00, 01 and 10 (Table 3.11). -/
inductive Sat where
  | off | sat | clamp
deriving DecidableEq, Repr

/-- The prefix word (Table 3.11). `uniform` is the set bit S. -/
structure PrefixFields where
  uniform : Bool
  rnd     : Rnd
  sat     : Sat
  fzi     : Bool
  fzo     : Bool
  guard   : Option Guard
  bcast   : Option Nat
deriving DecidableEq, Repr

/-- The run header (Table 3.12). `len` is the field LEN, counted words less one. -/
structure HeaderWord where
  wait : Nat
  dist : Nat
  len  : Nat
  r    : Bool
  hint : Nat
deriving DecidableEq, Repr

/-- A valid completion entry of a trailer (Table 3.13). -/
structure CompletionEntry where
  flag    : Nat
  ordinal : Nat
deriving DecidableEq, Repr

/-- The run trailer (Table 3.13). -/
structure TrailerWord where
  park : Bool
  e0   : Option CompletionEntry
  e1   : Option CompletionEntry
  e2   : Option CompletionEntry
deriving DecidableEq, Repr

/-- LLC misses that one chunk counted for one die in a migration epoch (R201). -/
structure MissCount where
  chunk : Nat
  die   : Nat
  count : Nat
deriving DecidableEq, Repr

/-- The addition of `mdrain.add` to some elements of a row (R296): element format FP32 or BF16, α and the sender's modes (rounding code
and flush bits), and for each element its physical address, AX40 code and random bits. -/
structure RowAdd where
  fp32  : Bool
  alpha : Nat
  rnd   : Nat
  flush : Nat
  elems : List (Nat × Nat × Nat)
deriving DecidableEq, Repr

/-- One lane's or one word's atomic in a request (R240): its physical address, operand, comparand, and the tag its answer carries. -/
structure PodLane where
  pa  : Nat
  b   : Nat
  c   : Nat
  tag : Nat
deriving DecidableEq, Repr

/-- What a pod-scope request asks of the target package (R207; R363 and R381 travel as their own messages). A write names each byte's
address, value and the bits it writes (R234); the lanes of one atomic instruction travel together (R240); `consume` tests a mapped barrier for an `fwait` (R367), `rollCall` writes
the roll-call entry of a rank (R392), `unsupported` is a packet that arrives at a port and uses an unsupported part (R352). -/
inductive PodOp where
  | read (bytes : Nat)
  | write (data : List (Nat × Byte × Byte))
  | atomic (op : AtomOp) (kind : Kind) (width : Nat) (lanes : List PodLane)
  | cell (clear : Bool) (lanes : List PodLane)
  | rowAdd (a : RowAdd)
  | consume
  | rollCall (rank : Nat) (data : List Byte)
  | unsupported (port : Nat)
deriving DecidableEq, Repr

/-- A pod-scope request arriving from another package (R207). `tag` names the sender's access, `bulk` that it travels on TC0
(Table 15.2). -/
structure PodRequest where
  pkg  : Nat
  job  : Nat
  pa   : Nat
  exr  : Option Nat
  op   : PodOp
  tag  : Nat
  bulk : Bool
deriving DecidableEq, Repr

/-- A response from a target package (R207): data, or a Table 7.4 subcause, 0x0E or 0x1E for an uncorrectable error of its HBM4E or LLC (R339), or 0xFF for a peer
that cannot be reached (R354). -/
structure PodResponse where
  pkg   : Nat
  tag   : Nat
  data  : List Byte
  fault : Option Nat
  bulk  : Bool
deriving DecidableEq, Repr

/-- A 64-byte message of `fsend` on its way to a channel (R363), with the package and the tag to which its acceptance is told. -/
structure FabricMessage where
  src     : Nat
  tag     : Nat
  job     : Nat
  proc    : Nat
  channel : Nat
  words   : List W64
deriving DecidableEq, Repr

/-- A root-slot contribution of `fred` on its way to its root (R381), with the package and the tag to which its acceptance is told. -/
structure RootContribution where
  src   : Nat
  tag   : Nat
  job   : Nat
  proc  : Nat
  slot  : Nat
  epoch : Nat
  index : Nat
  value : W64
deriving DecidableEq, Repr

/-- A Bell packet (R388). -/
structure BellPacket where
  job    : Nat
  seq    : Nat
  origin : Nat
  cause  : Nat
deriving DecidableEq, Repr

/-- The root's command that a package perform a resume stage (R396): the job, and the number of the Bell. -/
structure ResumeCommand where
  job : Nat
  seq : Nat
deriving DecidableEq, Repr

/-- A peer that cannot be reached (R354), with the port that carries each die's flow to it, none where the host has configured no route. -/
structure LostPeer where
  pkg   : Nat
  ports : List Nat
deriving DecidableEq, Repr

/-- A ready or free-slot message of the Timetable (R406, R408): `free` selects credits, `prev` the side it was sent to. -/
structure TtMessage where
  job   : Nat
  free  : Bool
  prev  : Bool
  mb    : Nat
  count : Nat
deriving DecidableEq, Repr

/-- A host access through the BAR2 window (R426): offset, and the bytes written, or the number of bytes read. -/
structure Bar2Access where
  offset : Nat
  bytes  : Nat
  data   : Option (List Byte)
deriving DecidableEq, Repr

/-- What secure boot finds in the flash image (R435): readable, correctly signed, its version, and the digests of the
boot stages as numbers of 512 bits. -/
structure BootImage where
  readable : Bool
  signed   : Bool
  version  : Nat
  digests  : List Nat
deriving DecidableEq, Repr

/-- The measurements of one 1 ms power window (R440): average power in W, and whether the hottest die exceeded 95 °C or
stayed below 90 °C, with its temperature. -/
structure PowerSample where
  watts : Nat
  temp  : Int
deriving DecidableEq, Repr

/-- One constructor per row of the opcode table: the encoded instructions and run control words, and the device's own
steps. The comment of each gives the row's mnemonic and rule. -/
inductive Instr where
  /-- HEADER (R31) -/
  | header (h : HeaderWord)
  /-- TRAILER (R30) -/
  | trailer (t : TrailerWord)
  /-- PREFIX (R71) -/
  | prefixWord (p : PrefixFields)
  /-- LONG_LATENCY_COMPLETE (R30) -/
  | longLatencyComplete (op : Nat)
  /-- BIN_FULL_DRAW (R150) -/
  | binFullDraw (core part bin : Nat)
  /-- BIN_AGED_DRAW (R150) -/
  | binAgedDraw (core part bin : Nat)
  /-- CANDIDATE_LIFT (R154) -/
  | candidateLift (group : Nat)
  /-- WAITV_REREAD (R174) -/
  | waitvReread (wg tid : Nat)
  /-- WAITV_TIMEOUT (R174) -/
  | waitvTimeout (wg tid : Nat)
  /-- CINCH_COMPLETE (R173) -/
  | cinchComplete (line : Nat)
  /-- LAUNCH_ACCEPTANCE (R138) -/
  | launchAcceptance (index : Nat)
  /-- LEAF_COMPLETE (R139) -/
  | leafComplete (region : Nat)
  /-- WORKGROUP_DISPATCH (R143) -/
  | workgroupDispatch
  /-- CONTEXT_SAVE (R337) -/
  | contextSave (wg : Nat)
  /-- EVENT_ENTER (R320) -/
  | eventEnter (index : Nat)
  /-- EVENT_HANDLER_START (R320) -/
  | eventHandlerStart (cluster : Nat)
  /-- WATCHDOG_EXPIRY (R338) -/
  | watchdogExpiry (cluster : Nat)
  /-- SCRUB_ERROR (R340) -/
  | scrubError (pa : Nat)
  /-- STORE_DRAIN (R216) -/
  | storeDrain (core index : Nat)
  /-- PUBLISH_BOUNDARY_COMPLETE (R215) -/
  | publishBoundaryComplete (id : Nat)
  /-- MIGRATION_EPOCH_END (R201) -/
  | migrationEpochEnd (misses : List MissCount)
  /-- MIGRATION_SWITCH (R202) -/
  | migrationSwitch (chunk : Nat)
  /-- POD_REQUEST_ARRIVAL (R207) -/
  | podRequestArrival (req : PodRequest)
  /-- POD_RESPONSE_ARRIVAL (R207) -/
  | podResponseArrival (resp : PodResponse)
  /-- PEER_UNREACHABLE (R354) -/
  | peerUnreachable (peer : LostPeer)
  /-- BULK_COPY_START (R263) -/
  | bulkCopyStart (copy : Nat)
  /-- COPY_LINE (R255) -/
  | copyLine (engine : Nat)
  /-- MATRIX_STEP (R307) -/
  | matrixStep (wg : Nat)
  /-- PEER_CONTRIBUTION_ARRIVAL (R299) -/
  | peerContributionArrival (sender : Nat)
  /-- PEER_CONTRIBUTION_REOFFER (R299) -/
  | peerContributionReoffer (sender : Nat)
  /-- TRANSFER_STEP (R361) -/
  | transferStep (proc : Nat)
  /-- FWAIT_RECHECK (R367) -/
  | fwaitRecheck (proc : Nat)
  /-- FWAIT_TIMEOUT (R367) -/
  | fwaitTimeout (proc : Nat)
  /-- MESSAGE_ARRIVAL (R363) -/
  | messageArrival (msg : FabricMessage)
  /-- FRED_ARRIVAL (R381) -/
  | fredArrival (c : RootContribution)
  /-- FSLOT_TIMEOUT (R380) -/
  | fslotTimeout (proc slot : Nat)
  /-- BELL_RECEIVE (R388) -/
  | bellReceive (b : BellPacket)
  /-- ROLL_CALL_ENTRY_WRITE (R392) -/
  | rollCallEntryWrite (job : Nat)
  /-- ROLL_CALL_TIMEOUT (R393) -/
  | rollCallTimeout (job : Nat)
  /-- RESUME_STAGE_1 (R396) -/
  | resumeStage1 (command : ResumeCommand)
  /-- RESUME_STAGE_2 (R396) -/
  | resumeStage2 (command : ResumeCommand)
  /-- RESUME_STAGE_3 (R396) -/
  | resumeStage3 (command : ResumeCommand)
  /-- TT_HEAD_ISSUE (R402) -/
  | ttHeadIssue
  /-- TT_MESSAGE_ARRIVAL (R406) -/
  | ttMessageArrival (m : TtMessage)
  /-- TT_DONE (R404) -/
  | ttDone
  /-- QKICK_WRITE (R427) -/
  | qkickWrite (queue value : Nat)
  /-- QUEUE_ENABLE (R427) -/
  | queueEnable (queue : Nat)
  /-- QUEUE_HALT_CLEAR (R429) -/
  | queueHaltClear (queue : Nat)
  /-- PACKET_FETCH (R429) -/
  | packetFetch (queue : Nat)
  /-- PACKET_SEQ_RETRY (R429) -/
  | packetSeqRetry (queue : Nat)
  /-- CREATE_JOB (R430) -/
  | createJob (queue : Nat)
  /-- RELEASE (R430) -/
  | release (queue : Nat)
  /-- LAUNCH_PACKET (R430) -/
  | launchPacket (queue : Nat)
  /-- GRANT (R204) -/
  | grant (queue : Nat)
  /-- FABRIC_START (R355) -/
  | fabricStart (queue : Nat)
  /-- TT_START (R399) -/
  | ttStart (queue : Nat)
  /-- PREEMPT (R336) -/
  | preempt (queue : Nat)
  /-- BELL_RAISE (R384) -/
  | bellRaise (queue : Nat)
  /-- BELL_RESUME (R396) -/
  | bellResume (queue : Nat)
  /-- KILL (R330) -/
  | kill (queue : Nat)
  /-- ATTEST (R437) -/
  | attest (queue : Nat)
  /-- DOMAIN (R206) -/
  | domain (queue : Nat)
  /-- CTXSTORE (R337) -/
  | ctxstore (queue : Nat)
  /-- FENCE (R430) -/
  | fence (queue : Nat)
  /-- BAR2_ACCESS (R426) -/
  | bar2Access (acc : Bar2Access)
  /-- REGISTER_WRITE (R425) -/
  | registerWrite (offset value : Nat)
  /-- PFRZ_WRITE (R326) -/
  | pfrzWrite (value : W64)
  /-- LCCLR_WRITE (R332) -/
  | lcclrWrite (core : Nat) (value : W64)
  /-- XCWAYS_WRITE (R199) -/
  | xcwaysWrite (value : W64)
  /-- COLD_RESET (R432) -/
  | coldReset
  /-- WARM_RESET (R432) -/
  | warmReset
  /-- FUNCTION_RESET (R433) -/
  | functionReset
  /-- LINK_TRAINING (R434) -/
  | linkTraining
  /-- SECURE_BOOT (R435) -/
  | secureBoot (image : BootImage)
  /-- SECURITY_ALARM (R439) -/
  | securityAlarm (zeroise : Bool)
  /-- POWER_WINDOW (R440) -/
  | powerWindow (sample : PowerSample)
  /-- ADD (R94) -/
  | add (f : F32)
  /-- ADD_64 (R94) -/
  | add64 (f : F64)
  /-- ADD_64I (R94) -/
  | add64i (f : F64I)
  /-- SUB (R94) -/
  | sub (f : F32)
  /-- SUB_64 (R94) -/
  | sub64 (f : F64)
  /-- SUB_64I (R94) -/
  | sub64i (f : F64I)
  /-- MUL (R94) -/
  | mul (f : F32)
  /-- MUL_64 (R94) -/
  | mul64 (f : F64)
  /-- MUL_64I (R94) -/
  | mul64i (f : F64I)
  /-- MULH (R94) -/
  | mulh (f : F32)
  /-- MULH_64 (R94) -/
  | mulh64 (f : F64)
  /-- MULH_64I (R94) -/
  | mulh64i (f : F64I)
  /-- MAD (R94) -/
  | mad (f : F64)
  /-- MIN (R94) -/
  | min (f : F32)
  /-- MIN_64 (R94) -/
  | min64 (f : F64)
  /-- MIN_64I (R94) -/
  | min64i (f : F64I)
  /-- MAX (R94) -/
  | max (f : F32)
  /-- MAX_64 (R94) -/
  | max64 (f : F64)
  /-- MAX_64I (R94) -/
  | max64i (f : F64I)
  /-- ABS (R94) -/
  | abs (f : F32)
  /-- ABS_64 (R94) -/
  | abs64 (f : F64)
  /-- AND (R94) -/
  | and (f : F32)
  /-- AND_64 (R94) -/
  | and64 (f : F64)
  /-- AND_64I (R94) -/
  | and64i (f : F64I)
  /-- OR (R94) -/
  | or (f : F32)
  /-- OR_64 (R94) -/
  | or64 (f : F64)
  /-- OR_64I (R94) -/
  | or64i (f : F64I)
  /-- XOR (R94) -/
  | xor (f : F32)
  /-- XOR_64 (R94) -/
  | xor64 (f : F64)
  /-- XOR_64I (R94) -/
  | xor64i (f : F64I)
  /-- ANDN (R94) -/
  | andn (f : F32)
  /-- ANDN_64 (R94) -/
  | andn64 (f : F64)
  /-- ANDN_64I (R94) -/
  | andn64i (f : F64I)
  /-- SHL (R95) -/
  | shl (f : F32)
  /-- SHL_64 (R95) -/
  | shl64 (f : F64)
  /-- SHL_64I (R95) -/
  | shl64i (f : F64I)
  /-- SHR (R95) -/
  | shr (f : F32)
  /-- SHR_64 (R95) -/
  | shr64 (f : F64)
  /-- SHR_64I (R95) -/
  | shr64i (f : F64I)
  /-- SAR (R95) -/
  | sar (f : F32)
  /-- SAR_64 (R95) -/
  | sar64 (f : F64)
  /-- SAR_64I (R95) -/
  | sar64i (f : F64I)
  /-- ROT (R95) -/
  | rot (f : F32)
  /-- ROT_64 (R95) -/
  | rot64 (f : F64)
  /-- ROT_64I (R95) -/
  | rot64i (f : F64I)
  /-- CLZ (R94) -/
  | clz (f : F32)
  /-- CLZ_64 (R94) -/
  | clz64 (f : F64)
  /-- POPC (R94) -/
  | popc (f : F32)
  /-- POPC_64 (R94) -/
  | popc64 (f : F64)
  /-- BFX (R96) -/
  | bfx (f : F64) (start len : Nat)
  /-- BFI (R96) -/
  | bfi (f : F64) (start len : Nat)
  /-- SEL (R97) -/
  | sel (f : F64) (q : Nat) (neg : Bool)
  /-- CMP (R98) -/
  | cmp (c : Cond) (q : Nat) (f : F32)
  /-- CMP_64 (R98) -/
  | cmp64 (c : Cond) (q : Nat) (f : F64)
  /-- CMP_64I (R98) -/
  | cmp64i (c : Cond) (q : Nat) (f : F64I)
  /-- ADDC (R99) -/
  | addc (f : F64) (cin cout : CarrySel)
  /-- SUBB (R99) -/
  | subb (f : F64) (cin cout : CarrySel)
  /-- MOV (R94) -/
  | mov (f : F32)
  /-- MOV_64 (R94) -/
  | mov64 (f : F64)
  /-- MOV_64I (R94) -/
  | mov64i (f : F64I)
  /-- LEA (R100) -/
  | lea (f : F32)
  /-- LEA_64 (R100) -/
  | lea64 (f : F64) (shift : Nat)
  /-- LEA_64I (R100) -/
  | lea64i (f : F64I)
  /-- DOT4 (R101) -/
  | dot4 (f : F32)
  /-- DOT4_64 (R101) -/
  | dot464 (f : F64)
  /-- SAD (R101) -/
  | sad (f : F32)
  /-- SAD_64 (R101) -/
  | sad64 (f : F64)
  /-- FADD (R103) -/
  | fadd (f : F32)
  /-- FADD_64 (R103) -/
  | fadd64 (f : F64)
  /-- FADD_64I (R103) -/
  | fadd64i (f : F64I)
  /-- FSUB (R103) -/
  | fsub (f : F32)
  /-- FSUB_64 (R103) -/
  | fsub64 (f : F64)
  /-- FSUB_64I (R103) -/
  | fsub64i (f : F64I)
  /-- FMUL (R103) -/
  | fmul (f : F32)
  /-- FMUL_64 (R103) -/
  | fmul64 (f : F64)
  /-- FMUL_64I (R103) -/
  | fmul64i (f : F64I)
  /-- FMA (R103) -/
  | fma (f : F64)
  /-- FMIN (R104) -/
  | fmin (f : F32)
  /-- FMIN_64 (R104) -/
  | fmin64 (f : F64)
  /-- FMIN_64I (R104) -/
  | fmin64i (f : F64I)
  /-- FMAX (R104) -/
  | fmax (f : F32)
  /-- FMAX_64 (R104) -/
  | fmax64 (f : F64)
  /-- FMAX_64I (R104) -/
  | fmax64i (f : F64I)
  /-- FCMP (R105) -/
  | fcmp (c : FCond) (q : Nat) (f : F32)
  /-- FCMP_64 (R105) -/
  | fcmp64 (c : FCond) (q : Nat) (f : F64)
  /-- FCMP_64I (R105) -/
  | fcmp64i (c : FCond) (q : Nat) (f : F64I)
  /-- FCLASS (R106) -/
  | fclass (f : F32)
  /-- FCLASS_64 (R106) -/
  | fclass64 (f : F64)
  /-- FDIV (R108) -/
  | fdiv (f : F32)
  /-- FDIV_64 (R108) -/
  | fdiv64 (f : F64)
  /-- FDIV_64I (R108) -/
  | fdiv64i (f : F64I)
  /-- FSQRT (R108) -/
  | fsqrt (f : F32)
  /-- FSQRT_64 (R108) -/
  | fsqrt64 (f : F64)
  /-- RCP (R109) -/
  | rcp (f : F32)
  /-- RCP_64 (R109) -/
  | rcp64 (f : F64)
  /-- RSQ (R109) -/
  | rsq (f : F32)
  /-- RSQ_64 (R109) -/
  | rsq64 (f : F64)
  /-- EX2 (R109) -/
  | ex2 (f : F32)
  /-- EX2_64 (R109) -/
  | ex264 (f : F64)
  /-- LG2 (R109) -/
  | lg2 (f : F32)
  /-- LG2_64 (R109) -/
  | lg264 (f : F64)
  /-- SIN (R109) -/
  | sin (f : F32)
  /-- SIN_64 (R109) -/
  | sin64 (f : F64)
  /-- COS (R109) -/
  | cos (f : F32)
  /-- COS_64 (R109) -/
  | cos64 (f : F64)
  /-- FRND (R107) -/
  | frnd (f : F32)
  /-- FRND_64 (R107) -/
  | frnd64 (f : F64)
  /-- FSCL (R107) -/
  | fscl (f : F32)
  /-- FSCL_64 (R107) -/
  | fscl64 (f : F64)
  /-- FSCL_64I (R107) -/
  | fscl64i (f : F64I)
  /-- FEXP (R107) -/
  | fexp (f : F32)
  /-- FEXP_64 (R107) -/
  | fexp64 (f : F64)
  /-- FDOT2 (R103) -/
  | fdot2 (f : F32)
  /-- FDOT2_64 (R103) -/
  | fdot264 (f : F64)
  /-- CVT (R112) -/
  | cvt (f : F64) (m : CvtMod)
  /-- PK (R113) -/
  | pk (f : F32)
  /-- PK_64 (R113) -/
  | pk64 (f : F64)
  /-- UPK (R113) -/
  | upk (f : F32) (half : Nat)
  /-- UPK_64 (R113) -/
  | upk64 (f : F64) (half : Nat)
  /-- SWZ (R114) -/
  | swz (f : F32)
  /-- SWZ_64 (R114) -/
  | swz64 (f : F64)
  /-- BCS (R115) -/
  | bcs (f : F32)
  /-- BCS_64 (R115) -/
  | bcs64 (f : F64) (deposit : Bool)
  /-- RNG (R116) -/
  | rng (f : F32)
  /-- RNG_64 (R116) -/
  | rng64 (f : F64)
  /-- QNT (R117) -/
  | qnt (f : F64) (m : CvtMod) (scale : Bool)
  /-- DQN (R118) -/
  | dqn (f : F64) (m : CvtMod) (band : Bool)
  /-- XSH (R164) -/
  | xsh (f : F32)
  /-- XSH_64 (R164) -/
  | xsh64 (f : F64)
  /-- XPUSH (R165) -/
  | xpush (f : F32)
  /-- XPUSH_64 (R165) -/
  | xpush64 (f : F64)
  /-- XBC (R164) -/
  | xbc (f : F64) (lane sub : Nat)
  /-- XROT (R164) -/
  | xrot (f : F32) (n : Int)
  /-- XROT_64 (R164) -/
  | xrot64 (f : F64) (n : Nat)
  /-- VOTE (R167) -/
  | vote (m : VoteMode) (f : F32)
  /-- VOTE_64 (R167) -/
  | vote64 (m : VoteMode) (f : F64)
  /-- XRED (R168) -/
  | xred (op : RedOp) (f : F32)
  /-- XRED_64 (R168) -/
  | xred64 (op : RedOp) (f : F64)
  /-- XSCAN (R168) -/
  | xscan (op : RedOp) (f : F32)
  /-- XSCAN_64 (R168) -/
  | xscan64 (op : RedOp) (f : F64)
  /-- XMATCH (R166) -/
  | xmatch (f : F32)
  /-- XMATCH_64 (R166) -/
  | xmatch64 (f : F64)
  /-- LD (R230) -/
  | ld (f : F32) (off : Int)
  /-- LD_64 (R230) -/
  | ld64 (f : F64) (m : MemMod)
  /-- LD_64I (R230) -/
  | ld64i (f : F64I)
  /-- ST (R230) -/
  | st (f : F32) (off : Int)
  /-- ST_64 (R230) -/
  | st64 (f : F64S) (m : MemMod)
  /-- ST_64I (R230) -/
  | st64i (f : F64IS)
  /-- LDS (R235) -/
  | lds (f : F32) (off : Int)
  /-- LDS_64 (R235) -/
  | lds64 (f : F64) (shift : Nat)
  /-- LDS_64I (R235) -/
  | lds64i (f : F64I)
  /-- STS (R235) -/
  | sts (f : F32) (off : Int)
  /-- STS_64 (R235) -/
  | sts64 (f : F64S) (shift : Nat)
  /-- STS_64I (R235) -/
  | sts64i (f : F64IS)
  /-- LDX (R237) -/
  | ldx (f : F64)
  /-- LDX_64I (R237) -/
  | ldx64i (f : F64I)
  /-- STX (R238) -/
  | stx (f : F64S) (wscale : Bool)
  /-- STX_64I (R238) -/
  | stx64i (f : F64IS)
  /-- ATOM (R239) -/
  | atom (f : F64) (op : AtomOp) (fl : Flavour) (off : Int)
  /-- ATOMX (R244) -/
  | atomx (f : F64) (rdclr : Bool) (fl : Flavour) (off : Int)
  /-- STASH (R245) -/
  | stash (f : F64S)
  /-- PREF (R246) -/
  | pref (f : F32) (off : Int)
  /-- PREF_64 (R246) -/
  | pref64 (f : F64) (shift : Nat) (target : PrefTarget)
  /-- PREF_64I (R246) -/
  | pref64i (f : F64I)
  /-- CPOUT (R249) -/
  | cpout (f : F64)
  /-- CSEAL (R251) -/
  | cseal (n : Nat)
  /-- CWAIT (R251) -/
  | cwait (n : Nat)
  /-- WAITV (R174) -/
  | waitv (f : F64) (c : Cond)
  /-- PHASE_PUB (R247) -/
  | phasePub
  /-- PHASE_ACQ (R247) -/
  | phaseAcq
  /-- PHASE_AR (R247) -/
  | phaseAr
  /-- FENCE_LD (R248) -/
  | fenceLd
  /-- FENCE_IO (R248) -/
  | fenceIo
  /-- FENCE_SP (R248) -/
  | fenceSp
  /-- BR (R124) -/
  | br (off : Int)
  /-- BR_64I (R124) -/
  | br64i (off : Int)
  /-- BRX (R124) -/
  | brx (a : Src)
  /-- BRX_64 (R124) -/
  | brx64 (a : Src) (guard : Option Guard)
  /-- CALL (R124) -/
  | call (link : Dst) (off : Int)
  /-- RET (R124) -/
  | ret (a : Src)
  /-- RET_64 (R124) -/
  | ret64 (a : Src) (guard : Option Guard)
  /-- REFORM (R160) -/
  | reform
  /-- REFORM_ALL (R160) -/
  | reformAll
  /-- EXIT (R125) -/
  | exit
  /-- EXIT_64 (R125) -/
  | exit64 (guard : Option Guard)
  /-- BRK (R126) -/
  | brk (n : Nat)
  /-- TRAP (R126) -/
  | trap (b : Src)
  /-- TRAP_64I (R126) -/
  | trap64i (code : Nat)
  /-- NOP (R127) -/
  | nop
  /-- PMARK (R127) -/
  | pmark (b : Src)
  /-- PMARK_64I (R127) -/
  | pmark64i (code : Nat)
  /-- KADD (R128) -/
  | kadd (f : F32)
  /-- KADD_64 (R128) -/
  | kadd64 (f : F64)
  /-- KADD_64I (R128) -/
  | kadd64i (f : F64I)
  /-- KSUB (R128) -/
  | ksub (f : F32)
  /-- KSUB_64 (R128) -/
  | ksub64 (f : F64)
  /-- KSUB_64I (R128) -/
  | ksub64i (f : F64I)
  /-- KMUL (R128) -/
  | kmul (f : F32)
  /-- KMUL_64 (R128) -/
  | kmul64 (f : F64)
  /-- KMUL_64I (R128) -/
  | kmul64i (f : F64I)
  /-- KMAD (R128) -/
  | kmad (f : F64)
  /-- KDIV (R129) -/
  | kdiv (f : F32)
  /-- KDIV_64 (R129) -/
  | kdiv64 (f : F64)
  /-- KDIV_64I (R129) -/
  | kdiv64i (f : F64I)
  /-- KMIN (R128) -/
  | kmin (f : F32)
  /-- KMIN_64 (R128) -/
  | kmin64 (f : F64)
  /-- KMIN_64I (R128) -/
  | kmin64i (f : F64I)
  /-- KMAX (R128) -/
  | kmax (f : F32)
  /-- KMAX_64 (R128) -/
  | kmax64 (f : F64)
  /-- KMAX_64I (R128) -/
  | kmax64i (f : F64I)
  /-- KAND (R128) -/
  | kand (f : F32)
  /-- KAND_64 (R128) -/
  | kand64 (f : F64)
  /-- KAND_64I (R128) -/
  | kand64i (f : F64I)
  /-- KOR (R128) -/
  | kor (f : F32)
  /-- KOR_64 (R128) -/
  | kor64 (f : F64)
  /-- KOR_64I (R128) -/
  | kor64i (f : F64I)
  /-- KXOR (R128) -/
  | kxor (f : F32)
  /-- KXOR_64 (R128) -/
  | kxor64 (f : F64)
  /-- KXOR_64I (R128) -/
  | kxor64i (f : F64I)
  /-- KSHL (R128) -/
  | kshl (f : F32)
  /-- KSHL_64 (R128) -/
  | kshl64 (f : F64)
  /-- KSHL_64I (R128) -/
  | kshl64i (f : F64I)
  /-- KSHR (R128) -/
  | kshr (f : F32)
  /-- KSHR_64 (R128) -/
  | kshr64 (f : F64)
  /-- KSHR_64I (R128) -/
  | kshr64i (f : F64I)
  /-- KSAR (R128) -/
  | ksar (f : F32)
  /-- KSAR_64 (R128) -/
  | ksar64 (f : F64)
  /-- KSAR_64I (R128) -/
  | ksar64i (f : F64I)
  /-- KCMP (R130) -/
  | kcmp (f : F64) (c : Cond)
  /-- KSEL (R130) -/
  | ksel (f : F64)
  /-- KMOV (R128) -/
  | kmov (f : F32)
  /-- KMOV_64 (R128) -/
  | kmov64 (f : F64)
  /-- KMOV_64I (R128) -/
  | kmov64i (f : F64I)
  /-- KCLZ (R128) -/
  | kclz (f : F32)
  /-- KCLZ_64 (R128) -/
  | kclz64 (f : F64)
  /-- KPOPC (R128) -/
  | kpopc (f : F32)
  /-- KPOPC_64 (R128) -/
  | kpopc64 (f : F64)
  /-- KBFX (R128) -/
  | kbfx (f : F64) (start len : Nat)
  /-- KBFI (R128) -/
  | kbfi (f : F64) (start len : Nat)
  /-- KLEA (R128) -/
  | klea (f : F32)
  /-- KLEA_64 (R128) -/
  | klea64 (f : F64) (shift : Nat)
  /-- KLEA_64I (R128) -/
  | klea64i (f : F64I)
  /-- KLD (R131) -/
  | kld (f : F32) (off : Int)
  /-- KLD_64 (R131) -/
  | kld64 (f : F64) (m : MemMod)
  /-- KLD_64I (R131) -/
  | kld64i (f : F64I)
  /-- KST (R131) -/
  | kst (f : F32) (off : Int)
  /-- KST_64 (R131) -/
  | kst64 (f : F64S) (m : MemMod)
  /-- KST_64I (R131) -/
  | kst64i (f : F64IS)
  /-- KATOM (R243) -/
  | katom (f : F64) (op : AtomOp) (fl : Flavour) (off : Int)
  /-- UBR (R132) -/
  | ubr (off : Int)
  /-- UBR_64I (R132) -/
  | ubr64i (sense : BrSense) (a : Src) (off : Int)
  /-- UBRX (R132) -/
  | ubrx (a : Src)
  /-- UBRX_64 (R132) -/
  | ubrx64 (a : Src)
  /-- UCALL (R132) -/
  | ucall (link : Dst) (off : Int)
  /-- URET (R132) -/
  | uret (a : Src)
  /-- URET_64 (R132) -/
  | uret64 (a : Src)
  /-- UEXIT (R132) -/
  | uexit
  /-- UEXIT_64 (R132) -/
  | uexit64
  /-- LAUNCH (R175) -/
  | launch (d : Dst) (a : Src) (held : Bool) (guard : Option Guard)
  /-- RCBRD (R176) -/
  | rcbrd (d : Dst) (a : Src) (word : Nat) (guard : Option Guard)
  /-- BARINIT (R171) -/
  | barinit (members : Src) (n : Nat)
  /-- BARINIT_64 (R171) -/
  | barinit64 (members bytes : Src) (n : Nat) (guard : Option Guard)
  /-- BARRIVE (R171) -/
  | barrive (d : Dst) (bytes : Src) (n : Nat)
  /-- BARRIVE_64 (R171) -/
  | barrive64 (d : Dst) (bytes : Src) (n : Nat) (pub : Bool) (guard : Option Guard)
  /-- BARWAIT (R171) -/
  | barwait (token : Src) (n : Nat)
  /-- BARTEST (R171) -/
  | bartest (d : Dst) (n : Nat)
  /-- CINCH (R173) -/
  | cinch (line : Nat)
  /-- CINCHCFG (R172) -/
  | cinchcfg (d : Dst) (mask : Option Nat) (t : Src) (line : Nat) (guard : Option Guard)
  /-- CINCHCFG_UNBIND (R172) -/
  | cinchcfgUnbind (d : Dst) (line : Nat) (guard : Option Guard)
  /-- CPSLICE (R262) -/
  | cpslice (tlr : Src) (origin : Nat) (off : Src) (bar slice count : Nat)
  /-- BINCT (R271) -/
  | binct (set bin : Src) (guard : Option Guard)
  /-- BINPATCH (R274) -/
  | binpatch (d : Dst) (target bin mult : Src) (field : PatchField) (index : Nat) (guard : Option Guard)
  /-- BINREL (R275) -/
  | binrel (target : Src) (guard : Option Guard)
  /-- BINREL_CLEAR (R275) -/
  | binrelClear (set : Src) (guard : Option Guard)
  /-- MSTART (R279) -/
  | mstart (d : Dst)
  /-- BLOAD (R291) -/
  | bload (desc cim : Nat)
  /-- MMA (R292) -/
  | mma (desc kb nb cim tile : Nat)
  /-- MZERO (R294) -/
  | mzero (tile count : Nat)
  /-- MDRAIN_ST (R295) -/
  | mdrainSt (desc tile : Nat)
  /-- MDRAIN_ADD (R296) -/
  | mdrainAdd (desc alpha tile : Nat)
  /-- MDRAIN_PEER (R297) -/
  | mdrainPeer (target tile : Nat)
  /-- MEXPECT (R298) -/
  | mexpect (list tile bar sources : Nat)
  /-- ROWSTAT (R301) -/
  | rowstat (x block tile bar : Nat)
  /-- ROWEXP (R302) -/
  | rowexp (desc scale tile : Nat)
  /-- MPIN (R303) -/
  | mpin (d : Dst) (key tile : Nat)
  /-- MUNPIN (R303) -/
  | munpin (tile : Nat)
  /-- MREFILL (R304) -/
  | mrefill (addr tile count : Nat)
  /-- MSPILL (R304) -/
  | mspill (addr tile count : Nat)
  /-- MMODE (R290) -/
  | mmode (rnd flush : Nat)
  /-- FPUT (R362) -/
  | fput (d : Dst) (dst src count : Nat)
  /-- FGET (R362) -/
  | fget (d : Dst) (dst src count : Nat)
  /-- FSEND (R363) -/
  | fsend (msg endpoint : Nat)
  /-- FRECV (R364) -/
  | frecv (msg channel : Nat)
  /-- FCOMP (R372) -/
  | fcomp (d : Dst) (ctl src dst : Nat)
  /-- FDECOMP (R373) -/
  | fdecomp (d : Dst) (ctl src dst : Nat)
  /-- FDAR (R374) -/
  | fdar (d : Dst) (ctl src dst : Nat)
  /-- FDAR_LAST (R374) -/
  | fdarLast (d : Dst) (ctl src dst : Nat)
  /-- FWAIT (R367) -/
  | fwait (d : Dst) (bar : Nat)
  /-- FSIG (R366) -/
  | fsig (bar : Nat) (amount : Src)
  /-- FSLOT (R380) -/
  | fslot (res config timeout : Nat) (bitmap : Option Nat)
  /-- FRED (R381) -/
  | fred (value root index : Nat)
  /-- FCKPT (R377) -/
  | fckpt (d : Dst) (cld area hop : Nat)
  /-- FREST (R378) -/
  | frest (d : Dst) (cld area : Nat)
  /-- TTPOST (R408) -/
  | ttpost (mb count : Src) (free prev : Bool) (guard : Option Guard)
  /-- TTWAIT_RDY (R409) -/
  | ttwaitRdy (d : Dst) (cond threshold timeout : Src) (guard : Option Guard)
  /-- TTWAIT_CR (R409) -/
  | ttwaitCr (d : Dst) (cond threshold timeout : Src) (guard : Option Guard)
  /-- TTWAIT_DONE (R409) -/
  | ttwaitDone (d : Dst) (cond timeout : Src) (guard : Option Guard)
  /-- TTWAIT_RD (R409) -/
  | ttwaitRd (d : Dst) (index : Src) (guard : Option Guard)
  /-- BELL (R385) -/
  | bell (a : Src)
  /-- LCRBIN (R343) -/
  | lcrbin (d : Dst) (range cls : Nat) (guard : Option Guard)
  /-- DWRD (R328) -/
  | dwrd (d handle : Nat) (index : Src) (space : Nat)
  /-- DWWR (R328) -/
  | dwwr (handle : Nat) (index : Src) (value space : Nat)
  /-- GRESUME_CONT (R329) -/
  | gresumeCont (handle : Nat) (level : StopLevel)
  /-- GRESUME_REEXEC (R329) -/
  | gresumeReexec (handle : Nat) (level : StopLevel)
  /-- GRESUME_STEP (R329) -/
  | gresumeStep (handle : Nat) (level : StopLevel)
  /-- GKILL (R330) -/
  | gkill (handle code : Nat) (faulted : Bool)
  /-- TLBI (R331) -/
  | tlbi (mode : TlbiMode) (va asid count : Nat)
  /-- CSRRD (R332) -/
  | csrrd (d addr : Nat)
  /-- CSRWR (R332) -/
  | csrwr (value addr : Nat)
  /-- ERET (R333) -/
  | eret
  /-- TTWAIT_TIMEOUT (R409) -/
  | ttwaitTimeout (op : Nat)
  /-- IDLE_LANE_CYCLES (R342) -/
  | idleLaneCycles (core part : Nat)
deriving DecidableEq, Repr

end Sys2Proof
end

