-- ==== Sys2Proof/Machine/State.lean ====
section
/-!
DEFINITION. The state of one DZ-940 package, everything the spec gives it: threads and groups, workgroups and regions, every
level of memory, the engines, the control cores, fabric processors, Bell and Timetable, the host's registers and queues.
State is plain data. Fields marked as the model's own hold no hardware state.
-/
namespace Sys2Proof.Machine

/-- A map held as a list: keys strictly rising, and no entry equal to what an unlisted key reads as (each field says what
that is). -/
abbrev Sparse (α : Type) := List (Nat × α)

/-- The executors (R37): an issue group by its number, the stream of a workgroup, a fabric processor, a cluster control
core. -/
inductive UnitId where
  | group (g : Nat)
  | stream (wg : Nat)
  | fabric (n : Nat)
  | control (n : Nat)
deriving DecidableEq, Repr, Inhabited

/-- The word being performed: its executor, the address of the instruction's first word, its counted words, and the fields
of its prefix (R71). -/
structure Turn where
  unit  : UnitId
  pc    : Nat
  words : Nat
  pfx   : Option PrefixFields
deriving DecidableEq, Repr

/-- What the next step performs: a word of a unit, or one of the device's own steps (a constructor of `Instr` without an
encoding). -/
inductive Act where
  | unit (u : UnitId)
  | event (i : Instr)
deriving DecidableEq, Repr, Inhabited

/-- A register of a thread that a result can still be settling in (R27, R28). -/
inductive Reg where
  | x (n : Nat) | p (n : Nat)
deriving DecidableEq, Repr

/-- A value of the o or l file, usable from clk `ready` (R23, R24). -/
structure RunVal where
  val   : W64
  ready : Nat
deriving DecidableEq, Repr

/-- A fixed-latency result that settles at clk `ready`; until then a read outside its run may return `old` (R28). -/
structure Settling where
  reg   : Reg
  old   : W64
  ready : Nat
deriving DecidableEq, Repr

/-- A thread parked by `waitv` (R174); `read` is the clk of its last read. -/
structure WaitvPark where
  va       : Nat
  width    : Nat
  signed   : Bool
  cond     : Cond
  operand  : W64
  timeout  : Nat
  since    : Nat
  read     : Nat
  lastRead : Option W64
  dst      : Nat
  op       : Nat
deriving DecidableEq, Repr

/-- Where a thread stands (R147, R149). -/
inductive Place where
  | group (g : Nat)
  | bin
  | barwait (bar : Nat) (token : Bool)
  | cinch (line : Nat) (counted : Bool) (gate : Nat)
  | waitv (w : WaitvPark)
  | exited
deriving DecidableEq, Repr

/-- One thread (Table 1.1). `x`, `p` and `flags` read 0 where unlisted; `flags` holds each completion flag's pending count
(R30), a flag is set when its count is 0, and `setAt` is the clk at which it last became set (R31). `settling` holds results of this run, `stale` those of earlier runs.
`regions` and `retired` are `%rec` and `%ret` (R18), `lastR` the latest R header with the two counters before it (R335); `next` is the header
due, `trailer` the clk of the last trailer (R27). `gates` are boundaries and operations that its later accesses wait for, `waits` those
that its later loads alone wait for (R214, R215); `fences` the places in local order of its `fence.io`s, `spFence` the copies whose sources
its later `sts` wait for (R248); `unsealed` its copies not yet sealed, `batches` the sealed ones with their batch
(R251), `upsets` its registers with an uncorrectable error (R339). -/
structure Thread where
  tid      : Nat
  x        : Sparse W64
  p        : Sparse Byte
  o        : Sparse RunVal
  l        : List RunVal
  flags    : Sparse Nat
  setAt    : Sparse Nat
  regions  : W32
  retired  : W64
  mode     : W32
  place    : Place
  next     : Nat
  lastR    : Nat
  regionsR : W32
  retiredR : W64
  settling : List Settling
  stale    : List Settling
  trailer  : Nat
  gates    : List Nat
  waits    : List Nat
  fences   : List Nat
  spFence  : List Nat
  unsealed : List Nat
  batches  : List (Nat × Nat)
  upsets   : List Reg
deriving DecidableEq, Repr

/-- A place on a core, in what a workgroup holds, with an uncorrectable error (R339): a k register, a scratchpad byte, an accumulator
element or a macro cell by its index in the debug window (Table 13.7), the saved context. -/
inductive Upset where
  | k (n : Nat) | scr (off : Nat) | acc (i : Nat) | cell (i : Nat) | context
deriving DecidableEq, Repr

/-- Where an uncorrectable error arises (R339): HBM4E or a dirty line of the LLC, a thread's or a stream's register, what a workgroup
holds. -/
inductive Strike where
  | memory (pa : Nat) (llc : Bool)
  | thread (wg tid : Nat) (r : Reg)
  | stream (wg n : Nat)
  | workgroup (wg : Nat) (u : Upset)
deriving DecidableEq, Repr

/-- A barrier register (Table 6.4). -/
structure Barrier where
  gen  : Bool
  exp  : Nat
  arr  : Nat
  expb : Nat
  arrb : Nat
deriving DecidableEq, Repr

/-- A single step granted by `gresume` to what a stop still holds: a stream, a fabric processor or a copy engine for a job, under a Bell
(Table 16.6), or the first group drawn that holds a thread (R329). -/
inductive Grant where
  | stream (wg : Nat)
  | fabric (n : Nat)
  | engine (e job : Nat)
  | thread (wg tid : Nat)
deriving DecidableEq, Repr

/-- The reason of a stop, with what its event reports (Table 13.1, Table 13.2): cause, subcause, detail and code, whether a continue and
a re-execution are open (EVT0), the recorded pc and address, the lanes, the thread, and the clk. -/
structure Stop where
  cause   : Nat
  sub     : Nat
  detail  : Nat
  code    : Nat
  cont    : Bool
  reexec  : Bool
  pc      : Nat
  addr    : Nat
  lanes   : List Nat
  tid     : Nat
  clk     : Nat
deriving DecidableEq, Repr

/-- What the end of a run does to its threads (R33, R149): per-lane next headers of a branch, ended lanes, or a park. -/
inductive Tail where
  | fall
  | branch (targets : List (Nat × Nat))
  | exit (lanes : List Nat)
  | reform (all : Bool)
  | barwait (bar : Nat) (token : Bool)
  | cinch (line : Nat)
  | waitv (parks : List (Nat × WaitvPark))
deriving DecidableEq, Repr

/-- A run in progress (R21, R22): header address and clk, next word, counted words left, a prefix waiting for its word
(its address and word), the long-latency operations of each ordinal, and the end of the run. -/
structure Run where
  header   : Nat
  clk      : Nat
  pc       : Nat
  left     : Nat
  pfx      : Option (Nat × Nat)
  ordinals : List (List Nat)
  tail     : Tail
deriving DecidableEq, Repr

/-- An issue group (R147, R152): a candidate when `run` is none. `parked` is the end kind 01 of its last trailer; `step`
names the thread of a single step (R329), `skipWatch` that watchpoints were checked for its next word (R325), `filing`
that a step's trailer still has to file its threads, `held` the clks of its wait that R154 does not count (R323), `parkFault` that a
fault found while its threads were parked formed it, `go` that a continue at group level released it from a freeze in force (R329). -/
structure Group where
  id        : Nat
  wg        : Nat
  block     : Nat
  lanes     : List Nat
  pc        : Nat
  run       : Option Run
  since     : Nat
  parked    : Bool
  lifted    : Bool
  stop      : Option Stop
  step      : Option Nat
  skipWatch : Bool
  filing    : Option Tail
  held      : Nat
  parkFault : Bool
  go        : Bool
deriving DecidableEq, Repr

/-- A homeroom bin in use (R148); `held` counts clks of freezes since its filing, which do not age it (R323). -/
structure Bin where
  core  : Nat
  part  : Nat
  index : Nat
  wg    : Nat
  block : Nat
  pc    : Nat
  lanes : List Nat
  filed : Nat
  last  : Nat
  all   : Bool
  held  : Nat
deriving DecidableEq, Repr

/-- What a partition keeps besides its groups and bins: the clk of its last issue, the group whose run is in progress, the clk
from which a freeze of it holds, the clk up to which its lane-cycles are counted, and its lane-cycle counters (16 × 5, R342;
unlisted 0). -/
structure Partition where
  lastIssue : Nat
  busy      : Option Nat
  frozen    : Option Nat
  counted   : Nat
  lcc       : Sparse W64
deriving DecidableEq, Repr

/-- A write of a k register still settling (R15, R27): `own` is the group whose run in progress made it, `part` and `clk`
where and when it issued. -/
structure KSettling where
  k     : Nat
  old   : W64
  ready : Nat
  own   : Option Nat
  part  : Nat
  clk   : Nat
deriving DecidableEq, Repr

/-- One lane's or one word's access of an atomic: thread, address, operand and comparand. -/
structure AtomLane where
  tid : Nat
  va  : Nat
  b   : W64
  c   : W64
deriving DecidableEq, Repr

/-- The rounding, saturation and flush settings an instruction sampled (R20), with the k registers of RSR (R50). -/
structure FpMode where
  rnd  : Rnd
  sat  : Sat
  mode : W32
  fzi  : Bool
  fzo  : Bool
  seed : W64
  tid  : W32
  coord : W64
deriving DecidableEq, Repr

/-- What a long-latency operation does when it completes. -/
inductive LongKind where
  /-- A result formed at issue (R108, R109), written where the guard is on. -/
  | value (v : W64) (mask : Byte) (shape : Shape)
  /-- `ld` of one lane, `kld` of a unit (R119, R131). -/
  | load (va width : Nat) (signed : Bool) (nol1 : Bool)
  /-- `lds` of one lane (R235), with the bytes that stood at its place in local order. -/
  | lds (off width : Nat) (signed : Bool) (v : Nat)
  /-- `ldx` of one lane (R237). -/
  | ldx (va : Nat) (index : W64) (shape : Shape) (kind : Kind) (fp : FpMode) (mask : Byte)
  /-- `atom` and `katom` (R239), all lanes. -/
  | atom (op : AtomOp) (shape : Shape) (kind : Kind) (fl : Flavour) (lanes : List AtomLane)
  /-- `atomx` (R244), all lanes. -/
  | atomx (clear : Bool) (shape : Shape) (fl : Flavour) (lanes : List AtomLane)
  /-- `waitv` of one parked thread: it completes at its release. -/
  | waitv
  /-- `launch` (R175). -/
  | launch (va : Nat)
  /-- `rcbrd` (R176). -/
  | rcbrd (va word : Nat)
  /-- `binpatch` (R274). -/
  | binpatch (target : Nat) (b c : W64) (field : PatchField) (index : Nat)
  /-- `ttwait` (R409): selector, condition operand, threshold, timeout, and the latest R header of each thread with the
  counters before it (R410). -/
  | ttwait (sel : Nat) (cond : W64) (threshold : W64) (timeout : Nat) (back : List (Nat × Nat × W32 × W64))
  /-- `cwait` of one thread (R251): it completes once the copies it names have been performed. -/
  | cwait (copies : List Nat)
deriving DecidableEq, Repr

/-- A long-latency operation in flight (R28, R30). `tids` are the threads whose destination it writes, `dropped` those whose
destination a later write took (R29), `present` those whose flags it counts towards, `after` the boundaries and operations
it waits for, `sent` that it waits for another package, `got` results already taken per thread, or the bytes had from another package by
virtual address; `own` what its core's store path held when another package was asked: address, value, bits (R212). `held` results wait for a
freeze to end; `checked` that every check that can raise a resumable fault has passed (R317). -/
structure LongOp where
  id      : Nat
  seq     : Nat
  issuer  : UnitId
  wg      : Nat
  core    : Nat
  job     : Nat
  pc      : Nat
  kind    : LongKind
  dst     : Dst
  tids    : List Nat
  dropped : List Nat
  present : List Nat
  flags   : List Nat
  after   : List Nat
  issued  : Nat
  sent    : Bool
  got     : List (Nat × W64)
  own     : List (Nat × Byte × Byte)
  held    : Option W64
  checked : Bool
deriving DecidableEq, Repr

/-- Where a store of the store path lands (Table 9.2). -/
inductive PathDest where
  | home
  | core
  | host
  | package (pkg : Nat)
  | cell (pa width : Nat)
deriving DecidableEq, Repr

/-- A byte that a store writes (R234): its physical address, its value under `mask`, the bits that the store writes, and the threads that
wrote them. -/
structure PathByte where
  pa   : Nat
  val  : Byte
  mask : Byte
  tids : List Nat
deriving DecidableEq, Repr

/-- One 32-byte sector of one store in a core's store path (R216), in local order by `seq`. A host store stays in the path once it is
posted, `sent`, until the host acknowledges it (R248). `exr` is the element width of a store to a
cell of another package; `va` and `pc` are the virtual address of the first byte and the address of the instruction; `stepped` a store
of a single step under a Bell, which the freeze does not hold back (R395). -/
structure PathStore where
  seq    : Nat
  core   : Nat
  wg     : Nat
  tids   : List Nat
  job    : Nat
  dest   : PathDest
  bytes  : List PathByte
  after  : List Nat
  sent   : Bool
  tag    : Nat
  exr    : Option Nat
  va     : Nat
  pc     : Nat
  stepped : Bool
deriving DecidableEq, Repr

/-- What follows the completion of a publishing boundary (Table 8.1): `arrive` is the arrival of a `barrive` with the publish bit: its
barrier register, members and bytes (R171). -/
inductive AfterBoundary where
  | nothing
  | refresh
  | cinch (line : Nat)
  | exit
  | save
  | arrive (bar members bytes : Nat)
deriving DecidableEq, Repr

/-- A publishing boundary that has not completed: every store of `core` before `limit` must have landed (R215), and what `after` names
must be over. An acquiring phase is one that publishes nothing: its limit is 0 (R247). -/
structure Boundary where
  id    : Nat
  core  : Nat
  wg    : Nat
  tids  : List Nat
  limit : Nat
  after : List Nat
  next  : AfterBoundary
deriving DecidableEq, Repr

/-- A byte held by an L1 (R191, R192): `coreScope` bytes are written back, others are a snapshot; a dirty one was stored by `wg`. -/
structure L1Byte where
  val       : Byte
  coreScope : Bool
  dirty     : Bool
  job       : Nat
  wg        : Nat
deriving DecidableEq, Repr

/-- A TLB entry of a cluster's translation unit (R190): the walked entry and what it covers. -/
structure TlbEntry where
  cluster : Nat
  asid    : Nat
  vpn     : Nat
  block   : Bool
  entry   : Nat
deriving DecidableEq, Repr

/-- A chunk record (Table 7.7). -/
structure ChunkRec where
  fresh   : W64
  version : W32
  owner   : Nat
  frame   : Nat
  stack   : Nat
  mig     : Bool
  exr     : Bool
  die     : Bool
  pin     : Bool
deriving DecidableEq, Repr

/-- A migration in progress (R202). -/
structure Migration where
  chunk   : Nat
  partner : Nat
deriving DecidableEq, Repr

/-- An LLC range register (Table 7.6), in its two halves. -/
structure LRange where
  lo    : W64
  hi    : W64
deriving DecidableEq, Repr

/-- A watchpoint (Table 13.5). -/
structure Watchpoint where
  base  : W64
  limit : W64
  ctl   : W64
  count : W64
deriving DecidableEq, Repr

/-- An event record (Table 13.2), the core and partition it is ordered by (4 for a stream), and the clk of its entry. -/
structure EventRec where
  words : List W64
  core  : Nat
  part  : Nat
  clk   : Nat
deriving DecidableEq, Repr

/-- A cluster control core (R318, R320, Table 13.8). `watch` is the clk at which handling began. -/
structure Control where
  k         : Sparse W64
  pc        : Nat
  last      : Nat
  current   : Option EventRec
  queue     : List EventRec
  ccvec     : W64
  dwstat    : W64
  assistcnt : W64
  ccwdog    : W64
  watch     : Nat
  retried   : Bool
  trapped   : Bool
deriving DecidableEq, Repr

/-- Registers of one core that a control core reaches (Table 13.8): 16 lane-cycle ranges and the trace ring. `trused` counts
the bytes recorded since the last write to TRSIZE or TRBASE. -/
structure CoreRegs where
  lcbase : List W64
  lclim  : List W64
  trctl  : W64
  trbase : W64
  trsize : W64
  trhead : W64
  trdrop : W64
  trused : W64
deriving DecidableEq, Repr

/-- A cinch line (R156, R172, R173): bound region, explicit core mask, expected count, threads counted in this phase, the
clk of the arrival that completed it, and arrivals that wait for the line to be bound. -/
structure CinchLine where
  region  : Option Nat
  mask    : Option (List Nat)
  expect  : Nat
  arrived : List (Nat × Nat)
  full    : Option Nat
deriving DecidableEq, Repr

/-- An AX40 value (R41). -/
abbrev Ax40 := BitVec 40

/-- How far a bulk copy has come (R263, R264, R272): slices missing, all slices there and its start due, held, active. -/
inductive CopyStage where
  | filling | ready | awaiting | held | active
deriving DecidableEq, Repr

/-- A copy of an engine: a bulk copy (`cpslice`) or a thread's copy (`cpout`). -/
inductive CopyKind where
  /-- R262 to R265: barrier register, slice count, slices arrived, TLR address, origin, scratchpad offset; the TLR's words
  once read, with any patched boxes. `raiser` is the thread and word of the last slice. -/
  | bulk (bar slices : Nat) (arrived : List Nat) (tlr : Nat) (origin : List Int) (off : Nat) (words : List W64)
      (stage : CopyStage) (raiser : Nat × Nat)
  /-- R249 to R252: thread, destination, scratchpad offset, bytes, batch once sealed, the source bytes read so far, the destination lines
  performed, and a fault found (address, subcause). -/
  | out (tid dst off bytes : Nat) (batch : Option Nat) (source : List (Option Byte)) (lines : List Nat) (fault : Option (Nat × Nat))
deriving DecidableEq, Repr

/-- A copy: its number in order of arrival, workgroup, region, job, the destination line due or on its way, its number in local order, the
boundaries it waits for, whether it waits for another package, and the bytes already had from there, by virtual address. -/
structure Copy where
  id     : Nat
  wg     : Nat
  region : Nat
  job    : Nat
  kind   : CopyKind
  line   : Nat
  seq    : Nat
  after  : List Nat
  sent   : Bool
  got    : List (Nat × W64)
deriving DecidableEq, Repr

/-- A bin set (R270): owner job, counters (unlisted 0), DROP. A free set is not listed. -/
structure BinSet where
  owner  : Nat
  counts : Sparse Nat
  drop   : Nat
deriving DecidableEq, Repr

/-- Tags of a macro (R276). -/
inductive MacroTag where
  | e4mx | e5mx | fp4 | bfHigh | bfLow
deriving DecidableEq, Repr

/-- A CIM macro (R276): cells at 64k + n (unlisted 0), block scales at 8n + q (unlisted 0x7F), band scale. -/
structure CimMacro where
  tag    : MacroTag
  cells  : Sparse Byte
  scales : Sparse Byte
  band   : BitVec 16
deriving DecidableEq, Repr

/-- A macro at workgroup start (R276). -/
def CimMacro.reset : CimMacro := { tag := .e4mx, cells := [], scales := [], band := 0x3F80 }

/-- A matrix instruction in a stream's queue (Table 11.3), with the fields of its row. -/
inductive MatrixWork where
  | bload (desc cim : Nat)
  | mma (desc kb nb cim tile : Nat)
  | mzero (tile count : Nat)
  | drainSt (desc tile : Nat)
  | drainAdd (desc alpha tile : Nat)
  | drainPeer (target tile : Nat)
  | expect (list tile bar sources : Nat)
  | rowstat (x block tile bar : Nat)
  | rowexp (desc scale tile : Nat)
  | pin (d : Dst) (key tile : Nat)
  | unpin (tile : Nat)
  | refill (addr tile count : Nat)
  | spill (addr tile count : Nat)
  | mode (rnd flush : Nat)
deriving DecidableEq, Repr

/-- A queued matrix instruction (R280, R307): its address, the k registers it read and the modes it sampled (rounding code, flush
bits), its next step, and bytes had from another package, by virtual address. -/
structure MatrixOp where
  instr : MatrixWork
  pc    : Nat
  regs  : List W64
  rnd   : Nat
  flush : Nat
  step  : Nat
  got   : List (Nat × W64)
deriving DecidableEq, Repr

/-- A contribution of `mdrain.peer` (R297): leaf, sender, receiver, tile, values (unlisted +0). -/
structure Contribution where
  region : Nat
  src    : Nat
  dst    : Nat
  tile   : Nat
  vals   : Sparse Ax40
deriving DecidableEq, Repr

/-- An open receive list (R298), with the modes that its `mexpect` sampled (R52). -/
structure ReceiveList where
  tile    : Nat
  sources : List Nat
  pos     : Nat
  bar     : Nat
  rnd     : Nat
  flush   : Nat
deriving DecidableEq, Repr

/-- The stream's progress (R279). -/
inductive StreamStage where
  | idle | running | ended
deriving DecidableEq, Repr

/-- What a stalled stream waits for (R281). -/
inductive StreamWait where
  | bar (n : Nat) (token : Bool)
  | cinch (line : Nat)
deriving DecidableEq, Repr

/-- A row stopped for the subnormal assist (R306, R341): class, row, masked columns, the 64 results and 2 group scales. -/
structure Assist where
  cls    : Nat
  row    : Nat
  mask   : W64
  elems  : List W64
  scales : List W64
deriving DecidableEq, Repr

/-- A matrix stream (R278, R280, R308): k registers (unlisted 0), modes, queue, stop, wait, outbound slot, receive lists and buffer, assist
state, and its k registers with an uncorrectable error (R339). -/
structure Stream where
  stage    : StreamStage
  pc       : Nat
  last     : Nat
  k        : Sparse W64
  rnd      : Nat
  flush    : Nat
  queue    : List MatrixOp
  stop     : Option Stop
  wait     : Option StreamWait
  outbound : Option Contribution
  lists    : List ReceiveList
  buffered : List Contribution
  assist   : Option Assist
  upsets   : List Nat
deriving DecidableEq, Repr

/-- A pin (R303): node, key, the workgroup and tile it is attached to; a detached pin keeps its contents and, until it is
saved, its core's tile. -/
structure Pin where
  node     : Nat
  key      : Nat
  holder   : Option (Nat × Nat)
  core     : Option Nat
  contents : Sparse Ax40
deriving DecidableEq, Repr

/-- A workgroup's residence: on a core, stopping for pre-emption (R337), saving under a publishing boundary, or saved in the
context store. -/
inductive Residence where
  | resident | leaving
  | saving (boundary : Nat)
  | saved
deriving DecidableEq, Repr

/-- A workgroup (R141): region, linear id and coordinates, core, resident slot, order of start, threads, k registers
(unlisted 0), scratchpad bytes (unlisted 0), tiles at 4096t + 64r + n (unlisted +0), macros, barrier registers, stream. `diverged` are its
blocks that have taken the divergent-reform trap (R148, R150), `copyTurn` the clk of its copies' last turn (R170), `upsets` its places with an
uncorrectable error (R339). -/
structure Workgroup where
  id        : Nat
  region    : Nat
  w         : Nat
  core      : Nat
  slot      : Nat
  order     : Nat
  residence : Residence
  threads   : List Thread
  k         : Sparse W64
  ksettling : List KSettling
  scr       : Sparse Byte
  acc       : Sparse Ax40
  macros    : List CimMacro
  bars      : List Barrier
  stream    : Option Stream
  stopped   : Option Stop
  diverged  : List Nat
  copyTurn  : Nat
  upsets    : List Upset
deriving DecidableEq, Repr

/-- How a launch reached the device (Table 5.3), and where its outcome goes. -/
inductive LaunchSource where
  | queue (q : Nat)
  | instruction (op : Nat)
  | timetable (epoch : Nat) (k60 : W64)
deriving DecidableEq, Repr

/-- A launch waiting for acceptance (R138, R175). -/
structure PendingLaunch where
  source : LaunchSource
  job    : Nat
  va     : Nat
  held   : Bool
  core   : Nat
deriving DecidableEq, Repr

/-- A region the device holds (R134): the device's copy of its RCB's 32 words and of its parameter block, its parent, its
state (Table 5.6), the refusal fields of STATUS, its order of acceptance, the next workgroup never started, workgroups
ended, whether it waits, held, for `binrel`, whether an instruction launched it, and the entry word of a leaf of the Timetable (R403). -/
structure Region where
  id       : Nat
  job      : Nat
  va       : Nat
  words    : List W64
  params   : List W64
  parent   : Option Nat
  state    : Nat
  rref     : Nat
  lref     : Nat
  loff     : Nat
  live     : Bool
  order    : Nat
  nextW    : Nat
  ended    : Nat
  held     : Bool
  device   : Bool
  k60      : Option W64
deriving DecidableEq, Repr

/-- A request that a region give up cores (R336), and the cores already chosen; `asker` is the region for which the dispatcher
asks. -/
structure CoreRequest where
  region : Nat
  asker  : Option Nat
  cores  : Nat
  chosen : List Nat
deriving DecidableEq, Repr

/-- The first raise of a Bell on this package (Table 16.4). -/
structure RaiseRec where
  cause  : Nat
  unit   : Nat
  handle : Nat
  code   : Nat
  addr   : Nat
deriving DecidableEq, Repr

/-- A Bell that holds a job frozen here (R390): number, first local raise, merged raises, `%cyc` of the freeze, words 3 to 6 of the roll-call entry once it is written, the last resume stage begun and the last one completed. `since` is the
clk from which the job's groups have stood frozen. -/
structure BellFreeze where
  seq     : Nat
  raise   : Option RaiseRec
  nraise  : Nat
  cyc     : Nat
  since   : Nat
  entry   : List W64
  stage   : Nat
  shown   : Nat
deriving DecidableEq, Repr

/-- A job on this package (R430, R384, R386): its ASID, root table, RCB's region, BCB copy, the latest Bell number, the
freeze in force, and at the root the header's state and number (Table 16.5) with the entries written under it: RSTAGE + 1 by rank, unlisted 0,
and whether the header has been written since it last changed. -/
structure Job where
  id      : Nat
  asid    : Nat
  root    : Nat
  region  : Nat
  bcb     : Option (List W64)
  bseq    : Nat
  freeze  : Option BellFreeze
  hstate  : Nat
  hseq    : Nat
  roll    : Sparse Nat
  headed  : Bool
deriving DecidableEq, Repr

/-- A leaf launched by the Timetable (R402, R404): pass, entry, micro-batch, stash slots released at its end, its RCB's address, the region. -/
structure TtTask where
  pass   : Nat
  entry  : Nat
  mb     : Nat
  sd     : Int
  va     : Nat
  region : Option Nat
deriving DecidableEq, Repr

/-- The Timetable engine (R399 to R405). FRDY, BRDY and the micro-batches' runs of slots read 0 or none where unlisted;
`head` and `pass` name the head entry, `entry` its words once read, `counted` the clk up to which bubbles are counted, `changed` the clk of
the last change that the head's tests see from the next clk on (R402). `epoch` counts the starts (log 116). -/
structure Timetable where
  epoch   : Nat
  state   : Nat
  code    : Nat
  sub     : Nat
  job     : Nat
  tcb     : List W64
  head    : Nat
  pass    : Nat
  entry   : Option (W64 × W64)
  since   : Nat
  changed : Nat
  counted : Nat
  frdy    : Sparse Nat
  brdy    : Sparse Nat
  crf     : Nat
  crb     : Nat
  runs    : Sparse (Nat × Nat)
  drop    : Nat
  bup     : W64
  bdn     : W64
  bst     : W64
  tasks   : List TtTask
  held    : List TtMessage
deriving DecidableEq, Repr

/-- A packet taken from a submission queue (R428): its eight words and its place in the order of arrival. `started` marks one whose
operation has begun and waits. -/
structure QPacket where
  words   : List W64
  order   : Nat
  started : Bool
deriving DecidableEq, Repr

/-- A submission queue (Table 18.2) with the packet in hand and the rereads of a stale one (R429). -/
structure Queue where
  qbase   : W64
  qsize   : W64
  qkick   : W64
  qhead   : W64
  en      : Bool
  halt    : Bool
  err     : Nat
  qcbase  : W64
  qmsi    : W64
  done    : Nat
  packet  : Option QPacket
  reads   : Nat
  lastRead : Nat
deriving DecidableEq, Repr

/-- What leaves the package for the outside world: other packages, or the host. The model's record of it; nothing in the
package reads it. -/
inductive Outgoing where
  | bell (pkg : Nat) (b : BellPacket)
  | resume (pkg job seq stage : Nat)
  | timetable (pkg : Nat) (m : TtMessage)
  | message (pkg : Nat) (m : FabricMessage)
  | contribution (pkg : Nat) (c : RootContribution)
  | request (pkg : Nat) (r : PodRequest)
  | response (pkg : Nat) (r : PodResponse)
  | hostWrite (bytes : List (Nat × Byte))
  | hostAtomic (addr : Nat) (op : AtomOp) (width : Nat) (b c : Nat)
  | readback (bytes : List Byte)
  | msix (vector : Nat)
  | report (op : Nat) (value : W64) (detail : Nat)
deriving DecidableEq, Repr

/-- Host-side registers of BAR0 (Table 18.5) and the package's power and security state (R434 to R440). -/
structure HostRegs where
  bootstat : Nat
  bar2ctl  : W64
  powcap   : W64
  powmeas  : W64
  bar2err  : W64
  bar2map  : Sparse W64
  meas     : List Nat
  linked   : Bool
  alarmed  : Bool
  keyed    : Bool
  identity : Bool
  clock    : Nat
deriving DecidableEq, Repr

/-- A transfer in a fabric processor's queue (R359). -/
inductive TransferWork where
  | put | get | comp | decomp
  | dar (last : Bool)
  | ckpt | rest
deriving DecidableEq, Repr

/-- A queued transfer (R359, R361): its instruction, address, the k operands read, and its next step. Once begun it has its CLD's
words, whether its residuals start at +0 (R371), and the residual objects that a checkpoint names. `got` holds bytes had from another
package, by virtual address; `sent` that it waits for one, `writing` that its step is over with the answer; `due` what its step has formed and
has still to write. -/
structure Transfer where
  instr   : TransferWork
  pc      : Nat
  regs    : List W64
  dst     : Dst
  step    : Nat
  begun   : Bool
  cld     : List W64
  zeroRes : Bool
  plan    : List Nat
  sent    : Bool
  writing : Bool
  got     : List (Nat × W64)
  due     : List (Nat × List Byte)
deriving DecidableEq, Repr

/-- An open root slot (R380): contributors expected, operation, epoch, contributors applied, combined value, limit and clk of
issue, destinations of result and status, bitmap address, address of its `fslot`. -/
structure OpenSlot where
  n        : Nat
  op       : Nat
  epoch    : Nat
  applied  : List Nat
  value    : W64
  limit    : Nat
  since    : Nat
  res      : Dst
  stat     : Dst
  bitmap   : Option Nat
  pc       : Nat
deriving DecidableEq, Repr

/-- A root slot with the epoch it last closed, if any (R381). -/
structure RootSlot where
  active : Option OpenSlot
  closed : Option Nat
deriving DecidableEq, Repr

/-- A kernel binary the program loader has accepted (R80, R82): the job and entry that name it, and the count of the longest path
from each header that starts a region. -/
structure Kernel where
  job     : Nat
  entry   : Nat
  longest : List (Nat × Nat)
deriving DecidableEq, Repr

/-- A pending `fwait` (R367): destination, barrier address, its own address, clk of issue, TMO as last read, and whether another
package has been asked. -/
structure FWait where
  dst   : Dst
  va    : Nat
  pc    : Nat
  since : Nat
  tmo   : Nat
  sent  : Bool
deriving DecidableEq, Repr

/-- What a fabric processor does once its earlier transfers and stores have been performed: `fsig` (R366), `ttpost` (R408). -/
inductive SignalWork where
  | add (va : Nat) (amount : W64)
  | post (free prev : Bool) (mb count : Nat)
deriving DecidableEq, Repr

/-- A pending signal: `behind` earlier transfers stand in the queue; `tag` is its number in local order. -/
structure PendingSignal where
  work   : SignalWork
  pc     : Nat
  behind : Nat
  tag    : Nat
  sent   : Bool
deriving DecidableEq, Repr

/-- A fabric processor (R355 to R364): the job of its program (none when idle), k registers, transfers, channels of messages,
root slots, the pool of early contributions, what it waits for. `ending` is a program past `uexit` whose transfers still run. -/
structure FabricProc where
  job      : Option Nat
  pc       : Nat
  last     : Nat
  k        : Sparse W64
  queue    : List Transfer
  channels : Sparse (List (List W64))
  slots    : List RootSlot
  pool     : List RootContribution
  wait     : Option FWait
  signals  : List PendingSignal
  stop     : Option Stop
  ending   : Bool
deriving DecidableEq, Repr

/-- A message or contribution that could not be delivered for lack of room, kept in arrival order (R363, R381), with the
processor that sent it, if it is of this package. -/
inductive Waiting where
  | message (m : FabricMessage)
  | contribution (sender : Option Nat) (c : RootContribution)
deriving DecidableEq, Repr

/-- What a pod-scope access on its way to another package serves (R207): `unit` is a store of a unit without a store path, `cmb` the barrier
of a leaf by its RCB address, or the Timetable's; `fsend` and `fred` a message or contribution that has not been accepted (R363, R381), `own` a
status word of the package's own units. -/
inductive RemoteUse where
  | op (id lane : Nat)
  | store (tag : Nat)
  | unit (u : UnitId) (pc va : Nat)
  | copy (id va : Nat)
  | transfer (proc va : Nat)
  | signal (proc tag : Nat)
  | wait (proc : Nat)
  | drain (wg va : Nat)
  | cmb (leaf : Option Nat)
  | fsend (proc : Nat)
  | fred (proc : Nat)
  | own
deriving DecidableEq, Repr

/-- A `ttpost` of a group that has not left: it waits for the boundaries and `cwait`s of `after` (R408). -/
structure PendingPost where
  wg    : Nat
  job   : Nat
  after : List Nat
  free  : Bool
  prev  : Bool
  mb    : Nat
  count : Nat
deriving DecidableEq, Repr

/-- An access sent to another package, awaiting its response; `fill` that a load's bytes may still be held in its core's L1 (log 107). -/
structure Remote where
  tag  : Nat
  pkg  : Nat
  job  : Nat
  use  : RemoteUse
  fill : Bool
deriving DecidableEq, Repr

/-- An event that waits to be entered (R320): the control core it is for, its record, and the unit that must have drained
first (R317). -/
structure PendingEvent where
  control : Nat
  event   : EventRec
  unit    : Option UnitId
deriving DecidableEq, Repr

/-- Why a step stops with a fault. -/
inductive Fault where
  /-- Raised by `onGroup`, `onControl`, `execHeader` and `execBell` when the unit whose turn it is names nothing that exists (a state no
  run reaches). Safe: the hardware has no such unit. -/
  | noSuchUnit
deriving DecidableEq, Repr

/-- Why a step gives no meaning. -/
inductive Refusal where
  /-- Raised by an arm of `exec` whose instruction has no meaning in the model. Safe. -/
  | notModelled (mnemonic : String)
  /-- Raised by an encoded instruction's meaning when no unit has the turn, so that there is no executor to run it. Safe:
  `step` never passes such a state to it. -/
  | noExecutor
deriving DecidableEq, Repr

/-- The package. Fields are grouped as the spec's chapters are; each names the rule that gives it. -/
structure State where
  /-- What the next steps perform, in order; when empty, `Config.schedule` chooses (the model's own). -/
  todo       : List Act
  /-- The encoded word that the current step performs (the model's own). -/
  turn       : Option Turn
  /-- Set by a meaning whose word waits and is to be offered again (the model's own). -/
  hold       : Bool
  /-- The counter that free values are drawn with (the model's own). -/
  fresh      : Nat
  /-- `%cyc` (R17). -/
  cyc        : Nat
  /-- Local-order numbers of accesses, and numbers for operations, boundaries, groups, workgroups, regions and copies (the
  model's own bookkeeping of R211). -/
  seq        : Nat
  /-- HBM4E by physical address; unlisted bytes read 0 (R204, Table 7.1). -/
  mem        : Sparse Byte
  /-- L1 bytes keyed by core × 2^56 + physical address (R191). -/
  l1         : Sparse L1Byte
  /-- Entries of the clusters' translation units (R190). -/
  tlb        : List TlbEntry
  /-- Bytes with an uncorrectable error, by physical address, and where it lies: 0 HBM4E, 1 LLC (R339). -/
  errors     : List (Nat × Nat)
  /-- Chunk records that differ from their reset values (Table 7.7). -/
  chunks     : Sparse ChunkRec
  /-- Added to the VERSION of every chunk record: the function resets since the cold reset, each of which frees every chunk (R433). -/
  versions   : W32
  /-- Chunk migrations in progress (R202). -/
  migrations : List Migration
  /-- Migration epochs ended since reset (R201). -/
  epoch      : Nat
  /-- MIGCTL (R201, Table 13.8). -/
  migctl     : W64
  /-- LRANGE0 to LRANGE15 (Table 7.6). -/
  lranges    : List LRange
  /-- XCWAYS (R199, Table 13.8). -/
  xcways     : W64
  /-- DOMTAB0 to DOMTAB63 (R206). -/
  domtab     : List W64
  /-- The cores' store paths, oldest first (R216). -/
  path       : List PathStore
  /-- Publishing boundaries that have not completed (R215, Table 8.1). -/
  boundaries : List Boundary
  /-- Long-latency operations in flight (R26, R30). -/
  ops        : List LongOp
  /-- Accesses sent to other packages and not yet answered (R207). -/
  remotes    : List Remote
  /-- Workgroups that have started and not ended (R141). -/
  wgs        : List Workgroup
  /-- Issue groups of the partitions (R147). -/
  groups     : List Group
  /-- Homeroom bins in use (R148). -/
  bins       : List Bin
  /-- Partitions by core × 4 + partition; unlisted ones have issued nothing and are not frozen. -/
  parts      : Sparse Partition
  /-- Regions that the device has accepted (R134). -/
  regions    : List Region
  /-- Kernels that the program loader has accepted (R80). -/
  kernels    : List Kernel
  /-- Launches that wait for acceptance (R138). -/
  launches   : List PendingLaunch
  /-- Requests that a region give up cores (R336). -/
  requests   : List CoreRequest
  /-- The eight cinch lines (R156). -/
  cinch      : List CinchLine
  /-- Copies of the copy engines and of `cpout` (R249, R262). -/
  copies     : List Copy
  /-- Bin sets of the binning engines that a job owns (R270). -/
  binsets    : Sparse BinSet
  /-- Pinned accumulator tiles (R303). -/
  pins       : List Pin
  /-- Contributions held on their way to a workgroup of this package, at most 256 (R299). -/
  holding    : List Contribution
  /-- Bytes of the context store (R337). -/
  ctxsize    : Nat
  /-- The 64 cluster control cores (R318). -/
  controls   : List Control
  /-- Events that wait to enter a control core's queue (R320). -/
  events     : List PendingEvent
  /-- Single steps granted and not yet taken (R329, R394). -/
  grants     : List Grant
  /-- Lane-cycle ranges and trace rings of the 256 cores (Table 13.8). -/
  cores      : List CoreRegs
  /-- BPACT0 to BPACT15 (Table 13.4). -/
  bpact      : List W64
  /-- BPCNT0 to BPCNT15 (Table 13.8). -/
  bpcnt      : List W64
  /-- Watchpoints 0 to 7 (Table 13.5). -/
  wpts       : List Watchpoint
  /-- CHSEL (Table 13.8). -/
  chsel      : W64
  /-- The clk from which a package freeze holds (R326). -/
  pfrz       : Option Nat
  /-- The 32 fabric processors (R355). -/
  procs      : List FabricProc
  /-- Messages and contributions that wait for room (R363, R381). -/
  waiting    : List Waiting
  /-- Drop counters of the Ultra Ethernet ports 0 to 63 (R352, R354); unlisted 0. -/
  ports      : Sparse Nat
  /-- `ttpost`s of groups that have not left (R408). -/
  posts      : List PendingPost
  /-- Jobs of the package (R430, R384). -/
  jobs       : List Job
  /-- Arrivals that a frozen job's package holds until the Bell's resume, with their job (R391, R396). -/
  heldPkts   : List (Nat × Instr)
  /-- The Timetable engine (R399). -/
  tt         : Timetable
  /-- Host registers and power and security state (Table 18.5, R434 to R440). -/
  host       : HostRegs
  /-- The 64 submission queues (R427). -/
  queues     : List Queue
  /-- What has left the package, oldest first (the model's own record). -/
  outbox     : List Outgoing
deriving DecidableEq, Repr

/-- A control core after reset (Table 13.8): CCVEC is set by firmware, which the spec does not give (see the log). -/
def Control.reset : Control :=
  { k := [], pc := 0, last := 0, current := none, queue := [], ccvec := 0, dwstat := 0, assistcnt := 0, ccwdog := 0x1000000, watch := 0
    retried := false, trapped := false }

/-- A core's control registers after reset (Table 13.8). -/
def CoreRegs.reset : CoreRegs :=
  { lcbase := List.replicate 16 1, lclim := List.replicate 16 0, trctl := 0, trbase := 0, trsize := 4096, trhead := 0
    trdrop := 0, trused := 0 }

/-- A cinch line bound to no region (R156). -/
def CinchLine.reset : CinchLine := { region := none, mask := none, expect := 0, arrived := [], full := none }

/-- An idle fabric processor (R355). -/
def FabricProc.reset : FabricProc :=
  { job := none, pc := 0, last := 0, k := [], queue := [], channels := [], slots := List.replicate 16 ⟨none, none⟩, pool := []
    wait := none, signals := [], stop := none, ending := false }

/-- The Timetable engine off (Table 16.11). -/
def Timetable.reset : Timetable :=
  { epoch := 0, state := 0, code := 0, sub := 0, job := 0, tcb := [], head := 0, pass := 0, entry := none, since := 0, changed := 0
    counted := 0, frdy := [], brdy := [], crf := 0, crb := 0, runs := [], drop := 0, bup := 0, bdn := 0, bst := 0, tasks := [], held := [] }

/-- A submission queue after reset (Table 18.2). -/
def Queue.reset : Queue :=
  { qbase := 0, qsize := 0, qkick := 0, qhead := 0, en := false, halt := false, err := 0, qcbase := 0, qmsi := 0, done := 0
    packet := none, reads := 0, lastRead := 0 }

/-- BAR0 after a cold reset (Table 18.5); training runs (BOOTSTAT 1). -/
def HostRegs.reset : HostRegs :=
  { bootstat := 1, bar2ctl := 0, powcap := 2600, powmeas := 0, bar2err := 0, bar2map := [], meas := List.replicate 8 0
    linked := false, alarmed := false, keyed := true, identity := true, clock := 2100 }

/-- The package right after a cold reset (R432, R433, and the Reset column of every register table). -/
def State.reset : State :=
  { todo := [], turn := none, hold := false, fresh := 0, cyc := 0, seq := 1
    mem := [], l1 := [], tlb := [], errors := [], chunks := [], versions := 0, migrations := [], epoch := 0, migctl := 1
    lranges := List.replicate 16 ⟨0, 0⟩, xcways := 2, domtab := List.replicate 64 0
    path := [], boundaries := [], ops := [], remotes := []
    wgs := [], groups := [], bins := [], parts := [], regions := [], kernels := [], launches := [], requests := []
    cinch := List.replicate 8 CinchLine.reset, copies := [], binsets := [], pins := [], holding := []
    ctxsize := 0x40000000
    controls := List.replicate 64 Control.reset, events := [], grants := [], cores := List.replicate 256 CoreRegs.reset
    bpact := List.replicate 16 1, bpcnt := List.replicate 16 0, wpts := List.replicate 8 ⟨0, 0, 0, 0⟩, chsel := 0, pfrz := none
    procs := List.replicate 32 FabricProc.reset, waiting := [], ports := [], posts := [], jobs := [], heldPkts := []
    tt := Timetable.reset, host := HostRegs.reset, queues := List.replicate 64 Queue.reset, outbox := [] }

end Sys2Proof.Machine
end

