-- ==== Sys2Proof/Config.lean ====
section
/-!
DEFINITION. What the spec leaves open, as constants without a body, so that nothing can be proved of their values (each is
named in the assumption log), and what one DZ-940 fixes for itself.
-/
namespace Sys2Proof.Config

open Sys2Proof.Machine

/-- With nothing due, what happens next and how many core clk pass before it, drawn with the counter `State.fresh`. -/
opaque schedule : Nat → Nat × Act

/-- A choice the spec leaves open between two outcomes (R28, R192, R213, ...), drawn with the counter and a key that tells
choices of one step apart. -/
opaque choose : Nat → Nat → Bool

/-- A value the spec leaves open, drawn with the counter and a key. -/
opaque freeNat : Nat → Nat → Nat

/-- The bits that an o register holds where a guarded write left it unwritten (R24): of the workgroup's linear id, the thread, its
retired count and the register, none of which depends on scheduling (R62). -/
opaque unwritten : Nat → Nat → Nat → Nat → W64

/-- The status of an `mpin` on a pin that its workgroup holds already (R303 gives none): of the workgroup's linear id, key and tile. -/
opaque ownPin : Nat → Nat → Nat → BitVec 64

/-- Which code within the accuracy of Table 4.3 a special function gives: a fixed function of its opcode, the width of its
format, the operand's bits and the flush setting (R109). -/
opaque ulpPick : Nat → Nat → Nat → Bool → Nat

/-- The uncorrectable errors that arise (R339), drawn with the counter. -/
opaque upset : Nat → Option Strike

/-- The package's number in the system, `%pkg` (R16). -/
opaque pkg : BitVec 16

/-- What a read of host memory returns: the host, not the package, holds that memory (R424). Counter and address. -/
opaque hostByte : Nat → Nat → Byte

/-- What a fetch, or a read by the package's own units, of another package's page returns there, and whether that package refuses it, with
the ownership fault (true) or the remote fault (R207): it, not this package, holds that memory (log 110). Counter and virtual address. -/
opaque farByte : Nat → Nat → Byte
opaque farFault : Nat → Nat → Option Bool

/-- The bytes that a workgroup's context takes in the context store (R337): the spec lists its contents, not its size. -/
opaque contextBytes : Nat → Nat

/-- The device's serial number and its fused rollback counter (R435, R437). -/
opaque serial : Nat
opaque rollback : Nat

/-- SHA-512 of a register of 512 bits followed by a digest of 512 bits (R435), as a number in the byte order of R1. -/
opaque extend : Nat → Nat → Nat

/-- The attestation key's signature over a report (R437), drawn with the counter. -/
opaque signature : Nat → List Byte → Nat

end Sys2Proof.Config
end

