-- ==== Sys2Proof/Decode.lean ====
section
/-!
DEFINITION. Decoding of code words (R63 to R79, and the encoding tables of each chapter), and after it the encoder.
A word is a natural number below 2^32. Decoding never fails silently: every pattern without a meaning answers a subcause
of Table 3.14, chosen by the order of R79 (the executor's check stands between the opcode's and the fields', in the machine).
-/
namespace Sys2Proof

/-- Bits [lo + n − 1 : lo] of a word. -/
def fld (w lo n : Nat) : Nat := w / 2 ^ lo % 2 ^ n

/-- Two's-complement value of an n-bit field. -/
def signed (n v : Nat) : Int := if 2 ^ (n - 1) ≤ v then (v : Int) - (2 ^ n : Nat) else v

/-- The n-bit field that holds a two's-complement value. -/
def unsigned (n : Nat) (v : Int) : Nat := (v % ((2 ^ n : Nat) : Int)).toNat

/-- A check that answers a subcause when it fails. -/
def need (e : IllegalSub) (b : Bool) : Except IllegalSub Unit := if b then .ok () else .error e

/-- The set bit S (Table 3.1): uniform. -/
def isUniform (w : Nat) : Bool := fld w 31 1 == 1
/-- The field L (Table 3.1). -/
def lenField (w : Nat) : Nat := fld w 29 2
/-- A single-word instruction (L = 00). -/
def isSingle (w : Nat) : Bool := lenField w == 0
/-- The first word of a 64-bit instruction (L = 01). -/
def isDouble (w : Nat) : Bool := lenField w == 1
/-- A prefix word (L = 10). -/
def isPrefixWord (w : Nat) : Bool := lenField w == 2
/-- A run header (S = 1, L = 11). -/
def isHeaderWord (w : Nat) : Bool := lenField w == 3 && isUniform w
/-- A run trailer (S = 0, L = 11). -/
def isTrailerWord (w : Nat) : Bool := lenField w == 3 && !isUniform w
/-- The opcode field (Tables 3.2 and 3.5). -/
def opField (w : Nat) : Nat := fld w 22 7

/-- Shape codes (Table 3.2). -/
def shapeOf : Nat → Shape
  | 0 => .d | 1 => .w | 2 => .h | _ => .b
/-- Code of a shape. -/
def shapeCode : Shape → Nat
  | .d => 0 | .w => 1 | .h => 2 | .b => 3
/-- Kind codes (Table 3.5); 111 is reserved. -/
def kindOf : Nat → Option Kind
  | 0 => some .i | 1 => some .n | 2 => some .f | 3 => some .bf | 4 => some .e4 | 5 => some .e5 | 6 => some .e2 | _ => none
/-- Code of a kind. -/
def kindCode : Kind → Nat
  | .i => 0 | .n => 1 | .f => 2 | .bf => 3 | .e4 => 4 | .e5 => 5 | .e2 => 6

/-- Special registers by their place in Table 1.2. -/
def specialOf : Nat → Special
  | 0 => .lane | 1 => .tid | 2 => .tidX | 3 => .tidY | 4 => .tidZ | 5 => .wgX | 6 => .wgY | 7 => .wgZ | 8 => .nwgX
  | 9 => .nwgY | 10 => .nwgZ | 11 => .wgsz | 12 => .core | 13 => .die | 14 => .pkg | 15 => .cyc | 16 => .retired
  | 17 => .regions | _ => .mode
/-- Place of a special register in Table 1.2. -/
def specialCode : Special → Nat
  | .lane => 0 | .tid => 1 | .tidX => 2 | .tidY => 3 | .tidZ => 4 | .wgX => 5 | .wgY => 6 | .wgZ => 7 | .nwgX => 8
  | .nwgY => 9 | .nwgZ => 10 | .wgsz => 11 | .core => 12 | .die => 13 | .pkg => 14 | .cyc => 15 | .retired => 16
  | .regions => 17 | .mode => 18

/-- The 7-bit source specifier (Table 3.3). -/
def src7 (c : Nat) : Except IllegalSub Src :=
  if c < 0x40 then .ok (.x c)
  else if c < 0x50 then .ok (.k (c - 0x40))
  else if c < 0x58 then .ok (.o (c - 0x50))
  else if c < 0x5C then .ok (.l (c - 0x58))
  else if c = 0x5C then .ok .zero
  else if c = 0x5D then .ok (.special .lane)
  else if c = 0x5E then .ok (.special .tid)
  else if c = 0x5F then .error .operand
  else .ok (.imm ((c : Int) - 0x70))

/-- Code of a source in seven bits. -/
def src7Code : Src → Nat
  | .x n => n | .k n => 0x40 + n | .o n => 0x50 + n | .l n => 0x58 + n | .zero => 0x5C
  | .special s => 0x5D + specialCode s
  | .imm v => (v + 0x70).toNat

/-- Sources that have a 7-bit code. -/
def src7Ok : Src → Bool
  | .x n => n < 64 | .k n => n < 16 | .o n => n < 8 | .l n => n < 4 | .zero => true
  | .special s => s == .lane || s == .tid
  | .imm v => -16 ≤ v && v ≤ 15

/-- The 8-bit source specifier (Table 3.8). -/
def src8 (c : Nat) : Src :=
  if c < 0x80 then .x c
  else if c < 0xC0 then .k (c - 0x80)
  else if c < 0xC8 then .o (c - 0xC0)
  else if c < 0xCC then .l (c - 0xC8)
  else if c = 0xCC then .zero
  else if c < 0xE0 then .special (specialOf (c - 0xCD))
  else .imm ((c : Int) - 0xF0)

/-- Code of a source in eight bits. -/
def src8Code : Src → Nat
  | .x n => n | .k n => 0x80 + n | .o n => 0xC0 + n | .l n => 0xC8 + n | .zero => 0xCC
  | .special s => 0xCD + specialCode s
  | .imm v => (v + 0xF0).toNat

/-- Sources that have an 8-bit code. -/
def src8Ok : Src → Bool
  | .x n => n < 128 | .k n => n < 64 | .o n => n < 8 | .l n => n < 4 | .zero => true | .special _ => true
  | .imm v => -16 ≤ v && v ≤ 15

/-- The 6-bit destination specifier (Table 3.4). -/
def dst6 (c : Nat) : Except IllegalSub Dst :=
  if c < 0x30 then .ok (.x c)
  else if c < 0x38 then .ok (.o (c - 0x30))
  else if c = 0x3F then .ok .none
  else .error .operand

/-- Code of a destination in six bits. -/
def dst6Code : Dst → Nat
  | .x n => n | .k n => n | .o n => 0x30 + n | .none => 0x3F

/-- Destinations that have a 6-bit code. -/
def dst6Ok : Dst → Bool
  | .x n => n < 48 | .k _ => false | .o n => n < 8 | .none => true

/-- The 8-bit destination specifier (Table 3.8); a lane-set instruction cannot name a k register. -/
def dst8 (uni : Bool) (c : Nat) : Except IllegalSub Dst :=
  if c < 0x80 then .ok (.x c)
  else if c < 0xC0 then if uni then .ok (.k (c - 0x80)) else .error .operand
  else if c < 0xC8 then .ok (.o (c - 0xC0))
  else if c = 0xFF then .ok .none
  else .error .operand

/-- Code of a destination in eight bits. -/
def dst8Code : Dst → Nat
  | .x n => n | .k n => 0x80 + n | .o n => 0xC0 + n | .none => 0xFF

/-- Destinations that have an 8-bit code. -/
def dst8Ok (uni : Bool) : Dst → Bool
  | .x n => n < 128 | .k n => uni && n < 64 | .o n => n < 8 | .none => true

/-- What an operation's row says of its operands: which sources it uses, the shape and kind pairs it accepts, its default
kind (R65), and whether it is long-latency, so that an o destination is refused (R24). -/
structure OpRule where
  a    : Bool
  b    : Bool
  c    : Bool
  ok   : Shape → Kind → Bool
  dflt : Kind
  long : Bool

/-- Integer kinds (R94). -/
def intKind : Kind → Bool
  | .i | .n => true
  | _ => false
/-- Pairs FS (R102). -/
def fsPair : Shape → Kind → Bool
  | .d, .f | .w, .f | .h, .f | .h, .bf => true
  | _, _ => false
/-- `.d.f` and `.w.f` (Table 4.2). -/
def dwPair : Shape → Kind → Bool
  | .d, .f | .w, .f => true
  | _, _ => false
/-- `.w.f`, `.h.f` and `.h.bf` (Table 4.2). -/
def whPair : Shape → Kind → Bool
  | .w, .f | .h, .f | .h, .bf => true
  | _, _ => false
/-- Kinds of a load or store (R119). -/
def memPair : Shape → Kind → Bool
  | _, .i | _, .n | _, .f | .h, .bf | .b, .e4 | .b, .e5 | .b, .e2 => true
  | _, _ => false
/-- Pairs of `ldx` and `stx` (Table 9.1). -/
def ldxPair : Shape → Kind → Bool
  | .d, .f | .w, .f | .h, .f | .h, .bf | .b, .e4 | .b, .e5 => true
  | _, _ => false
/-- Pairs that name a format for `cvt` (Table 4.4). -/
def cvtPair : Shape → Kind → Bool
  | _, .i | _, .n | .d, .f | .w, .f | .h, .f | .h, .bf | .b, .e4 | .b, .e5 | .b, .e2 => true
  | _, _ => false

def rInt : OpRule := ⟨true, true, false, fun _ k => intKind k, .i, false⟩
def rIntA : OpRule := ⟨true, false, false, fun _ k => intKind k, .i, false⟩
def rIntB : OpRule := ⟨false, true, false, fun _ k => intKind k, .i, false⟩
def rInt3 : OpRule := ⟨true, true, true, fun _ k => intKind k, .i, false⟩
def rAbs : OpRule := ⟨true, false, false, fun _ k => k == .i, .i, false⟩
def rLea : OpRule := ⟨true, true, false, fun s k => s == .d && k == .i, .i, false⟩
def rDot2 : OpRule := ⟨true, true, false, fun s k => s == .w && intKind k, .i, false⟩
def rDot : OpRule := ⟨true, true, true, fun s k => s == .w && intKind k, .i, false⟩
def rF : OpRule := ⟨true, true, false, fsPair, .f, false⟩
def rF1 : OpRule := ⟨true, false, false, fsPair, .f, false⟩
def rF3 : OpRule := ⟨true, true, true, fsPair, .f, false⟩
def rFdiv : OpRule := ⟨true, true, false, dwPair, .f, true⟩
def rFsqrt : OpRule := ⟨true, false, false, dwPair, .f, true⟩
def rRcp : OpRule := ⟨true, false, false, fsPair, .f, true⟩
def rFun : OpRule := ⟨true, false, false, whPair, .f, true⟩
def rFdot2 : OpRule := ⟨true, true, false, whPair, .f, false⟩
def rFscl : OpRule := rF
def rFdot : OpRule := ⟨true, true, true, whPair, .f, false⟩
def rPk : OpRule := ⟨true, true, false, fun s k => s != .b && intKind k, .i, false⟩
def rUpk : OpRule := ⟨true, false, false, fun s k => s != .b && intKind k, .i, false⟩
def rSwz2 : OpRule := ⟨true, true, false, fun s k => s == .b && intKind k, .i, false⟩
def rSwz : OpRule := ⟨true, true, true, fun s k => s == .b && intKind k, .i, false⟩
def rRng : OpRule := ⟨true, true, false, fun s k => intKind k || fsPair s k, .i, false⟩
def rXbc : OpRule := ⟨true, false, true, fun _ k => intKind k, .i, false⟩
def rXmatch : OpRule := ⟨true, false, false, fun s k => (s == .d || s == .w) && intKind k, .i, false⟩
def rBallot : OpRule := rXmatch
def rMem : OpRule := ⟨true, true, false, memPair, .i, true⟩
def rStx : OpRule := ⟨true, true, true, ldxPair, .i, false⟩
def rLdx : OpRule := ⟨true, true, false, ldxPair, .i, true⟩
def rStash : OpRule := ⟨true, true, true, fun s _ => s != .d, .i, false⟩
def rPref : OpRule := ⟨true, true, false, fun _ k => k == .i, .i, false⟩
def rCpout : OpRule := ⟨true, true, true, fun s k => s == .d && k == .i, .i, false⟩
def rWaitv : OpRule := ⟨true, true, true, fun _ k => intKind k, .i, true⟩

/-- Shapes and kinds of an atomic (Table 9.3). -/
def atomPair : AtomOp → Shape → Kind → Bool
  | .fadd, s, k | .fmin, s, k | .fmax, s, k => (s == .w && k == .f) || (s == .d && k == .f) || (s == .h && k == .bf)
  | .inc, s, k => (s == .w || s == .d) && k == .n
  | _, s, k => (s == .w || s == .d) && intKind k
/-- Operands of an atomic (R239): the comparand stands in C for `cas` only. -/
def rAtom (op : AtomOp) (returns : Bool) : OpRule := ⟨true, true, op == .cas, atomPair op, .i, returns⟩
/-- Operands of `atomx` (R244): `.rdclr` ignores B, which holds 0xCC. -/
def rAtomx (clr returns : Bool) : OpRule :=
  ⟨true, !clr, false, fun s k => (s == .w && k == .f) || (s == .h && k == .bf), .i, returns⟩
/-- Operands of a reduction or scan (R168, Table 6.3). -/
def rRed : RedOp → OpRule
  | .fadd | .fmin | .fmax => ⟨true, false, false, fsPair, .f, false⟩
  | _ => rIntA

/-- IMM under a shape and kind (R70). -/
def immOk : Shape → Kind → Nat → Bool
  | .d, .i, _ | .d, .n, _ | .d, .f, _ | .w, .i, _ | .w, .n, _ | .w, .f, _ => true
  | .h, .i, v => v < 2 ^ 15 || 2 ^ 32 - 2 ^ 15 ≤ v
  | .h, .n, v | .h, .f, v | .h, .bf, v => v < 2 ^ 16
  | .b, .i, v => v < 2 ^ 7 || 2 ^ 32 - 2 ^ 7 ≤ v
  | .b, .n, v | .b, .e4, v | .b, .e5, v => v < 2 ^ 8
  | .b, .e2, v => v < 2 ^ 4
  | _, _, _ => false

/-- A source field of the 32-bit form: an unused one holds the zero code (R65). -/
def use7 (used : Bool) (c : Nat) : Except IllegalSub Src := if used then src7 c else .ok .zero
/-- Reserved-field check of a source field of the 32-bit form. -/
def idle7 (used : Bool) (c : Nat) : Bool := used || c == 0x5C
/-- A source field of the 64-bit form: an unused one holds 0xCC (R69). -/
def use8 (used : Bool) (c : Nat) : Src := if used then src8 c else .zero
/-- Reserved-field check of a source field of the 64-bit form. -/
def idle8 (used : Bool) (c : Nat) : Bool := used || c == 0xCC

/-- An o destination is refused on a long-latency instruction (R24). -/
def longDst (long : Bool) : Dst → Bool
  | .o _ => !long
  | _ => true

/-- Operands of a 32-bit instruction under its rule (R65 to R67). -/
def dec32 (r : OpRule) (w : Nat) : Except IllegalSub F32 := do
  let s := shapeOf (fld w 20 2)
  need .reserved (r.ok s r.dflt && idle7 r.a (fld w 7 7) && idle7 r.b (fld w 0 7))
  let d ← dst6 (fld w 14 6)
  need .operand (longDst r.long d)
  let a ← use7 r.a (fld w 7 7)
  let b ← use7 r.b (fld w 0 7)
  return ⟨s, d, a, b⟩

/-- As `dec32`, for an instruction that reads B in a way of its own (the caller checks B). -/
def dec32B (r : OpRule) (bOk : Bool) (w : Nat) : Except IllegalSub F32 := do
  let s := shapeOf (fld w 20 2)
  need .reserved (r.ok s r.dflt && bOk && idle7 r.a (fld w 7 7))
  let d ← dst6 (fld w 14 6)
  need .operand (longDst r.long d)
  let a ← use7 r.a (fld w 7 7)
  return ⟨s, d, a, .zero⟩

/-- Operands of a 32-bit compare (R98, R105): D is read by the caller. -/
def dec32C (r : OpRule) (dOk : Bool) (w : Nat) : Except IllegalSub F32 := do
  let s := shapeOf (fld w 20 2)
  need .reserved (r.ok s r.dflt && dOk)
  let a ← src7 (fld w 7 7)
  let b ← src7 (fld w 0 7)
  return ⟨s, .none, a, b⟩

/-- Operands of a 32-bit load (Table 4.5): B is an immediate code. -/
def dec32M (r : OpRule) (w : Nat) : Except IllegalSub (F32 × Int) := do
  let s := shapeOf (fld w 20 2)
  need .reserved (r.ok s r.dflt)
  let d ← dst6 (fld w 14 6)
  need .operand (longDst r.long d)
  let a ← src7 (fld w 7 7)
  need .operand (0x60 ≤ fld w 0 7)
  return (⟨s, d, a, .zero⟩, (fld w 0 7 : Int) - 0x70)

/-- Operands of a 32-bit store (Table 4.5): D is the data source, codes 0x00 to 0x37. -/
def dec32S (r : OpRule) (w : Nat) : Except IllegalSub (F32 × Int) := do
  let p ← dec32M { r with long := false } w
  need .operand (p.1.d != .none)
  return p

/-- Word-1 guard (Table 3.6). -/
def guardOf (w1 : Nat) : Option Guard :=
  if fld w1 15 1 = 1 then some ⟨fld w1 14 1 = 1, fld w1 12 2⟩ else none
/-- GN and GP are 0 when GE is 0. -/
def guardOk (w1 : Nat) : Bool := fld w1 15 1 == 1 || fld w1 12 3 == 0
/-- The word-1 bits of a guard. -/
def guardBits : Option Guard → Nat
  | none => 0
  | some g => 0x8000 + (if g.neg then 0x4000 else 0) + g.p * 0x1000
/-- Guards that word 1 can hold. -/
def guardWf : Option Guard → Bool
  | none => true
  | some g => g.p < 4

/-- Kind field of word 0 under a rule, with its shape. -/
def kindUnder (r : OpRule) (w0 : Nat) : Except IllegalSub Kind :=
  match kindOf (fld w0 0 3) with
  | some k => if r.ok (shapeOf (fld w0 20 2)) k then .ok k else .error .reserved
  | none => .error .reserved

/-- Operands of a 64-bit instruction with X = 0 under its rule (R68, R69). -/
def dec64 (uni : Bool) (r : OpRule) (modOk : Bool) (w0 w1 : Nat) : Except IllegalSub F64 := do
  let k ← kindUnder r w0
  need .reserved (modOk && guardOk w1 && idle8 r.a (fld w0 4 8) && idle8 r.b (fld w1 24 8) && idle8 r.c (fld w1 16 8))
  let d ← dst8 uni (fld w0 12 8)
  need .operand (longDst r.long d)
  return ⟨shapeOf (fld w0 20 2), k, d, use8 r.a (fld w0 4 8), use8 r.b (fld w1 24 8), use8 r.c (fld w1 16 8), guardOf w1⟩

/-- As `dec64`, for an instruction without a register destination: D8 is read by the caller. -/
def dec64N (r : OpRule) (ok : Bool) (w0 w1 : Nat) : Except IllegalSub F64 := do
  let k ← kindUnder r w0
  need .reserved (ok && guardOk w1 && idle8 r.a (fld w0 4 8) && idle8 r.b (fld w1 24 8) && idle8 r.c (fld w1 16 8))
  return ⟨shapeOf (fld w0 20 2), k, .none, use8 r.a (fld w0 4 8), use8 r.b (fld w1 24 8), use8 r.c (fld w1 16 8), guardOf w1⟩

/-- As `dec64`, with D8 a data source. -/
def dec64S (r : OpRule) (modOk : Bool) (w0 w1 : Nat) : Except IllegalSub F64S := do
  let k ← kindUnder r w0
  need .reserved (modOk && guardOk w1 && idle8 r.a (fld w0 4 8) && idle8 r.b (fld w1 24 8) && idle8 r.c (fld w1 16 8))
  return ⟨shapeOf (fld w0 20 2), k, src8 (fld w0 12 8), use8 r.a (fld w0 4 8), use8 r.b (fld w1 24 8), use8 r.c (fld w1 16 8), guardOf w1⟩

/-- Operands of a 64-bit instruction with X = 1 under its rule (R70). -/
def dec64I (uni : Bool) (r : OpRule) (w0 w1 : Nat) : Except IllegalSub F64I := do
  let k ← kindUnder r w0
  need .reserved (immOk (shapeOf (fld w0 20 2)) k w1 && idle8 r.a (fld w0 4 8))
  let d ← dst8 uni (fld w0 12 8)
  need .operand (longDst r.long d)
  return ⟨shapeOf (fld w0 20 2), k, d, use8 r.a (fld w0 4 8), w1⟩

/-- As `dec64I`, without a register destination: D8 is read by the caller. -/
def dec64IN (r : OpRule) (ok : Bool) (w0 w1 : Nat) : Except IllegalSub F64I := do
  let k ← kindUnder r w0
  need .reserved (ok && immOk (shapeOf (fld w0 20 2)) k w1 && idle8 r.a (fld w0 4 8))
  return ⟨shapeOf (fld w0 20 2), k, .none, use8 r.a (fld w0 4 8), w1⟩

/-- A memory instruction with X = 1 reads IMM as its byte offset (R70). -/
def dec64IM (uni : Bool) (r : OpRule) (w0 w1 : Nat) : Except IllegalSub F64I := do
  let k ← kindUnder r w0
  let d ← dst8 uni (fld w0 12 8)
  need .operand (longDst r.long d)
  return ⟨shapeOf (fld w0 20 2), k, d, src8 (fld w0 4 8), w1⟩

/-- As `dec64IM`, with D8 a data source. -/
def dec64IS (r : OpRule) (w0 w1 : Nat) : Except IllegalSub F64IS := do
  let k ← kindUnder r w0
  return ⟨shapeOf (fld w0 20 2), k, src8 (fld w0 12 8), src8 (fld w0 4 8), w1⟩

/-- MOD of word 1. -/
def modField (w1 : Nat) : Nat := fld w1 0 12
/-- Compare conditions (R98). -/
def condOf : Nat → Option Cond
  | 0 => some .eq | 1 => some .ne | 2 => some .lt | 3 => some .le | 4 => some .gt | 5 => some .ge | _ => none
/-- Code of a condition. -/
def condCode : Cond → Nat
  | .eq => 0 | .ne => 1 | .lt => 2 | .le => 3 | .gt => 4 | .ge => 5
/-- Conditions of `fcmp` (R105). -/
def fcondOf : Nat → FCond
  | 0 => .eq | 1 => .ne | 2 => .lt | 3 => .le | 4 => .gt | 5 => .ge | 6 => .un | _ => .ord
/-- Code of a condition of `fcmp`. -/
def fcondCode : FCond → Nat
  | .eq => 0 | .ne => 1 | .lt => 2 | .le => 3 | .gt => 4 | .ge => 5 | .un => 6 | .ord => 7
/-- Vote modes (Table 6.2). -/
def voteOf : Nat → VoteMode
  | 0 => .any | 1 => .all | 2 => .ballot | _ => .eq
/-- Code of a vote mode. -/
def voteCode : VoteMode → Nat
  | .any => 0 | .all => 1 | .ballot => 2 | .eq => 3
/-- Operands of a vote: ballot takes `.d` and `.w` only. -/
def rVote : VoteMode → OpRule
  | .ballot => rBallot
  | _ => rIntA
/-- Reduction operations (Table 6.3). -/
def redOf : Nat → Option RedOp
  | 0 => some .add | 1 => some .min | 2 => some .max | 3 => some .and | 4 => some .or | 5 => some .xor
  | 6 => some .fadd | 7 => some .fmin | 8 => some .fmax | _ => none
/-- Code of a reduction operation. -/
def redCode : RedOp → Nat
  | .add => 0 | .min => 1 | .max => 2 | .and => 3 | .or => 4 | .xor => 5 | .fadd => 6 | .fmin => 7 | .fmax => 8
/-- Atomic operations (Table 9.3). -/
def atomOf : Nat → Option AtomOp
  | 0 => some .add | 1 => some .min | 2 => some .max | 3 => some .and | 4 => some .or | 5 => some .xor | 6 => some .swap
  | 7 => some .cas | 8 => some .inc | 9 => some .fadd | 10 => some .fmin | 11 => some .fmax | _ => none
/-- Code of an atomic operation. -/
def atomCode : AtomOp → Nat
  | .add => 0 | .min => 1 | .max => 2 | .and => 3 | .or => 4 | .xor => 5 | .swap => 6 | .cas => 7 | .inc => 8
  | .fadd => 9 | .fmin => 10 | .fmax => 11
/-- Flavours (R239). -/
def flavourOf : Nat → Flavour
  | 0 => .plain | 1 => .rel | 2 => .acq | _ => .ar
/-- Code of a flavour. -/
def flavourCode : Flavour → Nat
  | .plain => 0 | .rel => 1 | .acq => 2 | .ar => 3
/-- L1 hints (R231). -/
def l1hOf : Nat → Option L1Hint
  | 0 => some .normal | 1 => some .stream | 2 => some .nol1 | _ => none
/-- Code of an L1 hint. -/
def l1hCode : L1Hint → Nat
  | .normal => 0 | .stream => 1 | .nol1 => 2
/-- Rounding codes of a prefix (Table 3.11). -/
def rndOf : Nat → Option Rnd
  | 0 => some .rne | 1 => some .rtz | 2 => some .rup | 3 => some .rdn | 4 => some .rna | 5 => some .rsr | 6 => some .dyn | _ => none
/-- Code of a rounding mode. -/
def rndCode : Rnd → Nat
  | .rne => 0 | .rtz => 1 | .rup => 2 | .rdn => 3 | .rna => 4 | .rsr => 5 | .dyn => 6
/-- Saturation codes of a prefix (Table 3.11). -/
def satOf : Nat → Option Sat
  | 0 => some .off | 1 => some .sat | 2 => some .clamp | _ => none
/-- Code of a saturation. -/
def satCode : Sat → Nat
  | .off => 0 | .sat => 1 | .clamp => 2

/-- An option from a code table; a reserved code answers the reserved-field subcause. -/
def coded {α : Type} (o : Option α) : Except IllegalSub α :=
  match o with
  | some a => .ok a
  | none => .error .reserved

/-- The header word (Table 3.12); R74 refuses LEN 24 to 31 and non-zero bits [3:0]. -/
def decodeHeader (w : Nat) : Except IllegalSub HeaderWord := do
  need .reserved (fld w 7 5 < 24 && fld w 0 4 == 0)
  return ⟨fld w 17 12, fld w 12 5, fld w 7 5, fld w 6 1 = 1, fld w 4 2⟩
/-- The word of a header. -/
def encodeHeader (h : HeaderWord) : Nat :=
  0xE0000000 + h.wait * 2 ^ 17 + h.dist * 2 ^ 12 + h.len * 2 ^ 7 + (if h.r then 64 else 0) + h.hint * 16
/-- Headers that a word can hold. -/
def headerWf (h : HeaderWord) : Bool := h.wait < 4096 && h.dist < 32 && h.len < 24 && h.hint < 4

/-- A completion entry (Table 3.13, R75): one that is not valid holds zero, and a valid one names a flag below 12 (R30). -/
def entryOf (e : Nat) : Except IllegalSub (Option CompletionEntry) := do
  need .reserved (if fld e 8 1 = 1 then fld e 4 4 < 12 else fld e 0 8 == 0)
  return if fld e 8 1 = 1 then some ⟨fld e 4 4, fld e 0 4⟩ else none
/-- The bits of a completion entry. -/
def entryBits : Option CompletionEntry → Nat
  | none => 0
  | some e => 256 + e.flag * 16 + e.ordinal
/-- Entries that a trailer can hold. -/
def entryWf : Option CompletionEntry → Bool
  | none => true
  | some e => e.flag < 12 && e.ordinal < 16

/-- The trailer word (Table 3.13); end kinds 10 and 11 are reserved (R32). -/
def decodeTrailer (w : Nat) : Except IllegalSub TrailerWord := do
  need .reserved (fld w 27 2 < 2)
  let e0 ← entryOf (fld w 18 9)
  let e1 ← entryOf (fld w 9 9)
  let e2 ← entryOf (fld w 0 9)
  return ⟨fld w 27 2 = 1, e0, e1, e2⟩
/-- The word of a trailer. -/
def encodeTrailer (t : TrailerWord) : Nat :=
  0x60000000 + (if t.park then 2 ^ 27 else 0) + entryBits t.e0 * 2 ^ 18 + entryBits t.e1 * 2 ^ 9 + entryBits t.e2
/-- Trailers that a word can hold. -/
def trailerWf (t : TrailerWord) : Bool := entryWf t.e0 && entryWf t.e1 && entryWf t.e2

/-- The prefix word (Table 3.11). R72 lays the reserved-field subcause on the modified instruction: the machine keeps the
refusal with the prefix and raises it there. -/
def decodePrefix (w : Nat) : Except IllegalSub PrefixFields := do
  let r ← coded (rndOf (fld w 26 3))
  let t ← coded (satOf (fld w 24 2))
  need .reserved (fld w 0 14 == 0 && (fld w 21 1 == 1 || fld w 17 4 == 0) && (fld w 16 1 == 1 || fld w 14 2 == 0))
  return ⟨isUniform w, r, t, fld w 23 1 = 1, fld w 22 1 = 1,
    if fld w 21 1 = 1 then some ⟨fld w 20 1 = 1, fld w 17 3⟩ else none,
    if fld w 16 1 = 1 then some (fld w 14 2) else none⟩
/-- The word of a prefix. -/
def encodePrefix (p : PrefixFields) : Nat :=
  0x40000000 + (if p.uniform then 2 ^ 31 else 0) + rndCode p.rnd * 2 ^ 26 + satCode p.sat * 2 ^ 24
  + (if p.fzi then 2 ^ 23 else 0) + (if p.fzo then 2 ^ 22 else 0)
  + (match p.guard with | none => 0 | some g => 2 ^ 21 + (if g.neg then 2 ^ 20 else 0) + g.p * 2 ^ 17)
  + (match p.bcast with | none => 0 | some i => 2 ^ 16 + i * 2 ^ 14)
/-- Prefixes that a word can hold. -/
def prefixWf (p : PrefixFields) : Bool :=
  (match p.guard with | none => true | some g => g.p < 8) && (match p.bcast with | none => true | some i => i < 4)

/-- A k register named by an 8-bit code (R358, R289, R327). -/
def kField (c : Nat) : Except IllegalSub Nat := if 0x80 ≤ c ∧ c < 0xC0 then .ok (c - 0x80) else .error .operand
/-- A k register, aligned and bounded (R287, R358). -/
def kGroup (align last c : Nat) : Except IllegalSub Nat := do
  let j ← kField c
  need .operand (j % align == 0 && j ≤ last)
  return j
/-- A destination that is a k register or none (R358, Table 11.4). -/
def kDst (c : Nat) : Except IllegalSub Dst := if c = 0xFF then .ok .none else (kField c).map .k
/-- A destination that is an x or a k register. -/
def xkDst (c : Nat) : Except IllegalSub Dst := do
  let d ← dst8 true c
  need .operand (match d with | .x _ => true | .k _ => true | _ => false)
  return d
/-- A destination that is an x or a k register or none. -/
def xknDst (c : Nat) : Except IllegalSub Dst := do
  let d ← dst8 true c
  need .operand (match d with | .o _ => false | _ => true)
  return d
/-- Destinations that are an x or a k register. -/
def xkOk : Dst → Bool
  | .x n => n < 128 | .k n => n < 64 | _ => false
/-- Destinations that are an x or a k register or none. -/
def xknOk : Dst → Bool
  | .none => true
  | d => xkOk d
/-- Destinations that are a k register or none. -/
def kDstOk : Dst → Bool
  | .k n => n < 64 | .none => true | _ => false
/-- An option of a k register: 0xCC holds its absence. -/
def kOpt (c : Nat) : Except IllegalSub (Option Nat) := if c = 0xCC then .ok none else (kField c).map some
/-- The code of an optional k register. -/
def kOptCode : Option Nat → Nat
  | none => 0xCC
  | some k => 0x80 + k
/-- A negative immediate index of the debug window is a reserved field (R327). -/
def dwIndexRes (c : Nat) : Bool := !(decide (0xE0 ≤ c) && decide (c < 0xF0))
/-- The index operand once its negative immediates are refused. -/
def dwIndex (c : Nat) : Except IllegalSub Src := do
  need .operand ((0x80 ≤ c && c < 0xC0) || 0xF0 ≤ c)
  return src8 c
/-- Index operands of the debug window. -/
def dwIndexOk : Src → Bool
  | .k n => n < 64 | .imm v => 0 ≤ v && v ≤ 15 | _ => false
/-- An amount operand of `fsig` (R366): a k register or an immediate code. -/
def sigAmount (c : Nat) : Except IllegalSub Src := do
  need .operand ((0x80 ≤ c && c < 0xC0) || 0xE0 ≤ c)
  return src8 c
/-- Amounts of `fsig`. -/
def sigOk : Src → Bool
  | .k n => n < 64 | .imm v => -16 ≤ v && v ≤ 15 | _ => false
/-- Shape 00 and kind 000 of a 64-bit word 0. -/
def plain0 (w0 : Nat) : Bool := fld w0 20 2 == 0 && fld w0 0 3 == 0
/-- A neutral word-1 guard. -/
def noGuard (w1 : Nat) : Bool := fld w1 12 4 == 0
/-- D8, A8, B8, C8 codes of a 64-bit instruction. -/
def d8 (w0 : Nat) : Nat := fld w0 12 8
def a8 (w0 : Nat) : Nat := fld w0 4 8
def b8 (w1 : Nat) : Nat := fld w1 24 8
def c8 (w1 : Nat) : Nat := fld w1 16 8

/-- Bits of a sub-element (R12). -/
def shapeBits : Shape → Nat
  | .d => 64 | .w => 32 | .h => 16 | .b => 8
/-- Sub-elements of a register (R12). -/
def subCount : Shape → Nat
  | .d => 1 | .w => 2 | .h => 4 | .b => 8
/-- E(shape, kind) of R110: sixteen for `.b` with `e2`. -/
def elemCount : Shape → Kind → Nat
  | .b, .e2 => 16
  | s, _ => subCount s
/-- The field of `bfx` and `bfi` lies within the sub-element (R96). -/
def fieldFits (w0 w1 : Nat) : Bool := decide (fld w1 0 6 + (fld w1 6 6 + 1) ≤ shapeBits (shapeOf (fld w0 20 2)))
/-- MOD of `cvt`, `qnt` and `dqn` (Table 4.4). -/
def cvtMod (w1 : Nat) : Except IllegalSub CvtMod := do
  let k ← coded (kindOf (fld w1 7 3))
  return ⟨shapeOf (fld w1 10 2), k, fld w1 4 3⟩
/-- The bits of MOD that name source shape, source kind and part. -/
def cvtBits (m : CvtMod) : Nat := shapeCode m.shape * 1024 + kindCode m.kind * 128 + m.part * 16
/-- The part H within its range (R111), for Es source and Ed destination sub-elements. -/
def partOk (es ed h : Nat) : Bool := if es ≤ ed then decide (h < ed / es) else decide (h < es / ed)
/-- Kinds that a destination field of 64-bit word 0 names; `i` stands in for the reserved code, refused elsewhere. -/
def dstKind (w0 : Nat) : Kind := (kindOf (fld w0 0 3)).getD .i
/-- Destination pairs of `cvt` under a source: C is used only where the part leaves other sub-elements (R111). -/
def cvtRule (ed : Nat) (m : CvtMod) : OpRule := ⟨true, false, decide (elemCount m.shape m.kind ≤ ed), cvtPair, .i, false⟩
/-- Operands of `cvt`. -/
def rCvt (w0 : Nat) (m : CvtMod) : OpRule := cvtRule (elemCount (shapeOf (fld w0 20 2)) (dstKind w0)) m
/-- Source pair and part of `cvt`. -/
def cvtOk (w0 : Nat) (m : CvtMod) : Bool :=
  cvtPair m.shape m.kind && partOk (elemCount m.shape m.kind) (elemCount (shapeOf (fld w0 20 2)) (dstKind w0)) m.part
/-- Source pairs of `qnt` (R117). -/
def qntPair : Shape → Kind → Bool
  | .w, .f | .h, .f | .h, .bf => true
  | _, _ => false
/-- Operands of `qnt`: scale mode reads no S (R117). -/
def rQnt (scale : Bool) : OpRule := ⟨true, !scale, true, fun s k => s == .b && (k == .e4 || k == .e5 || k == .e2), .i, false⟩
/-- Ed of `qnt`: scale mode has eight scale bytes. -/
def qntEd (scale : Bool) (k : Kind) : Nat := if scale then 8 else elemCount .b k
/-- Source pair and part of `qnt`. -/
def qntOk (w0 : Nat) (m : CvtMod) (scale : Bool) : Bool :=
  qntPair m.shape m.kind && partOk (elemCount m.shape m.kind) (qntEd scale (dstKind w0)) m.part
/-- Operands of `dqn`: C is the band scale when it is named (R118). -/
def rDqn (band : Bool) : OpRule := ⟨true, true, band, whPair, .i, false⟩
/-- Source pairs of `dqn` (R118). -/
def dqnPair : Shape → Kind → Bool
  | .b, .e4 | .b, .e5 | .b, .e2 => true
  | _, _ => false
/-- Source pair and part of `dqn`. -/
def dqnOk (w0 : Nat) (m : CvtMod) : Bool :=
  dqnPair m.shape m.kind && partOk (elemCount m.shape m.kind) (subCount (shapeOf (fld w0 20 2))) m.part
/-- As `dec64`, for an instruction that reads B8 in a way of its own (the caller checks it). -/
def dec64B (uni : Bool) (r : OpRule) (ok : Bool) (w0 w1 : Nat) : Except IllegalSub F64 := do
  let k ← kindUnder r w0
  need .reserved (ok && guardOk w1 && idle8 r.a (fld w0 4 8) && idle8 r.c (fld w1 16 8))
  let d ← dst8 uni (fld w0 12 8)
  need .operand (longDst r.long d)
  return ⟨shapeOf (fld w0 20 2), k, d, use8 r.a (fld w0 4 8), .zero, use8 r.c (fld w1 16 8), guardOf w1⟩
/-- Prefetch targets (R246). -/
def prefOf : Nat → Option PrefTarget
  | 0 => some .l1 | 1 => some .llc | 2 => some .ret | _ => none
/-- Code of a prefetch target. -/
def prefCode : PrefTarget → Nat
  | .l1 => 0 | .llc => 1 | .ret => 2
/-- The sense of `ubr` (R132). -/
def senseOf : Nat → Option BrSense
  | 0xFF => some .always | 0 => some .nz | 1 => some .z | _ => none
/-- Code of a sense. -/
def senseCode : BrSense → Nat
  | .always => 0xFF | .nz => 0 | .z => 1
/-- Fields of `binpatch` (R274). -/
def patchOf : Nat → Option PatchField
  | 0 => some .gx | 1 => some .par | 2 => some .box | _ => none
/-- Code of a patched field. -/
def patchCode : PatchField → Nat
  | .gx => 0 | .par => 1 | .box => 2
/-- Levels of `gresume` (Table 13.6). -/
def levelOf : Nat → Option StopLevel
  | 0 => some .group | 1 => some .partition | 2 => some .package | _ => none
/-- Code of a level. -/
def levelCode : StopLevel → Nat
  | .group => 0 | .partition => 1 | .package => 2
/-- Modes of `tlbi` (R331). -/
def tlbiOf : Nat → Option TlbiMode
  | 0 => some .all | 1 => some .asid | 2 => some .range | _ => none
/-- Code of a `tlbi` mode. -/
def tlbiCode : TlbiMode → Nat
  | .all => 0 | .asid => 1 | .range => 2
/-- Links of `call` are x registers (R124); `ucall` also takes o and k (R132). -/
def linkOk (uni : Bool) : Dst → Bool
  | .x _ => true
  | .none => false
  | _ => uni
/-- Optional k registers that a field can hold. -/
def kOptOk : Option Nat → Bool
  | none => true
  | some k => k < 64
/-- The hint bits of a scoped access (R231). -/
def memBits (m : MemMod) : Nat := m.shift + l1hCode m.l1h * 8 + (if m.nollc then 32 else 0)

/-- A 32-bit instruction word of Table 3.2 (S = `u`). -/
def enc32 (u op sh d a b : Nat) : Nat := u * 2 ^ 31 + op * 2 ^ 22 + sh * 2 ^ 20 + d * 2 ^ 14 + a * 2 ^ 7 + b
/-- Word 0 of Table 3.5. -/
def encW0 (u op sh d a : Nat) (x : Bool) (k : Nat) : Nat :=
  u * 2 ^ 31 + 2 ^ 29 + op * 2 ^ 22 + sh * 2 ^ 20 + d * 2 ^ 12 + a * 2 ^ 4 + (if x then 8 else 0) + k
/-- Word 1 of Table 3.6. -/
def encW1 (b c : Nat) (g : Option Guard) (mod : Nat) : Nat := b * 2 ^ 24 + c * 2 ^ 16 + guardBits g + mod
/-- The words of a 32-bit instruction. -/
def e32 (u op : Nat) (f : F32) : List Nat := [enc32 u op (shapeCode f.shape) (dst6Code f.d) (src7Code f.a) (src7Code f.b)]
/-- As `e32`, with a given B field. -/
def e32B (u op : Nat) (f : F32) (b : Nat) : List Nat := [enc32 u op (shapeCode f.shape) (dst6Code f.d) (src7Code f.a) b]
/-- As `e32`, with a given D field. -/
def e32D (u op d : Nat) (f : F32) : List Nat := [enc32 u op (shapeCode f.shape) d (src7Code f.a) (src7Code f.b)]
/-- The words of a 64-bit instruction with X = 0. -/
def e64 (u op : Nat) (f : F64) (mod : Nat) : List Nat :=
  [encW0 u op (shapeCode f.shape) (dst8Code f.d) (src8Code f.a) false (kindCode f.kind),
   encW1 (src8Code f.b) (src8Code f.c) f.guard mod]
/-- As `e64`, with a given B8 field. -/
def e64B (u op : Nat) (f : F64) (b mod : Nat) : List Nat :=
  [encW0 u op (shapeCode f.shape) (dst8Code f.d) (src8Code f.a) false (kindCode f.kind), encW1 b (src8Code f.c) f.guard mod]
/-- As `e64`, with a given D8 field. -/
def e64D (u op d : Nat) (f : F64) (mod : Nat) : List Nat :=
  [encW0 u op (shapeCode f.shape) d (src8Code f.a) false (kindCode f.kind),
   encW1 (src8Code f.b) (src8Code f.c) f.guard mod]
/-- The words of a 64-bit instruction whose D8 is a data source. -/
def e64S (u op : Nat) (f : F64S) (mod : Nat) : List Nat :=
  [encW0 u op (shapeCode f.shape) (src8Code f.data) (src8Code f.a) false (kindCode f.kind),
   encW1 (src8Code f.b) (src8Code f.c) f.guard mod]
/-- The words of a 64-bit instruction with X = 1. -/
def e64I (u op : Nat) (f : F64I) : List Nat :=
  [encW0 u op (shapeCode f.shape) (dst8Code f.d) (src8Code f.a) true (kindCode f.kind), f.imm]
/-- As `e64I`, with a given D8 field. -/
def e64ID (u op d : Nat) (f : F64I) : List Nat :=
  [encW0 u op (shapeCode f.shape) d (src8Code f.a) true (kindCode f.kind), f.imm]
/-- The words of a 64-bit instruction with X = 1 whose D8 is a data source. -/
def e64IS (u op : Nat) (f : F64IS) : List Nat :=
  [encW0 u op (shapeCode f.shape) (src8Code f.data) (src8Code f.a) true (kindCode f.kind), f.imm]

/-- Single words of the lane set (Table 3.9). Ops the table leaves, and forms an instruction does not define, answer the opcode subcause (R76). -/
noncomputable def lane32 (op w : Nat) : Except IllegalSub Instr :=
  match op with
  | 0x00 => do return .add (← dec32 rInt w)
  | 0x01 => do return .sub (← dec32 rInt w)
  | 0x02 => do return .mul (← dec32 rInt w)
  | 0x03 => do return .mulh (← dec32 rInt w)
  | 0x05 => do return .min (← dec32 rInt w)
  | 0x06 => do return .max (← dec32 rInt w)
  | 0x07 => do return .abs (← dec32 rAbs w)
  | 0x08 => do return .and (← dec32 rInt w)
  | 0x09 => do return .or (← dec32 rInt w)
  | 0x0A => do return .xor (← dec32 rInt w)
  | 0x0B => do return .andn (← dec32 rInt w)
  | 0x0C => do return .shl (← dec32 rInt w)
  | 0x0D => do return .shr (← dec32 rInt w)
  | 0x0E => do return .sar (← dec32 rInt w)
  | 0x0F => do return .rot (← dec32 rInt w)
  | 0x10 => do return .clz (← dec32 rIntA w)
  | 0x11 => do return .popc (← dec32 rIntA w)
  | 0x15 => do
    let c ← coded (condOf (fld w 17 3))
    return .cmp c (fld w 14 3) (← dec32C rInt true w)
  | 0x18 => do return .mov (← dec32 rIntB w)
  | 0x19 => do return .lea (← dec32 rLea w)
  | 0x1A => do return .dot4 (← dec32 rDot2 w)
  | 0x1B => do return .sad (← dec32 rDot2 w)
  | 0x20 => do return .fadd (← dec32 rF w)
  | 0x21 => do return .fsub (← dec32 rF w)
  | 0x22 => do return .fmul (← dec32 rF w)
  | 0x24 => do return .fmin (← dec32 rF w)
  | 0x25 => do return .fmax (← dec32 rF w)
  | 0x26 => do
    let c := fcondOf (fld w 17 3)
    return .fcmp c (fld w 14 3) (← dec32C rF true w)
  | 0x27 => do return .fclass (← dec32 rF1 w)
  | 0x28 => do return .fdiv (← dec32 rFdiv w)
  | 0x29 => do return .fsqrt (← dec32 rFsqrt w)
  | 0x2A => do return .rcp (← dec32 rRcp w)
  | 0x2B => do return .rsq (← dec32 rRcp w)
  | 0x2C => do return .ex2 (← dec32 rFun w)
  | 0x2D => do return .lg2 (← dec32 rFun w)
  | 0x2E => do return .sin (← dec32 rFun w)
  | 0x2F => do return .cos (← dec32 rFun w)
  | 0x30 => do return .frnd (← dec32 rF1 w)
  | 0x31 => do return .fscl (← dec32 rFscl w)
  | 0x32 => do return .fexp (← dec32 rF1 w)
  | 0x33 => do return .fdot2 (← dec32 rFdot2 w)
  | 0x41 => do return .pk (← dec32 rPk w)
  | 0x42 => do return .upk (← dec32B rUpk (fld w 1 6 == 0x38) w) (fld w 0 1)
  | 0x43 => do return .swz (← dec32 rSwz2 w)
  | 0x44 => do return .bcs (← dec32 rInt w)
  | 0x45 => do return .rng (← dec32 rRng w)
  | 0x50 => do return .xsh (← dec32 rInt w)
  | 0x51 => do return .xpush (← dec32 rInt w)
  | 0x53 => do return .xrot (← dec32B rIntA (fld w 5 2 == 3) w) ((fld w 0 7 : Int) - 0x70)
  | 0x54 => do return .vote (voteOf (fld w 0 2)) (← dec32B (rVote (voteOf (fld w 0 2))) (fld w 2 5 == 0x1C) w)
  | 0x55 => do
    let o ← coded (redOf (fld w 0 4))
    return .xred o (← dec32B (rRed o) (fld w 4 3 == 7) w)
  | 0x56 => do
    let o ← coded (redOf (fld w 0 4))
    return .xscan o (← dec32B (rRed o) (fld w 4 3 == 7) w)
  | 0x57 => do return .xmatch (← dec32 rXmatch w)
  | 0x60 => do
    let (f, n) ← dec32M rMem w
    return .ld f n
  | 0x61 => do
    let (f, n) ← dec32S rMem w
    return .st f n
  | 0x62 => do
    let (f, n) ← dec32M rMem w
    return .lds f n
  | 0x63 => do
    let (f, n) ← dec32S rMem w
    return .sts f n
  | 0x69 => do
    need .reserved (fld w 14 6 == 0x3F)
    let (f, n) ← dec32M rPref w
    return .pref f n
  | 0x6B => do
    need .reserved (w / 8 == 0x1ACFEE70 / 8)
    return .cseal (fld w 0 3)
  | 0x6C => do
    need .reserved (w / 16 == 0x1B0FEE70 / 16 && decide (fld w 0 4 ≤ 8))
    return .cwait (fld w 0 4)
  | 0x6E => do if w = 0x1B8FEE70 then return .phasePub else if w = 0x1B8FEE71 then return .phaseAcq else if w = 0x1B8FEE72 then return .phaseAr else throw .reserved
  | 0x6F => do if w = 0x1BCFEE70 then return .fenceLd else if w = 0x1BCFEE71 then return .fenceIo else if w = 0x1BCFEE72 then return .fenceSp else throw .reserved
  | 0x70 => do
    need .reserved (fld w 20 2 == 0)
    return .br (signed 20 (fld w 0 20))
  | 0x71 => do
    need .reserved (fld w 20 2 == 0 && fld w 14 6 == 0x3F && fld w 0 7 == 0x5C)
    return .brx (← src7 (fld w 7 7))
  | 0x73 => do
    need .reserved (fld w 20 2 == 0 && fld w 14 6 == 0x3F && fld w 0 7 == 0x5C)
    return .ret (← src7 (fld w 7 7))
  | 0x74 => do if w = 0x1D0FEE70 then return .reform else if w = 0x1D0FEE71 then return .reformAll else throw .reserved
  | 0x75 => do if w = 0x1D4FEE5C then return .exit else throw .reserved
  | 0x76 => do
    need .reserved (w / 16 == 0x1D8FEE70 / 16)
    return .brk (fld w 0 4)
  | 0x77 => do
    need .reserved (w / 128 == 0x1DCFEE00 / 128)
    return .trap (← src7 (fld w 0 7))
  | 0x78 => do if w = 0x1E0FEE5C then return .nop else throw .reserved
  | 0x79 => do
    need .reserved (w / 128 == 0x1E4FEE00 / 128)
    return .pmark (← src7 (fld w 0 7))
  | _ => .error .opcode

/-- Two-word lane instructions with X = 0 (Table 3.9). Ops the table leaves, and forms an instruction does not define, answer the opcode
subcause (R76). R99 does not say that a carry predicate's number must be 0 where its enable bit is 0: any value is accepted there (DESIGN
CHOICE, log 101). -/
noncomputable def lane64 (op w0 w1 : Nat) : Except IllegalSub Instr :=
  match op with
  | 0x00 => do return .add64 (← dec64 false rInt (modField w1 == 0) w0 w1)
  | 0x01 => do return .sub64 (← dec64 false rInt (modField w1 == 0) w0 w1)
  | 0x02 => do return .mul64 (← dec64 false rInt (modField w1 == 0) w0 w1)
  | 0x03 => do return .mulh64 (← dec64 false rInt (modField w1 == 0) w0 w1)
  | 0x04 => do return .mad (← dec64 false rInt3 (modField w1 == 0) w0 w1)
  | 0x05 => do return .min64 (← dec64 false rInt (modField w1 == 0) w0 w1)
  | 0x06 => do return .max64 (← dec64 false rInt (modField w1 == 0) w0 w1)
  | 0x07 => do return .abs64 (← dec64 false rAbs (modField w1 == 0) w0 w1)
  | 0x08 => do return .and64 (← dec64 false rInt (modField w1 == 0) w0 w1)
  | 0x09 => do return .or64 (← dec64 false rInt (modField w1 == 0) w0 w1)
  | 0x0A => do return .xor64 (← dec64 false rInt (modField w1 == 0) w0 w1)
  | 0x0B => do return .andn64 (← dec64 false rInt (modField w1 == 0) w0 w1)
  | 0x0C => do return .shl64 (← dec64 false rInt (modField w1 == 0) w0 w1)
  | 0x0D => do return .shr64 (← dec64 false rInt (modField w1 == 0) w0 w1)
  | 0x0E => do return .sar64 (← dec64 false rInt (modField w1 == 0) w0 w1)
  | 0x0F => do return .rot64 (← dec64 false rInt (modField w1 == 0) w0 w1)
  | 0x10 => do return .clz64 (← dec64 false rIntA (modField w1 == 0) w0 w1)
  | 0x11 => do return .popc64 (← dec64 false rIntA (modField w1 == 0) w0 w1)
  | 0x12 => do return .bfx (← dec64 false rIntA (fieldFits w0 w1) w0 w1) (fld w1 0 6) (fld w1 6 6 + 1)
  | 0x13 => do return .bfi (← dec64 false rInt (fieldFits w0 w1) w0 w1) (fld w1 0 6) (fld w1 6 6 + 1)
  | 0x14 => do return .sel (← dec64 false rInt (fld w1 4 8 == 0) w0 w1) (fld w1 0 3) (fld w1 3 1 == 1)
  | 0x15 => do
    let c ← coded (condOf (fld w0 15 3))
    return .cmp64 c (fld w0 12 3) (← dec64N rInt (modField w1 == 0 && fld w0 18 2 == 0) w0 w1)
  | 0x16 => do return .addc (← dec64 false rInt (fld w1 8 4 == 0) w0 w1) ⟨fld w1 0 3, fld w1 3 1 == 1⟩ ⟨fld w1 4 3, fld w1 7 1 == 1⟩
  | 0x17 => do return .subb (← dec64 false rInt (fld w1 8 4 == 0) w0 w1) ⟨fld w1 0 3, fld w1 3 1 == 1⟩ ⟨fld w1 4 3, fld w1 7 1 == 1⟩
  | 0x18 => do return .mov64 (← dec64 false rIntB (modField w1 == 0) w0 w1)
  | 0x19 => do return .lea64 (← dec64 false rLea (fld w1 3 9 == 0) w0 w1) (fld w1 0 3)
  | 0x1A => do return .dot464 (← dec64 false rDot (modField w1 == 0) w0 w1)
  | 0x1B => do return .sad64 (← dec64 false rDot (modField w1 == 0) w0 w1)
  | 0x20 => do return .fadd64 (← dec64 false rF (modField w1 == 0) w0 w1)
  | 0x21 => do return .fsub64 (← dec64 false rF (modField w1 == 0) w0 w1)
  | 0x22 => do return .fmul64 (← dec64 false rF (modField w1 == 0) w0 w1)
  | 0x23 => do return .fma (← dec64 false rF3 (modField w1 == 0) w0 w1)
  | 0x24 => do return .fmin64 (← dec64 false rF (modField w1 == 0) w0 w1)
  | 0x25 => do return .fmax64 (← dec64 false rF (modField w1 == 0) w0 w1)
  | 0x26 => do
    let c := fcondOf (fld w0 15 3)
    return .fcmp64 c (fld w0 12 3) (← dec64N rF (modField w1 == 0 && fld w0 18 2 == 0) w0 w1)
  | 0x27 => do return .fclass64 (← dec64 false rF1 (modField w1 == 0) w0 w1)
  | 0x28 => do return .fdiv64 (← dec64 false rFdiv (modField w1 == 0) w0 w1)
  | 0x29 => do return .fsqrt64 (← dec64 false rFsqrt (modField w1 == 0) w0 w1)
  | 0x2A => do return .rcp64 (← dec64 false rRcp (modField w1 == 0) w0 w1)
  | 0x2B => do return .rsq64 (← dec64 false rRcp (modField w1 == 0) w0 w1)
  | 0x2C => do return .ex264 (← dec64 false rFun (modField w1 == 0) w0 w1)
  | 0x2D => do return .lg264 (← dec64 false rFun (modField w1 == 0) w0 w1)
  | 0x2E => do return .sin64 (← dec64 false rFun (modField w1 == 0) w0 w1)
  | 0x2F => do return .cos64 (← dec64 false rFun (modField w1 == 0) w0 w1)
  | 0x30 => do return .frnd64 (← dec64 false rF1 (modField w1 == 0) w0 w1)
  | 0x31 => do return .fscl64 (← dec64 false rFscl (modField w1 == 0) w0 w1)
  | 0x32 => do return .fexp64 (← dec64 false rF1 (modField w1 == 0) w0 w1)
  | 0x33 => do return .fdot264 (← dec64 false rFdot (modField w1 == 0) w0 w1)
  | 0x40 => do
    let m ← cvtMod w1
    return .cvt (← dec64 false (rCvt w0 m) (fld w1 0 4 == 0 && cvtOk w0 m) w0 w1) m
  | 0x41 => do return .pk64 (← dec64 false rPk (modField w1 == 0) w0 w1)
  | 0x42 => do return .upk64 (← dec64B false rUpk (modField w1 == 0 && fld w1 25 7 == 0x78) w0 w1) (fld w1 24 1)
  | 0x43 => do return .swz64 (← dec64 false rSwz (modField w1 == 0) w0 w1)
  | 0x44 => do return .bcs64 (← dec64 false rInt (fld w1 1 11 == 0) w0 w1) (fld w1 0 1 == 1)
  | 0x45 => do return .rng64 (← dec64 false rRng (modField w1 == 0) w0 w1)
  | 0x46 => do
    let m ← cvtMod w1
    return .qnt (← dec64 false (rQnt (fld w1 3 1 == 1)) (fld w1 0 3 == 0 && qntOk w0 m (fld w1 3 1 == 1)) w0 w1) m (fld w1 3 1 == 1)
  | 0x47 => do
    let m ← cvtMod w1
    return .dqn (← dec64 false (rDqn (fld w1 3 1 == 1)) (fld w1 0 3 == 0 && dqnOk w0 m) w0 w1) m (fld w1 3 1 == 1)
  | 0x50 => do return .xsh64 (← dec64 false rInt3 (modField w1 == 0) w0 w1)
  | 0x51 => do return .xpush64 (← dec64 false rInt3 (modField w1 == 0) w0 w1)
  | 0x52 => do return .xbc (← dec64 false rXbc (fld w1 8 4 == 0 && decide (fld w1 5 3 < subCount (shapeOf (fld w0 20 2)))) w0 w1) (fld w1 0 5) (fld w1 5 3)
  | 0x53 => do return .xrot64 (← dec64 false rXbc (fld w1 8 4 == 0 && decide (fld w1 0 8 < 32 * subCount (shapeOf (fld w0 20 2)))) w0 w1) (fld w1 0 8)
  | 0x54 => do return .vote64 (voteOf (fld w1 0 2)) (← dec64 false (rVote (voteOf (fld w1 0 2))) (fld w1 2 10 == 0) w0 w1)
  | 0x55 => do
    let o ← coded (redOf (fld w1 0 4))
    return .xred64 o (← dec64 false (rRed o) (fld w1 4 8 == 0) w0 w1)
  | 0x56 => do
    let o ← coded (redOf (fld w1 0 4))
    return .xscan64 o (← dec64 false (rRed o) (fld w1 4 8 == 0) w0 w1)
  | 0x57 => do return .xmatch64 (← dec64 false rXmatch (modField w1 == 0) w0 w1)
  | 0x60 => do
    let h ← coded (l1hOf (fld w1 3 2))
    return .ld64 (← dec64 false rMem (fld w1 6 6 == 0) w0 w1) ⟨fld w1 0 3, h, fld w1 5 1 == 1⟩
  | 0x61 => do
    let h ← coded (l1hOf (fld w1 3 2))
    return .st64 (← dec64S rMem (fld w1 6 6 == 0) w0 w1) ⟨fld w1 0 3, h, fld w1 5 1 == 1⟩
  | 0x62 => do return .lds64 (← dec64 false rMem (fld w1 3 9 == 0) w0 w1) (fld w1 0 3)
  | 0x63 => do return .sts64 (← dec64S rMem (fld w1 3 9 == 0) w0 w1) (fld w1 0 3)
  | 0x64 => do return .ldx (← dec64 false rLdx (modField w1 == 0) w0 w1)
  | 0x65 => do return .stx (← dec64S rStx (fld w1 0 3 == 0 && fld w1 4 8 == 0) w0 w1) (fld w1 3 1 == 1)
  | 0x66 => do
    let o ← coded (atomOf (fld w1 0 4))
    return .atom (← dec64 false (rAtom o (d8 w0 != 0xFF)) true w0 w1) o (flavourOf (fld w1 4 2)) (signed 6 (fld w1 6 6))
  | 0x67 => do return .atomx (← dec64 false (rAtomx (fld w1 0 1 == 1) (d8 w0 != 0xFF)) (fld w1 1 3 == 0) w0 w1) (fld w1 0 1 == 1) (flavourOf (fld w1 4 2)) (signed 6 (fld w1 6 6))
  | 0x68 => do return .stash (← dec64S rStash (modField w1 == 0) w0 w1)
  | 0x69 => do
    let t ← coded (prefOf (fld w1 3 2))
    return .pref64 (← dec64N rPref (d8 w0 == 0xFF && fld w1 5 7 == 0) w0 w1) (fld w1 0 3) t
  | 0x6A => do return .cpout (← dec64N rCpout (d8 w0 == 0xFF && modField w1 == 0) w0 w1)
  | 0x6D => do
    let c ← coded (condOf (fld w1 0 3))
    let f ← dec64 false rWaitv (fld w1 3 9 == 0) w0 w1
    need .operand (f.d != .none)
    return .waitv f c
  | 0x71 => do
    need .reserved (plain0 w0 && d8 w0 == 0xFF && b8 w1 == 0xCC && c8 w1 == 0xCC && modField w1 == 0 && guardOk w1)
    return .brx64 (src8 (a8 w0)) (guardOf w1)
  | 0x73 => do
    need .reserved (plain0 w0 && d8 w0 == 0xFF && b8 w1 == 0xCC && c8 w1 == 0xCC && modField w1 == 0 && guardOk w1)
    return .ret64 (src8 (a8 w0)) (guardOf w1)
  | 0x75 => do
    need .reserved (plain0 w0 && d8 w0 == 0xFF && a8 w0 == 0xCC && b8 w1 == 0xCC && c8 w1 == 0xCC && modField w1 == 0 && guardOk w1)
    return .exit64 (guardOf w1)
  | _ => .error .opcode

/-- Two-word lane instructions with X = 1 (Table 3.9). Ops the table leaves, and forms an instruction does not define, answer the opcode subcause (R76). -/
noncomputable def lane64i (op w0 w1 : Nat) : Except IllegalSub Instr :=
  match op with
  | 0x00 => do return .add64i (← dec64I false rInt w0 w1)
  | 0x01 => do return .sub64i (← dec64I false rInt w0 w1)
  | 0x02 => do return .mul64i (← dec64I false rInt w0 w1)
  | 0x03 => do return .mulh64i (← dec64I false rInt w0 w1)
  | 0x05 => do return .min64i (← dec64I false rInt w0 w1)
  | 0x06 => do return .max64i (← dec64I false rInt w0 w1)
  | 0x08 => do return .and64i (← dec64I false rInt w0 w1)
  | 0x09 => do return .or64i (← dec64I false rInt w0 w1)
  | 0x0A => do return .xor64i (← dec64I false rInt w0 w1)
  | 0x0B => do return .andn64i (← dec64I false rInt w0 w1)
  | 0x0C => do return .shl64i (← dec64I false rInt w0 w1)
  | 0x0D => do return .shr64i (← dec64I false rInt w0 w1)
  | 0x0E => do return .sar64i (← dec64I false rInt w0 w1)
  | 0x0F => do return .rot64i (← dec64I false rInt w0 w1)
  | 0x15 => do
    let c ← coded (condOf (fld w0 15 3))
    return .cmp64i c (fld w0 12 3) (← dec64IN rInt (fld w0 18 2 == 0) w0 w1)
  | 0x18 => do return .mov64i (← dec64I false rIntB w0 w1)
  | 0x19 => do return .lea64i (← dec64I false rLea w0 w1)
  | 0x20 => do return .fadd64i (← dec64I false rF w0 w1)
  | 0x21 => do return .fsub64i (← dec64I false rF w0 w1)
  | 0x22 => do return .fmul64i (← dec64I false rF w0 w1)
  | 0x24 => do return .fmin64i (← dec64I false rF w0 w1)
  | 0x25 => do return .fmax64i (← dec64I false rF w0 w1)
  | 0x26 => do
    let c := fcondOf (fld w0 15 3)
    return .fcmp64i c (fld w0 12 3) (← dec64IN rF (fld w0 18 2 == 0) w0 w1)
  | 0x28 => do return .fdiv64i (← dec64I false rFdiv w0 w1)
  | 0x31 => do return .fscl64i (← dec64I false rFscl w0 w1)
  | 0x60 => do return .ld64i (← dec64IM false rMem w0 w1)
  | 0x61 => do return .st64i (← dec64IS rMem w0 w1)
  | 0x62 => do return .lds64i (← dec64IM false rMem w0 w1)
  | 0x63 => do return .sts64i (← dec64IS rMem w0 w1)
  | 0x64 => do return .ldx64i (← dec64IM false rLdx w0 w1)
  | 0x65 => do return .stx64i (← dec64IS rStx w0 w1)
  | 0x69 => do
    need .reserved (d8 w0 == 0xFF)
    return .pref64i (← dec64IM false rPref w0 w1)
  | 0x70 => do
    need .reserved (plain0 w0 && d8 w0 == 0xFF && a8 w0 == 0xCC)
    return .br64i (signed 32 w1)
  | 0x72 => do
    need .reserved (plain0 w0 && a8 w0 == 0xCC)
    let d ← dst8 false (d8 w0)
    need .operand (linkOk false d)
    return .call d (signed 32 w1)
  | 0x77 => do
    need .reserved (plain0 w0 && d8 w0 == 0xFF && a8 w0 == 0xCC && decide (w1 < 2 ^ 16))
    return .trap64i w1
  | 0x79 => do
    need .reserved (plain0 w0 && d8 w0 == 0xFF && a8 w0 == 0xCC && decide (w1 < 2 ^ 16))
    return .pmark64i w1
  | _ => .error .opcode

/-- What a form that an instruction's description does not define answers: the opcode subcause (R76), but the reserved-field subcause for
the matrix and the fabric instructions (R289, R358). -/
def otherForm (op : Nat) : IllegalSub :=
  if (0x40 ≤ op && op < 0x4C) || (0x60 ≤ op && op < 0x6D) then .reserved else .opcode

/-- Single words of the uniform set (Table 3.10). Ops the table leaves, and forms an instruction does not define, answer the opcode subcause (R76). -/
noncomputable def uni32 (op w : Nat) : Except IllegalSub Instr :=
  match op with
  | 0x00 => do return .kadd (← dec32 rInt w)
  | 0x01 => do return .ksub (← dec32 rInt w)
  | 0x02 => do return .kmul (← dec32 rInt w)
  | 0x04 => do return .kdiv (← dec32 rInt w)
  | 0x05 => do return .kmin (← dec32 rInt w)
  | 0x06 => do return .kmax (← dec32 rInt w)
  | 0x07 => do return .kand (← dec32 rInt w)
  | 0x08 => do return .kor (← dec32 rInt w)
  | 0x09 => do return .kxor (← dec32 rInt w)
  | 0x0A => do return .kshl (← dec32 rInt w)
  | 0x0B => do return .kshr (← dec32 rInt w)
  | 0x0C => do return .ksar (← dec32 rInt w)
  | 0x0F => do return .kmov (← dec32 rIntB w)
  | 0x10 => do return .kclz (← dec32 rIntA w)
  | 0x11 => do return .kpopc (← dec32 rIntA w)
  | 0x14 => do return .klea (← dec32 rLea w)
  | 0x20 => do
    let (f, n) ← dec32M rMem w
    return .kld f n
  | 0x21 => do
    let (f, n) ← dec32S rMem w
    return .kst f n
  | 0x23 => do
    need .reserved (fld w 20 2 == 0)
    return .ubr (signed 20 (fld w 0 20))
  | 0x24 => do
    need .reserved (fld w 20 2 == 0 && fld w 14 6 == 0x3F && fld w 0 7 == 0x5C)
    return .ubrx (← src7 (fld w 7 7))
  | 0x26 => do
    need .reserved (fld w 20 2 == 0 && fld w 14 6 == 0x3F && fld w 0 7 == 0x5C)
    return .uret (← src7 (fld w 7 7))
  | 0x27 => do if w = 0x89CFEE5C then return .uexit else throw .reserved
  | 0x30 => do
    need .reserved (fld w 14 8 == 0x3F && fld w 4 3 == 7)
    return .barinit (← src7 (fld w 7 7)) (fld w 0 4)
  | 0x31 => do
    need .reserved (fld w 20 2 == 0 && fld w 4 3 == 7)
    let d ← dst6 (fld w 14 6)
    return .barrive d (← src7 (fld w 7 7)) (fld w 0 4)
  | 0x32 => do
    need .reserved (fld w 14 8 == 0x3F && fld w 4 3 == 7)
    return .barwait (← src7 (fld w 7 7)) (fld w 0 4)
  | 0x33 => do
    need .reserved (fld w 20 2 == 0 && fld w 4 10 == 0x2E7)
    let d ← dst6 (fld w 14 6)
    return .bartest d (fld w 0 4)
  | 0x34 => do
    need .reserved (w / 8 == 0x8D0FEE70 / 8)
    return .cinch (fld w 0 3)
  | 0x3A => do
    need .reserved (fld w 20 2 == 0 && fld w 0 14 == 0x2E70 && !(decide (0x38 ≤ fld w 14 6) && decide (fld w 14 6 < 0x3F)))
    return .mstart (← dst6 (fld w 14 6))
  | 0x72 => do
    need .reserved (fld w 14 8 == 0x3F && fld w 0 7 == 0x5C)
    return .bell (← src7 (fld w 7 7))
  | 0x7F => do if w = 0x9FCFEE5C then return .eret else throw .reserved
  | _ => .error (otherForm op)

/-- Two-word uniform instructions with X = 0 (Table 3.10). Ops the table leaves, and forms an instruction does not define, answer the opcode subcause (R76). -/
noncomputable def uni64 (op w0 w1 : Nat) : Except IllegalSub Instr :=
  match op with
  | 0x00 => do return .kadd64 (← dec64 true rInt (modField w1 == 0) w0 w1)
  | 0x01 => do return .ksub64 (← dec64 true rInt (modField w1 == 0) w0 w1)
  | 0x02 => do return .kmul64 (← dec64 true rInt (modField w1 == 0) w0 w1)
  | 0x03 => do return .kmad (← dec64 true rInt3 (modField w1 == 0) w0 w1)
  | 0x04 => do return .kdiv64 (← dec64 true rInt (modField w1 == 0) w0 w1)
  | 0x05 => do return .kmin64 (← dec64 true rInt (modField w1 == 0) w0 w1)
  | 0x06 => do return .kmax64 (← dec64 true rInt (modField w1 == 0) w0 w1)
  | 0x07 => do return .kand64 (← dec64 true rInt (modField w1 == 0) w0 w1)
  | 0x08 => do return .kor64 (← dec64 true rInt (modField w1 == 0) w0 w1)
  | 0x09 => do return .kxor64 (← dec64 true rInt (modField w1 == 0) w0 w1)
  | 0x0A => do return .kshl64 (← dec64 true rInt (modField w1 == 0) w0 w1)
  | 0x0B => do return .kshr64 (← dec64 true rInt (modField w1 == 0) w0 w1)
  | 0x0C => do return .ksar64 (← dec64 true rInt (modField w1 == 0) w0 w1)
  | 0x0D => do
    let c ← coded (condOf (fld w1 0 3))
    return .kcmp (← dec64 true rInt (fld w1 3 9 == 0) w0 w1) c
  | 0x0E => do return .ksel (← dec64 true rInt3 (modField w1 == 0) w0 w1)
  | 0x0F => do return .kmov64 (← dec64 true rIntB (modField w1 == 0) w0 w1)
  | 0x10 => do return .kclz64 (← dec64 true rIntA (modField w1 == 0) w0 w1)
  | 0x11 => do return .kpopc64 (← dec64 true rIntA (modField w1 == 0) w0 w1)
  | 0x12 => do return .kbfx (← dec64 true rIntA (fieldFits w0 w1) w0 w1) (fld w1 0 6) (fld w1 6 6 + 1)
  | 0x13 => do return .kbfi (← dec64 true rInt (fieldFits w0 w1) w0 w1) (fld w1 0 6) (fld w1 6 6 + 1)
  | 0x14 => do return .klea64 (← dec64 true rLea (fld w1 3 9 == 0) w0 w1) (fld w1 0 3)
  | 0x20 => do
    let h ← coded (l1hOf (fld w1 3 2))
    return .kld64 (← dec64 true rMem (fld w1 6 6 == 0) w0 w1) ⟨fld w1 0 3, h, fld w1 5 1 == 1⟩
  | 0x21 => do
    let h ← coded (l1hOf (fld w1 3 2))
    return .kst64 (← dec64S rMem (fld w1 6 6 == 0) w0 w1) ⟨fld w1 0 3, h, fld w1 5 1 == 1⟩
  | 0x22 => do
    let o ← coded (atomOf (fld w1 0 4))
    return .katom (← dec64 true (rAtom o (d8 w0 != 0xFF)) true w0 w1) o (flavourOf (fld w1 4 2)) (signed 6 (fld w1 6 6))
  | 0x24 => do
    need .reserved (plain0 w0 && d8 w0 == 0xFF && b8 w1 == 0xCC && c8 w1 == 0xCC && modField w1 == 0 && noGuard w1)
    return .ubrx64 (src8 (a8 w0))
  | 0x26 => do
    need .reserved (plain0 w0 && d8 w0 == 0xFF && b8 w1 == 0xCC && c8 w1 == 0xCC && modField w1 == 0 && noGuard w1)
    return .uret64 (src8 (a8 w0))
  | 0x27 => do
    need .reserved (w0 == encW0 1 0x27 0 0xFF 0xCC false 0 && w1 == 0xCCCC0000)
    return .uexit64
  | 0x28 => do
    need .reserved (plain0 w0 && b8 w1 == 0xCC && c8 w1 == 0xCC && fld w1 1 11 == 0 && guardOk w1)
    let d ← xknDst (d8 w0)
    return .launch d (src8 (a8 w0)) (fld w1 0 1 == 1) (guardOf w1)
  | 0x29 => do
    need .reserved (plain0 w0 && b8 w1 == 0xCC && c8 w1 == 0xCC && fld w1 5 7 == 0 && guardOk w1)
    let d ← xknDst (d8 w0)
    return .rcbrd d (src8 (a8 w0)) (fld w1 0 5) (guardOf w1)
  | 0x30 => do
    need .reserved (plain0 w0 && d8 w0 == 0xFF && c8 w1 == 0xCC && fld w1 4 8 == 0 && guardOk w1)
    return .barinit64 (src8 (a8 w0)) (src8 (b8 w1)) (fld w1 0 4) (guardOf w1)
  | 0x31 => do
    need .reserved (plain0 w0 && b8 w1 == 0xCC && c8 w1 == 0xCC && fld w1 5 7 == 0 && guardOk w1)
    let d ← dst8 true (d8 w0)
    return .barrive64 d (src8 (a8 w0)) (fld w1 0 4) (fld w1 4 1 == 1) (guardOf w1)
  | 0x35 => do
    need .reserved (plain0 w0 && c8 w1 == 0xCC && fld w1 4 8 == 0 && guardOk w1 && (if fld w1 3 1 = 1 then a8 w0 == 0xCC && b8 w1 == 0xCC else a8 w0 == 0xCC || (fld w0 10 2 == 2 && fld w0 4 2 == 0)))
    let d ← dst8 true (d8 w0)
    if fld w1 3 1 = 1 then return .cinchcfgUnbind d (fld w1 0 3) (guardOf w1) else return .cinchcfg d (if a8 w0 = 0xCC then none else some (a8 w0 - 0x80)) (src8 (b8 w1)) (fld w1 0 3) (guardOf w1)
  | 0x36 => do
    need .reserved (plain0 w0 && d8 w0 == 0xFF && noGuard w1 && decide (fld w1 4 4 < fld w1 8 4 + 1) && b8 w1 != 0xBE && b8 w1 != 0xBF)
    let j ← kGroup 1 61 (b8 w1)
    return .cpslice (src8 (a8 w0)) j (src8 (c8 w1)) (fld w1 0 4) (fld w1 4 4) (fld w1 8 4 + 1)
  | 0x37 => do
    need .reserved (plain0 w0 && d8 w0 == 0xFF && c8 w1 == 0xCC && modField w1 == 0 && guardOk w1)
    return .binct (src8 (a8 w0)) (src8 (b8 w1)) (guardOf w1)
  | 0x38 => do
    let p ← coded (patchOf (fld w1 0 2))
    need .reserved (plain0 w0 && fld w1 8 4 == 0 && guardOk w1 && decide (d8 w0 < 0xC0))
    let d ← xkDst (d8 w0)
    return .binpatch d (src8 (a8 w0)) (src8 (b8 w1)) (src8 (c8 w1)) p (fld w1 2 6) (guardOf w1)
  | 0x39 => do
    need .reserved (plain0 w0 && d8 w0 == 0xFF && c8 w1 == 0xCC && fld w1 1 11 == 0 && guardOk w1 && (if fld w1 0 1 = 1 then a8 w0 == 0xCC else b8 w1 == 0xCC))
    if fld w1 0 1 = 1 then return .binrelClear (src8 (b8 w1)) (guardOf w1) else return .binrel (src8 (a8 w0)) (guardOf w1)
  | 0x40 => do
    need .reserved (plain0 w0 && d8 w0 == 0xFF && b8 w1 == 0xCC && c8 w1 == 0xCC && noGuard w1 && fld w1 5 7 == 0)
    let j ← kGroup 2 62 (a8 w0)
    return .bload j (fld w1 0 5)
  | 0x41 => do
    need .reserved (plain0 w0 && d8 w0 == 0xFF && noGuard w1 && fld w1 29 3 == 0 && fld w1 21 3 == 0 && fld w1 10 2 == 0)
    let j ← kGroup 2 62 (a8 w0)
    return .mma j (fld w1 24 5 + 1) (fld w1 16 5 + 1) (fld w1 0 5) (fld w1 5 5)
  | 0x42 => do
    need .reserved (plain0 w0 && d8 w0 == 0xFF && a8 w0 == 0xCC && b8 w1 == 0xCC && c8 w1 == 0xCC && noGuard w1 && fld w1 10 2 == 0)
    return .mzero (fld w1 0 5) (fld w1 5 5 + 1)
  | 0x43 => do
    need .reserved (plain0 w0 && d8 w0 == 0xFF && c8 w1 == 0xCC && noGuard w1 && fld w1 7 5 == 0 && fld w1 0 2 != 3 && (if fld w1 0 2 = 2 then a8 w0 == 0xCC else true) && (if fld w1 0 2 = 0 then b8 w1 == 0xCC else true))
    if fld w1 0 2 = 0 then return .mdrainSt (← kGroup 2 62 (a8 w0)) (fld w1 2 5) else if fld w1 0 2 = 1 then do
      let j ← kGroup 2 62 (a8 w0)
      return .mdrainAdd j (← kField (b8 w1)) (fld w1 2 5)
    else return .mdrainPeer (← kField (b8 w1)) (fld w1 2 5)
  | 0x44 => do
    need .reserved (plain0 w0 && d8 w0 == 0xFF && b8 w1 == 0xCC && c8 w1 == 0xCC && noGuard w1 &&
      !(decide (0x80 ≤ a8 w0) && decide (a8 w0 < 0xC0) && a8 w0 % 4 != 0))
    let j ← kGroup 4 60 (a8 w0)
    return .mexpect j (fld w1 0 5) (fld w1 5 4) (fld w1 9 3 + 1)
  | 0x45 => do
    need .reserved (plain0 w0 && a8 w0 == 0xCC && c8 w1 == 0xCC && noGuard w1 && fld w1 29 3 == 0 && fld w1 9 3 == 0 &&
      decide (d8 w0 ≤ 125))
    return .rowstat (d8 w0) (fld w1 24 5) (fld w1 0 5) (fld w1 5 4)
  | 0x46 => do
    need .reserved (plain0 w0 && d8 w0 == 0xFF && c8 w1 == 0xCC && noGuard w1 && fld w1 5 7 == 0)
    let j ← kGroup 2 62 (a8 w0)
    let k ← kField (b8 w1)
    return .rowexp j k (fld w1 0 5)
  | 0x47 => do
    need .reserved (plain0 w0 && a8 w0 == 0xCC && c8 w1 == 0xCC && noGuard w1 && fld w1 5 7 == 0)
    let d ← kDst (d8 w0)
    let k ← kField (b8 w1)
    return .mpin d k (fld w1 0 5)
  | 0x48 => do
    need .reserved (plain0 w0 && d8 w0 == 0xFF && a8 w0 == 0xCC && b8 w1 == 0xCC && c8 w1 == 0xCC && noGuard w1 && fld w1 5 7 == 0)
    return .munpin (fld w1 0 5)
  | 0x49 => do
    need .reserved (plain0 w0 && d8 w0 == 0xFF && b8 w1 == 0xCC && c8 w1 == 0xCC && noGuard w1 && fld w1 10 2 == 0)
    let k ← kField (a8 w0)
    return .mrefill k (fld w1 0 5) (fld w1 5 5 + 1)
  | 0x4A => do
    need .reserved (plain0 w0 && d8 w0 == 0xFF && b8 w1 == 0xCC && c8 w1 == 0xCC && noGuard w1 && fld w1 10 2 == 0)
    let k ← kField (a8 w0)
    return .mspill k (fld w1 0 5) (fld w1 5 5 + 1)
  | 0x4B => do
    need .reserved (plain0 w0 && d8 w0 == 0xFF && a8 w0 == 0xCC && b8 w1 == 0xCC && c8 w1 == 0xCC && noGuard w1 && fld w1 11 1 == 0 && decide (fld w1 0 3 < 6))
    return .mmode (fld w1 0 3) (fld w1 3 8)
  | 0x60 => do
    need .reserved (plain0 w0 && noGuard w1 && modField w1 == 0)
    let d ← kDst (d8 w0)
    let a ← kField (a8 w0)
    let b ← kField (b8 w1)
    let c ← kField (c8 w1)
    return .fput d a b c
  | 0x61 => do
    need .reserved (plain0 w0 && noGuard w1 && modField w1 == 0)
    let d ← kDst (d8 w0)
    let a ← kField (a8 w0)
    let b ← kField (b8 w1)
    let c ← kField (c8 w1)
    return .fget d a b c
  | 0x62 => do
    need .reserved (plain0 w0 && noGuard w1 && d8 w0 == 0xFF && c8 w1 == 0xCC && modField w1 == 0)
    let j ← kGroup 8 56 (a8 w0)
    let b ← kField (b8 w1)
    return .fsend j b
  | 0x63 => do
    need .reserved (plain0 w0 && noGuard w1 && a8 w0 == 0xCC && b8 w1 == 0xCC && c8 w1 == 0xCC && fld w1 4 8 == 0)
    let j ← kGroup 8 56 (d8 w0)
    return .frecv j (fld w1 0 4)
  | 0x64 => do
    need .reserved (plain0 w0 && noGuard w1 && modField w1 == 0)
    let d ← kDst (d8 w0)
    let a ← kGroup 1 62 (a8 w0)
    let b ← kField (b8 w1)
    let c ← kField (c8 w1)
    return .fcomp d a b c
  | 0x65 => do
    need .reserved (plain0 w0 && noGuard w1 && modField w1 == 0)
    let d ← kDst (d8 w0)
    let a ← kField (a8 w0)
    let b ← kField (b8 w1)
    let c ← kField (c8 w1)
    return .fdecomp d a b c
  | 0x66 => do
    need .reserved (plain0 w0 && noGuard w1 && fld w1 1 11 == 0)
    let d ← kDst (d8 w0)
    let a ← kGroup 1 61 (a8 w0)
    let b ← kField (b8 w1)
    let c ← kField (c8 w1)
    if fld w1 0 1 = 1 then return .fdarLast d a b c else return .fdar d a b c
  | 0x67 => do
    need .reserved (plain0 w0 && noGuard w1 && b8 w1 == 0xCC && c8 w1 == 0xCC && modField w1 == 0)
    let d ← kDst (d8 w0)
    let a ← kField (a8 w0)
    return .fwait d a
  | 0x68 => do
    need .reserved (plain0 w0 && noGuard w1 && d8 w0 == 0xFF && c8 w1 == 0xCC && modField w1 == 0)
    let a ← kField (a8 w0)
    let b ← sigAmount (b8 w1)
    return .fsig a b
  | 0x69 => do
    need .reserved (plain0 w0 && noGuard w1 && modField w1 == 0)
    let j ← kGroup 2 62 (d8 w0)
    let a ← kField (a8 w0)
    let b ← kField (b8 w1)
    let c ← kOpt (c8 w1)
    return .fslot j a b c
  | 0x6A => do
    need .reserved (plain0 w0 && noGuard w1 && d8 w0 == 0xFF && modField w1 == 0)
    let a ← kField (a8 w0)
    let b ← kField (b8 w1)
    let c ← kField (c8 w1)
    return .fred a b c
  | 0x6B => do
    need .reserved (plain0 w0 && noGuard w1 && modField w1 == 0)
    let d ← kDst (d8 w0)
    let a ← kField (a8 w0)
    let b ← kField (b8 w1)
    let c ← kField (c8 w1)
    return .fckpt d a b c
  | 0x6C => do
    need .reserved (plain0 w0 && noGuard w1 && c8 w1 == 0xCC && modField w1 == 0)
    let d ← kDst (d8 w0)
    let a ← kField (a8 w0)
    let b ← kField (b8 w1)
    return .frest d a b
  | 0x70 => do
    need .reserved (plain0 w0 && d8 w0 == 0xFF && c8 w1 == 0xCC && fld w1 1 1 == 0 && fld w1 3 9 == 0 && guardOk w1)
    return .ttpost (src8 (a8 w0)) (src8 (b8 w1)) (fld w1 0 1 == 1) (fld w1 2 1 == 1) (guardOf w1)
  | 0x71 => do
    need .reserved (plain0 w0 && fld w1 2 10 == 0 && guardOk w1 && (fld w1 1 1 == 0 || b8 w1 == 0xCC) && (fld w1 0 2 != 3 || c8 w1 == 0xCC))
    let d ← xkDst (d8 w0)
    if fld w1 0 2 = 0 then return .ttwaitRdy d (src8 (a8 w0)) (src8 (b8 w1)) (src8 (c8 w1)) (guardOf w1) else if fld w1 0 2 = 1 then return .ttwaitCr d (src8 (a8 w0)) (src8 (b8 w1)) (src8 (c8 w1)) (guardOf w1) else if fld w1 0 2 = 2 then return .ttwaitDone d (src8 (a8 w0)) (src8 (c8 w1)) (guardOf w1) else return .ttwaitRd d (src8 (a8 w0)) (guardOf w1)
  | 0x73 => do
    need .reserved (plain0 w0 && a8 w0 == 0xCC && b8 w1 == 0xCC && c8 w1 == 0xCC && decide (fld w1 4 3 < 5) && fld w1 7 5 == 0 && guardOk w1)
    let d ← xkDst (d8 w0)
    return .lcrbin d (fld w1 0 4) (fld w1 4 3) (guardOf w1)
  | 0x78 => do
    need .reserved (plain0 w0 && c8 w1 == 0xCC && noGuard w1 && decide (fld w1 0 12 < 12) && dwIndexRes (b8 w1))
    let d ← kField (d8 w0)
    let h ← kField (a8 w0)
    let i ← dwIndex (b8 w1)
    return .dwrd d h i (fld w1 0 4)
  | 0x79 => do
    need .reserved (plain0 w0 && d8 w0 == 0xFF && noGuard w1 && decide (fld w1 0 12 < 12) && dwIndexRes (b8 w1))
    let h ← kField (a8 w0)
    let i ← dwIndex (b8 w1)
    let v ← kField (c8 w1)
    return .dwwr h i v (fld w1 0 4)
  | 0x7A => do
    let v ← coded (levelOf (fld w1 2 2))
    need .reserved (plain0 w0 && d8 w0 == 0xFF && b8 w1 == 0xCC && c8 w1 == 0xCC && noGuard w1 && fld w1 4 8 == 0 && fld w1 0 2 != 3)
    let h ← kField (a8 w0)
    if fld w1 0 2 = 0 then return .gresumeCont h v else if fld w1 0 2 = 1 then return .gresumeReexec h v else return .gresumeStep h v
  | 0x7B => do
    need .reserved (plain0 w0 && d8 w0 == 0xFF && c8 w1 == 0xCC && noGuard w1 && fld w1 1 11 == 0)
    let h ← kField (a8 w0)
    let k ← kField (b8 w1)
    return .gkill h k (fld w1 0 1 == 1)
  | 0x7C => do
    let m ← coded (tlbiOf (fld w1 0 2))
    need .reserved (plain0 w0 && d8 w0 == 0xFF && noGuard w1 && fld w1 2 10 == 0)
    let a ← kField (a8 w0)
    let b ← kField (b8 w1)
    let c ← kField (c8 w1)
    return .tlbi m a b c
  | _ => .error .opcode

/-- Two-word uniform instructions with X = 1 (Table 3.10). Ops the table leaves, and forms an instruction does not define, answer the opcode subcause (R76). -/
noncomputable def uni64i (op w0 w1 : Nat) : Except IllegalSub Instr :=
  match op with
  | 0x00 => do return .kadd64i (← dec64I true rInt w0 w1)
  | 0x01 => do return .ksub64i (← dec64I true rInt w0 w1)
  | 0x02 => do return .kmul64i (← dec64I true rInt w0 w1)
  | 0x04 => do return .kdiv64i (← dec64I true rInt w0 w1)
  | 0x05 => do return .kmin64i (← dec64I true rInt w0 w1)
  | 0x06 => do return .kmax64i (← dec64I true rInt w0 w1)
  | 0x07 => do return .kand64i (← dec64I true rInt w0 w1)
  | 0x08 => do return .kor64i (← dec64I true rInt w0 w1)
  | 0x09 => do return .kxor64i (← dec64I true rInt w0 w1)
  | 0x0A => do return .kshl64i (← dec64I true rInt w0 w1)
  | 0x0B => do return .kshr64i (← dec64I true rInt w0 w1)
  | 0x0C => do return .ksar64i (← dec64I true rInt w0 w1)
  | 0x0F => do return .kmov64i (← dec64I true rIntB w0 w1)
  | 0x14 => do return .klea64i (← dec64I true rLea w0 w1)
  | 0x20 => do return .kld64i (← dec64IM true rMem w0 w1)
  | 0x21 => do return .kst64i (← dec64IS rMem w0 w1)
  | 0x23 => do
    let b ← coded (senseOf (d8 w0))
    need .reserved (plain0 w0 && (b != .always || a8 w0 == 0xCC))
    return .ubr64i b (src8 (a8 w0)) (signed 32 w1)
  | 0x25 => do
    need .reserved (plain0 w0 && a8 w0 == 0xCC)
    let d ← dst8 true (d8 w0)
    need .operand (linkOk true d)
    return .ucall d (signed 32 w1)
  | 0x7D => do
    need .reserved (plain0 w0 && a8 w0 == 0xCC && decide (w1 < 2 ^ 16))
    let d ← kField (d8 w0)
    return .csrrd d w1
  | 0x7E => do
    need .reserved (plain0 w0 && d8 w0 == 0xFF && decide (w1 < 2 ^ 16))
    let a ← kField (a8 w0)
    return .csrwr a w1
  | _ => .error (otherForm op)

/-- The executors of the uniform set (Table 1.6). -/
inductive Executor where
  | group | stream | fabric | control
deriving DecidableEq, Repr

/-- Ops that each executor runs (R37, R38, Table 3.10). -/
def mayRun : Executor → Bool → Nat → Bool
  | .group, false, _ => true
  | _, false, _ => false
  | .group, true, op => op < 0x3B || (0x70 ≤ op && op < 0x74)
  | .stream, true, op => (op < 0x3A && op != 0x36) || (0x40 ≤ op && op < 0x4C) || op == 0x72
  | .fabric, true, op => op < 0x30 || (0x60 ≤ op && op < 0x6D) || (0x70 ≤ op && op < 0x73)
  | .control, true, op => op < 0x30 || op == 0x72 || (0x78 ≤ op && op < 0x80)

/-- Ops of a group that stand last in their run (R33, R160, R171, R173, R174). -/
def lastOnly (uni : Bool) (op : Nat) : Bool :=
  if uni then (0x23 ≤ op && op ≤ 0x27) || op == 0x32 || op == 0x34
  else (0x70 ≤ op && op ≤ 0x75) || op == 0x6D

/-- The instruction of one or two words; `w1` is read only when the first word is that of a 64-bit instruction. A run
control word or a prefix has no place here (R64). -/
noncomputable def decodeInstr (w0 w1 : Nat) : Except IllegalSub Instr :=
  let op := opField w0
  if isSingle w0 then (if isUniform w0 then uni32 op w0 else lane32 op w0)
  else if isDouble w0 then
    if fld w0 3 1 = 1 then (if isUniform w0 then uni64i op w0 w1 else lane64i op w0 w1)
    else (if isUniform w0 then uni64 op w0 w1 else lane64 op w0 w1)
  else .error .opcode

/-- Any word with the word after it: an instruction, a prefix or a run control word (R63). -/
noncomputable def decodeWord (w0 w1 : Nat) : Except IllegalSub Instr :=
  if isPrefixWord w0 then (decodePrefix w0).map .prefixWord
  else if isHeaderWord w0 then (decodeHeader w0).map .header
  else if isTrailerWord w0 then (decodeTrailer w0).map .trailer
  else decodeInstr w0 w1

/-- The little-endian word of four bytes (R4). -/
def wordOf (b0 b1 b2 b3 : Byte) : Nat := b0.toNat + b1.toNat * 2 ^ 8 + b2.toNat * 2 ^ 16 + b3.toNat * 2 ^ 24

/-- Decoding of bytes: the instruction and the bytes after it. Fewer than four bytes, or fewer than eight under a first
word of 64 bits, answer the opcode subcause (R64). -/
noncomputable def decodeBytes : List Byte → Except IllegalSub (Instr × List Byte)
  | b0 :: b1 :: b2 :: b3 :: rest =>
    let w0 := wordOf b0 b1 b2 b3
    if isDouble w0 then
      match rest with
      | c0 :: c1 :: c2 :: c3 :: rest' => (decodeWord w0 (wordOf c0 c1 c2 c3)).map (·, rest')
      | _ => .error .opcode
    else (decodeWord w0 0).map (·, rest)
  | _ => .error .opcode

/-- What the fields of a prefix may say for the instruction it modifies (R72, R93). -/
structure PrefixPolicy where
  rnd   : Bool
  sat   : Bool
  clamp : Bool
  fzi   : Bool
  fzo   : Bool
  guard : Bool
  bcast : Bool
deriving DecidableEq, Repr

/-- The prefix policy of an op (R39, R93, R103 to R118, R168, R229 to R251, and each chapter's own words). R72 asks for neutral values
where a field has no meaning, and leaves open whether it has one in three places; the model chooses (DESIGN CHOICE): a `cvt` takes every
rounding, FZI and FZO value, between integers and on an integer side too (log 98); `nop` takes a guard, with nothing to guard (log 99);
`qnt`'s scale mode takes FZI and FZO and no saturation (log 100). -/
def prefixPolicy (uni : Bool) (op : Nat) (mod : Nat) : PrefixPolicy :=
  let guarded : PrefixPolicy := ⟨false, false, false, false, false, true, true⟩
  let saturating : PrefixPolicy := { guarded with sat := true }
  let float : PrefixPolicy := ⟨true, true, true, true, true, true, true⟩
  let only : PrefixPolicy := { guarded with bcast := false }
  let nothing : PrefixPolicy := { only with guard := false }
  if uni then
    if op < 5 then saturating
    else if op < 0x15 then guarded
    else if op < 0x22 then guarded
    else if op == 0x22 then only
    else if op ≤ 0x27 then nothing
    else if op == 0x32 || op == 0x34 || op == 0x36 then nothing
    else if 0x37 ≤ op && op ≤ 0x39 then only
    else if 0x70 ≤ op && op ≤ 0x72 then only
    else guarded
  else
    if op == 0 || op == 1 || op == 2 || op == 4 || op == 7 || op == 0x1A || op == 0x1B then saturating
    else if op < 0x20 then guarded
    else if op == 0x24 || op == 0x25 then { float with rnd := false }
    else if op == 0x26 || op == 0x32 then { guarded with fzi := true }
    else if op == 0x27 then guarded
    else if 0x2B ≤ op && op ≤ 0x2F then { float with rnd := false }
    else if op < 0x40 then float
    else if op == 0x40 then float
    else if op == 0x41 then saturating
    else if op < 0x46 then guarded
    else if op == 0x46 then if fld mod 3 1 = 1 then { guarded with fzi := true, fzo := true } else float
    else if op == 0x47 then float
    else if op < 0x55 then guarded
    else if op == 0x55 || op == 0x56 then
      if fld mod 0 4 = 0 then saturating
      else if fld mod 0 4 < 6 then guarded
      else if fld mod 0 4 = 6 then float
      else { float with rnd := false }
    else if op == 0x64 || op == 0x65 then float
    else if op == 0x66 then only
    else if op == 0x67 then { guarded with fzi := true }
    else if op == 0x6B || op == 0x6C || op == 0x6E || op == 0x6F || op == 0x74 then nothing
    else guarded

/-- B is a register operand that the instruction uses (R72): not an immediate, not reinterpreted, not absent. -/
def bIsRegister (w0 w1 : Nat) : Bool :=
  let op := opField w0
  let used := if isUniform w0 then
      op < 0x10 || op == 0x13 || op == 0x14 || op == 0x20 || op == 0x21 || (op == 0x30 && isDouble w0) || op == 0x35
    else
      !(op == 7 || op == 0x10 || op == 0x11 || op == 0x12 || op == 0x27 || (0x29 ≤ op && op ≤ 0x30) || op == 0x32
        || op == 0x40 || op == 0x42 || (op == 0x46 && fld w1 3 1 == 1) || (0x52 ≤ op && op ≤ 0x57)
        || (op == 0x67 && fld w1 0 4 == 1) || (0x70 ≤ op && op ≤ 0x76) || op == 0x78)
  used && (if isDouble w0 then fld w0 3 1 == 0 && decide (b8 w1 < 0xE0) else decide (fld w0 0 7 < 0x60))

/-- Whether a word is of an integer kind: a single word's kind is the default of R65, integer below op 0x20 and from 0x40 on, except for
the float reductions (R168). -/
def integerWord (w0 mod : Nat) : Bool :=
  let op := opField w0
  if isDouble w0 then decide (fld w0 0 3 < 2)
  else decide (op < 0x20) || (decide (0x40 ≤ op) && !(!isUniform w0 && (op == 0x55 || op == 0x56) && decide (6 ≤ mod)))

/-- A prefix that the modified instruction accepts (R72); codes 111 of rounding and 11 of saturation never reach here. -/
def prefixFits (p : PrefixFields) (w0 w1 : Nat) : Bool :=
  let mod := if isDouble w0 then (if fld w0 3 1 = 1 then 0 else modField w1) else fld w0 0 4
  let q := prefixPolicy (isUniform w0) (opField w0) mod
  let intK := integerWord w0 mod
  (q.rnd || p.rnd == .rne || p.rnd == .dyn)
  && (match p.sat with | .off => true | .sat => q.sat | .clamp => q.clamp && !intK)
  && (q.fzi || !p.fzi) && (q.fzo || !p.fzo) && (q.guard || p.guard.isNone)
  && (match p.bcast with
      | none => true
      | some i => q.bcast && bIsRegister w0 w1 && decide (i < subCount (shapeOf (fld w0 20 2))))

/-- The words of an instruction (the device's own steps have none). -/
def encode : Instr → Option (List Nat)
  | .header h => some [encodeHeader h]
  | .trailer t => some [encodeTrailer t]
  | .prefixWord p => some [encodePrefix p]
  | .longLatencyComplete .. => none
  | .binFullDraw .. => none
  | .binAgedDraw .. => none
  | .candidateLift .. => none
  | .waitvReread .. => none
  | .waitvTimeout .. => none
  | .cinchComplete .. => none
  | .launchAcceptance .. => none
  | .leafComplete .. => none
  | .workgroupDispatch => none
  | .contextSave .. => none
  | .eventEnter .. => none
  | .eventHandlerStart .. => none
  | .watchdogExpiry .. => none
  | .scrubError .. => none
  | .storeDrain .. => none
  | .publishBoundaryComplete .. => none
  | .migrationEpochEnd .. => none
  | .migrationSwitch .. => none
  | .podRequestArrival .. => none
  | .podResponseArrival .. => none
  | .peerUnreachable .. => none
  | .bulkCopyStart .. => none
  | .copyLine .. => none
  | .matrixStep .. => none
  | .peerContributionArrival .. => none
  | .peerContributionReoffer .. => none
  | .transferStep .. => none
  | .fwaitRecheck .. => none
  | .fwaitTimeout .. => none
  | .messageArrival .. => none
  | .fredArrival .. => none
  | .fslotTimeout .. => none
  | .bellReceive .. => none
  | .rollCallEntryWrite .. => none
  | .rollCallTimeout .. => none
  | .resumeStage1 .. => none
  | .resumeStage2 .. => none
  | .resumeStage3 .. => none
  | .ttHeadIssue => none
  | .ttMessageArrival .. => none
  | .ttDone => none
  | .qkickWrite .. => none
  | .queueEnable .. => none
  | .queueHaltClear .. => none
  | .packetFetch .. => none
  | .packetSeqRetry .. => none
  | .createJob .. => none
  | .release .. => none
  | .launchPacket .. => none
  | .grant .. => none
  | .fabricStart .. => none
  | .ttStart .. => none
  | .preempt .. => none
  | .bellRaise .. => none
  | .bellResume .. => none
  | .kill .. => none
  | .attest .. => none
  | .domain .. => none
  | .ctxstore .. => none
  | .fence .. => none
  | .bar2Access .. => none
  | .registerWrite .. => none
  | .pfrzWrite .. => none
  | .lcclrWrite .. => none
  | .xcwaysWrite .. => none
  | .coldReset => none
  | .warmReset => none
  | .functionReset => none
  | .linkTraining => none
  | .secureBoot .. => none
  | .securityAlarm .. => none
  | .powerWindow .. => none
  | .add f => some (e32 0 0x00 f)
  | .add64 f => some (e64 0 0x00 f 0)
  | .add64i f => some (e64I 0 0x00 f)
  | .sub f => some (e32 0 0x01 f)
  | .sub64 f => some (e64 0 0x01 f 0)
  | .sub64i f => some (e64I 0 0x01 f)
  | .mul f => some (e32 0 0x02 f)
  | .mul64 f => some (e64 0 0x02 f 0)
  | .mul64i f => some (e64I 0 0x02 f)
  | .mulh f => some (e32 0 0x03 f)
  | .mulh64 f => some (e64 0 0x03 f 0)
  | .mulh64i f => some (e64I 0 0x03 f)
  | .mad f => some (e64 0 0x04 f 0)
  | .min f => some (e32 0 0x05 f)
  | .min64 f => some (e64 0 0x05 f 0)
  | .min64i f => some (e64I 0 0x05 f)
  | .max f => some (e32 0 0x06 f)
  | .max64 f => some (e64 0 0x06 f 0)
  | .max64i f => some (e64I 0 0x06 f)
  | .abs f => some (e32 0 0x07 f)
  | .abs64 f => some (e64 0 0x07 f 0)
  | .and f => some (e32 0 0x08 f)
  | .and64 f => some (e64 0 0x08 f 0)
  | .and64i f => some (e64I 0 0x08 f)
  | .or f => some (e32 0 0x09 f)
  | .or64 f => some (e64 0 0x09 f 0)
  | .or64i f => some (e64I 0 0x09 f)
  | .xor f => some (e32 0 0x0A f)
  | .xor64 f => some (e64 0 0x0A f 0)
  | .xor64i f => some (e64I 0 0x0A f)
  | .andn f => some (e32 0 0x0B f)
  | .andn64 f => some (e64 0 0x0B f 0)
  | .andn64i f => some (e64I 0 0x0B f)
  | .shl f => some (e32 0 0x0C f)
  | .shl64 f => some (e64 0 0x0C f 0)
  | .shl64i f => some (e64I 0 0x0C f)
  | .shr f => some (e32 0 0x0D f)
  | .shr64 f => some (e64 0 0x0D f 0)
  | .shr64i f => some (e64I 0 0x0D f)
  | .sar f => some (e32 0 0x0E f)
  | .sar64 f => some (e64 0 0x0E f 0)
  | .sar64i f => some (e64I 0 0x0E f)
  | .rot f => some (e32 0 0x0F f)
  | .rot64 f => some (e64 0 0x0F f 0)
  | .rot64i f => some (e64I 0 0x0F f)
  | .clz f => some (e32 0 0x10 f)
  | .clz64 f => some (e64 0 0x10 f 0)
  | .popc f => some (e32 0 0x11 f)
  | .popc64 f => some (e64 0 0x11 f 0)
  | .bfx f p n => some (e64 0 0x12 f (p + (n - 1) * 64))
  | .bfi f p n => some (e64 0 0x13 f (p + (n - 1) * 64))
  | .sel f q n => some (e64 0 0x14 f (q + (if n then 8 else 0)))
  | .cmp c q f => some (e32D 0 0x15 (condCode c * 8 + q) f)
  | .cmp64 c q f => some (e64D 0 0x15 (condCode c * 8 + q) f 0)
  | .cmp64i c q f => some (e64ID 0 0x15 (condCode c * 8 + q) f)
  | .addc f i o => some (e64 0 0x16 f (i.p + (if i.en then 8 else 0) + o.p * 16 + (if o.en then 128 else 0)))
  | .subb f i o => some (e64 0 0x17 f (i.p + (if i.en then 8 else 0) + o.p * 16 + (if o.en then 128 else 0)))
  | .mov f => some (e32 0 0x18 f)
  | .mov64 f => some (e64 0 0x18 f 0)
  | .mov64i f => some (e64I 0 0x18 f)
  | .lea f => some (e32 0 0x19 f)
  | .lea64 f n => some (e64 0 0x19 f n)
  | .lea64i f => some (e64I 0 0x19 f)
  | .dot4 f => some (e32 0 0x1A f)
  | .dot464 f => some (e64 0 0x1A f 0)
  | .sad f => some (e32 0 0x1B f)
  | .sad64 f => some (e64 0 0x1B f 0)
  | .fadd f => some (e32 0 0x20 f)
  | .fadd64 f => some (e64 0 0x20 f 0)
  | .fadd64i f => some (e64I 0 0x20 f)
  | .fsub f => some (e32 0 0x21 f)
  | .fsub64 f => some (e64 0 0x21 f 0)
  | .fsub64i f => some (e64I 0 0x21 f)
  | .fmul f => some (e32 0 0x22 f)
  | .fmul64 f => some (e64 0 0x22 f 0)
  | .fmul64i f => some (e64I 0 0x22 f)
  | .fma f => some (e64 0 0x23 f 0)
  | .fmin f => some (e32 0 0x24 f)
  | .fmin64 f => some (e64 0 0x24 f 0)
  | .fmin64i f => some (e64I 0 0x24 f)
  | .fmax f => some (e32 0 0x25 f)
  | .fmax64 f => some (e64 0 0x25 f 0)
  | .fmax64i f => some (e64I 0 0x25 f)
  | .fcmp c q f => some (e32D 0 0x26 (fcondCode c * 8 + q) f)
  | .fcmp64 c q f => some (e64D 0 0x26 (fcondCode c * 8 + q) f 0)
  | .fcmp64i c q f => some (e64ID 0 0x26 (fcondCode c * 8 + q) f)
  | .fclass f => some (e32 0 0x27 f)
  | .fclass64 f => some (e64 0 0x27 f 0)
  | .fdiv f => some (e32 0 0x28 f)
  | .fdiv64 f => some (e64 0 0x28 f 0)
  | .fdiv64i f => some (e64I 0 0x28 f)
  | .fsqrt f => some (e32 0 0x29 f)
  | .fsqrt64 f => some (e64 0 0x29 f 0)
  | .rcp f => some (e32 0 0x2A f)
  | .rcp64 f => some (e64 0 0x2A f 0)
  | .rsq f => some (e32 0 0x2B f)
  | .rsq64 f => some (e64 0 0x2B f 0)
  | .ex2 f => some (e32 0 0x2C f)
  | .ex264 f => some (e64 0 0x2C f 0)
  | .lg2 f => some (e32 0 0x2D f)
  | .lg264 f => some (e64 0 0x2D f 0)
  | .sin f => some (e32 0 0x2E f)
  | .sin64 f => some (e64 0 0x2E f 0)
  | .cos f => some (e32 0 0x2F f)
  | .cos64 f => some (e64 0 0x2F f 0)
  | .frnd f => some (e32 0 0x30 f)
  | .frnd64 f => some (e64 0 0x30 f 0)
  | .fscl f => some (e32 0 0x31 f)
  | .fscl64 f => some (e64 0 0x31 f 0)
  | .fscl64i f => some (e64I 0 0x31 f)
  | .fexp f => some (e32 0 0x32 f)
  | .fexp64 f => some (e64 0 0x32 f 0)
  | .fdot2 f => some (e32 0 0x33 f)
  | .fdot264 f => some (e64 0 0x33 f 0)
  | .cvt f m => some (e64 0 0x40 f (cvtBits m))
  | .pk f => some (e32 0 0x41 f)
  | .pk64 f => some (e64 0 0x41 f 0)
  | .upk f h => some (e32B 0 0x42 f (0x70 + h))
  | .upk64 f h => some (e64B 0 0x42 f (0xF0 + h) 0)
  | .swz f => some (e32 0 0x43 f)
  | .swz64 f => some (e64 0 0x43 f 0)
  | .bcs f => some (e32 0 0x44 f)
  | .bcs64 f d => some (e64 0 0x44 f (if d then 1 else 0))
  | .rng f => some (e32 0 0x45 f)
  | .rng64 f => some (e64 0 0x45 f 0)
  | .qnt f m s => some (e64 0 0x46 f (cvtBits m + (if s then 8 else 0)))
  | .dqn f m s => some (e64 0 0x47 f (cvtBits m + (if s then 8 else 0)))
  | .xsh f => some (e32 0 0x50 f)
  | .xsh64 f => some (e64 0 0x50 f 0)
  | .xpush f => some (e32 0 0x51 f)
  | .xpush64 f => some (e64 0 0x51 f 0)
  | .xbc f l s => some (e64 0 0x52 f (l + s * 32))
  | .xrot f n => some (e32B 0 0x53 f (n + 0x70).toNat)
  | .xrot64 f n => some (e64 0 0x53 f n)
  | .vote m f => some (e32B 0 0x54 f (0x70 + voteCode m))
  | .vote64 m f => some (e64 0 0x54 f (voteCode m))
  | .xred o f => some (e32B 0 0x55 f (0x70 + redCode o))
  | .xred64 o f => some (e64 0 0x55 f (redCode o))
  | .xscan o f => some (e32B 0 0x56 f (0x70 + redCode o))
  | .xscan64 o f => some (e64 0 0x56 f (redCode o))
  | .xmatch f => some (e32 0 0x57 f)
  | .xmatch64 f => some (e64 0 0x57 f 0)
  | .ld f n => some (e32B 0 0x60 f (n + 0x70).toNat)
  | .ld64 f m => some (e64 0 0x60 f (memBits m))
  | .ld64i f => some (e64I 0 0x60 f)
  | .st f n => some (e32B 0 0x61 f (n + 0x70).toNat)
  | .st64 f m => some (e64S 0 0x61 f (memBits m))
  | .st64i f => some (e64IS 0 0x61 f)
  | .lds f n => some (e32B 0 0x62 f (n + 0x70).toNat)
  | .lds64 f n => some (e64 0 0x62 f n)
  | .lds64i f => some (e64I 0 0x62 f)
  | .sts f n => some (e32B 0 0x63 f (n + 0x70).toNat)
  | .sts64 f n => some (e64S 0 0x63 f n)
  | .sts64i f => some (e64IS 0 0x63 f)
  | .ldx f => some (e64 0 0x64 f 0)
  | .ldx64i f => some (e64I 0 0x64 f)
  | .stx f s => some (e64S 0 0x65 f (if s then 8 else 0))
  | .stx64i f => some (e64IS 0 0x65 f)
  | .atom f o v n => some (e64 0 0x66 f (atomCode o + flavourCode v * 16 + unsigned 6 n * 64))
  | .atomx f r v n => some (e64 0 0x67 f ((if r then 1 else 0) + flavourCode v * 16 + unsigned 6 n * 64))
  | .stash f => some (e64S 0 0x68 f 0)
  | .pref f n => some (e32B 0 0x69 f (n + 0x70).toNat)
  | .pref64 f n t => some (e64 0 0x69 f (n + prefCode t * 8))
  | .pref64i f => some (e64I 0 0x69 f)
  | .cpout f => some (e64 0 0x6A f 0)
  | .cseal n => some ([0x1ACFEE70 + n])
  | .cwait n => some ([0x1B0FEE70 + n])
  | .waitv f c => some (e64 0 0x6D f (condCode c))
  | .phasePub => some ([0x1B8FEE70])
  | .phaseAcq => some ([0x1B8FEE71])
  | .phaseAr => some ([0x1B8FEE72])
  | .fenceLd => some ([0x1BCFEE70])
  | .fenceIo => some ([0x1BCFEE71])
  | .fenceSp => some ([0x1BCFEE72])
  | .br n => some ([0x1C000000 + unsigned 20 n])
  | .br64i n => some ([encW0 0 0x70 0 0xFF 0xCC true 0, unsigned 32 n])
  | .brx a => some ([enc32 0 0x71 0 0x3F (src7Code a) 0x5C])
  | .brx64 a g => some ([encW0 0 0x71 0 0xFF (src8Code a) false 0, encW1 0xCC 0xCC g 0])
  | .call d n => some ([encW0 0 0x72 0 (dst8Code d) 0xCC true 0, unsigned 32 n])
  | .ret a => some ([enc32 0 0x73 0 0x3F (src7Code a) 0x5C])
  | .ret64 a g => some ([encW0 0 0x73 0 0xFF (src8Code a) false 0, encW1 0xCC 0xCC g 0])
  | .reform => some ([0x1D0FEE70])
  | .reformAll => some ([0x1D0FEE71])
  | .exit => some ([0x1D4FEE5C])
  | .exit64 g => some ([encW0 0 0x75 0 0xFF 0xCC false 0, encW1 0xCC 0xCC g 0])
  | .brk n => some ([0x1D8FEE70 + n])
  | .trap b => some ([0x1DCFEE00 + src7Code b])
  | .trap64i n => some ([encW0 0 0x77 0 0xFF 0xCC true 0, n])
  | .nop => some ([0x1E0FEE5C])
  | .pmark b => some ([0x1E4FEE00 + src7Code b])
  | .pmark64i n => some ([encW0 0 0x79 0 0xFF 0xCC true 0, n])
  | .kadd f => some (e32 1 0x00 f)
  | .kadd64 f => some (e64 1 0x00 f 0)
  | .kadd64i f => some (e64I 1 0x00 f)
  | .ksub f => some (e32 1 0x01 f)
  | .ksub64 f => some (e64 1 0x01 f 0)
  | .ksub64i f => some (e64I 1 0x01 f)
  | .kmul f => some (e32 1 0x02 f)
  | .kmul64 f => some (e64 1 0x02 f 0)
  | .kmul64i f => some (e64I 1 0x02 f)
  | .kmad f => some (e64 1 0x03 f 0)
  | .kdiv f => some (e32 1 0x04 f)
  | .kdiv64 f => some (e64 1 0x04 f 0)
  | .kdiv64i f => some (e64I 1 0x04 f)
  | .kmin f => some (e32 1 0x05 f)
  | .kmin64 f => some (e64 1 0x05 f 0)
  | .kmin64i f => some (e64I 1 0x05 f)
  | .kmax f => some (e32 1 0x06 f)
  | .kmax64 f => some (e64 1 0x06 f 0)
  | .kmax64i f => some (e64I 1 0x06 f)
  | .kand f => some (e32 1 0x07 f)
  | .kand64 f => some (e64 1 0x07 f 0)
  | .kand64i f => some (e64I 1 0x07 f)
  | .kor f => some (e32 1 0x08 f)
  | .kor64 f => some (e64 1 0x08 f 0)
  | .kor64i f => some (e64I 1 0x08 f)
  | .kxor f => some (e32 1 0x09 f)
  | .kxor64 f => some (e64 1 0x09 f 0)
  | .kxor64i f => some (e64I 1 0x09 f)
  | .kshl f => some (e32 1 0x0A f)
  | .kshl64 f => some (e64 1 0x0A f 0)
  | .kshl64i f => some (e64I 1 0x0A f)
  | .kshr f => some (e32 1 0x0B f)
  | .kshr64 f => some (e64 1 0x0B f 0)
  | .kshr64i f => some (e64I 1 0x0B f)
  | .ksar f => some (e32 1 0x0C f)
  | .ksar64 f => some (e64 1 0x0C f 0)
  | .ksar64i f => some (e64I 1 0x0C f)
  | .kcmp f c => some (e64 1 0x0D f (condCode c))
  | .ksel f => some (e64 1 0x0E f 0)
  | .kmov f => some (e32 1 0x0F f)
  | .kmov64 f => some (e64 1 0x0F f 0)
  | .kmov64i f => some (e64I 1 0x0F f)
  | .kclz f => some (e32 1 0x10 f)
  | .kclz64 f => some (e64 1 0x10 f 0)
  | .kpopc f => some (e32 1 0x11 f)
  | .kpopc64 f => some (e64 1 0x11 f 0)
  | .kbfx f p n => some (e64 1 0x12 f (p + (n - 1) * 64))
  | .kbfi f p n => some (e64 1 0x13 f (p + (n - 1) * 64))
  | .klea f => some (e32 1 0x14 f)
  | .klea64 f n => some (e64 1 0x14 f n)
  | .klea64i f => some (e64I 1 0x14 f)
  | .kld f n => some (e32B 1 0x20 f (n + 0x70).toNat)
  | .kld64 f m => some (e64 1 0x20 f (memBits m))
  | .kld64i f => some (e64I 1 0x20 f)
  | .kst f n => some (e32B 1 0x21 f (n + 0x70).toNat)
  | .kst64 f m => some (e64S 1 0x21 f (memBits m))
  | .kst64i f => some (e64IS 1 0x21 f)
  | .katom f o v n => some (e64 1 0x22 f (atomCode o + flavourCode v * 16 + unsigned 6 n * 64))
  | .ubr n => some ([0x88C00000 + unsigned 20 n])
  | .ubr64i b a n => some ([encW0 1 0x23 0 (senseCode b) (src8Code a) true 0, unsigned 32 n])
  | .ubrx a => some ([enc32 1 0x24 0 0x3F (src7Code a) 0x5C])
  | .ubrx64 a => some ([encW0 1 0x24 0 0xFF (src8Code a) false 0, encW1 0xCC 0xCC none 0])
  | .ucall d n => some ([encW0 1 0x25 0 (dst8Code d) 0xCC true 0, unsigned 32 n])
  | .uret a => some ([enc32 1 0x26 0 0x3F (src7Code a) 0x5C])
  | .uret64 a => some ([encW0 1 0x26 0 0xFF (src8Code a) false 0, encW1 0xCC 0xCC none 0])
  | .uexit => some ([0x89CFEE5C])
  | .uexit64 => some ([encW0 1 0x27 0 0xFF 0xCC false 0, 0xCCCC0000])
  | .launch d a h g => some ([encW0 1 0x28 0 (dst8Code d) (src8Code a) false 0, encW1 0xCC 0xCC g (if h then 1 else 0)])
  | .rcbrd d a n g => some ([encW0 1 0x29 0 (dst8Code d) (src8Code a) false 0, encW1 0xCC 0xCC g n])
  | .barinit a n => some ([enc32 1 0x30 0 0x3F (src7Code a) (0x70 + n)])
  | .barinit64 a b n g => some ([encW0 1 0x30 0 0xFF (src8Code a) false 0, encW1 (src8Code b) 0xCC g n])
  | .barrive d a n => some ([enc32 1 0x31 0 (dst6Code d) (src7Code a) (0x70 + n)])
  | .barrive64 d a n p g => some ([encW0 1 0x31 0 (dst8Code d) (src8Code a) false 0, encW1 0xCC 0xCC g (n + (if p then 16 else 0))])
  | .barwait a n => some ([enc32 1 0x32 0 0x3F (src7Code a) (0x70 + n)])
  | .bartest d n => some ([enc32 1 0x33 0 (dst6Code d) 0x5C (0x70 + n)])
  | .cinch n => some ([0x8D0FEE70 + n])
  | .cinchcfg d k t n g => some ([encW0 1 0x35 0 (dst8Code d) (kOptCode k) false 0, encW1 (src8Code t) 0xCC g n])
  | .cinchcfgUnbind d n g => some ([encW0 1 0x35 0 (dst8Code d) 0xCC false 0, encW1 0xCC 0xCC g (n + 8)])
  | .cpslice a j c n i m => some ([encW0 1 0x36 0 0xFF (src8Code a) false 0, encW1 (0x80 + j) (src8Code c) none (n + i * 16 + (m - 1) * 256)])
  | .binct a b g => some ([encW0 1 0x37 0 0xFF (src8Code a) false 0, encW1 (src8Code b) 0xCC g 0])
  | .binpatch d a b c p i g => some ([encW0 1 0x38 0 (dst8Code d) (src8Code a) false 0, encW1 (src8Code b) (src8Code c) g (patchCode p + i * 4)])
  | .binrel a g => some ([encW0 1 0x39 0 0xFF (src8Code a) false 0, encW1 0xCC 0xCC g 0])
  | .binrelClear a g => some ([encW0 1 0x39 0 0xFF 0xCC false 0, encW1 (src8Code a) 0xCC g 1])
  | .mstart d => some ([enc32 1 0x3A 0 (dst6Code d) 0x5C 0x70])
  | .bload j m => some ([encW0 1 0x40 0 0xFF (0x80 + j) false 0, encW1 0xCC 0xCC none m])
  | .mma j kb nb m t => some ([encW0 1 0x41 0 0xFF (0x80 + j) false 0, encW1 (kb - 1) (nb - 1) none (m + t * 32)])
  | .mzero t n => some ([encW0 1 0x42 0 0xFF 0xCC false 0, encW1 0xCC 0xCC none (t + (n - 1) * 32)])
  | .mdrainSt j t => some ([encW0 1 0x43 0 0xFF (0x80 + j) false 0, encW1 0xCC 0xCC none (t * 4)])
  | .mdrainAdd j a t => some ([encW0 1 0x43 0 0xFF (0x80 + j) false 0, encW1 (0x80 + a) 0xCC none (1 + t * 4)])
  | .mdrainPeer a t => some ([encW0 1 0x43 0 0xFF 0xCC false 0, encW1 (0x80 + a) 0xCC none (2 + t * 4)])
  | .mexpect j t b n => some ([encW0 1 0x44 0 0xFF (0x80 + j) false 0, encW1 0xCC 0xCC none (t + b * 32 + (n - 1) * 512)])
  | .rowstat x k t b => some ([encW0 1 0x45 0 x 0xCC false 0, encW1 k 0xCC none (t + b * 32)])
  | .rowexp j k t => some ([encW0 1 0x46 0 0xFF (0x80 + j) false 0, encW1 (0x80 + k) 0xCC none t])
  | .mpin d k t => some ([encW0 1 0x47 0 (dst8Code d) 0xCC false 0, encW1 (0x80 + k) 0xCC none t])
  | .munpin t => some ([encW0 1 0x48 0 0xFF 0xCC false 0, encW1 0xCC 0xCC none t])
  | .mrefill k t n => some ([encW0 1 0x49 0 0xFF (0x80 + k) false 0, encW1 0xCC 0xCC none (t + (n - 1) * 32)])
  | .mspill k t n => some ([encW0 1 0x4A 0 0xFF (0x80 + k) false 0, encW1 0xCC 0xCC none (t + (n - 1) * 32)])
  | .mmode r f => some ([encW0 1 0x4B 0 0xFF 0xCC false 0, encW1 0xCC 0xCC none (r + f * 8)])
  | .fput d a b c => some ([encW0 1 0x60 0 (dst8Code d) (0x80 + a) false 0, encW1 (0x80 + b) (0x80 + c) none 0])
  | .fget d a b c => some ([encW0 1 0x61 0 (dst8Code d) (0x80 + a) false 0, encW1 (0x80 + b) (0x80 + c) none 0])
  | .fsend j b => some ([encW0 1 0x62 0 0xFF (0x80 + j) false 0, encW1 (0x80 + b) 0xCC none 0])
  | .frecv j c => some ([encW0 1 0x63 0 (0x80 + j) 0xCC false 0, encW1 0xCC 0xCC none c])
  | .fcomp d a b c => some ([encW0 1 0x64 0 (dst8Code d) (0x80 + a) false 0, encW1 (0x80 + b) (0x80 + c) none 0])
  | .fdecomp d a b c => some ([encW0 1 0x65 0 (dst8Code d) (0x80 + a) false 0, encW1 (0x80 + b) (0x80 + c) none 0])
  | .fdar d a b c => some ([encW0 1 0x66 0 (dst8Code d) (0x80 + a) false 0, encW1 (0x80 + b) (0x80 + c) none 0])
  | .fdarLast d a b c => some ([encW0 1 0x66 0 (dst8Code d) (0x80 + a) false 0, encW1 (0x80 + b) (0x80 + c) none 1])
  | .fwait d a => some ([encW0 1 0x67 0 (dst8Code d) (0x80 + a) false 0, encW1 0xCC 0xCC none 0])
  | .fsig a b => some ([encW0 1 0x68 0 0xFF (0x80 + a) false 0, encW1 (src8Code b) 0xCC none 0])
  | .fslot j a b c => some ([encW0 1 0x69 0 (0x80 + j) (0x80 + a) false 0, encW1 (0x80 + b) (kOptCode c) none 0])
  | .fred a b c => some ([encW0 1 0x6A 0 0xFF (0x80 + a) false 0, encW1 (0x80 + b) (0x80 + c) none 0])
  | .fckpt d a b c => some ([encW0 1 0x6B 0 (dst8Code d) (0x80 + a) false 0, encW1 (0x80 + b) (0x80 + c) none 0])
  | .frest d a b => some ([encW0 1 0x6C 0 (dst8Code d) (0x80 + a) false 0, encW1 (0x80 + b) 0xCC none 0])
  | .ttpost a b f p g => some ([encW0 1 0x70 0 0xFF (src8Code a) false 0, encW1 (src8Code b) 0xCC g ((if f then 1 else 0) + (if p then 4 else 0))])
  | .ttwaitRdy d a b c g => some ([encW0 1 0x71 0 (dst8Code d) (src8Code a) false 0, encW1 (src8Code b) (src8Code c) g 0])
  | .ttwaitCr d a b c g => some ([encW0 1 0x71 0 (dst8Code d) (src8Code a) false 0, encW1 (src8Code b) (src8Code c) g 1])
  | .ttwaitDone d a c g => some ([encW0 1 0x71 0 (dst8Code d) (src8Code a) false 0, encW1 0xCC (src8Code c) g 2])
  | .ttwaitRd d a g => some ([encW0 1 0x71 0 (dst8Code d) (src8Code a) false 0, encW1 0xCC 0xCC g 3])
  | .bell a => some ([enc32 1 0x72 0 0x3F (src7Code a) 0x5C])
  | .lcrbin d r c g => some ([encW0 1 0x73 0 (dst8Code d) 0xCC false 0, encW1 0xCC 0xCC g (r + c * 16)])
  | .dwrd d h i s => some ([encW0 1 0x78 0 (0x80 + d) (0x80 + h) false 0, encW1 (src8Code i) 0xCC none s])
  | .dwwr h i v s => some ([encW0 1 0x79 0 0xFF (0x80 + h) false 0, encW1 (src8Code i) (0x80 + v) none s])
  | .gresumeCont h v => some ([encW0 1 0x7A 0 0xFF (0x80 + h) false 0, encW1 0xCC 0xCC none (0 + levelCode v * 4)])
  | .gresumeReexec h v => some ([encW0 1 0x7A 0 0xFF (0x80 + h) false 0, encW1 0xCC 0xCC none (1 + levelCode v * 4)])
  | .gresumeStep h v => some ([encW0 1 0x7A 0 0xFF (0x80 + h) false 0, encW1 0xCC 0xCC none (2 + levelCode v * 4)])
  | .gkill h k f => some ([encW0 1 0x7B 0 0xFF (0x80 + h) false 0, encW1 (0x80 + k) 0xCC none (if f then 1 else 0)])
  | .tlbi m a b c => some ([encW0 1 0x7C 0 0xFF (0x80 + a) false 0, encW1 (0x80 + b) (0x80 + c) none (tlbiCode m)])
  | .csrrd d n => some ([encW0 1 0x7D 0 (0x80 + d) 0xCC true 0, n])
  | .csrwr a n => some ([encW0 1 0x7E 0 0xFF (0x80 + a) true 0, n])
  | .eret => some ([0x9FCFEE5C])
  | .ttwaitTimeout .. => none
  | .idleLaneCycles .. => none

/-- The words of an encoded instruction; none for a row without an encoding. -/
def Instr.words (i : Instr) : List Nat := (encode i).getD []

/-- The decoder on a word of the opcode table: `nbits` bits of `w`, bit 0 the least significant bit of the first word;
bits above `nbits` are zero. -/
noncomputable def decodeTableWord (nbits w : Nat) : Option Instr :=
  let v := w % 2 ^ nbits
  match decodeWord (v % 2 ^ 32) (v / 2 ^ 32) with
  | .ok i => some i
  | .error _ => none

end Sys2Proof
end

