-- ==== Sys2Proof/Machine/Numbers.lean ====
section
/-!
DEFINITION. Numbers to the bit (chapter 2): the float formats, exact values, rounding, saturation, CH64, exact cells, and the
special functions of Table 4.3. A code is the natural number of a format's bits. An exact finite value is m × 2^e with a
sign; a quotient or a root is rounded from a fraction.
-/
namespace Sys2Proof.Machine

/-- The formats of Table 2.1 that carry a fraction and a canonical zero. -/
inductive Format where
  | fp64 | fp32 | ax40 | fp16 | bf16 | e4m3 | e5m2 | e2m1 | e3m5
deriving DecidableEq, Repr

/-- Fraction width F (Table 2.1). -/
def Format.frac : Format → Nat
  | .fp64 => 52 | .fp32 => 23 | .ax40 => 31 | .fp16 => 10 | .bf16 => 7 | .e4m3 => 3 | .e5m2 => 2 | .e2m1 => 1 | .e3m5 => 5

/-- Bias (Table 2.1). -/
def Format.bias : Format → Nat
  | .fp64 => 1023 | .fp32 => 127 | .ax40 => 127 | .fp16 => 15 | .bf16 => 127 | .e4m3 => 7 | .e5m2 => 15 | .e2m1 => 1
  | .e3m5 => 3

/-- Bits of the exponent and fraction together; the sign, where there is one, is the bit above them. -/
def Format.mag : Format → Nat
  | .fp64 => 63 | .fp32 => 31 | .ax40 => 39 | .fp16 => 15 | .bf16 => 15 | .e4m3 => 7 | .e5m2 => 7 | .e2m1 => 3 | .e3m5 => 8

/-- Exponent of the smallest normal, 1 − bias. -/
def Format.emin (f : Format) : Int := 1 - (f.bias : Int)

/-- Code of the largest finite magnitude (Table 2.1). -/
def Format.maxCode : Format → Nat
  | .fp64 => 0x7FEFFFFFFFFFFFFF | .fp32 => 0x7F7FFFFF | .ax40 => 0x7F7FFFFFFF | .fp16 => 0x7BFF | .bf16 => 0x7F7F
  | .e4m3 => 0x7E | .e5m2 => 0x7B | .e2m1 => 0x7 | .e3m5 => 0xFE

/-- Code of +inf, in the formats that have one (Table 2.1). -/
def Format.infCode : Format → Option Nat
  | .fp64 => some 0x7FF0000000000000 | .fp32 => some 0x7F800000 | .ax40 => some 0x7F80000000 | .fp16 => some 0x7C00
  | .bf16 => some 0x7F80 | .e5m2 => some 0x7C | .e4m3 | .e2m1 | .e3m5 => none

/-- The canonical NaN (Table 2.2); E2M1 has none, and a NaN becomes +0 (R53). -/
def Format.nan : Format → Nat
  | .fp64 => 0x7FF8000000000000 | .fp32 => 0x7FC00000 | .ax40 => 0x7FC0000000 | .fp16 => 0x7E00 | .bf16 => 0x7FC0
  | .e4m3 => 0x7F | .e5m2 => 0x7E | .e2m1 => 0 | .e3m5 => 0xFF

/-- The code of 1. -/
def Format.one (f : Format) : Nat := f.bias * 2 ^ f.frac

/-- Sign bit of a code. -/
def Format.sign (f : Format) (c : Nat) : Bool := c / 2 ^ f.mag % 2 == 1
/-- A magnitude code with a sign. -/
def Format.withSign (f : Format) (neg : Bool) (c : Nat) : Nat := if neg && f != .e3m5 then c + 2 ^ f.mag else c

/-- An exact value: a NaN, an infinity, or ± m × 2^e. A zero keeps its sign (R43). -/
inductive FVal where
  | nan
  | inf (neg : Bool)
  | fin (neg : Bool) (m : Nat) (e : Int)
deriving DecidableEq, Repr

/-- The value of a code (R40). -/
def Format.toVal (f : Format) (code : Nat) : FVal :=
  let neg := f.sign code
  let c := code % 2 ^ f.mag
  if f.infCode = some c then .inf neg
  else if f.maxCode < c then .nan
  else if c < 2 ^ f.frac then .fin neg c (f.emin - f.frac)
  else .fin neg (2 ^ f.frac + c % 2 ^ f.frac) (f.emin - f.frac + (c / 2 ^ f.frac : Nat) - 1)

/-- Whether a code is a subnormal (R51). -/
def Format.subnormal (f : Format) (code : Nat) : Bool :=
  let c := code % 2 ^ f.mag
  0 < c && c < 2 ^ f.frac

/-- Replace a subnormal by a zero of its sign (R51). -/
def Format.flush (f : Format) (on : Bool) (code : Nat) : Nat :=
  if on && f.subnormal code then f.withSign (f.sign code) 0 else code

/-- floor(log2 (num / den)), for num > 0. -/
def floorLog2 (num den : Nat) : Int :=
  let l : Int := (Nat.log2 num : Int) - (Nat.log2 den : Int)
  let ge := if 0 ≤ l then den * 2 ^ l.toNat ≤ num else den ≤ num * 2 ^ (-l).toNat
  if ge then l else l - 1

/-- m × 2^e as a fraction. -/
def dyadic (m : Nat) (e : Int) : Nat × Nat := if 0 ≤ e then (m * 2 ^ e.toNat, 1) else (m, 2 ^ (-e).toNat)

/-- A rounding mode with the bits r that RSR draws (R46, R48). -/
structure Rounding where
  rnd : Rnd
  r   : Nat
deriving DecidableEq, Repr

/-- Whether a truncated magnitude is raised by one unit: q the truncation, rem / den what is left of a unit. -/
def Rounding.up (md : Rounding) (neg : Bool) (q rem den : Nat) : Bool :=
  match md.rnd with
  | .rne | .dyn => decide (den < 2 * rem) || (decide (den = 2 * rem) && q % 2 == 1)
  | .rtz => false
  | .rup => !neg && rem != 0
  | .rdn => neg && rem != 0
  | .rna => decide (den ≤ 2 * rem)
  | .rsr => decide (den * 2 ^ 32 ≤ rem * 2 ^ 32 + md.r * den)

/-- The magnitude code of ± num / den rounded to a format, its exponent extended without bound (R46, R48). -/
def Format.roundCode (f : Format) (md : Rounding) (neg : Bool) (num den : Nat) : Nat :=
  if num = 0 then 0 else
  let e := max f.emin (floorLog2 num den)
  let u : Int := e - f.frac
  let n := if 0 ≤ u then num else num * 2 ^ (-u).toNat
  let d := if 0 ≤ u then den * 2 ^ u.toNat else den
  (e - f.emin).toNat * 2 ^ f.frac + n / d + (if md.up neg (n / d) (n % d) d then 1 else 0)

/-- The code of an infinite result (R47, R53). -/
def Format.ofInf (f : Format) (sm : Sat) (neg : Bool) : Nat :=
  match sm with
  | .clamp => if neg then 0 else f.one
  | .sat => f.withSign neg f.maxCode
  | .off =>
    match f.infCode with
    | some c => f.withSign neg c
    | none => if f == .e2m1 then f.withSign neg f.maxCode else f.nan

/-- The outcome of an overflow (Table 2.4). -/
def Format.overflow (f : Format) (md : Rounding) (sm : Sat) (neg : Bool) : Nat :=
  let toMax := match md.rnd with
    | .rtz => true
    | .rup => neg
    | .rdn => !neg
    | _ => false
  if sm == .off && toMax then f.withSign neg f.maxCode else f.ofInf sm neg

/-- A finite result ± num / den rounded, saturated (R46 to R48). -/
def Format.ofFrac (f : Format) (md : Rounding) (sm : Sat) (neg : Bool) (num den : Nat) : Nat :=
  let c := f.roundCode md neg num den
  if sm == .clamp then (if neg then 0 else min c f.one)
  else if f.maxCode < c then f.overflow md sm neg
  else f.withSign neg c

/-- A result in a format: rounding, overflow and saturation (R46 to R48, R42, R53). -/
def Format.ofVal (f : Format) (md : Rounding) (sm : Sat) : FVal → Nat
  | .nan => if sm == .clamp then 0 else f.nan
  | .inf neg => f.ofInf sm neg
  | .fin neg m e => let p := dyadic m e; f.ofFrac md sm neg p.1 p.2

/-- RNE without flush or saturation (R46). -/
def rne : Rounding := ⟨.rne, 0⟩
/-- RNE into a format. -/
def Format.rneOf (f : Format) (v : FVal) : Nat := f.ofVal rne .off v

/-- Sign change. -/
def FVal.neg : FVal → FVal
  | .nan => .nan
  | .inf s => .inf (!s)
  | .fin s m e => .fin (!s) m e

/-- The sign of a value; a NaN has none. -/
def FVal.sign : FVal → Bool
  | .nan => false
  | .inf s => s
  | .fin s _ _ => s

/-- Whether a value is a NaN. -/
def FVal.isNan : FVal → Bool
  | .nan => true
  | _ => false

/-- Whether a value is a zero of either sign. -/
def FVal.isZero : FVal → Bool
  | .fin _ m _ => m == 0
  | _ => false

/-- The product (R43). -/
def FVal.mul : FVal → FVal → FVal
  | .nan, _ | _, .nan => .nan
  | .inf s, .inf t => .inf (s != t)
  | .inf s, .fin t m _ => if m = 0 then .nan else .inf (s != t)
  | .fin s m _, .inf t => if m = 0 then .nan else .inf (s != t)
  | .fin s m e, .fin t n d => .fin (s != t) (m * n) (e + d)

/-- Signed mantissa of a value scaled to exponent `e0`, which is not above its own. -/
def FVal.scaled (e0 : Int) : FVal → Int
  | .fin s m e => let n : Int := (m * 2 ^ (e - e0).toNat : Nat); if s then -n else n
  | _ => 0

/-- Smallest exponent among finite terms. -/
def minExp (l : List FVal) : Int :=
  l.foldl (fun a v => match v with | .fin _ _ e => min a e | _ => a) 0

/-- The exact sum of terms (R43): NaN and infinities as for one sum; a zero sum keeps the sign its terms share, and is −0 of
terms of both signs under RDN only. -/
def sumVals (rdn : Bool) (l : List FVal) : FVal :=
  if l.any FVal.isNan then .nan
  else
    let pinf := l.any (· == .inf false)
    let ninf := l.any (· == .inf true)
    if pinf && ninf then .nan
    else if pinf then .inf false
    else if ninf then .inf true
    else
      let e0 := minExp l
      let t := l.foldl (fun a v => a + v.scaled e0) (0 : Int)
      if t = 0 then .fin (if l.all FVal.sign then !l.isEmpty else if l.all (fun v => !v.sign) then false else rdn) 0 0
      else .fin (decide (t < 0)) t.natAbs e0

/-- Order of two values that are not NaN; −0 and +0 are equal. -/
def FVal.lt : FVal → FVal → Bool
  | .inf s, .inf t => s && !t
  | .inf s, .fin _ _ _ => s
  | .fin _ _ _, .inf t => !t
  | .fin s m e, .fin t n d =>
    let e0 := min e d
    decide ((FVal.fin s m e).scaled e0 < (FVal.fin t n d).scaled e0)
  | _, _ => false

/-- Values compare equal (R105): zeros of both signs do. -/
def FVal.eqv (a b : FVal) : Bool := !a.isNan && !b.isNan && !a.lt b && !b.lt a

/-- The quotient in a format (R43, R108), rounded. -/
def Format.divOf (f : Format) (md : Rounding) (sm : Sat) : FVal → FVal → Nat
  | .nan, _ | _, .nan => f.ofVal md sm .nan
  | .inf _, .inf _ => f.ofVal md sm .nan
  | .inf s, .fin t _ _ => f.ofVal md sm (.inf (s != t))
  | .fin s _ _, .inf t => f.ofVal md sm (.fin (s != t) 0 0)
  | .fin s m e, .fin t n d =>
    if n = 0 then f.ofVal md sm (if m = 0 then .nan else .inf (s != t))
    else
      let x := e - d
      if 0 ≤ x then f.ofFrac md sm (s != t) (m * 2 ^ x.toNat) n else f.ofFrac md sm (s != t) m (n * 2 ^ (-x).toNat)

/-- One step of the bitwise square root: bit `i` of the root. -/
def isqrtBits (n : Nat) : Nat → Nat → Nat
  | 0, r => r
  | i + 1, r => let t := r + 2 ^ i; isqrtBits n i (if t * t ≤ n then t else r)

/-- floor(√n). -/
def isqrt (n : Nat) : Nat := isqrtBits n (Nat.log2 n / 2 + 1) 0

/-- √(m × 2^e) or its reciprocal as a fraction whose every rounding equals that of the exact root: 160 bits below the
leading one, and a sticky bit. -/
def rootFrac (recip : Bool) (m : Nat) (e : Int) : Nat × Nat :=
  let m2 := if e % 2 = 0 then m else 2 * m
  let h := if e % 2 = 0 then e / 2 else (e - 1) / 2
  if recip then
    let n := 2 ^ (2 * (Nat.log2 m2 + 160)) / m2
    let r := isqrt n
    let exact := r * r * m2 = 2 ^ (2 * (Nat.log2 m2 + 160))
    let p := dyadic (2 * r + (if exact then 0 else 1)) (-h - (Nat.log2 m2 + 160 : Nat) - 1)
    p
  else
    let n := m2 * 2 ^ 320
    let r := isqrt n
    dyadic (2 * r + (if r * r = n then 0 else 1)) (h - 161)

/-- The square root in a format (R43, R108), rounded. -/
def Format.sqrtOf (f : Format) (md : Rounding) (sm : Sat) : FVal → Nat
  | .nan => f.ofVal md sm .nan
  | .inf s => f.ofVal md sm (if s then .nan else .inf false)
  | .fin s m e =>
    if m = 0 then f.ofVal md sm (.fin s 0 0)
    else if s then f.ofVal md sm .nan
    else let p := rootFrac false m e; f.ofFrac md sm false p.1 p.2

/-- CH64's arithmetic: rotation left within 64 bits. -/
def rotl64 (x : W64) (n : Nat) : W64 := x.rotateLeft n

/-- The rounds of CH64 from round `i`, `n` of them left (R49). -/
def ch64Rounds : Nat → Nat → W64 → W64 → W64 → W64
  | 0, _, a, _, c => a ^^^ c
  | n + 1, i, a, b, c =>
    let a := a + b
    let b := rotl64 b 13 ^^^ a
    let a := rotl64 a 32
    let c := c + (b ^^^ BitVec.ofNat 64 i)
    let b := b + c
    let c := rotl64 c 17 ^^^ b
    ch64Rounds n (i + 1) a b c

/-- CH64 (R49). -/
def ch64 (seed : W64) (tensor : W32) (coord : W64) : W64 :=
  ch64Rounds 6 0 seed coord (tensor.setWidth 64 ^^^ 0x9E3779B97F4A7C15#64)

/-- The bits r that RSR uses (R48). -/
def rsrBits (seed : W64) (tensor : W32) (coord : W64) : Nat := (ch64 seed tensor coord).toNat / 2 ^ 32

/-- An E8M0 scale's exponent, or none for NaN (Table 2.1). -/
def e8m0Exp (c : Nat) : Option Int := if c = 0xFF then none else some ((c : Int) - 127)

/-- A value multiplied by an E8M0 scale (R44, R45). -/
def FVal.scaleE8 (c : Nat) : FVal → FVal
  | .fin s m e => match e8m0Exp c with | some x => .fin s m (e + x) | none => .nan
  | v => match e8m0Exp c with | some _ => v | none => .nan

/-- A value multiplied by an E3M5 scale, a multiplier only (R44, R45). -/
def FVal.scaleE3 (c : Nat) (v : FVal) : FVal := v.mul (Format.e3m5.toVal c)

/-- log2 of a rational in [1, 2) bit by bit: the next `n` bits of its logarithm, `x` scaled by 2^640. -/
def log2Bits : Nat → Nat → Nat → Nat
  | 0, _, acc => acc
  | n + 1, x, acc =>
    let y := x * x / 2 ^ 640
    if 2 ^ 641 ≤ y then log2Bits n (y / 2) (2 * acc + 1) else log2Bits n y (2 * acc)

/-- π scaled by 2^400. -/
def pi400 : Nat := 0x3243F6A8885A308D313198A2E03707344A4093822299F31D0082EFA98EC4E6C89452821E638D01377BE5466CF34E90C6CC0AC
/-- ln 2 scaled by 2^400. -/
def ln2400 : Nat := 0xB17217F7D1CF79ABC9E3B39803F2F6AF40F343267298B62D8A0D175B8BAAFA2BE7B876206DEBAC98559552FB4AFA1B10ED2E

/-- The terms of a power series scaled by 2^400: term k is multiplied by x / (k + 1) (and alternates two steps at a time
with `sq`). -/
def expTerms (x : Nat) : Nat → Nat → Nat → Nat
  | 0, _, _ => 0
  | n + 1, k, t => t + expTerms x n (k + 1) (t * x / 2 ^ 400 / (k + 1))

/-- Alternating series Σ (−1)^j t_j with t_{j+1} = t_j × x² / ((k + 1)(k + 2)), k = k0 + 2j, scaled by 2^400. -/
def altTerms (x2 : Nat) : Nat → Nat → Nat → Int
  | 0, _, _ => 0
  | n + 1, k, t => (t : Int) - altTerms x2 n (k + 2) (t * x2 / 2 ^ 400 / ((k + 1) * (k + 2)))

/-- sin(x) for x in [0, 2), scaled by 2^400. -/
def sinFix (x : Nat) : Nat := (altTerms (x * x / 2 ^ 400) 60 1 x).toNat
/-- cos(x) for x in [0, 2), scaled by 2^400. -/
def cosFix (x : Nat) : Nat := (altTerms (x * x / 2 ^ 400) 60 0 (2 ^ 400)).toNat

/-- The special functions of R109. -/
inductive SpecialFn where
  | rsq | ex2 | lg2 | sin | cos
deriving DecidableEq, Repr

/-- Code of a special function, as a key of `Config.ulpPick`: its opcode (Table 4.2). -/
def SpecialFn.code : SpecialFn → Nat
  | .rsq => 0x2B | .ex2 => 0x2C | .lg2 => 0x2D | .sin => 0x2E | .cos => 0x2F

/-- What a special function gives: a value of the Special values column (or an exact one), or an inexact ± num / den that
stands within 2^−300 of the function's value and on the same side of every value of a format. -/
inductive FnResult where
  | exact (v : FVal)
  | inexact (neg : Bool) (num den : Nat)
deriving DecidableEq, Repr

/-- 2^a for a finite non-integral a = ± m × 2^e, e < 0: an exponent bounded to ±3000, and the series of its fraction. -/
def ex2Inexact (s : Bool) (m : Nat) (e : Int) : FnResult :=
  let k := (-e).toNat
  let whole := min (m / 2 ^ k) 3000
  let part := m % 2 ^ k
  -- a negative: −whole − part = −(whole + 1) + (1 − part)
  let f := if s then 2 ^ k - part else part
  let w : Int := if s then -(whole : Int) - 1 else whole
  let x := if k ≤ 400 then f * 2 ^ (400 - k) else f / 2 ^ (k - 400)
  let p := dyadic (2 * expTerms (x * ln2400 / 2 ^ 400) 120 0 (2 ^ 400) + 1) (w - 401)
  .inexact false p.1 p.2

/-- log2 of m × 2^e, m not a power of two: exponent plus 300 bits of the fraction and a sticky bit. -/
def lg2Inexact (m : Nat) (e : Int) : FnResult :=
  let l := Nat.log2 m
  let fr := 2 * log2Bits 300 (m * 2 ^ 640 / 2 ^ l) 0 + 1
  let t : Int := (e + l) * (2 ^ 301 : Nat) + fr
  .inexact (decide (t < 0)) t.natAbs (2 ^ 301)

/-- A half-turn angle m × 2^e reduced modulo 2 and held as a multiple of 2^−400 (exact for every format that has the
function): the value in [0, 2). -/
def turnOf (m : Nat) (e : Int) : Nat :=
  (if -400 ≤ e then m * 2 ^ (e + 400).toNat else m / 2 ^ (-e - 400).toNat) % 2 ^ 401

/-- sin(π t) for t in [0, 2), held as a multiple of 2^−400: a sign, and its magnitude as a fraction with a sticky bit. -/
def sinTurn (t : Nat) : Bool × Nat × Nat :=
  let neg := decide (2 ^ 400 ≤ t)
  let h := t % 2 ^ 400
  let q := if 2 ^ 399 ≤ h then 2 ^ 400 - h else h
  let x := q * pi400 / 2 ^ 400
  -- above a quarter the cosine of the complement is the exact partner
  (neg, 2 * sinFix x + 1, 2 ^ 401)

/-- A special function of an operand already flushed (R109, Table 4.3). -/
def SpecialFn.apply : SpecialFn → FVal → FnResult
  | _, .nan => .exact .nan
  | .rsq, .inf s => .exact (if s then .nan else .fin false 0 0)
  | .rsq, .fin s m e =>
    if m = 0 then .exact (.inf s)
    else if s then .exact .nan
    else let p := rootFrac true m e; .inexact false p.1 p.2
  | .ex2, .inf s => .exact (if s then .fin false 0 0 else .inf false)
  | .ex2, .fin s m e =>
    if m = 0 then .exact (.fin false 1 0)
    else if 0 ≤ e then .exact (.fin false 1 (let w : Int := min (m * 2 ^ (min e 12).toNat) 3000; if s then -w else w))
    else if m % 2 ^ (-e).toNat = 0 then
      .exact (.fin false 1 (let w : Int := min (m / 2 ^ (-e).toNat) 3000; if s then -w else w))
    else ex2Inexact s m e
  | .lg2, .inf s => .exact (if s then .nan else .inf false)
  | .lg2, .fin s m e =>
    if m = 0 then .exact (.inf true)
    else if s then .exact .nan
    else if 2 ^ Nat.log2 m = m then let v : Int := e + Nat.log2 m; .exact (.fin (decide (v < 0)) v.natAbs 0)
    else lg2Inexact m e
  | .sin, .inf _ | .cos, .inf _ => .exact .nan
  | .sin, .fin s m e =>
    let t := turnOf m e
    if t % 2 ^ 400 = 0 ∧ (m = 0 ∨ -400 ≤ e) then .exact (.fin s 0 0)
    else if t % 2 ^ 400 = 2 ^ 399 then .exact (.fin (s != decide (2 ^ 400 ≤ t)) 1 0)
    else let r := sinTurn t; .inexact (s != r.1) r.2.1 r.2.2
  | .cos, .fin _ m e =>
    let t := turnOf m e
    if t % 2 ^ 400 = 0 then .exact (.fin (decide (2 ^ 400 ≤ t)) 1 0)
    else if t % 2 ^ 400 = 2 ^ 399 then .exact (.fin false 0 0)
    else let r := sinTurn ((t + 2 ^ 399) % 2 ^ 401); .inexact r.1 r.2.1 r.2.2

/-- The accuracy of Table 4.3 in FP32 and FP64, in ulp. -/
def SpecialFn.slack (fn : SpecialFn) : Nat := if fn == .rsq then 1 else 2

/-- The value of a magnitude code as a fraction, its exponent extended without bound. -/
def Format.magFrac (f : Format) (c : Nat) : Nat × Nat :=
  if c < 2 ^ f.frac then dyadic c (f.emin - f.frac)
  else dyadic (2 ^ f.frac + c % 2 ^ f.frac) (f.emin - f.frac + (c / 2 ^ f.frac : Nat) - 1)

/-- Whether a magnitude code lies within `k` ulp of num / den, an ulp being the step of the format at that value. -/
def Format.within (f : Format) (k num den c : Nat) : Bool :=
  let a := f.magFrac c
  let u := dyadic 1 (max f.emin (floorLog2 num den) - f.frac)
  let gap := if num * a.2 ≤ a.1 * den then a.1 * den - num * a.2 else num * a.2 - a.1 * den
  decide (gap * u.2 ≤ k * u.1 * (a.2 * den))

/-- The magnitude code of an inexact special-function result: correctly rounded in FP16 and BF16, else the code that
`Config.ulpPick` takes among all those within the accuracy. -/
def SpecialFn.pick (fn : SpecialFn) (f : Format) (operand : Nat) (flush : Bool) (num den : Nat) : Nat :=
  if f == .fp16 || f == .bf16 then f.roundCode rne false num den
  else
    let c := f.roundCode ⟨.rtz, 0⟩ false num den
    let l := ((List.range 10).map fun i => c + i - 4).filter (f.within fn.slack num den)
    (l[Config.ulpPick fn.code (f.mag + 1) operand flush % l.length]?).getD c

/-- A special function in a format: result code before the result flush (R109, R47). -/
def SpecialFn.eval (fn : SpecialFn) (f : Format) (sm : Sat) (flush : Bool) (operand : Nat) : Nat :=
  match fn.apply (f.toVal operand) with
  | .exact v => f.ofVal rne sm v
  | .inexact neg num den =>
    let c := fn.pick f operand flush num den
    if sm == .clamp then (if neg then 0 else min c f.one)
    else if f.maxCode < c then f.overflow rne sm neg
    else f.withSign neg c

/-- V of an exact cell (R55) as an integer. -/
def cellInt (v : Nat) : Int := signed 320 (v % 2 ^ 320)

/-- A contribution added to a cell held as a number of 512 bits (R56). -/
def cellAdd (cell : Nat) (x : FVal) : Nat :=
  let hi := cell / 2 ^ 320
  let v := cell % 2 ^ 320
  match x with
  | .nan => (hi ||| 2 ^ 10) * 2 ^ 320 + v
  | .inf s => (hi ||| (if s then 2 ^ 9 else 2 ^ 8)) * 2 ^ 320 + v
  | .fin _ _ _ =>
    let t := cellInt v + x.scaled (-149)
    let out := decide (t < -(2 ^ 319 : Int)) || decide ((2 ^ 319 : Int) ≤ t)
    (hi ||| (if out then 2 ^ 11 else 0)) * 2 ^ 320 + unsigned 320 t

/-- A read of a cell in a format (R57). -/
def cellRead (f : Format) (cell : Nat) : Nat :=
  let v := cellInt cell
  let pinf := fld cell 328 1 == 1
  let ninf := fld cell 329 1 == 1
  if fld cell 330 1 == 1 || fld cell 331 1 == 1 || (pinf && ninf) then f.nan
  else if pinf then f.ofInf .off false
  else if ninf then f.ofInf .off true
  else f.rneOf (.fin (decide (v < 0)) v.natAbs (-149))

end Sys2Proof.Machine
end

