-- ==== Sys2Proof/Machine/Sparse.lean ====
section
/-!
DEFINITION. Sparse maps in their canonical form (keys strictly rising, no entry equal to the default), and bytes in
little-endian order (R4). Every map of State is read and written through these.
-/
namespace Sys2Proof.Machine

/-- The value at a key; `d` where the key is not listed. -/
def sget {α : Type} (d : α) : Sparse α → Nat → α
  | [], _ => d
  | (k, v) :: r, a => if a = k then v else sget d r a

/-- Write a key with an entry of its own. -/
def sput {α : Type} : Sparse α → Nat → α → Sparse α
  | [], a, v => [(a, v)]
  | (k, w) :: r, a, v =>
    if a < k then (a, v) :: (k, w) :: r else if a = k then (a, v) :: r else (k, w) :: sput r a v

/-- Write a key, keeping the canonical form: writing the default removes the entry. -/
def sset {α : Type} [DecidableEq α] (d : α) (m : Sparse α) (a : Nat) (v : α) : Sparse α :=
  if v = d then m.filter fun e => e.1 != a else sput m a v

/-- The canonical form: keys strictly rising from `lo`, and no entry equal to the default. -/
def swfFrom {α : Type} [DecidableEq α] (d : α) : Nat → Sparse α → Bool
  | _, [] => true
  | lo, (k, v) :: r => decide (lo ≤ k) && decide (v ≠ d) && swfFrom d (k + 1) r

/-- The canonical form. -/
def swf {α : Type} [DecidableEq α] (d : α) (m : Sparse α) : Bool := swfFrom d 0 m

/-- Write consecutive keys from `a`. -/
def ssetAll {α : Type} [DecidableEq α] (d : α) (m : Sparse α) (a : Nat) : List α → Sparse α
  | [] => m
  | v :: r => ssetAll d (sset d m a v) (a + 1) r

/-- Write a list of entries in order. -/
def ssetEach {α : Type} [DecidableEq α] (d : α) (m : Sparse α) : List (Nat × α) → Sparse α
  | [] => m
  | (a, v) :: r => ssetEach d (sset d m a v) r

/-- Read `n` consecutive keys from `a`. -/
def sgetAll {α : Type} (d : α) (m : Sparse α) (a : Nat) : Nat → List α
  | 0 => []
  | n + 1 => sget d m a :: sgetAll d m (a + 1) n

/-- Drop the keys for which `p` holds. -/
def sdrop {α : Type} (p : Nat → Bool) (m : Sparse α) : Sparse α := m.filter fun e => !p e.1

/-- The unsigned value of bytes, least significant first (R4). -/
def leNat : List Byte → Nat
  | [] => 0
  | b :: r => b.toNat + 256 * leNat r

/-- The `n` bytes of a value, least significant first (R4). -/
def leBytes : Nat → Nat → List Byte
  | 0, _ => []
  | n + 1, v => BitVec.ofNat 8 v :: leBytes n (v / 256)

/-- Memory is a sparse map of bytes; an unlisted byte reads 0 (R204). -/
def memByte (m : Sparse Byte) (a : Nat) : Byte := sget 0 m a
/-- `n` bytes of memory from `a` as a little-endian number. -/
def memNat (m : Sparse Byte) (a n : Nat) : Nat := leNat (sgetAll 0 m a n)
/-- Write the `n` bytes of a number at `a`. -/
def memPut (m : Sparse Byte) (a n v : Nat) : Sparse Byte := ssetAll 0 m a (leBytes n v)

/-- Memory is in canonical form. -/
def Memory.wf (m : Sparse Byte) : Bool := swf 0 m

/-- A 64-bit value of a natural number. -/
def w64 (n : Nat) : W64 := BitVec.ofNat 64 n
/-- All ones or 0 (R98). -/
def maskOf (n : Nat) (b : Bool) : Nat := if b then 2 ^ n - 1 else 0

end Sys2Proof.Machine
end

