-- ==== Sys2Proof/Machine/Flags.lean ====
section
/-!
DEFINITION. Sub-elements, guards, the mode word's rounding and flush bits, saturation, and the comparisons and carries that
set predicates (R12, R19, R20, R25, R39, R51, R98, R99, R105).
-/
namespace Sys2Proof.Machine

/-- Sub-element `i` of `w` bits (R12). -/
def subOf (w : Nat) (v : W64) (i : Nat) : Nat := v.toNat / 2 ^ (w * i) % 2 ^ w

/-- Sub-elements packed, the first in the low bits. -/
def packNat (w : Nat) : List Nat → Nat
  | [] => 0
  | x :: r => x % 2 ^ w + 2 ^ w * packNat w r

/-- A register of sub-elements of `w` bits. -/
def pack (w : Nat) (l : List Nat) : W64 := w64 (packNat w l)

/-- The register whose sub-element `i` of `w` bits is `f i`. -/
def perSub (w : Nat) (f : Nat → Nat) : W64 := pack w ((List.range (64 / w)).map f)

/-- One value in every sub-element. -/
def spread (w v : Nat) : W64 := perSub w fun _ => v

/-- The bits that a predicate's guard lets a write reach, under sub-elements of `w` bits (R25). -/
def guardMask (w : Nat) (g : Byte) : W64 := perSub w fun i => if g.getLsbD i then 2 ^ w - 1 else 0

/-- A write under a mask (R25). -/
def merge (mask old new : W64) : W64 := (old &&& ~~~mask) ||| (new &&& mask)

/-- Whether some guard bit of the shape is on. -/
def anyOn (n : Nat) (g : Byte) : Bool := (List.range n).any fun i => g.getLsbD i

/-- Bits of a predicate replaced where a mask of bits is set (R12, R98). -/
def mergeBits (n : Nat) (g old new : Byte) : Byte :=
  BitVec.ofNat 8 (packNat 1 ((List.range 8).map fun i =>
    if (if decide (i < n) && g.getLsbD i then new.getLsbD i else old.getLsbD i) then 1 else 0))

/-- A predicate of bits. -/
def bitsOf (n : Nat) (f : Nat → Bool) : Byte :=
  BitVec.ofNat 8 (packNat 1 ((List.range n).map fun i => if f i then 1 else 0))

/-- The kind's integer of a sub-element (R39). -/
def kindInt (k : Kind) (w v : Nat) : Int := if k == .i then signed w v else (v : Int)

/-- A result reduced modulo 2^w, or clamped to the kind's range under saturation code 01 (R39). -/
def fit (k : Kind) (w : Nat) (sm : Sat) (v : Int) : Nat :=
  if sm == .sat then
    let lo : Int := if k == .i then -(2 ^ (w - 1) : Nat) else 0
    let hi : Int := if k == .i then (2 ^ (w - 1) : Nat) - 1 else (2 ^ w : Nat) - 1
    unsigned w (max lo (min hi v))
  else unsigned w v

/-- The format that a shape and a float kind name (R40). -/
def formatOf : Shape → Kind → Option Format
  | .d, .f => some .fp64 | .w, .f => some .fp32 | .h, .f => some .fp16 | .h, .bf => some .bf16
  | .b, .e4 => some .e4m3 | .b, .e5 => some .e5m2 | .b, .e2 => some .e2m1
  | _, _ => none

/-- The mode word's flush bits of a format's class: input, result (R19, R51). -/
def flushBits : Format → Nat × Nat
  | .fp64 => (14, 15) | .fp32 => (12, 13) | .ax40 | .e3m5 => (10, 11)
  | .fp16 | .bf16 | .e4m3 | .e5m2 | .e2m1 => (8, 9)

/-- Whether an input flush applies to operands of a format (R20). -/
def FpMode.flushIn (m : FpMode) (f : Format) : Bool := m.fzi || m.mode.getLsbD (flushBits f).1
/-- Whether a result flush applies to results of a format (R20). -/
def FpMode.flushOut (m : FpMode) (f : Format) : Bool := m.fzo || m.mode.getLsbD (flushBits f).2

/-- The rounding of sub-element `i` (R20, R50). -/
def FpMode.rounding (m : FpMode) (i : Nat) : Rounding :=
  ⟨m.rnd, if m.rnd == .rsr then rsrBits m.seed m.tid (m.coord + w64 i) else 0⟩

/-- An operand's value after input flush (R103). -/
def FpMode.operand (m : FpMode) (f : Format) (code : Nat) : FVal := f.toVal (f.flush (m.flushIn f) code)

/-- A result of sub-element `i`: rounded, saturated, flushed (R103). -/
def FpMode.result (m : FpMode) (f : Format) (i : Nat) (v : FVal) : Nat :=
  f.flush (m.flushOut f) (f.ofVal (m.rounding i) m.sat v)

/-- Whether an exact zero sum of both signs is −0 (R43). -/
def FpMode.rdn (m : FpMode) : Bool := m.rnd == .rdn

/-- RNE, without flush or saturation (R52, R239). -/
def plainFp : FpMode :=
  { rnd := .rne, sat := .off, mode := 0, fzi := false, fzo := false, seed := 0, tid := 0, coord := 0 }

/-- The rounding an instruction samples: a prefix overrides the mode word unless it holds DYN (R20). -/
def sampleRnd (mode : W32) (p : PrefixFields) : Rnd :=
  if p.rnd == .dyn then (rndOf (fld mode.toNat 0 3)).getD .rne else p.rnd

/-- A condition of `cmp` on two sub-elements (R98). -/
def condHolds (c : Cond) (a b : Int) : Bool :=
  match c with
  | .eq => a == b | .ne => a != b | .lt => decide (a < b) | .le => decide (a ≤ b) | .gt => decide (b < a) | .ge => decide (b ≤ a)

/-- A condition of `fcmp` (R105). -/
def fcondHolds (c : FCond) (a b : FVal) : Bool :=
  let un := a.isNan || b.isNan
  match c with
  | .eq => a.eqv b
  | .ne => un || !a.eqv b
  | .lt => !un && a.lt b
  | .le => !un && !b.lt a
  | .gt => !un && b.lt a
  | .ge => !un && !a.lt b
  | .un => un
  | .ord => !un

/-- The carry and the sum of `addc` (R99). -/
def addCarry (w a b c : Nat) : Nat × Bool := ((a + b + c) % 2 ^ w, decide (2 ^ w ≤ a + b + c))
/-- The difference and the borrow of `subb` (R99). -/
def subBorrow (w a b c : Nat) : Nat × Bool := (unsigned w ((a : Int) - b - c), decide (a < b + c))

/-- The operand B of a 64i form (R70). -/
def immOperand (s : Shape) (k : Kind) (imm : Nat) : W64 :=
  match s, k with
  | .d, .i => (BitVec.ofNat 32 imm).signExtend 64
  | .d, .f => w64 (Format.fp64.rneOf (Format.fp32.toVal imm))
  | .d, _ => w64 imm
  | .w, _ => spread 32 imm
  | .h, _ => spread 16 imm
  | .b, .e2 => spread 4 imm
  | .b, _ => spread 8 imm

/-- IMM sign-extended to 64 bits (R100, R119). -/
def immSigned (imm : Nat) : W64 := (BitVec.ofNat 32 imm).signExtend 64

/-- Width of a register's sub-elements under a shape and kind: half a byte for `e2` (R110). -/
def elemBits (s : Shape) (k : Kind) : Nat := if s == .b && k == .e2 then 4 else shapeBits s

end Sys2Proof.Machine
end

