-- ==== Sys2Proof/Machine/Units.lean ====
section
/-!
DEFINITION. Finding and updating the units of the package: jobs, regions, workgroups, threads, groups, streams, fabric
processors and control cores, and the numbers the spec gives them (R2, R50, R146, R321).
-/
namespace Sys2Proof.Machine

/-- The first element that satisfies `p`, updated. -/
def updFirst {α : Type} (p : α → Bool) (f : α → α) : List α → List α
  | [] => []
  | a :: r => if p a then f a :: r else a :: updFirst p f r

/-- A workgroup by its id. -/
def State.wg? (s : State) (id : Nat) : Option Workgroup := s.wgs.find? (·.id == id)
/-- Update a workgroup. -/
def State.mapWg (s : State) (id : Nat) (f : Workgroup → Workgroup) : State :=
  { s with wgs := updFirst (·.id == id) f s.wgs }

/-- A group by its id. -/
def State.group? (s : State) (id : Nat) : Option Group := s.groups.find? (·.id == id)
/-- Update a group. -/
def State.mapGroup (s : State) (id : Nat) (f : Group → Group) : State :=
  { s with groups := updFirst (·.id == id) f s.groups }

/-- A thread of a workgroup. -/
def Workgroup.thread? (w : Workgroup) (tid : Nat) : Option Thread := w.threads.find? (·.tid == tid)
/-- Update a thread of a workgroup. -/
def Workgroup.mapThread (w : Workgroup) (tid : Nat) (f : Thread → Thread) : Workgroup :=
  { w with threads := updFirst (·.tid == tid) f w.threads }
/-- Update some threads of a workgroup. -/
def Workgroup.mapThreads (w : Workgroup) (tids : List Nat) (f : Thread → Thread) : Workgroup :=
  { w with threads := w.threads.map fun t => if tids.contains t.tid then f t else t }

/-- A thread. -/
def State.thread? (s : State) (wg tid : Nat) : Option Thread := (s.wg? wg).bind (·.thread? tid)
/-- Update a thread. -/
def State.mapThread (s : State) (wg tid : Nat) (f : Thread → Thread) : State := s.mapWg wg (·.mapThread tid f)
/-- Update some threads of a workgroup. -/
def State.mapThreads (s : State) (wg : Nat) (tids : List Nat) (f : Thread → Thread) : State :=
  s.mapWg wg (·.mapThreads tids f)

/-- The thread ids of a group's present lanes (R146). -/
def Group.tids (g : Group) : List Nat := g.lanes.map (32 * g.block + ·)
/-- The partition a block is bound to (R146). -/
def Group.part (g : Group) : Nat := g.block % 4

/-- A region by its id. -/
def State.region? (s : State) (id : Nat) : Option Region := s.regions.find? (·.id == id)
/-- Update a region. -/
def State.mapRegion (s : State) (id : Nat) (f : Region → Region) : State :=
  { s with regions := updFirst (·.id == id) f s.regions }

/-- A job by its id. -/
def State.job? (s : State) (id : Nat) : Option Job := s.jobs.find? (·.id == id)
/-- Update a job. -/
def State.mapJob (s : State) (id : Nat) (f : Job → Job) : State := { s with jobs := updFirst (·.id == id) f s.jobs }

/-- A 64-bit word of a region's RCB copy (Table 5.1), by its index. -/
def Region.word (r : Region) (i : Nat) : Nat := (r.words.getD i 0).toNat
/-- A field of a region's RCB copy. -/
def Region.field (r : Region) (i lo n : Nat) : Nat := r.word i / 2 ^ lo % 2 ^ n

/-- x registers per thread, REGS (Table 5.1). -/
def Region.regs (r : Region) : Nat := r.field 13 0 8
/-- Scratchpad bytes per workgroup, SCR × 256. -/
def Region.scratch (r : Region) : Nat := r.field 13 8 12 * 256
/-- Accumulator tiles per workgroup, ACC. -/
def Region.tiles (r : Region) : Nat := r.field 13 20 6
/-- CIM macros per workgroup, MAC. -/
def Region.macros (r : Region) : Nat := r.field 13 26 6
/-- Barrier registers per workgroup, BARS. -/
def Region.bars (r : Region) : Nat := r.field 13 32 5
/-- Grid sizes. -/
def Region.gx (r : Region) : Nat := r.field 10 0 32
def Region.gy (r : Region) : Nat := r.field 10 32 32
def Region.gz (r : Region) : Nat := r.field 11 0 32
/-- Workgroup sizes. -/
def Region.wgx (r : Region) : Nat := r.field 12 0 11
def Region.wgy (r : Region) : Nat := r.field 12 11 11
def Region.wgz (r : Region) : Nat := r.field 12 22 11
/-- Threads in a workgroup, `%wgsz`. -/
def Region.wgsz (r : Region) : Nat := r.wgx * r.wgy * r.wgz
/-- The ageing threshold of bins in clk (R150). -/
def Region.age (r : Region) : Nat := if r.field 12 40 8 = 0 then 64 else r.field 12 40 8 * 8
/-- Kernel and stream entry. -/
def Region.kentry (r : Region) : Nat := r.word 8
def Region.sentry (r : Region) : Nat := r.word 9

/-- The die of a core (R2). -/
def dieOf (core : Nat) : Nat := core / 64
/-- The cluster of a core (R2). -/
def clusterOf (core : Nat) : Nat := core / 4

/-- A handle (R321). -/
def handleOf (core slot tid : Nat) (stream : Bool) : Nat :=
  core + slot * 2 ^ 8 + (if stream then 2 ^ 23 else tid * 2 ^ 13)

/-- The workgroup resident in a slot of a core. -/
def State.slot? (s : State) (core slot : Nat) : Option Workgroup :=
  s.wgs.find? fun w => w.core == core && w.slot == slot && w.residence != .saved

/-- A control core. -/
def State.control? (s : State) (n : Nat) : Option Control := s.controls[n]?
/-- Update a control core. -/
def State.mapControl (s : State) (n : Nat) (f : Control → Control) : State := { s with controls := s.controls.modify n f }
/-- A fabric processor. -/
def State.proc? (s : State) (n : Nat) : Option FabricProc := s.procs[n]?
/-- Update a fabric processor. -/
def State.mapProc (s : State) (n : Nat) (f : FabricProc → FabricProc) : State := { s with procs := s.procs.modify n f }

/-- Update a workgroup's stream. -/
def State.mapStream (s : State) (wg : Nat) (f : Stream → Stream) : State :=
  s.mapWg wg fun w => { w with stream := w.stream.map f }
/-- The stream of a workgroup. -/
def State.stream? (s : State) (wg : Nat) : Option Stream := (s.wg? wg).bind (·.stream)

/-- What a partition keeps; an unlisted one has issued nothing. -/
def partReset : Partition := { lastIssue := 0, busy := none, frozen := none, counted := 0, lcc := [] }
/-- A partition. -/
def State.part (s : State) (core part : Nat) : Partition := sget partReset s.parts (core * 4 + part)
/-- Update a partition. -/
def State.mapPart (s : State) (core part : Nat) (f : Partition → Partition) : State :=
  { s with parts := sset partReset s.parts (core * 4 + part) (f (s.part core part)) }

/-- A new number from the counter `seq`. -/
def State.bump (s : State) : State := { s with seq := s.seq + 1 }

/-- The leaf of a workgroup. -/
def State.leafOf (s : State) (w : Workgroup) : Option Region := s.region? w.region
/-- The job of a workgroup. -/
def State.jobOf (s : State) (w : Workgroup) : Nat := ((s.leafOf w).map (·.job)).getD 0

/-- A thread at its start (R13): registers 0, every flag set, its mode word from the effective MODE of its leaf. -/
def Thread.start (tid entry mode : Nat) (place : Place) : Thread :=
  { tid, x := [], p := [], o := [], l := [], flags := [], setAt := [], regions := 0, retired := 0, mode := BitVec.ofNat 32 mode
    place, next := entry, lastR := entry, regionsR := 0, retiredR := 0, settling := [], stale := [], trailer := 0, gates := []
    waits := [], fences := [], spFence := [], unsealed := [], batches := [], upsets := [] }

/-! ### Inheritance (R135, R136) -/

/-- The effective values of a region (Table 5.2). -/
structure Effective where
  cmin  : Nat
  cmax  : Nat
  prio  : Nat
  fdom  : Nat
  llcw  : Nat
  plim  : Nat
  mode  : Nat
  quota : Nat
deriving DecidableEq, Repr

/-- What a job starts from: no limit of its own, and the defaults of Table 5.2. -/
def Effective.top : Effective :=
  { cmin := 0, cmax := 256, prio := 0, fdom := 0, llcw := 16, plim := 16384, mode := 0, quota := 0 }

/-- A node's effective values from its parent's; a job (no parent) takes its own fields as they are. -/
def Region.under (r : Region) (p : Option Effective) : Effective :=
  let b := p.getD Effective.top
  let ovr := fun (i : Nat) => r.field 0 (32 + i) 1 == 1
  let low := fun (own up : Nat) => if p.isSome then min own up else own
  let cmax := low (r.field 2 16 9) b.cmax
  { cmin := if ovr 0 then min (r.field 2 0 9) cmax else b.cmin
    cmax := if ovr 0 then cmax else b.cmax
    prio := if ovr 1 then low (r.field 2 32 6) b.prio else b.prio
    fdom := if ovr 2 then r.field 2 40 1 else b.fdom
    llcw := if ovr 3 then low (r.field 2 48 5) b.llcw else b.llcw
    plim := if ovr 4 then low (r.field 3 0 20) b.plim else b.plim
    mode := if ovr 5 then r.field 3 32 16 else b.mode
    quota := if ovr 6 then r.field 4 0 40 else b.quota }

/-- The effective values of a region, along its chain of parents. -/
def State.effectiveFrom (s : State) : Nat → Region → Effective
  | 0, r => r.under none
  | n + 1, r => r.under ((r.parent.bind s.region?).map (s.effectiveFrom n))

/-- The effective values of a region. -/
def State.effective (s : State) (r : Region) : Effective := s.effectiveFrom s.regions.length r

/-- The workgroup's linear id W and coordinates (R140). -/
def Region.coords (r : Region) (w : Nat) : Nat × Nat × Nat := (w % r.gx, w / r.gx % r.gy, w / (r.gx * r.gy))

/-- Threads of a block that are live (R147). -/
def Workgroup.liveOf (w : Workgroup) (block : Nat) : List Thread :=
  w.threads.filter fun t => t.tid / 32 == block && t.place != .exited

/-- The cores that a region holds: those on which a workgroup of it stands (R143). -/
def State.coresOf (s : State) (region : Nat) : List Nat :=
  (List.range 256).filter fun c => s.wgs.any fun w => w.region == region && w.core == c && w.residence != .saved

/-- Whether an access that was sent to another package serves a stream's matrix instruction. -/
def Remote.drains (r : Remote) (wg : Nat) : Bool := match r.use with
  | .drain w _ => w == wg
  | _ => false

/-- Whether an access sent to another package is a store of a unit. -/
def RemoteUse.ofUnit (u : UnitId) : RemoteUse → Bool
  | .unit v _ _ => v == u
  | _ => false

/-- Append to the outbox. -/
def State.send (s : State) (o : Outgoing) : State := { s with outbox := s.outbox ++ [o] }

/-- Write bytes to the host: a posted PCIe write (R208). -/
def State.hostWrite (s : State) (a : Nat) (l : List Byte) : State := s.send (.hostWrite (l.zipIdx.map fun e => (a + e.2, e.1)))

/-- Whether a boundary or an operation is still pending. -/
def State.pending (s : State) (id : Nat) : Bool := s.boundaries.any (·.id == id) || s.ops.any (·.id == id)
/-- Whether every one of some boundaries and operations has completed. -/
def State.clear (s : State) (ids : List Nat) : Bool := ids.all fun i => !s.pending i

end Sys2Proof.Machine
end

