-- ==== Sys2Proof/Machine/Memory.lean ====
section
/-!
DEFINITION. The levels of memory (chapter 7) and the store path (chapter 8): translation, chunk records and zero fill, the
scope home, the L1, and what one access returns or writes.
-/
namespace Sys2Proof.Machine

/-- The permission an access needs (R183). -/
inductive Need where
  | fetch | read | write | atomic
deriving DecidableEq, Repr

/-- Who makes an access: its translation unit (a cluster, 64 + n for fabric processor n, 96 for the package's own units),
the die it is made from, its core, and its job; none makes no ownership check (R318). -/
structure Accessor where
  unit : Nat
  die  : Nat
  core : Option Nat
  job  : Option Nat
deriving DecidableEq, Repr

/-- A translated page: its frame, its virtual base, its size and its entry's two words (R181). -/
structure Page where
  frame : Nat
  vbase : Nat
  bytes : Nat
  w0    : Nat
  w1    : Nat
deriving DecidableEq, Repr

def Page.share (p : Page) : Nat := fld p.w0 5 3
def Page.exr (p : Page) : Bool := fld p.w0 11 1 == 1
def Page.ret (p : Page) : Bool := fld p.w0 12 1 == 1
def Page.efmt (p : Page) : Nat := fld p.w1 0 6
def Page.geom (p : Page) : Nat := fld p.w1 6 4
def Page.pkg (p : Page) : Nat := fld p.w1 16 16
/-- Scale-area base (R187), modulo 2^64. -/
def Page.scaleBase (p : Page) : Nat := unsigned 64 ((p.vbase : Int) + signed 24 (fld p.w1 32 24) * 0x10000)
/-- Element bytes of an EXR page: 4 for FP32, 2 for BF16 (R188). -/
def Page.cellBytes (p : Page) : Nat := if p.efmt = 2 then 4 else 2
/-- Bytes of a page's frame (R184, R188). -/
def Page.frameBytes (p : Page) : Nat := if p.exr then 0x400000 / p.cellBytes else p.bytes
/-- The physical address of a byte, or of its element's cell on an EXR page (R188). -/
def Page.pa (p : Page) (va : Nat) : Nat :=
  let o := va - p.vbase
  if p.exr then p.frame + o / p.cellBytes * 64 else p.frame + o

/-- First byte past HBM4E (Table 7.1). -/
def hbmEnd : Nat := 0xC000000000
/-- Whether a physical address lies in the host window. -/
def inHost (pa : Nat) : Bool := decide (0x40000000000000 ≤ pa) && decide (pa < 0x80000000000000)
/-- Whether a physical address lies in HBM4E. -/
def inHbm (pa : Nat) : Bool := decide (pa < hbmEnd)

/-- Where the scope home of a page's byte lies (R179, R207, R208). -/
def Page.home (p : Page) (va : Nat) : PathDest :=
  if inHost (p.pa va) then .host
  else if p.share = 4 && p.pkg != Config.pkg.toNat then .package p.pkg
  else if p.exr then .cell (p.pa va) p.cellBytes
  else if p.share = 0 then .core
  else .home

/-- The reset record of a chunk (Table 7.7). -/
def chunkReset (c : Nat) : ChunkRec :=
  { fresh := BitVec.allOnes 64, version := 0, owner := 0, frame := c % 32768, stack := c / 32768, mig := false, exr := false
    die := false, pin := false }
/-- A chunk record. -/
def State.chunk (s : State) (c : Nat) : ChunkRec := sget (chunkReset c) s.chunks c
/-- Update a chunk record. -/
def State.mapChunk (s : State) (c : Nat) (f : ChunkRec → ChunkRec) : State :=
  { s with chunks := sset (chunkReset c) s.chunks c (f (s.chunk c)) }
/-- The chunk of an HBM4E address (R178). -/
def chunkOf (pa : Nat) : Nat := pa / 0x200000
/-- The home die of an HBM4E address (R195). -/
def State.homeDie (s : State) (pa : Nat) : Nat := (s.chunk (chunkOf pa)).stack / 3

/-- The zero fill of R204: the first access to a segment whose FRESH bit is set writes zeros there. -/
def State.touch (s : State) (pa : Nat) : State :=
  let c := chunkOf pa
  let k := pa / 0x8000 % 64
  if inHbm pa && (s.chunk c).fresh.getLsbD k then
    { s.mapChunk c fun r => { r with fresh := r.fresh &&& ~~~(w64 (2 ^ k)) } with
      mem := sdrop (fun a => a / 0x8000 == pa / 0x8000) s.mem }
  else s

/-- Key of a byte in a core's L1; lines of another package have keys of their own (R191, R207). -/
def l1Key (core : Nat) (dest : PathDest) (pa : Nat) : Nat :=
  (match dest with | .package p => (p + 1) * 2 ^ 64 | _ => 0) + core * 2 ^ 56 + pa
/-- The core of an L1 key. -/
def l1Core (key : Nat) : Nat := key / 2 ^ 56 % 256
/-- The local physical address of an L1 key, or none for a remote line. -/
def l1Pa (key : Nat) : Option Nat := if key < 2 ^ 64 then some (key % 2 ^ 56) else none

/-- The value an unlisted L1 byte stands for: none is held. -/
def l1None : L1Byte := { val := 0, coreScope := false, dirty := false, job := 0, wg := 0 }

/-- Bytes to be written: physical address, value, and the bits written. -/
abbrev Masked := List (Nat × Byte × Byte)
/-- Whole bytes. -/
def whole (l : List (Nat × Byte)) : Masked := l.map fun e => (e.1, e.2, 0xFF)
/-- A byte after the bits of a mask were written (R234). -/
def mergeByte (old val mask : Byte) : Byte := if mask = 0xFF then val else (old &&& ~~~mask) ||| (val &&& mask)
/-- A byte of an L1, if held. -/
def State.l1? (s : State) (key : Nat) : Option L1Byte := (s.l1.find? (·.1 == key)).map (·.2)
/-- Hold a byte in an L1: entries in rising order of their keys. -/
def l1Put : Sparse L1Byte → Nat → L1Byte → Sparse L1Byte
  | [], k, b => [(k, b)]
  | (j, c) :: r, k, b => if k < j then (k, b) :: (j, c) :: r else if k = j then (k, b) :: r else (j, c) :: l1Put r k b

/-- Write back the dirty core-scope bytes that `p` selects by key (R192). -/
def State.writeBack (s : State) (p : Nat → Bool) : State :=
  let out := s.l1.filter fun e => p e.1 && e.2.dirty
  { s with
    mem := ssetEach 0 s.mem (out.map fun e => (e.1 % 2 ^ 56, e.2.val))
    l1 := s.l1.map fun e => if p e.1 then (e.1, { e.2 with dirty := false }) else e }

/-- A dirty core-scope sector that other cores hold may have been evicted, whole, before another party reads it (R192, R217). -/
def State.evictOthers (s : State) (core : Option Nat) (pa : Nat) : State :=
  let sel := fun k => (l1Pa k).any (fun a => a / 32 == pa / 32) && core != some (l1Core k)
  if s.l1.any (fun e => sel e.1 && e.2.dirty) && Config.choose s.fresh (32 * (pa / 32 * 32)) then s.writeBack sel else s

/-- Read bytes at their home in this package, at the LLC or HBM4E (R204). -/
def State.homeRead (s : State) (core : Option Nat) (pa n : Nat) : List Byte × State :=
  let s := (s.touch pa).evictOthers core pa
  (sgetAll 0 s.mem pa n, s)

/-- Write bytes at their home in this package (R210). -/
def State.homeWrite (s : State) (l : List (Nat × Byte)) : State :=
  let s := l.foldl (fun s e => s.touch e.1) s
  { s with mem := ssetEach 0 s.mem l, errors := s.errors.filter fun e => !l.any (·.1 == e.1) }

/-- What some bytes become at their home in this package (R234). -/
def State.homeMerge (s : State) (l : Masked) : List (Nat × Byte) :=
  l.map fun e => (e.1, mergeByte (memByte (s.touch e.1).mem e.1) e.2.1 e.2.2)

/-- A number read at home. -/
def State.homeNat (s : State) (pa n : Nat) : Nat := leNat (s.homeRead none pa n).1

/-! ### Translation (R177 to R190) -/

/-- Bits of the virtual address that index each level (R180): root 0 to leaf 3. -/
def levelIndex (level va : Nat) : Nat := va / 2 ^ (49 - 11 * level) % 2048

/-- Canonical addresses (R177): bits 63 to 60 equal bit 59. -/
def canonical (va : Nat) : Bool := let top := va / 2 ^ 59 % 32; top == 0 || top == 31

/-- The fault of a leaf-level or block entry's own fields: reserved fields and codes, alignments (R182, R184, R188). -/
def entryFault (level w0 w1 va : Nat) : Option Nat :=
  let share := fld w0 5 3
  let span := fld w0 13 2
  let efmt := fld w1 0 6
  let geom := fld w1 6 4
  let exr := fld w0 11 1 == 1
  let pa := fld w0 16 40 * 0x10000
  let block := level == 2
  let frame := if block then 0x8000000 else if exr then 0x10000 * 64 / (if efmt = 2 then 4 else 2) else 0x10000
  let idx := levelIndex level va
  let rsv := fld w0 56 8 == 0 && fld w0 15 1 == 0 && fld w1 56 8 == 0 && fld w1 10 6 == 0
  let codes := decide (share < 5) && span != 3 && decide (efmt < 0x0D) && (geom == 0 || efmt == 0x0B) && decide (geom < 11)
  let remote := fld w1 16 16 == 0 || share == 4
  let aligned := if span = 1 then !block && decide (idx % 32 * frame ≤ pa) && (pa - idx % 32 * frame) % (32 * frame) == 0
    else if span = 2 then block && decide (idx % 512 * frame ≤ pa) && (pa - idx % 512 * frame) % (512 * frame) == 0
    else pa % frame == 0
  let cells := !exr || ((efmt == 2 || efmt == 4) && !block)
  if rsv && codes && remote && aligned && cells then none else some 2

/-- The step of a walk at one level: the next table, a page, or a subcause (R182). -/
inductive WalkStep where
  | table (base : Nat)
  | leaf
  | bad (sub : Nat)
deriving DecidableEq, Repr

/-- One entry judged (R182). -/
def walkEntry (level w0 w1 va : Nat) : WalkStep :=
  if fld w0 0 1 = 0 then .bad 1
  else if fld w0 1 1 = 1 then
    if level = 3 || w1 != 0 || w0 / 2 ^ 56 != 0 || fld w0 2 14 != 0 then .bad 2
    else .table (fld w0 16 40 * 0x10000)
  else if level < 2 then .bad 2
  else match entryFault level w0 w1 va with
    | some e => .bad e
    | none => .leaf

/-- The walk (R180): the entry's address, level and words, or a subcause, and the state after it: its reads are accesses like any other,
a first one to a segment that still has to be filled among them (R204). A table outside HBM4E gives the physical subcause. -/
def State.walkFrom (s : State) (va : Nat) : Nat → Nat → Nat → Except Nat (Nat × Nat × Nat × Nat) × State
  | 0, _, _ => (.error 2, s)
  | fuel + 1, level, base =>
    let a := base + 16 * levelIndex level va
    if !inHbm a then (.error 3, s) else
    let r := s.homeRead none a 16
    let w0 := leNat (r.1.take 8)
    let w1 := leNat (r.1.drop 8)
    match walkEntry level w0 w1 va with
    | .bad e => (.error e, r.2)
    | .table b => r.2.walkFrom va fuel (level + 1) b
    | .leaf => (.ok (a, level, w0, w1), r.2)

/-- The walk from a job's root. -/
def State.walk (s : State) (root va : Nat) : Except Nat (Nat × Nat × Nat × Nat) × State := s.walkFrom va 4 0 root

/-- The page that an entry maps. -/
def pageOf (block : Bool) (w0 w1 va : Nat) : Page :=
  let bytes := if block then 0x8000000 else 0x10000
  { frame := fld w0 16 40 * 0x10000, vbase := va / bytes * bytes, bytes, w0, w1 }

/-- The page by the fields of another member of a coalescing group, when one is held for the group (R184). -/
def State.groupPage (s : State) (a level w0 w1 va : Nat) : Page :=
  let block := level == 2
  let own := pageOf block w0 w1 va
  let span := fld w0 13 2
  if span = 0 then own else
  let n := if span = 1 then 32 else 512
  let k := levelIndex level va % n
  let j := Config.freeNat s.fresh (8 * (va / 0x10000) + 2) % n
  let b := a - 16 * k + 16 * j
  let m0 := s.homeNat b 8
  let m1 := s.homeNat (b + 8) 8
  let p := pageOf block m0 m1 va
  let size := p.frameBytes
  if fld m0 0 2 = 1 && fld m0 13 2 = span && entryFault level m0 m1 (va - va / own.bytes % n * own.bytes + j * own.bytes) = none
  then { p with frame := p.frame + k * size - j * size } else own

/-- What an access asks of a page besides its permission: a test for the physical subcause and one for the format subcause
(R232, R237, R241, R249). `aligned` is the alignment that a formatted access takes from its page (R237): it comes before the others
(R254), under the code `misaligned`. -/
structure PageRule where
  need     : Need
  physical : Page → Bool
  format   : Page → Bool
  aligned  : Page → Bool

/-- A rule without further tests. -/
def plainRule (n : Need) : PageRule := ⟨n, fun _ => true, fun _ => true, fun _ => true⟩

/-- The code of a formatted access that its page finds misaligned; no subcause of Table 7.4. -/
def misaligned : Nat := 16

/-- The permission a page lacks (R183). -/
def Page.allows (p : Page) : Need → Bool
  | .fetch => fld p.w0 4 1 == 1
  | .read => fld p.w0 2 1 == 1
  | .write => fld p.w0 3 1 == 1
  | .atomic => fld p.w0 2 2 == 3

/-- What an access to a translated page meets first, if anything: a formatted one its alignment, then the lowest subcause (R254, R178, R179, R183, R186, R199, R204, R206). -/
def State.pageFault (s : State) (u : Accessor) (r : PageRule) (p : Page) (va : Nat) : Option Nat :=
  let pa := p.pa va
  let remote := p.share == 4 && p.pkg != Config.pkg.toNat
  let member := s.domtab.any fun d => fld d.toNat 16 1 == 1 && fld d.toNat 0 16 == p.pkg
  let owned := match u.job with
    | some j => (s.chunk (chunkOf pa)).owner == j
    | none => true
  if !r.aligned p then some misaligned
  else if !(inHbm pa || inHost pa) || (inHost pa && p.share != 3) || !r.physical p then some 3
  else if !p.allows r.need then some 4
  else if p.share == 1 && u.die != s.homeDie pa then some 5
  else if !r.format p then some 6
  else if inHbm pa && !remote && !owned then some 7
  else if remote && !member then some 8
  else if p.exr && !remote && fld s.xcways.toNat 0 2 == 0 then some 9
  else none

/-- The chunk that an accessed page of this package stands on: it backs die-scope pages, or cells (R179, Table 7.7). -/
def State.backs (s : State) (p : Page) (va : Nat) : State :=
  let far := p.share == 4 && p.pkg != Config.pkg.toNat
  if far || !inHbm (p.pa va) || !(p.exr || p.share == 1) then s
  else s.mapChunk (chunkOf (p.pa va)) fun r => { r with exr := r.exr || p.exr, die := r.die || p.share == 1 }

/-- Set A, and D for a write, in a walked entry (R185). -/
def State.setAD (s : State) (a w0 : Nat) (n : Need) : State :=
  let bits := if n == .write || n == .atomic then 0x600 else 0x200
  s.homeWrite ((leBytes 8 (w0 ||| bits)).zipIdx.map fun e => (a + e.2, e.1))

/-- Virtual page number under which a translation unit holds an entry. -/
def vpnOf (block : Bool) (va : Nat) : Nat := if block then va / 0x8000000 else va / 0x10000

/-- Members of the coalescing group that an entry is held for (R184); 1 for an entry of its own. -/
def TlbEntry.members (e : TlbEntry) : Nat :=
  if fld e.entry 13 2 = 1 && !e.block then 32 else if fld e.entry 13 2 = 2 && e.block then 512 else 1

/-- Whether an entry covers an address: that of the entry walked, or of another member of its group (R184). -/
def TlbEntry.covers (e : TlbEntry) (va : Nat) : Bool := vpnOf e.block va / e.members == e.vpn / e.members

/-- The page that an entry gives an address it covers (R184). -/
def TlbEntry.page (e : TlbEntry) (va : Nat) : Page :=
  let p := pageOf e.block (e.entry % 2 ^ 64) (e.entry / 2 ^ 64) va
  { p with frame := p.frame + vpnOf e.block va * p.frameBytes - e.vpn * p.frameBytes }

/-- A held translation that may serve an access: of its unit, its ASID or global, and already marked as the access needs
(R185, R190). -/
def tlbFits (unit asid va : Nat) (n : Need) (e : TlbEntry) : Bool :=
  e.cluster == unit && (e.asid == asid || fld e.entry 8 1 == 1) && e.covers va &&
    (fld e.entry 10 1 == 1 || !(n == .write || n == .atomic))

/-- Whether a core's L1 holds some of the line in which an access falls. -/
def State.lineHeld (s : State) (core : Option Nat) (p : Page) (va : Nat) : Bool :=
  core.any fun c => s.l1.any fun e => e.1 / 128 == l1Key c (p.home va) (p.pa va) / 128

/-- Translate by a walk: the page, its A and D set, and the translation held (R180, R184, R185, R190). -/
def State.walkAfresh (s : State) (u : Accessor) (j : Job) (r : PageRule) (va : Nat) : Except Nat (Page × State) :=
  match s.walk j.root va with
  | (.error x, _) => .error x
  | (.ok (a, level, w0, w1), s) =>
    let p := s.groupPage a level w0 w1 va
    match s.pageFault u r p va with
    | some x => .error x
    | none =>
      let s := (s.setAD a w0 r.need).backs p va
      let dirty := if r.need == .write || r.need == .atomic then 0x600 else 0x200
      let p := { p with w0 := p.w0 ||| dirty }
      let e : TlbEntry := { cluster := u.unit, asid := j.asid, vpn := vpnOf (level == 2) va, block := level == 2
                            entry := p.w0 % 0x10000 + p.frame + p.w0 / 2 ^ 56 * 2 ^ 56 + p.w1 * 2 ^ 64 }
      .ok (p, { s with tlb := s.tlb.filter (· != e) ++ [e] })

/-- Translate an access (R177 to R190): the page, and the state with A and D set and the translation held, the last used last. The access
may use a held translation or walk afresh; `sticky` keeps to a held one, for an access already checked (R317). Where the core's L1
holds the line under a translation that lacks the permission, the access walks afresh (R191). -/
def State.translate (s : State) (u : Accessor) (r : PageRule) (sticky : Bool) (va : Nat) : Except Nat (Page × State) :=
  if !canonical va then .error 0 else
  match u.job.bind s.job? with
  | none => .error 1
  | some j =>
    let held := s.tlb.filter (tlbFits u.unit j.asid va r.need)
    let pick := held[Config.freeNat s.fresh (8 * (va / 0x10000) + 3) % (held.length + 1)]?
    let useHeld := if sticky then held.getLast?.or pick else pick
    match useHeld with
    | some e =>
      let p := e.page va
      if !p.allows r.need && s.lineHeld u.core p va then s.walkAfresh u j r va else
      match s.pageFault u r p va with
      | some x => .error x
      | none => .ok (p, { s with tlb := s.tlb.filter (· != e) ++ [e] }.backs p va)
    | none => s.walkAfresh u j r va

/-- The state after the walk of an access whose translation faults: its reads have been made (R204). -/
def State.walked (s : State) (u : Accessor) (va : Nat) : State :=
  match if canonical va then u.job.bind s.job? else none with
  | some j => (s.walk j.root va).2
  | none => s

/-- The accessor of a core's threads, stream and copies. -/
def coreAccessor (core job : Nat) : Accessor := ⟨clusterOf core, dieOf core, some core, some job⟩
/-- The accessor of a fabric processor (R356); processor n lies on die n / 8. -/
def procAccessor (n job : Nat) : Accessor := ⟨64 + n, n / 8, none, some job⟩
/-- The accessor of the package's own units: command processor, dispatcher, Timetable. Die-scope pages are checked as from
the die of the chunk itself, which the caller gives. -/
def ownAccessor (die job : Nat) : Accessor := ⟨96, die, none, some job⟩

/-! ### The store path and the L1 -/

/-- Whether a store of the path holds a byte of a destination space: two stores touch the same byte only when their homes are
of one space. -/
def sameSpace (a b : PathDest) : Bool :=
  match a, b with
  | .package p, .package q => p == q
  | .package _, _ | _, .package _ => false
  | .host, .host => true
  | .host, _ | _, .host => false
  | _, _ => true

/-- The loads and atomics of threads issued before `seq` that have not taken their value (R213). -/
def State.readsBefore (s : State) (wg : Nat) (tids : List Nat) (seq : Nat) : Bool :=
  s.ops.any fun o => o.wg == wg && decide (o.seq < seq) && o.held.isNone && o.present.any tids.contains && match o.kind with
    | .load .. | .ldx .. | .atom .. | .atomx .. => true
    | _ => false

/-- Whether a store of the path is a host store that has been posted (R215), and waits only for the host's acknowledgement. -/
def PathStore.posted (p : PathStore) : Bool := p.sent && p.dest == .host
/-- A store's bytes, as they are written. -/
def PathStore.data (p : PathStore) : Masked := p.bytes.map fun b => (b.pa, b.val, b.mask)
/-- Whether a store of the path writes some of a byte. -/
def PathStore.has (p : PathStore) (pa : Nat) : Bool := p.bytes.any (·.pa == pa)

/-- What a core's store path gives a load for one byte: the bits under a mask, or a store that may not yet be read (R212, R213). -/
inductive Forward where
  | wait | bits (mask val : Byte)
deriving DecidableEq, Repr

/-- The bits of a byte that some stores, the latest first, give some threads of a workgroup: a store may be read by another thread only
once each thread that wrote the byte has the values of its earlier loads and atomics (R213). -/
def State.forwardFrom (s : State) (wg : Nat) (tids : List Nat) (pa : Nat) : List PathStore → Byte → Byte → Forward
  | [], m, v => .bits m v
  | p :: r, m, v =>
    match p.bytes.find? (·.pa == pa) with
    | none => State.forwardFrom s wg tids pa r m v
    | some b =>
      if b.mask &&& ~~~m = 0 then State.forwardFrom s wg tids pa r m v
      else if (p.wg == wg && tids.all b.tids.contains) || !s.readsBefore p.wg b.tids p.seq then
        State.forwardFrom s wg tids pa r (m ||| b.mask) (mergeByte b.val v m)
      else .wait

/-- What a core's stores before `seq` give for a byte (R212). -/
def State.forward (s : State) (core wg : Nat) (tids : List Nat) (dest : PathDest) (seq pa : Nat) : Forward :=
  s.forwardFrom wg tids pa (s.path.filter fun p => p.core == core && decide (p.seq < seq) && sameSpace p.dest dest && !p.posted).reverse 0 0

/-- Fill the L1 sector that holds an address from its home (R191). -/
def State.fillSector (s : State) (core : Nat) (coreScope : Bool) (job pa : Nat) : State :=
  let b := pa / 32 * 32
  let (l, s) := s.homeRead (some core) b 32
  { s with l1 := (l.zipIdx).foldl (fun m e =>
      let k := l1Key core .home (b + e.2)
      match m.find? (·.1 == k) with
      | some (_, x) => if x.dirty then m else l1Put m k ⟨e.1, coreScope, false, job, 0⟩
      | none => l1Put m k ⟨e.1, coreScope, false, job, 0⟩) s.l1 }

/-- Read bytes through a core's L1: a hit, by choice, returns the held copy; a miss reads home and fills, unless the load does
not allocate, and then drops a held copy (R191, R220, R231). Dirty core-scope bytes are always held. -/
def State.l1Read (s : State) (core : Nat) (coreScope nol1 : Bool) (job pa n : Nat) : List Byte × State :=
  let keys := (List.range n).map fun i => l1Key core .home (pa + i)
  let allHeld := keys.all fun k => (s.l1? k).isSome
  let anyDirty := keys.any fun k => (s.l1? k).any (·.dirty)
  if allHeld && (anyDirty || Config.choose s.fresh (32 * (pa / 32 * 32) + 1)) then
    (keys.map fun k => ((s.l1? k).map (·.val)).getD 0, s)
  else if nol1 && !anyDirty then
    let s := { s with l1 := s.l1.filter fun e => !(l1Core e.1 == core && (l1Pa e.1).any (fun a => a / 32 == pa / 32)) }
    s.homeRead (some core) pa n
  else
    let s := s.fillSector core coreScope job pa
    (keys.map fun k => ((s.l1? k).map (·.val)).getD 0, s)

/-- Update the copy that a core holds of bytes written at their home (R212, R220). -/
def State.l1Update (s : State) (core : Nat) (dest : PathDest) (l : Masked) : State :=
  { s with l1 := s.l1.map fun e =>
      match l.find? (fun b => l1Key core dest b.1 == e.1) with
      | some b => (e.1, { e.2 with val := mergeByte e.2.val b.2.1 b.2.2 })
      | none => e }

/-- Write core-scope bytes of a workgroup into a core's L1, write-back (R192); what was dirty may have been evicted before. -/
def State.l1Write (s : State) (core job wg : Nat) (l : Masked) : State :=
  let s := l.foldl (fun s e => if (s.l1? (l1Key core .home e.1)).isSome then s else s.fillSector core true job e.1) s
  let sel := fun k => l1Core k == core && l.any (fun b => (l1Pa k).any (fun a => a / 32 == b.1 / 32))
  let s := if l.any (fun b => Config.choose s.fresh (32 * (b.1 / 32 * 32) + 2)) then s.writeBack sel else s
  { s with l1 := l.foldl (fun m e =>
      let k := l1Key core .home e.1
      l1Put m k ⟨mergeByte (((m.find? (·.1 == k)).map (·.2.val)).getD 0) e.2.1 e.2.2, true, true, job, wg⟩) s.l1 }

/-- What a core has asked of other packages so far is held in its L1 no more when it arrives: it may be older than what the core has seen
since (R212, R219, R220). -/
def State.noFill (s : State) (core : Nat) : State :=
  { s with remotes := s.remotes.map fun r => match r.use with
      | .op id _ => if s.ops.any fun o => o.id == id && o.core == core then { r with fill := false } else r
      | _ => r }

/-- A refresh by a core: its copies of lines of every scope but core scope are dropped, those still on their way among them (R219). -/
def State.refresh (s : State) (core : Nat) : State :=
  { s with l1 := s.l1.filter fun e => l1Core e.1 != core || e.2.coreScope }.noFill core

/-- A departure of a workgroup from a core writes back the core-scope lines that its stores made dirty (R192). -/
def State.depart (s : State) (core wg : Nat) : State :=
  s.writeBack fun k => l1Core k == core && s.l1.any fun e => e.2.dirty && e.2.wg == wg && e.1 / 128 == k / 128

/-- A workgroup that comes back to a core finds no core-scope copy there that is older than what it stored elsewhere (R217): clean
core-scope copies of its job are dropped. -/
def State.forgetClean (s : State) (core job : Nat) : State :=
  { s with l1 := s.l1.filter fun e => !(l1Core e.1 == core && e.2.coreScope && !e.2.dirty && e.2.job == job) }

/-- Read a host-window or host address: the host's memory is not the package's (R208). -/
def hostRead (fresh a n : Nat) : List Byte := (List.range n).map fun i => Config.hostByte fresh (a + i)

/-- A fetch's or own unit's read of a page of another package: its bytes, or the subcause that the package answers with (R207; log 110). -/
def farRead (fresh va n : Nat) : Except Nat (List Byte) :=
  match Config.farFault fresh va with
  | some owner => .error (if owner then 7 else 8)
  | none => .ok ((List.range n).map fun i => Config.farByte fresh (va + i))

/-- The exact cell at a physical address, as a number of 512 bits (R55, R188). -/
def State.cell (s : State) (pa : Nat) : Nat := s.homeNat pa 64
/-- Write a cell. -/
def State.setCell (s : State) (pa v : Nat) : State :=
  s.homeWrite ((leBytes 64 v).zipIdx.map fun e => (pa + e.2, e.1))
/-- The cell that a store of a value leaves (R232). -/
def cellOf (x : FVal) : Nat := cellAdd 0 x
/-- The format of an EXR page's elements (R188). -/
def cellFormat (bytes : Nat) : Format := if bytes = 4 then .fp32 else .bf16

/-- Bytes grouped into the 32-byte sectors they lie in, each sector once, in order of first use (R216). -/
def sectorsOf : Nat → List PathByte → List (List PathByte)
  | 0, _ => []
  | _, [] => []
  | n + 1, b :: r => ((b :: r).filter fun e => e.pa / 32 == b.pa / 32) :: sectorsOf n (r.filter fun e => e.pa / 32 != b.pa / 32)

/-- A later write over earlier ones of one store (R234): each bit takes the latest value, and a byte is of the threads whose bits stand. -/
def PathByte.over (old new : PathByte) : PathByte :=
  { pa := new.pa, val := mergeByte old.val new.val new.mask, mask := old.mask ||| new.mask
    tids := if old.mask &&& ~~~new.mask = 0 then new.tids else old.tids ++ new.tids }

/-- The bytes of one store, one entry an address, later writes over earlier ones (R234). -/
def overlay (l : List PathByte) : List PathByte :=
  l.foldl (fun acc e => match acc.find? (·.pa == e.pa) with
    | some o => acc.map fun x => if x.pa == e.pa then o.over e else x
    | none => acc ++ [e]) []

end Sys2Proof.Machine
end

