-- ==== Sys2Proof/Machine/Ops.lean ====
section
/-!
DEFINITION. The shared operations on units: fetching code, taking a trap and resuming from it (R316 to R335), filing threads
in bins and drawing them (R148 to R151), and removing what a kill removes (R330).
-/
namespace Sys2Proof.Machine

/-- The accessor of a workgroup's units. -/
def State.wgAccessor (s : State) (w : Workgroup) : Accessor := coreAccessor w.core (s.jobOf w)

/-- The page rule of a fetch: code on an EXR page has no word (format subcause). -/
def fetchRule : PageRule := { plainRule .fetch with format := fun p => !p.exr }

/-- A word of code of one page. -/
def State.pageWord (s : State) (u : Accessor) (p : Page) (pc : Nat) : Except Nat Nat × State :=
  match p.home pc with
  | .host => (.ok (leNat (hostRead s.fresh (p.pa pc) 4)), s)
  | .package _ => ((farRead s.fresh pc 4).map leNat, s)
  | _ => let r := s.homeRead u.core (p.pa pc) 4; (.ok (leNat r.1), r.2)

/-- The two words at an address, fetched under one translation where they share a page: the first, and the second or the
subcause that fetching it meets. -/
def State.fetch (s : State) (u : Accessor) (pc : Nat) : Except Nat (Nat × Except Nat Nat × State) :=
  match s.translate u fetchRule false pc with
  | .error e => .error e
  | .ok (p, s) =>
    match s.pageWord u p pc with
    | (.error e, _) => .error e
    | (.ok w, s) =>
      if (pc + 4) % 0x10000 ≠ 0 then .ok (w, (s.pageWord u p (pc + 4)).1, s)
      else match s.translate u fetchRule false (pc + 4) with
        | .error e => .ok (w, .error e, s)
        | .ok (q, t) => .ok (w, (t.pageWord u q (pc + 4)).1, s)

/-- The header at an address of a workgroup's code, if a well-formed one stands there. -/
def State.headerAt (s : State) (w : Workgroup) (pc : Nat) : Option HeaderWord :=
  match s.fetch (s.wgAccessor w) pc with
  | .ok (v, _, _) => if isHeaderWord v then (decodeHeader v).toOption else none
  | .error _ => none

/-- Whether a thread stands between runs, so that its next header is due: that of a parked thread is not. -/
def State.betweenRuns (s : State) (t : Thread) : Bool :=
  match t.place with
  | .group g => ((s.group? g).map fun g => g.run.isNone && !g.parkFault).getD true
  | .bin => true
  | _ => false

/-- The resume header of a thread (R335), and whether it is the next header due. -/
def State.resumeHeader (s : State) (w : Workgroup) (t : Thread) : Nat × Bool :=
  if s.betweenRuns t && ((s.headerAt w t.next).map (·.r)).getD false then (t.next, true) else (t.lastR, false)

/-- Whether continue and re-execute are open to a group's stop (Table 13.1). -/
def stopFlags (cause sub : Nat) : Bool × Bool :=
  match cause with
  | 0x0B | 0x0C | 0x0D | 0x10 => (true, true)
  | 0x05 => (false, sub == 0)
  | 0x09 | 0x0A | 0x0E => (false, false)
  | _ => (false, true)

/-- The words of an event record (Table 13.2). -/
def eventWords (cause sub detail handle code : Nat) (cont reexec : Bool) (pc resume addr regions lanes leaf cyc w job : Nat) :
    List W64 :=
  [ w64 (detail * 2 ^ 48 + handle * 2 ^ 24 + code * 2 ^ 18 + (if cont then 2 ^ 17 else 0) + (if reexec then 2 ^ 16 else 0) +
      sub * 2 ^ 8 + cause),
    w64 pc, w64 resume, w64 addr, w64 (regions * 2 ^ 32 + lanes), w64 leaf, w64 cyc, w64 (w * 2 ^ 32 + job) ]

/-- A set of lanes as bits. -/
def laneBits (l : List Nat) : Nat := l.foldl (fun a i => a ||| 2 ^ i) 0

/-- Hand an event to the control core that serves a core's cluster (R320); it waits until it can be entered. -/
def State.raise (s : State) (control core part : Nat) (unit : Option UnitId) (words : List W64) : State :=
  { s with events := s.events ++ [{ control, event := { words, core, part, clk := 0 }, unit }] }

/-- The event words of a workgroup's unit. -/
def State.wgEvent (s : State) (w : Workgroup) (tid : Nat) (stream : Bool) (st : Stop) : List W64 :=
  let t := w.thread? tid
  let resume := if stream then 0 else (t.map fun t => (s.resumeHeader w t).1).getD 0
  let regions := if stream then 0 else (t.map fun t => t.regions.toNat).getD 0
  eventWords st.cause st.sub st.detail (handleOf w.core w.slot tid stream) st.code st.cont st.reexec st.pc resume st.addr
    regions (laneBits st.lanes) ((s.leafOf w).map (·.va) |>.getD 0) s.cyc w.w (s.jobOf w)

/-- Whether a stop has a debug cause (R323): a later fault takes its place. -/
def Stop.debug (st : Stop) : Bool := st.cause == 0x0B || st.cause == 0x0C || st.cause == 0x0D || st.cause == 0x10

/-- Take a trap on a group: it stops with the cause, and the event that reports it waits to be entered (R316, R317, R320). The
handle names the lowest lane that raised the cause. A fault on a group already stopped by a fault adds nothing. -/
def State.trapGroup (s : State) (gid cause sub detail code addr pc : Nat) (lanes : List Nat) (noResume : Bool) : State :=
  match s.group? gid with
  | none => s
  | some g =>
    match s.wg? g.wg with
    | none => s
    | some w =>
      if (g.stop.map fun x => !x.debug).getD false then s else
      let lane := (lanes.head?.or g.lanes.head?).getD 0
      let f := if code = 3 then (false, false) else stopFlags cause sub
      let st : Stop := { cause, sub, detail, code, cont := f.1, reexec := f.2 && !noResume, pc, addr, lanes
                         tid := 32 * g.block + lane, clk := s.cyc }
      (s.mapGroup gid fun g => { g with stop := some st, step := none }).raise (clusterOf w.core) w.core g.part (some (.group gid))
        (s.wgEvent w (32 * g.block + lane) false st)

/-- Take a trap on a stream (R309); it may be continued (R329). -/
def State.trapStream (s : State) (wg cause sub detail addr pc lanes : Nat) : State :=
  match s.wg? wg with
  | none => s
  | some w =>
    let st : Stop := { cause, sub, detail, code := 4, cont := cause != 0x0E, reexec := false, pc, addr, lanes := [], tid := 0
                       clk := s.cyc }
    let words := (s.wgEvent w 0 true st).set 4 (w64 lanes)
    ({ s with grants := s.grants.filter (· != Grant.stream wg) }.mapStream wg fun x => { x with stop := some st }).raise (clusterOf w.core) w.core 4 (some (.stream wg)) words

/-- Take a fault on a fabric processor (R357). -/
def State.trapProc (s : State) (n cause sub addr pc : Nat) : State :=
  match s.proc? n with
  | none => s
  | some p =>
    let st : Stop := { cause, sub, detail := 0, code := 6, cont := cause != 0x0E, reexec := false, pc, addr, lanes := [], tid := 0
                       clk := s.cyc }
    ({ s with grants := s.grants.filter (· != Grant.fabric n) }.mapProc n fun p => { p with stop := some st }).raise (n / 8 * 16) (n / 8 * 64) 4 (some (.fabric n))
      (eventWords cause sub 0 (0xFFE000 + n) 6 (cause != 0x0E) false pc 0 addr 0 0 0 s.cyc 0 (p.job.getD 0))

/-- Take a trap of a workgroup's engine: every unit of the workgroup stops (R316, stop code 101); nothing resumes it. -/
def State.trapWorkgroup (s : State) (wg cause sub detail addr : Nat) : State :=
  match s.wg? wg with
  | none => s
  | some w =>
    if w.stopped.isSome then s else
    let st : Stop := { cause, sub, detail, code := 5, cont := false, reexec := false, pc := 0, addr, lanes := [], tid := 0
                       clk := s.cyc }
    (s.mapWg wg fun w => { w with stopped := some st }).raise (clusterOf w.core) w.core 0 none (s.wgEvent w 0 false st)

/-- A control core that traps stops; the command processor treats it as a watchdog expiry (R318). -/
def State.trapControl (s : State) (n : Nat) : State := s.mapControl n fun c => { c with trapped := true }

/-- Take a trap at the word being performed, on the unit that performs it. Lanes are those that raised it. -/
def State.trapHere (s : State) (cause sub detail addr : Nat) (lanes : List Nat) : State :=
  match s.turn with
  | none => s
  | some t =>
    match t.unit with
    | .group g =>
      let all := ((s.group? g).map (·.lanes)).getD []
      s.trapGroup g cause sub detail 0 addr t.pc (if lanes.isEmpty then all else lanes) false
    | .stream w => s.trapStream w cause sub detail addr t.pc 0
    | .fabric n => s.trapProc n cause sub addr t.pc
    | .control n => s.trapControl n

/-- Codes of Table 3.14. -/
def illegalCode : IllegalSub → Nat
  | .opcode => 0 | .operand => 1 | .executor => 2 | .reserved => 3 | .orphan => 4

/-- Take the illegal-instruction trap (R78). -/
def State.illegal (s : State) (e : IllegalSub) : State := s.trapHere 0 (illegalCode e) 0 0 []

/-- An outcome that takes a trap. -/
def trapNext (s : State) (cause sub detail addr : Nat) (lanes : List Nat) : Host.Outcome State Fault Refusal :=
  .next (s.trapHere cause sub detail addr lanes)

/-! ### Filing and drawing (R148 to R151) -/

/-- Remove threads from a group; a group without lanes is gone. -/
def State.leaveGroup (s : State) (gid : Nat) (lanes : List Nat) : State :=
  let cut := fun (g : Group) => if g.id == gid then { g with lanes := g.lanes.filter fun l => !lanes.contains l } else g
  { s with groups := (s.groups.map cut).filter fun g => !(g.id == gid && g.lanes.isEmpty) }

/-- A new candidate group of some lanes of a block at a header (R152). -/
def State.formGroup (s : State) (wg block : Nat) (lanes : List Nat) (pc : Nat) : State :=
  let g : Group := { id := s.seq, wg, block, lanes, pc, run := none, since := s.cyc, parked := false, lifted := false
                     stop := none, step := none, skipWatch := false, filing := none, held := 0, parkFault := false, go := false }
  ({ s with groups := s.groups ++ [g] }.mapThreads wg (lanes.map (32 * block + ·))
    fun t => { t with place := .group s.seq, next := pc }).bump

/-- Whether a grant names a thread of some lanes of a block. -/
def Grant.names (wg block : Nat) (lanes : List Nat) : Grant → Bool
  | .thread w tid => w == wg && tid / 32 == block && lanes.contains (tid % 32)
  | _ => false

/-- Draw a bin: it is freed, and its lanes become an issue group (R150), which a pending single step of one of its threads steps. -/
def State.draw (s : State) (b : Bin) : State :=
  let t := ({ s with bins := s.bins.filter (· != b) }).formGroup b.wg b.block b.lanes b.pc
  match s.grants.find? (·.names b.wg b.block b.lanes) with
  | some (.thread w tid) => { t.mapGroup s.seq fun g => { g with step := some tid } with grants := s.grants.filter (· != .thread w tid) }
  | _ => t

/-- The bins of a partition. -/
def State.binsOf (s : State) (core part : Nat) : List Bin := s.bins.filter fun b => b.core == core && b.part == part

/-- The forced bin of R148: not a `reform.all` bin, filed earliest, lower number on a tie. -/
def forcedBin : List Bin → Option Bin
  | [] => none
  | b :: r =>
    match forcedBin r with
    | none => if b.all then none else some b
    | some c => if b.all then some c else if b.filed < c.filed || (b.filed == c.filed && b.index < c.index) then some b else some c

/-- Insert a lane in rising order. -/
def insertLane (l : Nat) : List Nat → List Nat
  | [] => [l]
  | a :: r => if l < a then l :: a :: r else if l = a then a :: r else a :: insertLane l r

/-- Increasing distinct values. -/
def distinct (l : List Nat) : List Nat := l.foldl (fun a x => insertLane x a) []

/-- File threads of one block under a header (R148); none when every bin is a `reform.all` bin. -/
def State.file (s : State) (w : Workgroup) (block : Nat) (lanes : List Nat) (pc : Nat) (all : Bool) : Option State :=
  let part := block % 4
  let mark := fun (s : State) => s.mapThreads w.id (lanes.map (32 * block + ·)) fun t => { t with place := .bin, next := pc }
  let isKey := fun (b : Bin) => b.core == w.core && b.part == part && b.wg == w.id && b.block == block && b.pc == pc
  if s.bins.any isKey then
    let join := fun (b : Bin) =>
      if isKey b then { b with lanes := lanes.foldl (fun a l => insertLane l a) b.lanes, last := s.cyc, all := b.all || all } else b
    some (mark { s with bins := s.bins.map join })
  else
    let used := (s.binsOf w.core part).map (·.index)
    let put := fun (s : State) (i : Nat) =>
      mark { s with bins := s.bins ++ [{ core := w.core, part, index := i, wg := w.id, block, pc, lanes, filed := s.cyc
                                         last := s.cyc, all, held := 0 }] }
    let free := (List.range 16).filter fun i => !used.contains i
    match free[Config.freeNat s.fresh (8 * (16 * pc + free.length) + 7) % free.length]? with
    | some i => some (put s i)
    | none => (forcedBin (s.binsOf w.core part)).map fun b => put (s.draw b) b.index

/-- Take the divergent-reform trap for a block (R148, R150): its threads stay where it found them, and nothing resumes them: `diverged`
names the block. Groups of the block stop; the event names the block's lowest live thread. -/
def State.divergent (s : State) (w : Workgroup) (block pc : Nat) : State :=
  let live := w.liveOf block
  let st : Stop := { cause := 9, sub := 0, detail := block, code := 0, cont := false, reexec := false, pc, addr := 0
                     lanes := live.map (·.tid % 32), tid := ((live.head?).map (·.tid)).getD (32 * block), clk := s.cyc }
  let halt := fun (g : Group) => if g.wg == w.id && g.block == block then { g with stop := some st } else g
  (({ s with groups := s.groups.map halt } : State).mapWg w.id fun w => { w with diverged := insertLane block w.diverged }).raise (clusterOf w.core) w.core (block % 4) none (s.wgEvent w st.tid false st)

/-- Whether the divergent-reform trap has been taken for a block. -/
def State.diverged (s : State) (wg block : Nat) : Bool := ((s.wg? wg).map (·.diverged.contains block)).getD false

/-- R150's trap: every live thread of a block lies in `reform.all` bins, and in more than one. -/
def State.reformDiverged (s : State) (w : Workgroup) (block : Nat) : Bool :=
  let bins := s.bins.filter fun b => b.wg == w.id && b.block == block
  let live := (w.liveOf block).length
  bins.all (·.all) && decide (1 < bins.length) && (bins.map (·.lanes.length)).sum == live

/-- Take R150's trap where it applies, once. -/
def State.checkReform (s : State) (wg block at_ : Nat) : State :=
  match s.wg? wg with
  | some w => if s.reformDiverged w block && !w.diverged.contains block then s.divergent w block at_ else s
  | none => s

/-- File threads, or take the divergent-reform trap when no bin can be had (R148) or the block's threads now lie in `reform.all` bins
apart (R150). Once it is taken, the threads of the block stay where they are. -/
def State.fileOrTrap (s : State) (w : Workgroup) (block : Nat) (lanes : List Nat) (pc : Nat) (all : Bool) (gid : Option Nat)
    (at_ : Nat) : State :=
  if s.diverged w.id block then s else
  match s.file w block lanes pc all with
  | some t =>
    (match gid with
    | some g => t.leaveGroup g lanes
    | none => t).checkReform w.id block at_
  | none => s.divergent w block at_

/-! ### Resumption (R329, R335) -/

/-- A thread ready for re-execution: o, l and settling writes are dead, every flag is set, and `%rec` and `%ret` are what they
were before the resume header (R335). -/
def Thread.reset (t : Thread) (due : Bool) : Thread :=
  let t := { t with o := [], l := [], flags := [], setAt := [], settling := [], stale := [] }
  if due then t else { t with regions := t.regionsR, retired := t.retiredR }

/-- Re-execute a stopped group: each thread is filed at its resume header (R335). What it still awaited counts for its flags no more. -/
def State.reexecute (s : State) (gid : Nat) : State :=
  match s.group? gid with
  | none => s
  | some g =>
    let forget := fun (o : LongOp) => if o.wg == g.wg then { o with present := o.present.filter fun t => !g.tids.contains t } else o
    g.lanes.foldl (fun s l =>
      match s.wg? g.wg with
      | none => s
      | some w =>
        match w.thread? (32 * g.block + l) with
        | none => s
        | some t =>
          let h := s.resumeHeader w t
          (s.mapThread g.wg t.tid fun t => t.reset h.2).fileOrTrap w g.block [l] h.1 false (some gid) h.1) { s with ops := s.ops.map forget }

/-- Continue a group in place: its stop ends (R329). A word that a watchpoint stopped keeps its mark that it was checked. -/
def State.continueGroup (s : State) (gid : Nat) : State :=
  s.mapGroup gid fun g => { g with stop := none, step := none }

/-- Take a thread out of a bin or a park into a stopped group of its own, so that a fault found there stops it (R317). -/
def State.isolate (s : State) (wg tid : Nat) : State × Nat :=
  match s.thread? wg tid with
  | none => (s, 0)
  | some t =>
    match t.place with
    | .group g => (s, g)
    | _ =>
      let lane := tid % 32
      let block := tid / 32
      let cut := fun (b : Bin) =>
        if b.wg == wg && b.block == block then { b with lanes := b.lanes.filter (· != lane) } else b
      let s := { s with bins := (s.bins.map cut).filter fun b => !b.lanes.isEmpty }
      ((s.formGroup wg block [lane] t.next).mapGroup s.seq fun g => { g with parkFault := t.place != .bin }, s.seq)

end Sys2Proof.Machine
end

