-- ==== Sys2Proof/Machine/Bell.lean ====
section
/-!
DEFINITION. The Bell (R384 to R390) as an operation on a job, and the stops that `brk`, watchpoints and package freezes make
(R322 to R326).
-/
namespace Sys2Proof.Machine

/-- A field of a 64-bit word of a job's BCB copy (Table 16.1), by its index. -/
def Job.bcbField (j : Job) (i lo n : Nat) : Nat := ((j.bcb.getD []).getD i 0).toNat / 2 ^ lo % 2 ^ n
/-- The fan-out packages FAN0 to FAN(NFAN − 1). -/
def Job.fan (j : Job) : List Nat :=
  (List.range (j.bcbField 0 8 8)).map fun i => j.bcbField (4 + i / 4) (16 * (i % 4)) 16
/-- The root package of the roll call. -/
def Job.rootPkg (j : Job) : Nat := j.bcbField 2 32 16

/-- Whether this package is the root of the job's roll call. -/
def Job.atRoot (j : Job) : Bool := j.bcb.isSome && j.rootPkg == Config.pkg.toNat
/-- The packages of the job. -/
def Job.size (j : Job) : Nat := j.bcbField 0 32 32
/-- The root gathers the roll call of a Bell, if it does not already (R392). -/
def Job.gathering (j : Job) (seq : Nat) : Job :=
  if j.hseq = seq && j.hstate != 0 then j else { j with hstate := 1, hseq := seq, roll := [], headed := false }

/-- Bell numbers compared modulo 2^32 (R384). -/
def bellAbove (n bseq : Nat) : Bool := let d := (n + 2 ^ 32 - bseq) % 2 ^ 32; decide (1 ≤ d) && decide (d < 2 ^ 31)

/-- Whether the freeze of a Bell holds a job at a clk (R390). -/
def State.jobFrozenAt (s : State) (job clk : Nat) : Bool :=
  ((s.job? job).bind (·.freeze)).any fun f => decide (f.since ≤ clk)
/-- Whether a Bell holds the engines, streams and fabric programs of a job at a clk: until stage 2 of its resume (Table 16.7). -/
def State.jobHeldAt (s : State) (job clk : Nat) : Bool :=
  ((s.job? job).bind (·.freeze)).any fun f => decide (f.cyc ≤ clk) && decide (f.stage < 2)
/-- Whether a Bell holds a job. -/
def State.jobFrozen (s : State) (job : Nat) : Bool := ((s.job? job).bind (·.freeze)).isSome

/-- Whether a partition's groups of a workgroup are frozen at a clk: by a partition or package freeze, or by a Bell. -/
def State.frozenAt (s : State) (w : Workgroup) (part clk : Nat) : Bool :=
  (s.part w.core part).frozen.isSome || s.pfrz.isSome || s.jobFrozenAt (s.jobOf w) clk

/-- Whether a group is frozen at a clk: not while it steps, and not by the partition's or the package's freeze once a continue has released
it (R329). -/
def State.groupFrozen (s : State) (w : Workgroup) (g : Group) (clk : Nat) : Bool :=
  g.step.isNone && (s.jobFrozenAt (s.jobOf w) clk || (!g.go && s.frozenAt w g.part clk))

/-- The workgroups of a job. -/
def State.wgsOf (s : State) (job : Nat) : List Workgroup := s.wgs.filter fun w => s.jobOf w == job

/-- A freeze that starts on the next clk, or at once where the job already stands frozen (R390, R397). -/
def State.newFreeze (s : State) (job seq : Nat) (raise : Option RaiseRec) : BellFreeze :=
  let old := (s.job? job).bind (·.freeze)
  let cyc := match old with
    | none => s.cyc + 1
    | some f => if f.stage < 2 then f.cyc else s.cyc
  { seq, raise, nraise := if raise.isSome then 1 else 0, cyc, since := (old.map (·.since)).getD cyc
    entry := [], stage := 0, shown := 0 }

/-- Freeze a job under Bell `seq` and send the Bell to the fan-out (R388, R390); the root writes its header next (R392). -/
def State.freezeJob (s : State) (job seq origin cause : Nat) (raise : Option RaiseRec) : State :=
  match s.job? job with
  | none => s
  | some j =>
    let f := s.newFreeze job seq raise
    let s := s.mapJob job fun j =>
      let j := { j with bseq := seq, freeze := some f }
      if j.atRoot then j.gathering seq else j
    let s := if s.tt.state == 1 && s.tt.job == job then { s with tt := { s.tt with state := 2 } } else s
    let s := if j.atRoot then { s with todo := s.todo ++ [Act.event (.rollCallEntryWrite job)] } else s
    j.fan.foldl (fun s p => s.send (.bell p ⟨job, seq, origin, cause⟩)) s

/-- Raise a Bell for a job (R384). A raise under a Bell whose resume has not begun stage 2 merges into it. -/
def State.raiseBell (s : State) (job : Nat) (r : RaiseRec) : State :=
  match s.job? job with
  | none => s
  | some j =>
    match j.freeze with
    | some f =>
      if f.stage < 2 then
        s.mapJob job fun j => { j with freeze := some { f with raise := f.raise.or (some r), nraise := min 255 (f.nraise + 1) } }
      else s.freezeJob job ((j.bseq + 1) % 2 ^ 32) Config.pkg.toNat r.cause (some r)
    | none => s.freezeJob job ((j.bseq + 1) % 2 ^ 32) Config.pkg.toNat r.cause (some r)

/-- Freeze a partition (R322). -/
def State.freezePart (s : State) (core part : Nat) : State := s.mapPart core part fun p => { p with frozen := p.frozen.or (some s.cyc) }

/-- The action of a breakpoint or watchpoint on a group (R322, R324, R325): 1 group park, 2 partition freeze, 3 package freeze,
4 Bell, which reports `bellCause`. -/
def State.debugStop (s : State) (g : Group) (w : Workgroup) (cause sub detail addr pc : Nat) (lanes : List Nat)
    (action bellCause : Nat) : State :=
  if action = 1 then s.trapGroup g.id cause sub detail 0 addr pc lanes false
  else
    let tid := 32 * g.block + (lanes.head?.getD 0)
    let bell := action == 4
    let st : Stop := { cause, sub, detail, code := action - 1, cont := !bell, reexec := !bell, pc, addr, lanes, tid, clk := s.cyc }
    let ev := s.wgEvent w tid false st
    let s := s.mapGroup g.id fun g => { g with step := none }
    let s := if action = 2 then s.freezePart w.core g.part
      else if action = 3 then { s with pfrz := s.pfrz.or (some s.cyc) }
      else s.raiseBell (s.jobOf w) { cause := bellCause, unit := 0, handle := handleOf w.core w.slot tid false, code := detail, addr := pc }
    s.raise (clusterOf w.core) w.core g.part none ev

end Sys2Proof.Machine
end

