-- ==== Sys2Proof/Machine/Operands.lean ====
section
/-!
DEFINITION. Operands and results (R12 to R16, R20, R23 to R30, R36, R70, R71): what a word of a group, or a uniform word of
any executor, reads; when its sources are ready; where its results go.
-/
namespace Sys2Proof.Machine

/-- An outcome of a meaning. -/
abbrev Result := Host.Outcome State Fault Refusal

/-- The prefix that a word without one has (R20, R72). -/
def neutralPrefix : PrefixFields :=
  { uniform := false, rnd := .dyn, sat := .off, fzi := false, fzo := false, guard := none, bcast := none }

/-- What a word of a group's run sees: its group, run, workgroup and leaf, its place and its prefix. -/
structure View where
  g    : Group
  run  : Run
  wg   : Workgroup
  leaf : Region
  turn : Turn
deriving DecidableEq, Repr

/-- The prefix of the word. -/
def View.pfx (v : View) : PrefixFields := v.turn.pfx.getD neutralPrefix

/-- The present threads, in lane order (R147). -/
def View.threads (v : View) : List Thread := v.g.tids.filterMap v.wg.thread?

/-- The header after the trailer of the run (R33). -/
def View.nextHeader (v : View) : Nat := v.run.header + 4 * (v.run.left + (v.run.pc - v.run.header) / 4) + 4

/-- Run a meaning on the group whose word is performed. Elsewhere a lane-set word raises the wrong-executor subcause (R38), and
where a header is due any other word raises the opcode subcause (R21). -/
def onGroup (s : State) (body : View → Result) : Result :=
  match s.turn with
  | none => .refused .noExecutor
  | some t =>
    match t.unit with
    | .group id =>
      match s.group? id with
      | none => .fault .noSuchUnit
      | some g =>
        match s.wg? g.wg with
        | none => .fault .noSuchUnit
        | some w =>
          match s.leafOf w, g.run with
          | none, _ => .fault .noSuchUnit
          | some _, none => .next (s.illegal .opcode)
          | some l, some r => body { g, run := r, wg := w, leaf := l, turn := t }
    | _ => .next (s.illegal .executor)

/-! ### Registers -/

/-- Key of a choice about a register of a thread. -/
def regKey (tid : Nat) : Reg → Nat
  | .x n => tid * 256 + n
  | .p n => tid * 256 + 128 + n

/-- A register whose write of an earlier run had not settled when this run's header issued reads old or new (R27, R28). -/
def openRead (fresh : Nat) (t : Thread) (r : Reg) (now : W64) : W64 :=
  match t.stale.find? (·.reg == r) with
  | some e => if Config.choose fresh (32 * regKey t.tid r + 8) then e.old else now
  | none => now

/-- Read an x register. -/
def State.readX (s : State) (t : Thread) (n : Nat) : W64 := openRead s.fresh t (.x n) (sget 0 t.x n)
/-- Read a predicate register. -/
def State.readP (s : State) (t : Thread) (n : Nat) : Byte := (openRead s.fresh t (.p n) ((sget 0 t.p n).setWidth 64)).setWidth 8

/-- Read a k register of a workgroup from a group: a write in flight from outside this run reads old or new (R15, R28). A write of
another group's run is in flight until that run's trailer and its settle time after it are past (R27). -/
def State.readK (s : State) (v : View) (n : Nat) : W64 :=
  let now := sget 0 v.wg.k n
  match v.wg.ksettling.find? fun e => e.k == n && e.own != some v.g.id && (e.own.isSome || decide (v.run.clk ≤ e.ready)) with
  | some e => if Config.choose s.fresh (32 * n + 7) then e.old else now
  | none => now

/-- A special register of a thread of a group (Table 1.2). -/
def State.special (s : State) (v : View) (t : Thread) : Special → W64
  | .lane => w64 (t.tid % 32)
  | .tid => w64 t.tid
  | .tidX => w64 (t.tid % v.leaf.wgx)
  | .tidY => w64 (t.tid / v.leaf.wgx % v.leaf.wgy)
  | .tidZ => w64 (t.tid / (v.leaf.wgx * v.leaf.wgy))
  | .wgX => w64 (v.leaf.coords v.wg.w).1
  | .wgY => w64 (v.leaf.coords v.wg.w).2.1
  | .wgZ => w64 (v.leaf.coords v.wg.w).2.2
  | .nwgX => w64 v.leaf.gx
  | .nwgY => w64 v.leaf.gy
  | .nwgZ => w64 v.leaf.gz
  | .wgsz => w64 v.leaf.wgsz
  | .core => w64 v.wg.core
  | .die => w64 (dieOf v.wg.core)
  | .pkg => Config.pkg.setWidth 64
  | .cyc => w64 s.cyc
  | .retired => t.retired
  | .regions => t.regions.setWidth 64
  | .mode => t.mode.setWidth 64

/-- A source operand of a thread; an immediate is replicated into sub-elements of `w` bits, 64 for an operand read whole
(R12, R92). -/
def State.source (s : State) (v : View) (t : Thread) (w : Nat) : Src → W64
  | .x n => s.readX t n
  | .k n => s.readK v n
  | .o n => (sget (⟨0, 0⟩ : RunVal) t.o n).val
  | .l n => ((t.l[n]?).map (·.val)).getD 0
  | .zero => 0
  | .special r => s.special v t r
  | .imm i => spread w (unsigned w i)

/-- The clk from which a source can be used (R23). -/
def State.readyAt (v : View) (t : Thread) : Src → Nat
  | .x n => ((t.settling.find? (·.reg == .x n)).map (·.ready)).getD 0
  | .k n => ((v.wg.ksettling.find? fun e => e.k == n && e.own == some v.g.id).map (·.ready)).getD 0
  | .o n => (sget (⟨0, 0⟩ : RunVal) t.o n).ready
  | .l n => ((t.l[n]?).map (·.ready)).getD 0
  | _ => 0

/-- The clk from which a predicate can be used (R23). -/
def predReadyAt (t : Thread) (q : Nat) : Nat := ((t.settling.find? (·.reg == .p q)).map (·.ready)).getD 0

/-- Whether a source has a value: an o register not written in the run, or an l register deeper than its pushes, has none
(R24). -/
def hasValue (t : Thread) : Src → Bool
  | .o n => t.o.any (·.1 == n)
  | .l n => decide (n < t.l.length)
  | _ => true

/-- Whether a source names a register the thread may use (R14). -/
def srcAllowed (regs : Nat) : Src → Bool
  | .x n => decide (n < regs)
  | _ => true
/-- Whether a destination names a register the thread may use (R14). -/
def dstAllowed (regs : Nat) : Dst → Bool
  | .x n => decide (n < regs)
  | _ => true

/-- The predicates a word's guards read. -/
def guardPreds (v : View) (g : Option Guard) : List Nat :=
  (v.pfx.guard.map (·.p)).toList ++ (g.map (·.p)).toList

/-- One guard's bits in a thread (R71, Table 3.6). -/
def State.guardByte (s : State) (t : Thread) : Option Guard → Byte
  | none => BitVec.allOnes 8
  | some g => if g.neg then ~~~(s.readP t g.p) else s.readP t g.p

/-- The guard bits of a word in a thread: both guards must be on (R71). -/
def State.guard (s : State) (v : View) (g : Option Guard) (t : Thread) : Byte :=
  s.guardByte t v.pfx.guard &&& s.guardByte t g

/-- The broadcast of operand B (R71): every sub-element takes sub-element BI. -/
def broadcast (p : PrefixFields) (w : Nat) (b : W64) : W64 :=
  match p.bcast with
  | some i => spread w (subOf w b i)
  | none => b

/-- Hold the run until a clk (R23): the partition issues nothing meanwhile. -/
def State.holdTo (s : State) (v : View) (clk : Nat) : State :=
  if clk ≤ s.cyc then s else { s with cyc := clk }.mapPart v.wg.core v.g.part fun p => { p with lastIssue := clk }

/-- The latest clk at which some sources and predicates of some threads become usable. -/
def State.sourcesReady (v : View) (ts : List Thread) (srcs : List Src) (preds : List Nat) : Nat :=
  ts.foldl (fun a t => preds.foldl (fun a q => max a (predReadyAt t q)) (srcs.foldl (fun a x => max a (State.readyAt v t x)) a)) 0

/-- The checks at issue of a lane-set word: a 17th long-latency instruction, x registers beyond the thread's count, operands
without a value; then the hold of R23. -/
def withLanes (guard : Option Guard) (srcs : List Src) (preds : List Nat) (dst : Dst) (long : Bool) (s : State)
    (body : View → State → Result) : Result :=
  onGroup s fun v =>
    if long && decide (16 ≤ v.run.ordinals.length) then .next (s.illegal .reserved)
    else if !(srcs.all (srcAllowed v.leaf.regs) && dstAllowed v.leaf.regs dst) then .next (s.illegal .operand)
    else
      let bad := v.threads.filter fun t => !srcs.all (hasValue t)
      if !bad.isEmpty then trapNext s 1 0 0 0 (bad.map (·.tid % 32))
      else body v (s.holdTo v (State.sourcesReady v v.threads srcs (preds ++ guardPreds v guard)))

/-! ### Results -/

/-- Discard the pending long-latency results of some threads for a register: a later write wins (R29). -/
def State.supersede (s : State) (wg : Nat) (tids : List Nat) (n : Nat) : State :=
  let drop := fun (o : LongOp) =>
    if o.wg == wg && o.dst == .x n then { o with dropped := o.dropped ++ tids.filter fun t => o.tids.contains t } else o
  { s with ops := s.ops.map drop }

/-- Write an x register under a mask, usable from clk `ready` (R25, R27, R29). -/
def Thread.writeX (t : Thread) (n : Nat) (mask v : W64) (ready : Nat) : Thread :=
  if mask = 0 then t else
  let old := sget 0 t.x n
  { t with x := sset 0 t.x n (merge mask old v)
           settling := t.settling.filter (·.reg != .x n) ++ [⟨.x n, old, ready⟩]
           stale := t.stale.filter (·.reg != .x n), upsets := t.upsets.filter (· != .x n) }

/-- Write bits of a predicate register. -/
def Thread.writeP (t : Thread) (q : Nat) (n : Nat) (mask v : Byte) (ready : Nat) : Thread :=
  let old := sget 0 t.p q
  if !anyOn n mask then t else
  { t with p := sset 0 t.p q (mergeBits n mask old v)
           settling := t.settling.filter (·.reg != .p q) ++ [⟨.p q, old.setWidth 64, ready⟩]
           stale := t.stale.filter (·.reg != .p q), upsets := t.upsets.filter (· != .p q) }

/-- Write an o register under a mask; a word guarded off in the whole lane writes nothing (R25). A register not yet written in the run
holds free values where the mask is off (R24): they depend on the thread's ids and its own program order alone (R62). -/
def Thread.writeO (t : Thread) (w n : Nat) (mask v : W64) (ready : Nat) : Thread :=
  if mask = 0 then t else
  let old := ((t.o.find? (·.1 == n)).map (·.2.val)).getD (Config.unwritten w t.tid t.retired.toNat n)
  let e : RunVal := ⟨merge mask old v, ready⟩
  { t with o := (t.o.filter fun x => decide (x.1 < n)) ++ [(n, e)] ++ t.o.filter fun x => decide (n < x.1) }

/-- Push a result to l0 (R24). -/
def Thread.push (t : Thread) (v : W64) (ready : Nat) : Thread := { t with l := (⟨v, ready⟩ :: t.l).take 4 }

/-- A write to a predicate: register, number of bits, mask, bits. -/
structure PredWrite where
  q    : Nat
  n    : Nat
  mask : Byte
  bits : Byte
deriving DecidableEq, Repr

/-- What a word gives one lane: the full result, the bits of the destination it may write, and a predicate write. -/
structure LaneOut where
  tid   : Nat
  value : W64
  mask  : W64
  pred  : Option PredWrite
deriving DecidableEq, Repr

/-- Write one lane's result of a fixed-latency word and push it (R24, R25); `w` is the workgroup's linear id. -/
def Thread.take (t : Thread) (w : Nat) (dst : Dst) (ready : Nat) (o : LaneOut) : Thread :=
  let t := match dst with
    | .x n => t.writeX n o.mask o.value ready
    | .o n => t.writeO w n o.mask o.value ready
    | _ => t
  let t := match o.pred with
    | some p => t.writeP p.q p.n p.mask p.bits ready
    | none => t
  t.push o.value ready

/-- Write the lanes' results of a fixed-latency word of latency `lat`. -/
def State.commit (s : State) (v : View) (dst : Dst) (lat : Nat) (outs : List LaneOut) : State :=
  let s := match dst with
    | .x n => s.supersede v.wg.id ((outs.filter (·.mask != 0)).map (·.tid)) n
    | _ => s
  outs.foldl (fun s o => s.mapThread v.wg.id o.tid fun t => t.take v.wg.w dst (s.cyc + lat) o) s

/-! ### Forms -/

/-- The operands of a lane-set or uniform word whatever its form: in a 64i form `imm` takes the place of B (R70). -/
structure Form where
  shape : Shape
  kind  : Kind
  d     : Dst
  a     : Src
  b     : Src
  c     : Src
  guard : Option Guard
  imm   : Option W64
deriving DecidableEq, Repr

/-- A 32-bit form; `k` is the default kind (R65). -/
def form32 (k : Kind) (f : F32) : Form := ⟨f.shape, k, f.d, f.a, f.b, .zero, none, none⟩
/-- A 64-bit form. -/
def form64 (f : F64) : Form := ⟨f.shape, f.kind, f.d, f.a, f.b, f.c, f.guard, none⟩
/-- A 64i form. -/
def form64I (f : F64I) : Form := ⟨f.shape, f.kind, f.d, f.a, .zero, .zero, none, some (immOperand f.shape f.kind f.imm)⟩
/-- A 64i form that reads IMM sign-extended to 64 bits (R100, R119). -/
def form64IS (f : F64I) : Form := ⟨f.shape, f.kind, f.d, f.a, .zero, .zero, none, some (immSigned f.imm)⟩

/-- Sources that a form names. -/
def Form.srcs (f : Form) : List Src := [f.a, f.b, f.c]
/-- Sub-element width. -/
def Form.w (f : Form) : Nat := shapeBits f.shape
/-- Sub-element count. -/
def Form.n (f : Form) : Nat := 64 / f.w

/-- The sampled floating-point settings of a thread (R20, R50); `e` is the number of sub-elements in the shape. -/
def State.fpMode (s : State) (v : View) (t : Thread) (e : Nat) : FpMode :=
  { rnd := sampleRnd t.mode v.pfx, sat := v.pfx.sat, mode := t.mode, fzi := v.pfx.fzi, fzo := v.pfx.fzo
    seed := s.readK v 62, tid := (s.readK v 63).setWidth 32
    coord := s.readK v 61 + w64 ((v.wg.w * v.leaf.wgsz + t.tid) * e) }

/-- A word that draws no random bits. -/
def noDraw : View → List Src := fun _ => []

/-- The k registers that RSR reads (R50), where some present thread rounds so. -/
def rsrSources (v : View) : List Src :=
  if v.threads.any fun t => sampleRnd t.mode v.pfx == .rsr then [.k 61, .k 62, .k 63] else []

/-- Operand B of a form in a thread, after the prefix's broadcast (R71). The broadcast index counts sub-elements of the shape, as R72
bounds it, under kind `e2` too, whose 4-bit elements stand two to a sub-element: R71 does not say which it counts (DESIGN CHOICE, log 102). -/
def State.operandB (s : State) (v : View) (t : Thread) (w : Nat) (f : Form) : W64 :=
  match f.imm with
  | some i => i
  | none => broadcast v.pfx f.w (s.source v t w f.b)

/-- A fixed-latency lane-set word (R92): each present lane computes from its operands; `compute` answers the full result and
a predicate write. `wa`, `wb`, `wc` are the widths at which immediates replicate, `wg` that of the guard's sub-elements;
`draws` names the k registers that random bits are drawn from (R50, R116). -/
def laneWord (f : Form) (lat wa wb wc wg : Nat) (draws : View → List Src) (preds : List Nat)
    (compute : State → View → Thread → W64 → W64 → W64 → W64 × Option PredWrite) (s : State) : Result :=
  withLanes f.guard f.srcs preds f.d false s fun v s =>
    let s := s.holdTo v (State.sourcesReady v v.threads (draws v) [])
    .next (s.commit v f.d lat (v.threads.map fun t =>
      let g := s.guard v f.guard t
      let r := compute s v t (s.source v t wa f.a) (s.operandB v t wb f) (s.source v t wc f.c)
      { tid := t.tid, value := r.1, mask := guardMask wg g, pred := r.2.map fun p => { p with mask := g } }))

/-! ### Long-latency words (R28, R30) -/

/-- Begin the next ordinal of a group's run (R30). -/
def State.beginOrdinal (s : State) (gid : Nat) : State :=
  s.mapGroup gid fun g => { g with run := g.run.map fun r => { r with ordinals := r.ordinals ++ [[]] } }

/-- An operation before its own fields are filled in. -/
def newOp (s : State) (issuer : UnitId) (wg core job pc : Nat) (kind : LongKind) (dst : Dst) : LongOp :=
  { id := s.seq, seq := s.seq, issuer, wg, core, job, pc, kind, dst, tids := [], dropped := [], present := [], flags := []
    after := [], issued := s.cyc, sent := false, got := [], own := [], held := none, checked := false }

/-- Issue a long-latency operation of a group: `tids` its destination's threads, `present` those it counts for; a returning
one joins the current ordinal. A later-issued write supersedes what was pending for its destination (R29). -/
def State.issueOp (s : State) (v : View) (kind : LongKind) (dst : Dst) (tids present after : List Nat) (ordinal : Bool) : State :=
  let o := { newOp s (.group v.g.id) v.wg.id v.wg.core v.leaf.job v.turn.pc kind dst with tids, present, after }
  let s := match dst with
    | .x n => s.supersede v.wg.id tids n
    | _ => s
  let add := fun (l : List (List Nat)) => l.dropLast ++ [(l.getLast?.getD []) ++ [o.id]]
  let s := if ordinal then
      s.mapGroup v.g.id fun g => { g with run := g.run.map fun r => { r with ordinals := add r.ordinals } }
    else s
  { s with ops := s.ops ++ [o] }.bump

/-- A long-latency lane-set word whose result is formed at issue (R108, R109): one operation per lane with a guard bit on. -/
def longWord (f : Form) (compute : State → View → Thread → W64 → W64 → W64) (s : State) : Result :=
  withLanes f.guard f.srcs [] f.d true s fun v s =>
    let s := s.holdTo v (State.sourcesReady v v.threads (rsrSources v) [])
    .next (v.threads.foldl (fun s' t =>
      let g := s.guard v f.guard t
      if anyOn f.n g then
        s'.issueOp v (.value (compute s v t (s.source v t f.w f.a) (s.operandB v t f.w f)) g f.shape) f.d [t.tid] [t.tid] [] true
      else s') (s.beginOrdinal v.g.id))

/-! ### Uniform words (R36 to R38) -/

/-- A k register of an executor that serves no thread. -/
def State.unitK (s : State) (u : UnitId) (n : Nat) : W64 :=
  match u with
  | .group _ => 0
  | .stream w => ((s.stream? w).map fun x => sget 0 x.k n).getD 0
  | .fabric p => ((s.proc? p).map fun x => sget 0 x.k n).getD 0
  | .control c => ((s.control? c).map fun x => sget 0 x.k n).getD 0

/-- The destination k register of a queued matrix instruction (`mpin`). -/
def matrixDst : MatrixWork → Dst
  | .pin d _ _ => d
  | _ => .none

/-- A queued `mpin` whose destination a later write has taken. -/
def MatrixWork.superseded (n : Nat) : MatrixWork → MatrixWork
  | .pin (.k m) key t => if m = n then .pin .none key t else .pin (.k m) key t
  | w => w

/-- The destination k register of a pending result, unless a later write has taken it. -/
def dstUnless (d : Dst) (n : Nat) : Dst := if d == .k n then .none else d

/-- A fabric processor whose pending results for a k register a later write has taken. -/
def FabricProc.supersede (p : FabricProc) (n : Nat) : FabricProc :=
  { p with
    queue := p.queue.map fun q => { q with dst := dstUnless q.dst n }
    slots := p.slots.map fun x => { x with active := x.active.map fun a => { a with res := dstUnless a.res n, stat := dstUnless a.stat n } } }

/-- Write a k register of an executor that serves no thread; a pending result for it is superseded (R29). -/
def State.setUnitK (s : State) (u : UnitId) (n : Nat) (v : W64) : State :=
  let drop := fun (o : LongOp) => if o.issuer == u && o.dst == .k n then { o with dst := .none } else o
  let s := { s with ops := s.ops.map drop }
  match u with
  | .group _ => s
  | .stream w => s.mapStream w fun x =>
      { x with k := sset 0 x.k n v, queue := x.queue.map (fun q => { q with instr := q.instr.superseded n }), upsets := x.upsets.filter (· != n) }
  | .fabric p => s.mapProc p fun x => { x.supersede n with k := sset 0 x.k n v }
  | .control c => s.mapControl c fun x => { x with k := sset 0 x.k n v }

/-- Whether a k register of an executor still awaits a write: the interlock of R280, R318 and R356. -/
def State.kBusy (s : State) (u : UnitId) (n : Nat) : Bool :=
  s.ops.any (fun o => o.issuer == u && o.dst == .k n) ||
  match u with
  | .stream w => ((s.stream? w).map fun x => x.queue.any fun q => matrixDst q.instr == .k n).getD false
  | .fabric p => ((s.proc? p).map fun x => x.queue.any (·.dst == .k n) || (x.wait.map fun f => f.dst == .k n).getD false ||
      x.slots.any fun sl => (sl.active.map fun a => a.res == .k n || a.stat == .k n).getD false).getD false
  | _ => false

/-- A special register on an executor that serves no thread (R37). -/
def State.unitSpecial (s : State) (u : UnitId) : Special → W64
  | .core =>
    match u with
    | .stream w => w64 (((s.wg? w).map (·.core)).getD 0)
    | .control c =>
      match (s.control? c).bind (·.current) with
      | some e =>
        let h := (e.words.getD 0 0).toNat / 2 ^ 24 % 2 ^ 24
        if 0xFFE000 ≤ h then BitVec.allOnes 64 else w64 (h % 256)
      | none => BitVec.allOnes 64
    | _ => BitVec.allOnes 64
  | .die =>
    match u with
    | .stream w => w64 (dieOf (((s.wg? w).map (·.core)).getD 0))
    | .fabric n => w64 (n / 8)
    | .control c => w64 (c / 16)
    | .group _ => 0
  | .pkg => Config.pkg.setWidth 64
  | .cyc => w64 s.cyc
  | _ => 0

/-- The executor of a uniform word: its unit, and on a group its view, its source lane and the threads whose guard is on. -/
inductive Uni where
  | lane (v : View) (src : Thread) (on : List Thread)
  | unit (u : UnitId)
deriving DecidableEq, Repr

/-- The unit of a uniform word. -/
def Uni.id : Uni → UnitId
  | .lane v _ _ => .group v.g.id
  | .unit u => u

/-- Read a source of a uniform word: a lane register from the source lane (R36). -/
def State.uniSource (s : State) (u : Uni) (w : Nat) (src : Src) : W64 :=
  match u with
  | .lane v t _ => s.source v t w src
  | .unit i =>
    match src with
    | .k n => s.unitK i n
    | .special r => s.unitSpecial i r
    | .imm x => spread w (unsigned w x)
    | _ => 0

/-- A write of a workgroup's k register by a group takes it from every result still pending for it: of two writes the one issued later
remains, whichever group issued it (R15, R29). -/
def State.supersedeK (s : State) (wg n : Nat) : State :=
  let drop := fun (o : LongOp) => if o.wg == wg && o.issuer != .stream wg && o.dst == .k n then { o with dst := .none } else o
  { s with ops := s.ops.map drop }

/-- `supersedeK` for a destination, where it is a k register. -/
def State.supersedeDst (s : State) (wg : Nat) : Dst → State
  | .k n => s.supersedeK wg n
  | _ => s

/-- Write a k register of a workgroup from a group: on one clk the highest partition's value remains (R15). -/
def State.writeK (s : State) (v : View) (n : Nat) (x : W64) (lat : Nat) : State :=
  (s.supersedeK v.wg.id n).mapWg v.wg.id fun w =>
    if w.ksettling.any fun e => e.k == n && e.clk == s.cyc && decide (v.g.part < e.part) then w
    else { w with k := sset 0 w.k n x
                  ksettling := w.ksettling.filter (·.k != n) ++
                    [⟨n, sget 0 w.k n, s.cyc + lat, some v.g.id, v.g.part, s.cyc⟩]
                  upsets := w.upsets.filter (· != .k n) }

/-- Write the result of a fixed-latency uniform word (R36): x and o in every present lane whose guard is on, k once, and the
l push in every present lane. -/
def State.uniCommit (s : State) (u : Uni) (dst : Dst) (lat : Nat) (x : W64) : State :=
  match u with
  | .lane v _ on =>
    let s := match dst with
      | .k n => s.writeK v n x lat
      | _ => s
    s.commit v dst lat (v.threads.map fun t =>
      { tid := t.tid, value := x, mask := if on.any (·.tid == t.tid) then BitVec.allOnes 64 else 0, pred := none })
  | .unit i =>
    match dst with
    | .k n => s.setUnitK i n x
    | _ => s

/-- Whether an executor without lanes may name a source (R280, R318, R356). -/
def unitSrc : Src → Bool
  | .x _ | .o _ | .l _ => false
  | _ => true
/-- Whether an executor without lanes may name a destination. -/
def unitDst : Dst → Bool
  | .x _ | .o _ => false
  | _ => true

/-- Let a word wait: nothing happens, and it is offered again. -/
def holdWord (s : State) : Result := .next { s with hold := true }

/-- The checks at issue of a uniform word, on its executor. `n` guard bits select lanes; with no lane on, the word has no
effect on a group (R36). R36 says only that a lane's guard is on: which of a `.w`, `.h` or `.b` word's bits make it so is the
model's choice (DESIGN CHOICE, log 96: any bit of the shape), and such a lane takes the whole 64 bits. -/
def withUni (guard : Option Guard) (n : Nat) (srcs : List Src) (dst : Dst) (long : Bool) (s : State)
    (body : Uni → State → Result) : Result :=
  match s.turn with
  | none => .refused .noExecutor
  | some t =>
    match t.unit with
    | .group _ =>
      onGroup s fun v =>
        if long && decide (16 ≤ v.run.ordinals.length) then .next (s.illegal .reserved)
        else if !(srcs.all (srcAllowed v.leaf.regs) && dstAllowed v.leaf.regs dst) then .next (s.illegal .operand)
        else
          let s1 := s.holdTo v (State.sourcesReady v v.threads [] (guardPreds v guard))
          let on := v.threads.filter fun t => anyOn n (s1.guard v guard t)
          match on with
          | [] => .next (if long then s1.beginOrdinal v.g.id else s1)
          | src :: _ =>
            if !srcs.all (hasValue src) then trapNext s1 1 0 0 0 [src.tid % 32]
            else body (.lane v src on) (s1.holdTo v (State.sourcesReady v [src] srcs []))
    | u =>
      if guard.isSome then .next (s.illegal .reserved)
      else if !(srcs.all unitSrc && unitDst dst) then .next (s.illegal .operand)
      else if srcs.any fun x => match x with | .k r => s.kBusy u r | _ => false then holdWord s
      else body (.unit u) s

/-- Operand B of a uniform form, after broadcast. -/
def State.uniOperandB (s : State) (u : Uni) (w : Nat) (f : Form) : W64 :=
  match f.imm with
  | some i => i
  | none =>
    match u with
    | .lane v t _ => broadcast v.pfx f.w (s.source v t w f.b)
    | .unit _ => s.uniSource u w f.b

/-- The saturation a uniform word's prefix selects. -/
def Uni.sat : Uni → Sat
  | .lane v _ _ => v.pfx.sat
  | .unit _ => .off

/-- A fixed-latency uniform word (R128). -/
def uniWord (f : Form) (lat wa wb wc : Nat) (compute : Sat → W64 → W64 → W64 → W64) (s : State) : Result :=
  withUni f.guard f.n f.srcs f.d false s fun u s =>
    .next (s.uniCommit u f.d lat
      (compute u.sat (s.uniSource u wa f.a) (s.uniOperandB u wb f) (s.uniSource u wc f.c)))

end Sys2Proof.Machine
end

