-- ==== Sys2Proof/Machine/Integer.lean ====
section
/-!
DEFINITION. The lane-set integer and bit instructions (Table 4.1, R94 to R101) and their uniform counterparts (Table 4.7,
R128 to R130). One operation per row; each form has a meaning of its own.
-/
namespace Sys2Proof.Machine

/-- Rows of Table 4.1 that compute a sub-element from sub-elements. -/
inductive IntOp where
  | add | sub | mul | mulh | mad | min | max | abs | and | or | xor | andn | shl | shr | sar | rot | clz | popc | mov | div
deriving DecidableEq, Repr

/-- Leading zero bits of a value of `n` bits, found below bit `n` (Table 4.1). -/
def clzBits : Nat → Nat → Nat
  | 0, _ => 0
  | n + 1, v => if v.testBit n then 0 else 1 + clzBits n v

/-- The number of 1 bits among the low `n` (Table 4.1). -/
def popBits : Nat → Nat → Nat
  | 0, _ => 0
  | n + 1, v => (if v.testBit n then 1 else 0) + popBits n v

/-- Arithmetic shift right of a w-bit value (R95). -/
def sarBits (w v n : Nat) : Nat := unsigned w (signed w v / (2 ^ min n w : Nat))

/-- Rotation left by n mod w (R95). -/
def rotBits (w v n : Nat) : Nat := let r := n % w; (v * 2 ^ r + v / 2 ^ (w - r)) % 2 ^ w

/-- The quotient of `kdiv` (R129), exact before fit. -/
def divInt (k : Kind) (w : Nat) (a b : Int) : Int := if b = 0 then (if k == .i then -1 else (2 ^ w : Nat) - 1) else a.tdiv b

/-- One sub-element of an integer row (R94, R95, R129): w-bit codes in, w-bit code out. -/
def IntOp.eval (op : IntOp) (k : Kind) (w : Nat) (sm : Sat) (a b c : Nat) : Nat :=
  let x := kindInt k w a
  let y := kindInt k w b
  match op with
  | .add => fit k w sm (x + y)
  | .sub => fit k w sm (x - y)
  | .mul => fit k w sm (x * y)
  | .mulh => unsigned w (x * y / (2 ^ w : Nat))
  | .mad => fit k w sm (x * y + kindInt k w c)
  | .min => if x ≤ y then a else b
  | .max => if x ≤ y then b else a
  | .abs => fit k w sm (if x < 0 then -x else x)
  | .and => a &&& b
  | .or => a ||| b
  | .xor => a ^^^ b
  | .andn => a &&& (2 ^ w - 1 - b)
  | .shl => if w ≤ b then 0 else a * 2 ^ b % 2 ^ w
  | .shr => if w ≤ b then 0 else a / 2 ^ b
  | .sar => sarBits w a b
  | .rot => rotBits w a b
  | .clz => clzBits w a
  | .popc => popBits w a
  | .mov => b
  | .div => fit k w sm (divInt k w x y)

/-- A register of an integer row (R92). -/
def IntOp.word (op : IntOp) (k : Kind) (w : Nat) (sm : Sat) (a b c : W64) : W64 :=
  perSub w fun i => op.eval k w sm (subOf w a i) (subOf w b i) (subOf w c i)

/-- Latency class (Table 1.4). -/
def IntOp.lat : IntOp → Nat
  | .mul | .mulh | .mad => 2
  | .div => 5
  | _ => 1

/-- A lane-set integer word (Table 4.1). -/
def laneInt (op : IntOp) (f : Form) : State → Result :=
  laneWord f op.lat f.w f.w f.w f.w noDraw [] fun _ v _ a b c => (op.word f.kind f.w v.pfx.sat a b c, none)

/-- A uniform integer word (Table 4.7). -/
def uniInt (op : IntOp) (f : Form) : State → Result :=
  uniWord f op.lat f.w f.w f.w fun sm a b c => op.word f.kind f.w sm a b c

/-- `bfx` (R96). -/
def bfxSub (k : Kind) (w start len a : Nat) : Nat :=
  let v := a / 2 ^ start % 2 ^ len
  if k == .i then unsigned w (signed len v) else v
/-- `bfi` (R96). -/
def bfiSub (start len a b : Nat) : Nat :=
  a % 2 ^ start + (b % 2 ^ len) * 2 ^ start + a / 2 ^ (start + len) * 2 ^ (start + len)
/-- `bfx` of a register. -/
def bfxWord (k : Kind) (w start len : Nat) (a : W64) : W64 := perSub w fun i => bfxSub k w start len (subOf w a i)
/-- `bfi` of registers. -/
def bfiWord (w start len : Nat) (a b : W64) : W64 := perSub w fun i => bfiSub start len (subOf w a i) (subOf w b i)

/-- `sel` (R97). -/
def selWord (w : Nat) (p : Byte) (neg : Bool) (a b : W64) : W64 :=
  perSub w fun i => if p.getLsbD i != neg then subOf w a i else subOf w b i

/-- The truth of a comparison per sub-element (R98). -/
def cmpBits (c : Cond) (k : Kind) (w : Nat) (a b : W64) : Byte :=
  bitsOf (64 / w) fun i => condHolds c (kindInt k w (subOf w a i)) (kindInt k w (subOf w b i))
/-- All ones where a bit is set, per sub-element (R98). -/
def maskWord (w : Nat) (bits : Byte) : W64 := perSub w fun i => maskOf w (bits.getLsbD i)

/-- `cmp` (R98). -/
def laneCmp (c : Cond) (q : Nat) (f : Form) : State → Result :=
  laneWord f 1 f.w f.w f.w f.w noDraw [] fun _ _ _ a b _ =>
    let r := cmpBits c f.kind f.w a b
    (maskWord f.w r, some ⟨q, f.n, 0, r⟩)

/-- A carry-in (R99). -/
def carryIn (cs : CarrySel) (p : Byte) (i : Nat) : Nat := if cs.en && p.getLsbD i then 1 else 0

/-- `addc` and `subb` (R99). -/
def laneCarry (subtract : Bool) (cin cout : CarrySel) (f : Form) : State → Result :=
  laneWord f 1 f.w f.w f.w f.w noDraw (if cin.en then [cin.p] else []) fun s _ t a b _ =>
    let p := if cin.en then s.readP t cin.p else 0
    let r := fun i =>
      if subtract then subBorrow f.w (subOf f.w a i) (subOf f.w b i) (carryIn cin p i)
      else addCarry f.w (subOf f.w a i) (subOf f.w b i) (carryIn cin p i)
    (perSub f.w fun i => (r i).1, if cout.en then some ⟨cout.p, f.n, 0, bitsOf f.n fun i => (r i).2⟩ else none)

/-- `lea` (R100): base plus an operand scaled by 2^shift, modulo 2^64. -/
def leaWord (shift : Nat) (a b : W64) : W64 := a + b <<< shift

/-- The sum of `dot4` or `sad` over the four bytes of a 32-bit sub-element (R101). -/
def byteSum (sad : Bool) (k : Kind) (a b : Nat) : Int :=
  (List.range 4).foldl (fun acc i =>
    let x := kindInt k 8 (a / 256 ^ i % 256)
    let y := kindInt k 8 (b / 256 ^ i % 256)
    acc + if sad then ((x - y).natAbs : Int) else x * y) 0
/-- `dot4` and `sad` (R101). -/
def laneBytes (sad : Bool) (f : Form) : State → Result :=
  laneWord f 2 f.w f.w f.w f.w noDraw [] fun _ v _ a b c =>
    (perSub 32 fun i => fit f.kind 32 v.pfx.sat (byteSum sad f.kind (subOf 32 a i) (subOf 32 b i) + kindInt f.kind 32 (subOf 32 c i)), none)

/-- `kcmp` (R130). -/
def kcmpWord (c : Cond) (k : Kind) (w : Nat) (a b : W64) : W64 := maskWord w (cmpBits c k w a b)
/-- `ksel` (R130). -/
def kselWord (w : Nat) (a b c : W64) : W64 := perSub w fun i => if subOf w c i = 0 then subOf w b i else subOf w a i

/-- ADD (R94). -/
def execAdd (f : F32) (s : State) : Result := laneInt .add (form32 .i f) s
/-- ADD_64 (R94). -/
def execAdd64 (f : F64) (s : State) : Result := laneInt .add (form64 f) s
/-- ADD_64I (R94). -/
def execAdd64i (f : F64I) (s : State) : Result := laneInt .add (form64I f) s
/-- SUB (R94). -/
def execSub (f : F32) (s : State) : Result := laneInt .sub (form32 .i f) s
/-- SUB_64 (R94). -/
def execSub64 (f : F64) (s : State) : Result := laneInt .sub (form64 f) s
/-- SUB_64I (R94). -/
def execSub64i (f : F64I) (s : State) : Result := laneInt .sub (form64I f) s
/-- MUL (R94). -/
def execMul (f : F32) (s : State) : Result := laneInt .mul (form32 .i f) s
/-- MUL_64 (R94). -/
def execMul64 (f : F64) (s : State) : Result := laneInt .mul (form64 f) s
/-- MUL_64I (R94). -/
def execMul64i (f : F64I) (s : State) : Result := laneInt .mul (form64I f) s
/-- MULH (R94). -/
def execMulh (f : F32) (s : State) : Result := laneInt .mulh (form32 .i f) s
/-- MULH_64 (R94). -/
def execMulh64 (f : F64) (s : State) : Result := laneInt .mulh (form64 f) s
/-- MULH_64I (R94). -/
def execMulh64i (f : F64I) (s : State) : Result := laneInt .mulh (form64I f) s
/-- MAD (R94). -/
def execMad (f : F64) (s : State) : Result := laneInt .mad (form64 f) s
/-- MIN (R94). -/
def execMin (f : F32) (s : State) : Result := laneInt .min (form32 .i f) s
/-- MIN_64 (R94). -/
def execMin64 (f : F64) (s : State) : Result := laneInt .min (form64 f) s
/-- MIN_64I (R94). -/
def execMin64i (f : F64I) (s : State) : Result := laneInt .min (form64I f) s
/-- MAX (R94). -/
def execMax (f : F32) (s : State) : Result := laneInt .max (form32 .i f) s
/-- MAX_64 (R94). -/
def execMax64 (f : F64) (s : State) : Result := laneInt .max (form64 f) s
/-- MAX_64I (R94). -/
def execMax64i (f : F64I) (s : State) : Result := laneInt .max (form64I f) s
/-- ABS (R94). -/
def execAbs (f : F32) (s : State) : Result := laneInt .abs (form32 .i f) s
/-- ABS_64 (R94). -/
def execAbs64 (f : F64) (s : State) : Result := laneInt .abs (form64 f) s
/-- AND (R94). -/
def execAnd (f : F32) (s : State) : Result := laneInt .and (form32 .i f) s
/-- AND_64 (R94). -/
def execAnd64 (f : F64) (s : State) : Result := laneInt .and (form64 f) s
/-- AND_64I (R94). -/
def execAnd64i (f : F64I) (s : State) : Result := laneInt .and (form64I f) s
/-- OR (R94). -/
def execOr (f : F32) (s : State) : Result := laneInt .or (form32 .i f) s
/-- OR_64 (R94). -/
def execOr64 (f : F64) (s : State) : Result := laneInt .or (form64 f) s
/-- OR_64I (R94). -/
def execOr64i (f : F64I) (s : State) : Result := laneInt .or (form64I f) s
/-- XOR (R94). -/
def execXor (f : F32) (s : State) : Result := laneInt .xor (form32 .i f) s
/-- XOR_64 (R94). -/
def execXor64 (f : F64) (s : State) : Result := laneInt .xor (form64 f) s
/-- XOR_64I (R94). -/
def execXor64i (f : F64I) (s : State) : Result := laneInt .xor (form64I f) s
/-- ANDN (R94). -/
def execAndn (f : F32) (s : State) : Result := laneInt .andn (form32 .i f) s
/-- ANDN_64 (R94). -/
def execAndn64 (f : F64) (s : State) : Result := laneInt .andn (form64 f) s
/-- ANDN_64I (R94). -/
def execAndn64i (f : F64I) (s : State) : Result := laneInt .andn (form64I f) s
/-- SHL (R95). -/
def execShl (f : F32) (s : State) : Result := laneInt .shl (form32 .i f) s
/-- SHL_64 (R95). -/
def execShl64 (f : F64) (s : State) : Result := laneInt .shl (form64 f) s
/-- SHL_64I (R95). -/
def execShl64i (f : F64I) (s : State) : Result := laneInt .shl (form64I f) s
/-- SHR (R95). -/
def execShr (f : F32) (s : State) : Result := laneInt .shr (form32 .i f) s
/-- SHR_64 (R95). -/
def execShr64 (f : F64) (s : State) : Result := laneInt .shr (form64 f) s
/-- SHR_64I (R95). -/
def execShr64i (f : F64I) (s : State) : Result := laneInt .shr (form64I f) s
/-- SAR (R95). -/
def execSar (f : F32) (s : State) : Result := laneInt .sar (form32 .i f) s
/-- SAR_64 (R95). -/
def execSar64 (f : F64) (s : State) : Result := laneInt .sar (form64 f) s
/-- SAR_64I (R95). -/
def execSar64i (f : F64I) (s : State) : Result := laneInt .sar (form64I f) s
/-- ROT (R95). -/
def execRot (f : F32) (s : State) : Result := laneInt .rot (form32 .i f) s
/-- ROT_64 (R95). -/
def execRot64 (f : F64) (s : State) : Result := laneInt .rot (form64 f) s
/-- ROT_64I (R95). -/
def execRot64i (f : F64I) (s : State) : Result := laneInt .rot (form64I f) s
/-- CLZ (R94). -/
def execClz (f : F32) (s : State) : Result := laneInt .clz (form32 .i f) s
/-- CLZ_64 (R94). -/
def execClz64 (f : F64) (s : State) : Result := laneInt .clz (form64 f) s
/-- POPC (R94). -/
def execPopc (f : F32) (s : State) : Result := laneInt .popc (form32 .i f) s
/-- POPC_64 (R94). -/
def execPopc64 (f : F64) (s : State) : Result := laneInt .popc (form64 f) s
/-- BFX (R96). -/
def execBfx (f : F64) (start len : Nat) (s : State) : Result :=
  let g := form64 f
  laneWord g 1 g.w g.w g.w g.w noDraw [] (fun _ _ _ a _ _ => (bfxWord g.kind g.w start len a, none)) s
/-- BFI (R96). -/
def execBfi (f : F64) (start len : Nat) (s : State) : Result :=
  let g := form64 f
  laneWord g 1 g.w g.w g.w g.w noDraw [] (fun _ _ _ a b _ => (bfiWord g.w start len a b, none)) s
/-- SEL (R97). -/
def execSel (f : F64) (q : Nat) (neg : Bool) (s : State) : Result :=
  let g := form64 f
  laneWord g 1 g.w g.w g.w g.w noDraw [q] (fun s _ t a b _ => (selWord g.w (s.readP t q) neg a b, none)) s
/-- CMP (R98). -/
def execCmp (c : Cond) (q : Nat) (f : F32) (s : State) : Result := laneCmp c q (form32 .i f) s
/-- CMP_64 (R98). -/
def execCmp64 (c : Cond) (q : Nat) (f : F64) (s : State) : Result := laneCmp c q (form64 f) s
/-- CMP_64I (R98). -/
def execCmp64i (c : Cond) (q : Nat) (f : F64I) (s : State) : Result := laneCmp c q (form64I f) s
/-- ADDC (R99). -/
def execAddc (f : F64) (cin cout : CarrySel) (s : State) : Result := laneCarry false cin cout (form64 f) s
/-- SUBB (R99). -/
def execSubb (f : F64) (cin cout : CarrySel) (s : State) : Result := laneCarry true cin cout (form64 f) s
/-- MOV (R94). -/
def execMov (f : F32) (s : State) : Result := laneInt .mov (form32 .i f) s
/-- MOV_64 (R94). -/
def execMov64 (f : F64) (s : State) : Result := laneInt .mov (form64 f) s
/-- MOV_64I (R94). -/
def execMov64i (f : F64I) (s : State) : Result := laneInt .mov (form64I f) s
/-- LEA (R100). -/
def execLea (f : F32) (s : State) : Result :=
  laneWord (form32 .i f) 1 64 64 64 64 noDraw [] (fun _ _ _ a b _ => (leaWord 0 a b, none)) s
/-- LEA_64 (R100). -/
def execLea64 (f : F64) (shift : Nat) (s : State) : Result :=
  laneWord (form64 f) 1 64 64 64 64 noDraw [] (fun _ _ _ a b _ => (leaWord shift a b, none)) s
/-- LEA_64I (R100). -/
def execLea64i (f : F64I) (s : State) : Result :=
  laneWord (form64IS f) 1 64 64 64 64 noDraw [] (fun _ _ _ a b _ => (leaWord 0 a b, none)) s
/-- DOT4 (R101). -/
def execDot4 (f : F32) (s : State) : Result := laneBytes false (form32 .i f) s
/-- DOT4_64 (R101). -/
def execDot464 (f : F64) (s : State) : Result := laneBytes false (form64 f) s
/-- SAD (R101). -/
def execSad (f : F32) (s : State) : Result := laneBytes true (form32 .i f) s
/-- SAD_64 (R101). -/
def execSad64 (f : F64) (s : State) : Result := laneBytes true (form64 f) s
/-- KADD (R128). -/
def execKadd (f : F32) (s : State) : Result := uniInt .add (form32 .i f) s
/-- KADD_64 (R128). -/
def execKadd64 (f : F64) (s : State) : Result := uniInt .add (form64 f) s
/-- KADD_64I (R128). -/
def execKadd64i (f : F64I) (s : State) : Result := uniInt .add (form64I f) s
/-- KSUB (R128). -/
def execKsub (f : F32) (s : State) : Result := uniInt .sub (form32 .i f) s
/-- KSUB_64 (R128). -/
def execKsub64 (f : F64) (s : State) : Result := uniInt .sub (form64 f) s
/-- KSUB_64I (R128). -/
def execKsub64i (f : F64I) (s : State) : Result := uniInt .sub (form64I f) s
/-- KMUL (R128). -/
def execKmul (f : F32) (s : State) : Result := uniInt .mul (form32 .i f) s
/-- KMUL_64 (R128). -/
def execKmul64 (f : F64) (s : State) : Result := uniInt .mul (form64 f) s
/-- KMUL_64I (R128). -/
def execKmul64i (f : F64I) (s : State) : Result := uniInt .mul (form64I f) s
/-- KMAD (R128). -/
def execKmad (f : F64) (s : State) : Result := uniInt .mad (form64 f) s
/-- KDIV (R129). -/
def execKdiv (f : F32) (s : State) : Result := uniInt .div (form32 .i f) s
/-- KDIV_64 (R129). -/
def execKdiv64 (f : F64) (s : State) : Result := uniInt .div (form64 f) s
/-- KDIV_64I (R129). -/
def execKdiv64i (f : F64I) (s : State) : Result := uniInt .div (form64I f) s
/-- KMIN (R128). -/
def execKmin (f : F32) (s : State) : Result := uniInt .min (form32 .i f) s
/-- KMIN_64 (R128). -/
def execKmin64 (f : F64) (s : State) : Result := uniInt .min (form64 f) s
/-- KMIN_64I (R128). -/
def execKmin64i (f : F64I) (s : State) : Result := uniInt .min (form64I f) s
/-- KMAX (R128). -/
def execKmax (f : F32) (s : State) : Result := uniInt .max (form32 .i f) s
/-- KMAX_64 (R128). -/
def execKmax64 (f : F64) (s : State) : Result := uniInt .max (form64 f) s
/-- KMAX_64I (R128). -/
def execKmax64i (f : F64I) (s : State) : Result := uniInt .max (form64I f) s
/-- KAND (R128). -/
def execKand (f : F32) (s : State) : Result := uniInt .and (form32 .i f) s
/-- KAND_64 (R128). -/
def execKand64 (f : F64) (s : State) : Result := uniInt .and (form64 f) s
/-- KAND_64I (R128). -/
def execKand64i (f : F64I) (s : State) : Result := uniInt .and (form64I f) s
/-- KOR (R128). -/
def execKor (f : F32) (s : State) : Result := uniInt .or (form32 .i f) s
/-- KOR_64 (R128). -/
def execKor64 (f : F64) (s : State) : Result := uniInt .or (form64 f) s
/-- KOR_64I (R128). -/
def execKor64i (f : F64I) (s : State) : Result := uniInt .or (form64I f) s
/-- KXOR (R128). -/
def execKxor (f : F32) (s : State) : Result := uniInt .xor (form32 .i f) s
/-- KXOR_64 (R128). -/
def execKxor64 (f : F64) (s : State) : Result := uniInt .xor (form64 f) s
/-- KXOR_64I (R128). -/
def execKxor64i (f : F64I) (s : State) : Result := uniInt .xor (form64I f) s
/-- KSHL (R128). -/
def execKshl (f : F32) (s : State) : Result := uniInt .shl (form32 .i f) s
/-- KSHL_64 (R128). -/
def execKshl64 (f : F64) (s : State) : Result := uniInt .shl (form64 f) s
/-- KSHL_64I (R128). -/
def execKshl64i (f : F64I) (s : State) : Result := uniInt .shl (form64I f) s
/-- KSHR (R128). -/
def execKshr (f : F32) (s : State) : Result := uniInt .shr (form32 .i f) s
/-- KSHR_64 (R128). -/
def execKshr64 (f : F64) (s : State) : Result := uniInt .shr (form64 f) s
/-- KSHR_64I (R128). -/
def execKshr64i (f : F64I) (s : State) : Result := uniInt .shr (form64I f) s
/-- KSAR (R128). -/
def execKsar (f : F32) (s : State) : Result := uniInt .sar (form32 .i f) s
/-- KSAR_64 (R128). -/
def execKsar64 (f : F64) (s : State) : Result := uniInt .sar (form64 f) s
/-- KSAR_64I (R128). -/
def execKsar64i (f : F64I) (s : State) : Result := uniInt .sar (form64I f) s
/-- KCMP (R130). -/
def execKcmp (f : F64) (c : Cond) (s : State) : Result :=
  let g := form64 f
  uniWord g 1 g.w g.w g.w (fun _ a b _ => kcmpWord c g.kind g.w a b) s
/-- KSEL (R130). -/
def execKsel (f : F64) (s : State) : Result :=
  let g := form64 f
  uniWord g 1 g.w g.w g.w (fun _ a b c => kselWord g.w a b c) s
/-- KMOV (R128). -/
def execKmov (f : F32) (s : State) : Result := uniInt .mov (form32 .i f) s
/-- KMOV_64 (R128). -/
def execKmov64 (f : F64) (s : State) : Result := uniInt .mov (form64 f) s
/-- KMOV_64I (R128). -/
def execKmov64i (f : F64I) (s : State) : Result := uniInt .mov (form64I f) s
/-- KCLZ (R128). -/
def execKclz (f : F32) (s : State) : Result := uniInt .clz (form32 .i f) s
/-- KCLZ_64 (R128). -/
def execKclz64 (f : F64) (s : State) : Result := uniInt .clz (form64 f) s
/-- KPOPC (R128). -/
def execKpopc (f : F32) (s : State) : Result := uniInt .popc (form32 .i f) s
/-- KPOPC_64 (R128). -/
def execKpopc64 (f : F64) (s : State) : Result := uniInt .popc (form64 f) s
/-- KBFX (R128). -/
def execKbfx (f : F64) (start len : Nat) (s : State) : Result :=
  let g := form64 f
  uniWord g 1 g.w g.w g.w (fun _ a _ _ => bfxWord g.kind g.w start len a) s
/-- KBFI (R128). -/
def execKbfi (f : F64) (start len : Nat) (s : State) : Result :=
  let g := form64 f
  uniWord g 1 g.w g.w g.w (fun _ a b _ => bfiWord g.w start len a b) s
/-- KLEA (R128). -/
def execKlea (f : F32) (s : State) : Result := uniWord (form32 .i f) 1 64 64 64 (fun _ a b _ => leaWord 0 a b) s
/-- KLEA_64 (R128). -/
def execKlea64 (f : F64) (shift : Nat) (s : State) : Result :=
  uniWord (form64 f) 1 64 64 64 (fun _ a b _ => leaWord shift a b) s
/-- KLEA_64I (R128). -/
def execKlea64i (f : F64I) (s : State) : Result := uniWord (form64IS f) 1 64 64 64 (fun _ a b _ => leaWord 0 a b) s

end Sys2Proof.Machine
end

