-- ==== Sys2Proof/Machine/Float.lean ====
section
/-!
DEFINITION. The lane-set float instructions (Table 4.2, R102 to R109). Each is evaluated under R103: input flush, the exact
result, one rounding, overflow and saturation, result flush.
-/
namespace Sys2Proof.Machine

/-- Rows of Table 4.2 that give a float sub-element from sub-elements. -/
inductive FloatOp where
  | add | sub | mul | fma | min | max | div | sqrt | rcp | frnd | fscl
deriving DecidableEq, Repr

/-- `fmin` and `fmax` order −0 below +0 (R104). -/
def FVal.below (a b : FVal) : Bool := a.lt b || (a.eqv b && a.sign && !b.sign)

/-- `fmin` or `fmax` (R104): codes after input flush in, code out before result flush. -/
def minMax (f : Format) (max : Bool) (sm : Sat) (a b : Nat) : Nat :=
  let x := f.toVal a
  let y := f.toVal b
  if x.isNan || y.isNan then f.nan
  else
    let c := if x.below y != max then a else b
    match f.toVal c with
    | .inf n => f.ofInf sm n
    | _ => c

/-- ± m × 2^e rounded to an integral value (R107): the unit of RSR is 1. -/
def FVal.integral (md : Rounding) : FVal → FVal
  | .fin s m e =>
    if 0 ≤ e then .fin s m e
    else
      let d := 2 ^ (-e).toNat
      .fin s (m / d + if md.up s (m / d) (m % d) d then 1 else 0) 0
  | v => v

/-- One sub-element of a float row (R103, R104, R107, R108): codes in, code out. -/
def FloatOp.eval (op : FloatOp) (m : FpMode) (f : Format) (w i : Nat) (a b c : Nat) : Nat :=
  let x := m.operand f a
  let y := m.operand f b
  let out := fun code => f.flush (m.flushOut f) code
  match op with
  | .add => m.result f i (sumVals m.rdn [x, y])
  | .sub => m.result f i (sumVals m.rdn [x, y.neg])
  | .mul => m.result f i (x.mul y)
  | .fma => m.result f i (sumVals m.rdn [x.mul y, m.operand f c])
  | .min => out (minMax f false m.sat (f.flush (m.flushIn f) a) (f.flush (m.flushIn f) b))
  | .max => out (minMax f true m.sat (f.flush (m.flushIn f) a) (f.flush (m.flushIn f) b))
  | .div => out (f.divOf (m.rounding i) m.sat x y)
  | .sqrt => out (f.sqrtOf (m.rounding i) m.sat x)
  | .rcp => out (f.divOf (m.rounding i) m.sat (.fin false 1 0) x)
  | .frnd => m.result f i (x.integral (m.rounding i))
  | .fscl =>
    -- beyond ±5000 the scale changes no rounding of any format
    let k : Int := Max.max (-5000) (Min.min 5000 (signed w b))
    m.result f i (match x with | .fin s n e => .fin s n (e + k) | v => v)

/-- A register of a float row. -/
def FloatOp.word (op : FloatOp) (m : FpMode) (f : Format) (w : Nat) (a b c : W64) : W64 :=
  perSub w fun i => op.eval m f w i (subOf w a i) (subOf w b i) (subOf w c i)

/-- A fixed-latency float word (class F4). -/
def laneFloat (op : FloatOp) (f : Form) : State → Result :=
  laneWord f 4 f.w f.w f.w f.w rsrSources [] fun s v t a b c =>
    ((formatOf f.shape f.kind).elim 0 fun F => op.word (s.fpMode v t f.n) F f.w a b c, none)

/-- A long-latency float word (R108, R109). -/
def longFloat (op : FloatOp) (f : Form) : State → Result :=
  longWord f fun s v t a b => (formatOf f.shape f.kind).elim 0 fun F => op.word (s.fpMode v t f.n) F f.w a b 0

/-- A register of a special function (R109). -/
def specialWord (fn : SpecialFn) (m : FpMode) (f : Format) (w : Nat) (a : W64) : W64 :=
  perSub w fun i => f.flush (m.flushOut f) (fn.eval f m.sat (m.flushIn f) (f.flush (m.flushIn f) (subOf w a i)))

/-- A special function (R109): long-latency, its rounding fixed by Table 4.3. -/
def laneSpecial (fn : SpecialFn) (f : Form) : State → Result :=
  longWord f fun s v t a _ => (formatOf f.shape f.kind).elim 0 fun F => specialWord fn (s.fpMode v t f.n) F f.w a

/-- The truth of `fcmp` per sub-element (R105). -/
def fcmpBits (c : FCond) (m : FpMode) (f : Format) (w : Nat) (a b : W64) : Byte :=
  bitsOf (64 / w) fun i => fcondHolds c (m.operand f (subOf w a i)) (m.operand f (subOf w b i))

/-- `fcmp` (R105). -/
def laneFcmp (c : FCond) (q : Nat) (f : Form) : State → Result :=
  laneWord f 4 f.w f.w f.w f.w noDraw [] fun s v t a b _ =>
    let r := (formatOf f.shape f.kind).elim 0 fun F => fcmpBits c (s.fpMode v t f.n) F f.w a b
    (maskWord f.w r, some ⟨q, f.n, 0, r⟩)

/-- The class of a code (R106). -/
def classOf (f : Format) (code : Nat) : Nat :=
  match f.toVal code with
  | .nan => 1
  | .inf s => if s then 2 else 2 ^ 8
  | .fin s m _ =>
    if m = 0 then (if s then 2 ^ 4 else 2 ^ 5)
    else if f.subnormal code then (if s then 2 ^ 3 else 2 ^ 6)
    else (if s then 2 ^ 2 else 2 ^ 7)

/-- `fclass` (R106): no flush. -/
def laneClass (f : Form) : State → Result :=
  laneWord f 4 f.w f.w f.w f.w noDraw [] fun _ _ _ a _ _ =>
    ((formatOf f.shape f.kind).elim 0 fun F => perSub f.w fun i => classOf F (subOf f.w a i), none)

/-- floor(log2 |a|) as a signed w-bit integer (R107). -/
def exponentOf (w : Nat) : FVal → Nat
  | .fin _ m e => if m = 0 then 2 ^ (w - 1) else unsigned w (e + Nat.log2 m)
  | _ => 2 ^ (w - 1) - 1

/-- `fexp` (R107). -/
def laneExponent (f : Form) : State → Result :=
  laneWord f 4 f.w f.w f.w f.w noDraw [] fun s v t a _ _ =>
    let m := s.fpMode v t f.n
    ((formatOf f.shape f.kind).elim 0 fun F => perSub f.w fun i => exponentOf f.w (m.operand F (subOf f.w a i)), none)

/-- The result format of `fdot2` (R103). -/
def dotFormat : Shape → Format
  | .h => .fp32
  | _ => .fp64

/-- `fdot2` (R103): products of two neighbours and the addend, summed exactly and rounded once; the guard and RSR's
coordinates follow the destination's sub-elements. -/
def laneDot2 (addend : Bool) (f : Form) : State → Result :=
  let wd := 2 * f.w
  laneWord f 4 f.w f.w wd wd rsrSources [] fun s v t a b c =>
    let m := s.fpMode v t (64 / wd)
    let g := dotFormat f.shape
    ((formatOf f.shape f.kind).elim 0 fun F => perSub wd fun j =>
      let p := fun i => (m.operand F (subOf f.w a i)).mul (m.operand F (subOf f.w b i))
      m.result g j (sumVals m.rdn ([p (2 * j), p (2 * j + 1)] ++ if addend then [m.operand g (subOf wd c j)] else [])), none)

/-- FADD (R103). -/
def execFadd (f : F32) (s : State) : Result := laneFloat .add (form32 .f f) s
/-- FADD_64 (R103). -/
def execFadd64 (f : F64) (s : State) : Result := laneFloat .add (form64 f) s
/-- FADD_64I (R103). -/
def execFadd64i (f : F64I) (s : State) : Result := laneFloat .add (form64I f) s
/-- FSUB (R103). -/
def execFsub (f : F32) (s : State) : Result := laneFloat .sub (form32 .f f) s
/-- FSUB_64 (R103). -/
def execFsub64 (f : F64) (s : State) : Result := laneFloat .sub (form64 f) s
/-- FSUB_64I (R103). -/
def execFsub64i (f : F64I) (s : State) : Result := laneFloat .sub (form64I f) s
/-- FMUL (R103). -/
def execFmul (f : F32) (s : State) : Result := laneFloat .mul (form32 .f f) s
/-- FMUL_64 (R103). -/
def execFmul64 (f : F64) (s : State) : Result := laneFloat .mul (form64 f) s
/-- FMUL_64I (R103). -/
def execFmul64i (f : F64I) (s : State) : Result := laneFloat .mul (form64I f) s
/-- FMA (R103). -/
def execFma (f : F64) (s : State) : Result := laneFloat .fma (form64 f) s
/-- FMIN (R104). -/
def execFmin (f : F32) (s : State) : Result := laneFloat .min (form32 .f f) s
/-- FMIN_64 (R104). -/
def execFmin64 (f : F64) (s : State) : Result := laneFloat .min (form64 f) s
/-- FMIN_64I (R104). -/
def execFmin64i (f : F64I) (s : State) : Result := laneFloat .min (form64I f) s
/-- FMAX (R104). -/
def execFmax (f : F32) (s : State) : Result := laneFloat .max (form32 .f f) s
/-- FMAX_64 (R104). -/
def execFmax64 (f : F64) (s : State) : Result := laneFloat .max (form64 f) s
/-- FMAX_64I (R104). -/
def execFmax64i (f : F64I) (s : State) : Result := laneFloat .max (form64I f) s
/-- FCMP (R105). -/
def execFcmp (c : FCond) (q : Nat) (f : F32) (s : State) : Result := laneFcmp c q (form32 .f f) s
/-- FCMP_64 (R105). -/
def execFcmp64 (c : FCond) (q : Nat) (f : F64) (s : State) : Result := laneFcmp c q (form64 f) s
/-- FCMP_64I (R105). -/
def execFcmp64i (c : FCond) (q : Nat) (f : F64I) (s : State) : Result := laneFcmp c q (form64I f) s
/-- FCLASS (R106). -/
def execFclass (f : F32) (s : State) : Result := laneClass (form32 .f f) s
/-- FCLASS_64 (R106). -/
def execFclass64 (f : F64) (s : State) : Result := laneClass (form64 f) s
/-- FDIV (R108). -/
def execFdiv (f : F32) (s : State) : Result := longFloat .div (form32 .f f) s
/-- FDIV_64 (R108). -/
def execFdiv64 (f : F64) (s : State) : Result := longFloat .div (form64 f) s
/-- FDIV_64I (R108). -/
def execFdiv64i (f : F64I) (s : State) : Result := longFloat .div (form64I f) s
/-- FSQRT (R108). -/
def execFsqrt (f : F32) (s : State) : Result := longFloat .sqrt (form32 .f f) s
/-- FSQRT_64 (R108). -/
def execFsqrt64 (f : F64) (s : State) : Result := longFloat .sqrt (form64 f) s
/-- RCP (R109). -/
def execRcp (f : F32) (s : State) : Result := longFloat .rcp (form32 .f f) s
/-- RCP_64 (R109). -/
def execRcp64 (f : F64) (s : State) : Result := longFloat .rcp (form64 f) s
/-- RSQ (R109). -/
def execRsq (f : F32) (s : State) : Result := laneSpecial .rsq (form32 .f f) s
/-- RSQ_64 (R109). -/
def execRsq64 (f : F64) (s : State) : Result := laneSpecial .rsq (form64 f) s
/-- EX2 (R109). -/
def execEx2 (f : F32) (s : State) : Result := laneSpecial .ex2 (form32 .f f) s
/-- EX2_64 (R109). -/
def execEx264 (f : F64) (s : State) : Result := laneSpecial .ex2 (form64 f) s
/-- LG2 (R109). -/
def execLg2 (f : F32) (s : State) : Result := laneSpecial .lg2 (form32 .f f) s
/-- LG2_64 (R109). -/
def execLg264 (f : F64) (s : State) : Result := laneSpecial .lg2 (form64 f) s
/-- SIN (R109). -/
def execSin (f : F32) (s : State) : Result := laneSpecial .sin (form32 .f f) s
/-- SIN_64 (R109). -/
def execSin64 (f : F64) (s : State) : Result := laneSpecial .sin (form64 f) s
/-- COS (R109). -/
def execCos (f : F32) (s : State) : Result := laneSpecial .cos (form32 .f f) s
/-- COS_64 (R109). -/
def execCos64 (f : F64) (s : State) : Result := laneSpecial .cos (form64 f) s
/-- FRND (R107). -/
def execFrnd (f : F32) (s : State) : Result := laneFloat .frnd (form32 .f f) s
/-- FRND_64 (R107). -/
def execFrnd64 (f : F64) (s : State) : Result := laneFloat .frnd (form64 f) s
/-- FSCL (R107). -/
def execFscl (f : F32) (s : State) : Result := laneFloat .fscl (form32 .f f) s
/-- FSCL_64 (R107). -/
def execFscl64 (f : F64) (s : State) : Result := laneFloat .fscl (form64 f) s
/-- FSCL_64I (R107): IMM is read under R70; the scale is the signed integer of its bits. -/
def execFscl64i (f : F64I) (s : State) : Result := laneFloat .fscl (form64I f) s
/-- FEXP (R107). -/
def execFexp (f : F32) (s : State) : Result := laneExponent (form32 .f f) s
/-- FEXP_64 (R107). -/
def execFexp64 (f : F64) (s : State) : Result := laneExponent (form64 f) s
/-- FDOT2 (R103). -/
def execFdot2 (f : F32) (s : State) : Result := laneDot2 false (form32 .f f) s
/-- FDOT2_64 (R103). -/
def execFdot264 (f : F64) (s : State) : Result := laneDot2 true (form64 f) s

end Sys2Proof.Machine
end

