-- ==== Sys2Proof/Machine/Access.lean ====
section
/-!
DEFINITION. One access: a load, a store, an atomic, at the scope home of its page (R119 to R122, R210 to R222, R230 to R244),
and the watchpoints that match it (R325).
-/
namespace Sys2Proof.Machine

/-- Bytes of a shape's sub-element. -/
def widthOf (sh : Shape) : Nat := shapeBits sh / 8

/-- The accessor of a control core: physical addresses at package scope, without a job (R318). -/
def controlAccessor (n : Nat) : Accessor := ⟨97, n / 16, none, none⟩

/-- The page of an access: translated, or the physical address itself for a control core. -/
def State.access (s : State) (u : Accessor) (r : PageRule) (sticky : Bool) (va : Nat) : Except Nat (Page × State) :=
  if u.unit = 97 then
    if inHbm va || inHost va then
      let b := va / 0x10000 * 0x10000
      .ok ({ frame := b, vbase := b, bytes := 0x10000, w0 := 0x1D + (if inHost va then 3 else 2) * 2 ^ 5, w1 := 0 }, s)
    else .error 3
  else s.translate u r sticky va

/-- What an access finds: bytes, that it must wait, that another package must be asked (with what its core's store path holds meanwhile),
or a fault (cause, subcause, address). -/
inductive Found where
  | bytes (l : List Byte) (s : State)
  | wait
  | remote (pkg pa : Nat) (exr : Option Nat) (own : Masked) (s : State)
  | fault (cause sub addr : Nat)

/-- A load's page rule: on an EXR page the width is the element's (R232). -/
def loadRule (width : Nat) : PageRule := { plainRule .read with format := fun p => !p.exr || p.cellBytes == width }
/-- A store's page rule. -/
def storeRule (width : Nat) : PageRule := { plainRule .write with format := fun p => !p.exr || p.cellBytes == width }

/-- Whether an earlier host store of some threads has not been posted (R233). -/
def State.hostStorePending (s : State) (wg : Nat) (tids : List Nat) (seq : Nat) : Bool :=
  s.path.any fun p => p.wg == wg && p.tids.any tids.contains && decide (p.seq < seq) && p.dest == .host && !p.sent

/-- Whether a `fence.io` of some threads holds their host access at `seq`: a host store before the fence that the host has not
acknowledged (R248). -/
def State.ioFenced (s : State) (wg : Nat) (tids : List Nat) (seq : Nat) : Bool :=
  tids.any fun t => (((s.thread? wg t).map (·.fences)).getD []).any fun f => decide (f ≤ seq) &&
    s.path.any fun p => p.wg == wg && p.tids.contains t && decide (p.seq < f) && p.dest == .host

/-- Bytes already had from another package, by virtual address. -/
abbrev Fetched := List (Nat × W64)

/-- The bytes at `va` among those already had, if all are. -/
def Fetched.at (g : Fetched) (va n : Nat) : Option (List Byte) :=
  let l := (List.range n).filterMap fun i => (g.find? (·.1 == va + i)).map fun e => e.2.setWidth 8
  if l.length = n then some l else none

/-- Read core-scope bytes by a unit of a core that goes through no L1: what its core's L1 has written stands first (R210). -/
def State.coreRead (s : State) (core pa n : Nat) : List Byte × State :=
  let r := s.homeRead (some core) pa n
  (r.1.zipIdx.map fun e => match r.2.l1? (l1Key core .home (pa + e.2)) with
    | some b => if b.dirty then b.val else e.1
    | none => e.1, r.2)

/-- The fault of an access that was refused with a code: cause, subcause, address. -/
def faultOf (e va : Nat) : Nat × Nat × Nat := if e = misaligned then (2, 0, va) else (3, e, va)

/-- The accesses of one lane, each checked: their pages, or the fault with the lowest subcause (R254), and the state. -/
def State.accessEach (s : State) (u : Accessor) (sticky : Bool) : List (PageRule × Nat) → Except (Nat × Nat × Nat) (List Page) × State
  | [] => (.ok [], s)
  | (r, va) :: rest =>
    match s.access u r sticky va with
    | .ok (p, t) => let q := t.accessEach u sticky rest; (q.1.map (p :: ·), q.2)
    | .error e =>
      let q := (s.walked u va).accessEach u sticky rest
      (match q.1 with
        | .error f => .error (if f.1 == 2 || (e != misaligned && f.2.1 < e) then f else faultOf e va)
        | .ok _ => .error (faultOf e va), q.2)

/-- Who reads: the core whose store path and L1 it goes through, if any; its workgroup, threads, place in local order and job; whether it
allocates no L1 line; the bytes had from another package, and what the store path held when they were asked for. -/
structure Reader where
  core : Option Nat
  wg   : Nat
  tids : List Nat
  seq  : Nat
  job  : Nat
  nol1 : Bool
  got  : Fetched
  own  : Masked

/-- What a reader's core has in its store path for some bytes, from an address on; none where it must wait (R212, R213). -/
def State.ownBytes (s : State) (r : Reader) (core : Nat) (dest : PathDest) (pa va n : Nat) : Option Masked :=
  (List.range n).mapM fun i => match s.forward core r.wg r.tids dest r.seq (pa + i) with
    | .bits m v => some (va + i, v, m)
    | .wait => none

/-- Bytes with a core's own stores over them. -/
def overBytes (own : Masked) (va : Nat) (l : List Byte) : List Byte :=
  l.zipIdx.map fun e => match own.find? (·.1 == va + e.2) with
    | some o => mergeByte e.1 o.2.1 o.2.2
    | none => e.1

/-- What an element of an EXR page reads as after a store of its bytes (R57, R232). -/
def readback (bytes : Nat) (l : List Byte) : List Byte :=
  leBytes bytes (cellRead (cellFormat bytes) (cellOf ((cellFormat bytes).toVal (leNat l))))

/-- Read bytes of one page from a core's side, past its store path and L1 (R212, R220, R230, R232, R233, R248). -/
def State.readPage (s : State) (p : Page) (r : Reader) (va n : Nat) : Found :=
  let pa := p.pa va
  match r.core with
  | none =>
    match p.home va with
    | .package k =>
      match r.got.at va n with
      | some l => .bytes l s
      | none => .remote k pa (if p.exr then some p.cellBytes else none) [] s
    | .host => .bytes (hostRead s.fresh pa n) s
    | .cell a b => .bytes (leBytes n (cellRead (cellFormat b) (s.cell a))) (s.touch a)
    | d => match d, s.wg? r.wg with
      | .core, some w => let q := s.coreRead w.core pa n; .bytes q.1 q.2
      | _, _ => let q := s.homeRead none pa n; .bytes q.1 q.2
  | some c =>
    match s.ownBytes r c (p.home va) pa va n with
    | none => .wait
    | some own =>
      let take := overBytes own va
      let all := own.all (·.2.2 == 0xFF)
      match p.home va with
      | .package k =>
        let keys := (List.range n).map fun i => l1Key c (.package k) (pa + i)
        if all then .bytes (if p.exr then readback n (take (List.replicate n 0)) else take (List.replicate n 0)) s
        else if let some l := r.got.at va n then .bytes (overBytes r.own va l) s
        else if !p.exr && keys.all (fun k => (s.l1? k).isSome) && Config.choose s.fresh (32 * (pa / 32 * 32) + 3) then
          .bytes (take (keys.map fun k => ((s.l1? k).map (·.val)).getD 0)) s
        else .remote k pa (if p.exr then some p.cellBytes else none) own s
      | .host =>
        if s.hostStorePending r.wg r.tids r.seq || s.ioFenced r.wg r.tids r.seq then .wait else .bytes (hostRead s.fresh pa n) s
      | .cell a b =>
        if all then .bytes (readback n (take (List.replicate n 0))) s
        else let t := s.touch a; .bytes (leBytes n (cellRead (cellFormat b) (t.cell a))) t
      | d =>
        if all then .bytes (take (List.replicate n 0)) s
        else let q := s.l1Read c (d == .core) r.nol1 r.job pa n; .bytes (take q.1) q.2

/-- A plain load of one width (R122, R230, R254). -/
def State.loadAt (s : State) (u : Accessor) (r : Reader) (sticky : Bool) (va width : Nat) : Found :=
  if va % width ≠ 0 then .fault 2 0 va else
  match s.access u (loadRule width) sticky va with
  | .error e => .fault 3 e va
  | .ok (p, t) => t.readPage p r va width

/-- A loaded value extended (R120). -/
def extendLoad (sg : Bool) (width v : Nat) : W64 :=
  if sg then w64 (unsigned 64 (signed (8 * width) (v % 2 ^ (8 * width)))) else w64 v

/-- Send a request to another package; its response carries the tag (R207). -/
def State.request (s : State) (pkg job pa : Nat) (exr : Option Nat) (op : PodOp) (use : RemoteUse) : State :=
  let t : State := { s with remotes := s.remotes ++ [⟨s.seq, pkg, job, use, true⟩] }
  let bulk := match use with
    | .copy .. | .transfer .. => true
    | _ => false
  (t.send (.request pkg ⟨Config.pkg.toNat, job, pa, exr, op, s.seq, bulk⟩)).bump

/-- Send the atomics of some lanes of an operation to another package in one request, which its target performs without a break; each lane
has an answer of its own (R207, R240, R242). -/
def State.requestLanes (s : State) (o : LongOp) (pkg : Nat) (exr : Option Nat) (op : List PodLane → PodOp) (lanes : List (Nat × PodLane)) : State :=
  let tagged := lanes.zipIdx.map fun e => (e.1.1, { e.1.2 with tag := s.seq + e.2 })
  let t : State := { s with remotes := s.remotes ++ tagged.map fun e => ⟨e.2.tag, pkg, o.job, .op o.id e.1, true⟩, seq := s.seq + lanes.length }
  t.send (.request pkg ⟨Config.pkg.toNat, o.job, ((lanes.head?).map (·.2.pa)).getD 0, exr, op (tagged.map (·.2)), s.seq, false⟩)

/-! ### Stores -/

/-- A byte that a store writes: where it lands, its physical and virtual address, its value under the bits written, and on an EXR page of
another package the element's width. -/
structure Piece where
  dest : PathDest
  pa   : Nat
  va   : Nat
  val  : Byte
  mask : Byte
  exr  : Option Nat
deriving DecidableEq, Repr

/-- The pieces of a value stored at a virtual address of a page; `mask` is the bits that each byte writes. -/
def Page.piecesOf (p : Page) (va width v : Nat) (mask : Byte) : List Piece :=
  (leBytes width v).zipIdx.map fun e => ⟨p.home va, p.pa va + e.2, va + e.2, e.1, mask, if p.exr then some p.cellBytes else none⟩

/-- The pieces of a value stored whole. -/
def Page.pieces (p : Page) (va width v : Nat) : List Piece := p.piecesOf va width v 0xFF

/-- The pieces of one lane's store, or its fault (R122, R230, R254). -/
def State.storeAt (s : State) (u : Accessor) (va width v : Nat) : Except (Nat × Nat × Nat) (List Piece × State) :=
  if va % width ≠ 0 then .error (2, 0, va) else
  match s.access u (storeRule width) false va with
  | .error e => .error (3, e, va)
  | .ok (p, t) => .ok (p.pieces va width v, t)

/-- Destinations of some pieces, each once. -/
def destsOf : List Piece → List PathDest
  | [] => []
  | p :: r => if (destsOf r).contains p.dest then destsOf r else p.dest :: destsOf r

/-- What some threads write with one step of a store: the threads, and their pieces. -/
abbrev Written := List (List Nat × List Piece)

/-- Put the pieces of one store instruction for one destination into a core's store path, one entry per sector, merged so that the
highest lane's value stands in each bit (R211, R216, R234). -/
def State.storePath (s : State) (core wg job : Nat) (after : List Nat) (dest : PathDest) (lanes : Written) : State :=
  let all := lanes.flatMap (·.2)
  let l := overlay (lanes.flatMap fun e => e.2.map fun p => ⟨p.pa, p.val, p.mask, e.1⟩)
  { s with path := s.path ++ (sectorsOf l.length l).map fun b =>
      let first := all.find? fun p => (b.head?.map (·.pa)) == some p.pa
      { seq := s.seq, core, wg, tids := (lanes.filter fun e => e.2.any fun p => b.any (·.pa == p.pa)).flatMap (·.1), job, dest, bytes := b
        after, sent := false, tag := 0, exr := first.bind (·.exr), va := (first.map (·.va)).getD 0
        pc := (s.turn.map (·.pc)).getD 0, stepped := s.jobFrozenAt job s.cyc } }

/-- Put one store instruction's pieces, in lane order, into the store path of its core (R211, R216, R234). -/
def State.storeAll (s : State) (core wg job : Nat) (after : List Nat) (lanes : Written) : State :=
  let all := lanes.flatMap (·.2)
  ((destsOf all).foldl (fun s d =>
    s.storePath core wg job after d (lanes.map fun l => (l.1, l.2.filter (·.dest == d)))) s).bump

/-- Write some pieces at their homes at once: the stores of a unit without a store path (Table 8.3). Core-scope bytes land in the L1 of
the unit's core, `core` with its workgroup. -/
def State.storeNow (s : State) (core : Option (Nat × Nat)) (job : Nat) (use : RemoteUse) (l : List Piece) : State :=
  (destsOf l).foldl (fun s d =>
    let b := (l.filter (·.dest == d)).map fun p => (p.pa, p.val)
    match d, core with
    | .host, _ => s.send (.hostWrite b)
    | .package k, _ => s.request k job ((b.map (·.1)).head?.getD 0) ((l.find? (·.dest == d)).bind (·.exr)) (.write (whole b)) use
    | .cell a w, _ => (s.touch a).setCell a (cellOf ((cellFormat w).toVal (leNat (b.map (·.2)))))
    | .core, some c => s.l1Write c.1 job c.2 (whole b)
    | _, _ => s.homeWrite b) s

/-! ### Atomics -/

/-- The new value of a location (Table 9.3): old value, operand, comparand as codes of `w` bits. -/
def atomNew (op : AtomOp) (sh : Shape) (k : Kind) (m b c : Nat) : Nat :=
  let w := shapeBits sh
  let f := (formatOf sh k).getD .fp32
  match op with
  | .add => (m + b) % 2 ^ w
  | .min => if kindInt k w m ≤ kindInt k w b then m else b
  | .max => if kindInt k w m ≤ kindInt k w b then b else m
  | .and => m &&& b
  | .or => m ||| b
  | .xor => m ^^^ b
  | .swap => b
  | .cas => if m = c then b else m
  | .inc => if b ≤ m then 0 else m + 1
  | .fadd => f.rneOf (sumVals false [f.toVal m, f.toVal b])
  | .fmin => minMax f false .off m b
  | .fmax => minMax f true .off m b

/-- The page rule of `atom` and `katom` (R241). -/
def atomRule (op : AtomOp) : PageRule :=
  { need := .atomic, physical := fun p => p.share != 3 || !inHost p.frame || op == .add || op == .swap || op == .cas
    format := fun p => !p.exr, aligned := fun _ => true }
/-- The page rule of `atomx` (R244). -/
def atomxRule (bytes : Nat) : PageRule := { plainRule .atomic with format := fun p => p.exr && p.cellBytes == bytes }

/-- The old value of an atomic's location and the state after it, or none when it travels to another package. `core` is the core whose L1
the unit goes through, `near` the one on which it runs, with its workgroup: the home of a core-scope page (R210). -/
def State.atomHere (s : State) (p : Page) (core : Option Nat) (near : Option (Nat × Nat)) (job : Nat) (op : AtomOp) (sh : Shape) (k : Kind) (va b c : Nat) :
    Option (Nat × State) :=
  let n := widthOf sh
  let pa := p.pa va
  let apply := fun (m : Nat) => atomNew op sh k m (b % 2 ^ (8 * n)) (c % 2 ^ (8 * n))
  let out := fun (m : Nat) => (leBytes n (apply m)).zipIdx.map fun (e : Byte × Nat) => (pa + e.2, e.1)
  match p.home va, near with
  | .package _, _ => none
  | .host, _ => some (leNat (hostRead s.fresh pa n), s.send (.hostAtomic pa op n b c))
  | .core, some cr =>
    let r := s.l1Read cr.1 true false job pa n
    some (leNat r.1, r.2.l1Write cr.1 job cr.2 (whole (out (leNat r.1))))
  | d, _ =>
    let r := s.homeRead core pa n
    let t := r.2.homeWrite (out (leNat r.1))
    some (leNat r.1, match core with
      | some cr => t.l1Update cr d (whole (out (leNat r.1)))
      | none => t)

/-- The readback of a cell and the state after `atomx`, or none when it travels to another package (R56, R57, R244). -/
def State.atomxHere (s : State) (p : Page) (clear : Bool) (va : Nat) (x : FVal) : Option (Nat × State) :=
  match p.home va with
  | .cell a n =>
    let t := s.touch a
    some (cellRead (cellFormat n) (t.cell a), t.setCell a (if clear then 0 else cellAdd (t.cell a) x))
  | _ => none

/-! ### Watchpoints (R325) -/

/-- Whether a watchpoint matches an access of a kind (0 read, 1 write, 2 atomic) in a job. -/
def Watchpoint.hits (w : Watchpoint) (job kind va n : Nat) : Bool :=
  w.ctl.getLsbD (3 + kind) && fld w.ctl.toNat 32 32 == job && decide (w.base.toNat < va + n) && decide (va ≤ w.limit.toNat)

/-- The accesses of one instruction: lane, address, bytes. -/
abbrev Watched := List (Nat × Nat × Nat)

/-- Count the hits of watchpoints whose action is 000. -/
def State.countWatch (s : State) (job kind : Nat) (l : Watched) : State :=
  { s with wpts := s.wpts.map fun w =>
      if fld w.ctl.toNat 0 3 == 0 then
        { w with count := w.count + w64 (l.filter fun a => w.hits job kind a.2.1 a.2.2).length }
      else w }

/-- The watchpoint that stops an instruction: its number and action, the strongest action first, then the lowest number. -/
def State.watchHit (s : State) (job kind : Nat) (l : Watched) : Option (Nat × Nat) :=
  let hits := (s.wpts.zipIdx.filter fun w =>
    decide (0 < fld w.1.ctl.toNat 0 3) && decide (fld w.1.ctl.toNat 0 3 < 5) && l.any fun a => w.1.hits job kind a.2.1 a.2.2).map
    fun w => (w.2, fld w.1.ctl.toNat 0 3)
  hits.foldl (fun best h => match best with
    | none => some h
    | some b => if b.2 < h.2 then some h else some b) none

/-- Match an instruction's accesses before any lane is performed: the state with hits counted, or stopped. The event's address is that
of the lowest lane's access that matched (Table 17.9). -/
def State.watch (s : State) (v : View) (kind : Nat) (l : Watched) : State × Bool :=
  if v.g.skipWatch then (s, false) else
  let s := s.countWatch v.leaf.job kind l
  match s.watchHit v.leaf.job kind l with
  | none => (s, false)
  | some (n, act) =>
    let hit := l.filter fun a => ((s.wpts[n]?).map fun w => w.hits v.leaf.job kind a.2.1 a.2.2).getD false
    let s := s.mapGroup v.g.id fun g => { g with skipWatch := true }
    (s.debugStop v.g v.wg 0x0D kind n ((hit.head?.map (·.2.1)).getD 0) v.turn.pc (hit.map (·.1)) act 2, true)

end Sys2Proof.Machine
end

