-- ==== Sys2Proof/Machine/Convert.lean ====
section
/-!
DEFINITION. Conversion and packing (Table 4.4, R110 to R118): `cvt`, `pk`, `upk`, `swz`, `bcs`, `rng`, `qnt`, `dqn`. All
have latency F2.
-/
namespace Sys2Proof.Machine

/-- Sub-element width of the guard: the two halves of a byte share a guard bit (R110). -/
def guardWidth (w : Nat) : Nat := if w = 4 then 8 else w

/-- The placement of R111: results by part, C where the part leaves sub-elements alone. `conv` takes the destination's
sub-element number and a source code. -/
def placed (ws wd h : Nat) (conv : Nat → Nat → Nat) (a c : W64) : W64 :=
  let es := 64 / ws
  let ed := 64 / wd
  perSub wd fun i =>
    if es ≤ ed then
      if h * es ≤ i && i < h * es + es then conv i (subOf ws a (i - h * es)) else subOf wd c i
    else conv i (subOf ws a (h * ed + i))

/-- A float value to an integer (R54): rounded by the mode, clamped whatever the saturation code. -/
def floatToInt (k : Kind) (w : Nat) (md : Rounding) (v : FVal) : Nat :=
  let big : Int := 2 ^ 400
  match v with
  | .nan => 0
  | .inf s => fit k w .sat (if s then -big else big)
  | v => match v.integral md with
    | .fin s m e => let n : Int := (m * 2 ^ e.toNat : Nat); fit k w .sat (if s then -n else n)
    | _ => 0

/-- A kind's integer as a value. -/
def intVal (v : Int) : FVal := .fin (decide (v < 0)) v.natAbs 0

/-- One sub-element of `cvt` (R112). -/
def convertCode (m : FpMode) (ss : Shape) (sk : Kind) (ds : Shape) (dk : Kind) (i code : Nat) : Nat :=
  let ws := elemBits ss sk
  let wd := elemBits ds dk
  match formatOf ss sk, formatOf ds dk with
  | some f, some g => m.result g i (m.operand f code)
  | some f, none => floatToInt dk wd (m.rounding i) (m.operand f code)
  | none, some g => m.result g i (intVal (kindInt sk ws code))
  | none, none => fit dk wd m.sat (kindInt sk ws code)

/-- CVT (R112). -/
def execCvt (f : F64) (cm : CvtMod) (s : State) : Result :=
  let g := form64 f
  let wd := elemBits f.shape f.kind
  let ws := elemBits cm.shape cm.kind
  laneWord g 2 ws wd wd (guardWidth wd) rsrSources [] (fun s v t a _ c =>
    (placed ws wd cm.part (convertCode (s.fpMode v t (64 / wd)) cm.shape cm.kind f.shape f.kind) a c, none)) s

/-- `pk` (R113). -/
def lanePk (f : Form) : State → Result :=
  let h := f.w / 2
  laneWord f 2 f.w f.w f.w h noDraw [] fun _ v _ a b _ =>
    (perSub h fun i => fit f.kind h v.pfx.sat
      (kindInt f.kind f.w (if i < f.n then subOf f.w a i else subOf f.w b (i - f.n))), none)
/-- PK (R113). -/
def execPk (f : F32) (s : State) : Result := lanePk (form32 .i f) s
/-- PK_64 (R113). -/
def execPk64 (f : F64) (s : State) : Result := lanePk (form64 f) s

/-- `upk` (R113). -/
def laneUpk (half : Nat) (f : Form) : State → Result :=
  let h := f.w / 2
  laneWord f 2 f.w f.w f.w f.w noDraw [] fun _ _ _ a _ _ =>
    (perSub f.w fun i => unsigned f.w (kindInt f.kind h (subOf h a (half * f.n + i))), none)
/-- UPK (R113). -/
def execUpk (f : F32) (half : Nat) (s : State) : Result := laneUpk half (form32 .i f) s
/-- UPK_64 (R113). -/
def execUpk64 (f : F64) (half : Nat) (s : State) : Result := laneUpk half (form64 f) s

/-- `swz` (R114). -/
def swzWord (a b c : W64) : W64 :=
  perSub 8 fun j =>
    let sel := subOf 8 b j
    if 128 ≤ sel then 0 else if sel % 16 < 8 then subOf 8 a (sel % 16) else subOf 8 c (sel % 16 - 8)
/-- `swz`. -/
def laneSwz (f : Form) : State → Result :=
  laneWord f 2 8 8 8 8 noDraw [] fun _ _ _ a b c => (swzWord a b c, none)
/-- SWZ (R114). -/
def execSwz (f : F32) (s : State) : Result := laneSwz (form32 .i f) s
/-- SWZ_64 (R114). -/
def execSwz64 (f : F64) (s : State) : Result := laneSwz (form64 f) s

/-- Bits of `a` under the mask `b`, from position `i`, `n` positions left, `k` the next packed position (R115). -/
def bcsBits (deposit : Bool) (a b : Nat) : Nat → Nat → Nat → Nat
  | 0, _, _ => 0
  | n + 1, i, k =>
    if b.testBit i then
      (if deposit then (if a.testBit k then 2 ^ i else 0) else if a.testBit i then 2 ^ k else 0) + bcsBits deposit a b n (i + 1) (k + 1)
    else bcsBits deposit a b n (i + 1) k
/-- `bcs` (R115). -/
def laneBcs (deposit : Bool) (f : Form) : State → Result :=
  laneWord f 2 f.w f.w f.w f.w noDraw [] fun _ _ _ a b _ =>
    (perSub f.w fun i => bcsBits deposit (subOf f.w a i) (subOf f.w b i) f.w 0 0, none)
/-- BCS (R115). -/
def execBcs (f : F32) (s : State) : Result := laneBcs false (form32 .i f) s
/-- BCS_64 (R115). -/
def execBcs64 (f : F64) (deposit : Bool) (s : State) : Result := laneBcs deposit (form64 f) s

/-- The result of `rng` from a drawn value (R116). -/
def rngCode (s : Shape) (k : Kind) (out : Nat) : Nat :=
  match formatOf s k with
  | none => out / 2 ^ (64 - shapeBits s)
  | some f => f.rneOf (.fin false (out / 2 ^ (63 - f.frac)) (-(f.frac + 1 : Nat)))
/-- `rng` (R116). -/
def laneRng (f : Form) : State → Result :=
  laneWord f 2 64 64 64 f.w (fun _ => [.k 61, .k 62, .k 63]) [] fun s v t a b _ =>
    let base := s.readK v 61 + a + w64 ((v.wg.w * v.leaf.wgsz + t.tid) * f.n)
    (perSub f.w fun i => rngCode f.shape f.kind (ch64 (s.readK v 62) (b.setWidth 32) (base + w64 i)).toNat, none)
/-- RNG (R116). -/
def execRng (f : F32) (s : State) : Result := laneRng (form32 .i f) s
/-- RNG_64 (R116). -/
def execRng64 (f : F64) (s : State) : Result := laneRng (form64 f) s

/-- The scale byte of `qnt` in scale mode (R117). -/
def scaleOf (m : FpMode) (k : Kind) (v : FVal) : Nat :=
  match v with
  | .fin _ n e =>
    if n = 0 then 0
    else if k == .e2 then
      let p := dyadic n e
      Format.e3m5.flush (m.flushOut .e3m5) (Min.min 0xFE (Format.e3m5.roundCode ⟨.rup, 0⟩ false p.1 (6 * p.2)))
    else
      let x : Int := e + Nat.log2 n - (if k == .e4 then 8 else 15) + 127
      (Max.max 0 (Min.min 254 x)).toNat
  | _ => 0xFF

/-- An element quantised under a scale byte (R117): none where every element is code 0. -/
def quantised (m : FpMode) (f : Format) (i sc : Nat) (x : FVal) : Nat :=
  if f == .e2m1 then
    match m.operand .e3m5 sc with
    | .fin _ n e => if n = 0 then 0 else f.flush (m.flushOut f) (f.divOf (m.rounding i) m.sat x (.fin false n e))
    | _ => 0
  else match e8m0Exp sc with
    | some e => m.result f i (match x with | .fin s n d => .fin s n (d - e) | v => v)
    | none => 0

/-- QNT (R117). -/
def execQnt (f : F64) (cm : CvtMod) (scale : Bool) (s : State) : Result :=
  let g := form64 f
  let wd := if scale then 8 else elemBits f.shape f.kind
  let ws := elemBits cm.shape cm.kind
  laneWord g 2 ws 64 wd 8 (if scale then noDraw else rsrSources) [] (fun s v t a b c =>
    let m := s.fpMode v t (64 / wd)
    match formatOf cm.shape cm.kind, formatOf f.shape f.kind with
    | some fs, some fd =>
      (placed ws wd cm.part (fun i code =>
        let x := m.operand fs code
        if scale then scaleOf m f.kind x else quantised m fd i (subOf 8 b 0) x) a c, none)
    | _, _ => (0, none)) s

/-- A block-scaled element times its scales (R45): code, scale byte, and band scale if one applies. -/
def scaledVal (m : FpMode) (f : Format) (code sc : Nat) (band : Option Nat) : FVal :=
  let x := m.operand f code
  let x := if f == .e2m1 then x.mul (m.operand .e3m5 sc) else x.scaleE8 sc
  match band with
  | some b => x.mul (m.operand .bf16 b)
  | none => x

/-- DQN (R118). -/
def execDqn (f : F64) (cm : CvtMod) (band : Bool) (s : State) : Result :=
  let g := form64 f
  let ws := elemBits cm.shape cm.kind
  laneWord g 2 ws 64 (if band then 64 else g.w) g.w rsrSources [] (fun s v t a b c =>
    let m := s.fpMode v t g.n
    match formatOf cm.shape cm.kind, formatOf f.shape f.kind with
    | some fs, some fd =>
      (placed ws g.w cm.part (fun i code =>
        m.result fd i (scaledVal m fs code (subOf 8 b 0) (if band then some (subOf 16 c 0) else none))) a 0, none)
    | _, _ => (0, none)) s

end Sys2Proof.Machine
end

