-- ==== Sys2Proof/Machine/MemoryIssue.lean ====
section
/-!
DEFINITION. The memory instructions at issue (R119 to R122, R131, R174, R229 to R252): operands, checks made before anything is
performed, the operations that wait for their completion, and the stores and copies that begin.
-/
namespace Sys2Proof.Machine

/-- The lanes that make an access: guard bit 0 (R229). -/
def State.accessing (s : State) (v : View) (g : Option Guard) : List Thread := v.threads.filter fun t => (s.guard v g t).getLsbD 0

/-- Addresses of the 32, 64 and 64i forms (Table 4.5). -/
inductive Address where
  | scaled (off : Int) | indexed (shift : Nat) | plain
deriving DecidableEq, Repr

/-- The address formed from a base and an index or IMM, modulo 2^64 (R119). -/
def Address.of (a : Address) (width : Nat) (base b : W64) : Nat :=
  match a with
  | .scaled o => (base + w64 (unsigned 64 (o * width))).toNat
  | .indexed k => (base + b * w64 (2 ^ k)).toNat
  | .plain => (base + b).toNat

/-- A lane's address. -/
def State.laneAddress (s : State) (v : View) (a : Address) (f : Form) (t : Thread) : Nat :=
  a.of (widthOf f.shape) (s.source v t 64 f.a) (s.operandB v t 64 f)

/-- The lane accesses that a watchpoint sees. -/
def watched (n : Nat) (l : List (Thread × Nat)) : Watched := l.map fun e => (e.1.tid % 32, e.2, n)

/-- The boundaries a thread's next access waits for (Tables 8.1, 8.4). -/
def Thread.heldBy (t : Thread) (load : Bool) : List Nat := t.gates ++ if load then t.waits else []

/-! ### Loads -/

/-- A load of each lane whose guard bit 0 is on (R120). -/
def laneLoad (a : Address) (nol1 : Bool) (f : Form) (s : State) : Result :=
  withLanes f.guard [f.a, f.b] [] f.d true s fun v s =>
    let ls := (s.accessing v f.guard).map fun t => (t, s.laneAddress v a f t)
    let n := widthOf f.shape
    let (s, stop) := s.watch v 0 (watched n ls)
    if stop then .next s else
    .next (ls.foldl (fun s e =>
      s.issueOp v (.load e.2 n (f.kind == .i) nol1) f.d [e.1.tid] [e.1.tid] (e.1.heldBy true) true) (s.beginOrdinal v.g.id))

/-- The form of a 64i memory instruction: IMM is sign-extended (R119). -/
def memForm (f : F64I) : Form := form64IS f

/-- LD (R230). -/
def execLd (f : F32) (off : Int) (s : State) : Result := laneLoad (.scaled off) false (form32 .i f) s
/-- LD_64 (R230). -/
def execLd64 (f : F64) (m : MemMod) (s : State) : Result := laneLoad (.indexed m.shift) (m.l1h == .nol1) (form64 f) s
/-- LD_64I (R230). -/
def execLd64i (f : F64I) (s : State) : Result := laneLoad .plain false (memForm f) s

/-- Whether a `cwait` holds the later memory instructions of some threads (R251). -/
def State.copyHeld (s : State) (v : View) : Bool :=
  s.ops.any fun o => o.wg == v.wg.id && (match o.kind with | .cwait _ => true | _ => false) && v.threads.any fun t => o.present.contains t.tid

/-- The bytes of a workgroup's scratchpad as a number. -/
def Workgroup.scrNat (w : Workgroup) (off n : Nat) : Nat := leNat (sgetAll 0 w.scr off n)

/-- `lds` of each lane whose guard bit 0 is on (R235): the bytes are those of its place in local order; a `cwait` holds it (R251). -/
def laneLds (a : Address) (f : Form) (s : State) : Result :=
  withLanes f.guard [f.a, f.b] [] f.d true s fun v s =>
    if s.copyHeld v then holdWord s else
    let n := widthOf f.shape
    .next ((s.accessing v f.guard).foldl (fun s t =>
      let off := s.laneAddress v a f t
      let x := if off + n ≤ v.leaf.scratch then v.wg.scrNat off n else 0
      s.issueOp v (.lds off n (f.kind == .i) x) f.d [t.tid] [t.tid] [] true) (s.beginOrdinal v.g.id))
/-- LDS (R235). -/
def execLds (f : F32) (off : Int) (s : State) : Result := laneLds (.scaled off) (form32 .i f) s
/-- LDS_64 (R235). -/
def execLds64 (f : F64) (shift : Nat) (s : State) : Result := laneLds (.indexed shift) (form64 f) s
/-- LDS_64I (R235). -/
def execLds64i (f : F64I) (s : State) : Result := laneLds .plain (memForm f) s

/-! ### Stores -/

/-- A data source written in a destination field of a 32-bit form (Table 4.5). -/
def dataSrc : Dst → Src
  | .x n => .x n | .k n => .k n | .o n => .o n | .none => .zero

/-- A 64-bit form whose D8 is a data source. -/
def formS (f : F64S) : Form := ⟨f.shape, f.kind, .none, f.a, f.b, f.c, f.guard, none⟩
/-- A 64i form whose D8 is a data source. -/
def formIS (f : F64IS) : Form := ⟨f.shape, f.kind, .none, f.a, .zero, .zero, none, some (immSigned f.imm)⟩
/-- A 64i form whose IMM is zero-extended (R237, R238). -/
def formZ (sh : Shape) (k : Kind) (d : Dst) (a : Src) (imm : Nat) : Form := ⟨sh, k, d, a, .zero, .zero, none, some (w64 imm)⟩

/-- What a lane's checks at issue find: the value it goes on with, or a fault (cause, subcause, address). -/
abbrev Checked (α : Type) := Except (Nat × Nat × Nat) (α × State)

/-- The state after an access of some workgroup's thread has met a fault: where its translation failed, its walk has been made (R204). -/
def State.faultWalk (s : State) (w : Workgroup) (e : Nat × Nat × Nat) : State := if e.1 = 3 then s.walked (s.wgAccessor w) e.2.2 else s

/-- Check some lanes of a workgroup in lane order: those that pass, and the faults of those that do not. -/
def checkLanes {α : Type} (s : State) (w : Workgroup) (one : State → Thread → Checked α) :
    List Thread → List (Thread × α) × List (Nat × Nat × Nat × Nat) × State
  | [] => ([], [], s)
  | t :: r =>
    match one s t with
    | .ok (a, s') => let q := checkLanes s' w one r; ((t, a) :: q.1, q.2.1, q.2.2)
    | .error e => let q := checkLanes (s.faultWalk w e) w one r; (q.1, (t.tid % 32, e) :: q.2.1, q.2.2)

/-- The trap of the lowest lane that failed, with every lane that failed in the same way (R189, R317). -/
def State.trapLanes (s : State) : List (Nat × Nat × Nat × Nat) → State
  | [] => s
  | (l, c, e, a) :: r => s.trapHere c e 0 a (l :: (r.filter fun x => x.2.1 == c && x.2.2.1 == e).map (·.1))

/-- The lanes that have accessed memory when another lane's fault is delivered: any of them (R254). -/
def State.landed {α : Type} (s : State) (l : List (Thread × α)) : List (Thread × α) := l.filter fun e => Config.choose s.fresh (32 * e.1.tid + 6)

/-- Issue a store instruction: every lane is checked; where some fault, which of the others write is open (R254). -/
def State.storeLanes (s : State) (v : View) (kind : Nat) (seen : Watched) (ts : List Thread)
    (one : State → Thread → Checked (List Piece)) : Result :=
  let (s, stop) := s.watch v kind seen
  if stop then .next s else
  let (ok, bad, s) := checkLanes s v.wg one ts
  let gates := ok.flatMap fun e => e.1.gates
  let put := fun (s : State) l => s.storeAll v.wg.core v.wg.id v.leaf.job gates (l.map fun (e : Thread × List Piece) => ([e.1.tid], e.2))
  if bad.isEmpty then .next (put s ok) else .next ((put s (s.landed ok)).trapLanes bad)

/-- `st` of each lane whose guard bit 0 is on (R120, R230). -/
def laneStore (a : Address) (data : Src) (f : Form) (s : State) : Result :=
  withLanes f.guard [f.a, f.b, data] [] .none false s fun v s =>
    let ts := s.accessing v f.guard
    let n := widthOf f.shape
    let s0 := s
    s.storeLanes v 1 (watched n (ts.map fun t => (t, s0.laneAddress v a f t))) ts fun s t =>
      s.storeAt (s.wgAccessor v.wg) (s0.laneAddress v a f t) n (s0.source v t f.w data).toNat

/-- ST (R230). -/
def execSt (f : F32) (off : Int) (s : State) : Result := laneStore (.scaled off) (dataSrc f.d) (form32 .i f) s
/-- ST_64 (R230). -/
def execSt64 (f : F64S) (m : MemMod) (s : State) : Result := laneStore (.indexed m.shift) f.data (formS f) s
/-- ST_64I (R230). -/
def execSt64i (f : F64IS) (s : State) : Result := laneStore .plain f.data (formIS f) s

/-- The misaligned and range checks of a scratchpad access (R235, R236). -/
def scratchFault (share off n : Nat) : Option (Nat × Nat × Nat) :=
  if off % n ≠ 0 then some (2, 0, off) else if share < off + n then some (4, 0, off) else none

/-- Source bytes of a thread's copy read from the scratchpad now, those not yet read whose 32-byte sector `p` selects (R250). -/
def Copy.readSource (c : Copy) (scr : Sparse Byte) (p : Nat → Bool) : Copy :=
  { c with kind := match c.kind with
      | .out t d o b n src l fl =>
        .out t d o b n (src.zipIdx.map fun e => if e.1.isNone && p ((o + e.2) / 32) then some (sget 0 scr (o + e.2)) else e.1) l fl
      | k => k }

/-- Whether a thread's copy still has source bytes to read. -/
def Copy.unread (c : Copy) : Bool := match c.kind with
  | .out _ _ _ _ _ src _ fl => fl.isNone && src.any (·.isNone)
  | _ => false

/-- Write scratchpad bytes of a workgroup. A copy that has still to read a sector of them has read it before, or reads it later, whole (R250). -/
def State.scrWrite (s : State) (wg : Nat) (l : List (Nat × Byte)) : State :=
  match s.wg? wg with
  | none => s
  | some w =>
    let read := fun (c : Copy) => if c.wg == wg && s.clear c.after then
        c.readSource w.scr fun k => l.any (·.1 / 32 == k) && Config.choose s.fresh (32 * (c.id * 32768 + k) + 10) else c
    ({ s with copies := s.copies.map read } : State).mapWg wg fun w =>
      { w with scr := ssetEach 0 w.scr l, upsets := w.upsets.filter fun u => !l.any fun e => u == .scr e.1 }

/-- Whether a `fence.sp` holds the `sts` of some threads: an earlier copy of theirs has not read all of its source (R248). -/
def State.spFenced (s : State) (ts : List Thread) : Bool := ts.any fun t => s.copies.any fun c => t.spFence.contains c.id && c.unread

/-- `sts` of each lane whose guard bit 0 is on (R234, R235); a `cwait` or `fence.sp` holds it (R248, R251). -/
def laneSts (a : Address) (data : Src) (f : Form) (s : State) : Result :=
  withLanes f.guard [f.a, f.b, data] [] .none false s fun v s =>
    if s.copyHeld v || s.spFenced v.threads then holdWord s else
    let n := widthOf f.shape
    let (ok, bad, s) := checkLanes s v.wg (fun s t =>
      let off := s.laneAddress v a f t
      match scratchFault v.leaf.scratch off n with
      | some e => .error e
      | none => .ok ((off, (s.source v t f.w data).toNat), s)) (s.accessing v f.guard)
    let put := fun (s : State) l => s.scrWrite v.wg.id (l.flatMap fun (e : Thread × Nat × Nat) =>
      (leBytes n e.2.2).zipIdx.map fun b => (e.2.1 + b.2, b.1))
    if bad.isEmpty then .next (put s ok) else .next ((put s (s.landed ok)).trapLanes bad)
/-- STS (R235). -/
def execSts (f : F32) (off : Int) (s : State) : Result := laneSts (.scaled off) (dataSrc f.d) (form32 .i f) s
/-- STS_64 (R235). -/
def execSts64 (f : F64S) (shift : Nat) (s : State) : Result := laneSts (.indexed shift) f.data (formS f) s
/-- STS_64I (R235). -/
def execSts64i (f : F64IS) (s : State) : Result := laneSts .plain f.data (formIS f) s

/-! ### Formatted access (R237, R238) -/

/-- The format of a page's elements (Table 7.5). -/
def elemFormat : Nat → Option Format
  | 1 => some .fp64 | 2 => some .fp32 | 3 => some .fp16 | 4 => some .bf16 | 5 => some .e4m3 | 6 => some .e5m2
  | 7 => some .e2m1 | 8 => some .e4m3 | 9 => some .e5m2 | 10 => some .e2m1 | 11 => some .e2m1 | 12 => some .ax40
  | _ => none
/-- Element size in half bytes. -/
def elemHalves : Nat → Nat
  | 1 => 16 | 2 => 8 | 3 => 4 | 4 => 4 | 5 => 2 | 6 => 2 | 7 => 1 | 8 => 2 | 9 => 2 | 10 => 1 | 11 => 1 | 12 => 10
  | _ => 2
/-- Elements in a block, 0 where the format has no scales. -/
def blockSize : Nat → Nat
  | 8 => 32 | 9 => 32 | 10 => 8 | 11 => 8
  | _ => 0

/-- The row of an element of a page with band scales (R187). -/
def Page.bandOf (p : Page) (n : Nat) : Nat := n / 2 ^ (p.geom + 6) / 64
/-- The address of the scale byte of a block (R187). -/
def Page.blockScale (p : Page) (n : Nat) : Nat := (p.scaleBase + n / blockSize p.efmt) % 2 ^ 64
/-- The address of a band scale. -/
def Page.bandScale (p : Page) (n : Nat) : Nat := (p.scaleBase + 2 * p.bytes / 8 + 2 * p.bandOf n) % 2 ^ 64

/-- The first element of a formatted access, or its fault (R237): `i` is the index, `e` the count of elements. -/
def Page.firstElem (p : Page) (a i e : Nat) : Except (Nat × Nat × Nat) Nat :=
  let b := elemHalves p.efmt
  let n := (a - p.vbase) * 2 / b + i
  if 2 ≤ b && (a - p.vbase) * 2 % b ≠ 0 then .error (2, 0, a)
  else if 2 * p.bytes < (n + e) * b then .error (2, 0, a)
  else .ok n

/-- The page rule of a formatted access: it needs a format (R237). -/
def formatRule (n : Need) : PageRule := { plainRule n with format := fun p => p.efmt != 0 }

/-- The page rule of `ldx` and `stx` (R237, R254): alignment first. -/
def elemsRule (n : Need) (a i e : Nat) : PageRule :=
  { formatRule n with aligned := fun p => p.efmt == 0 || (p.firstElem a i e).toOption.isSome }

/-- The address of an element's first byte. -/
def Page.elemVa (p : Page) (n : Nat) : Nat := p.vbase + n * elemHalves p.efmt / 2

/-- The bytes that a watchpoint sees of a lane's formatted access: the elements whose guard is on, and their scale bytes. -/
def State.elemWatched (s : State) (v : View) (f : Form) (n : Need) (scales : Bool) (t : Thread) : Watched :=
  let a := (s.source v t 64 f.a).toNat
  match s.access (s.wgAccessor v.wg) (formatRule n) false a with
  | .error _ => []
  | .ok (p, _) =>
    match p.firstElem a (s.operandB v t 64 f).toNat f.n with
    | .error _ => []
    | .ok n => (List.range f.n).flatMap fun i =>
        if (s.guard v f.guard t).getLsbD i then
          (t.tid % 32, p.elemVa (n + i), (elemHalves p.efmt + 1) / 2) ::
            (if !scales || blockSize p.efmt = 0 then [] else (t.tid % 32, p.blockScale (n + i), 1) ::
              (if p.efmt = 11 then [(t.tid % 32, p.bandScale (n + i), 2)] else []))
        else []

/-- `ldx` of each lane with a guard bit on. -/
def laneLdx (f : Form) (s : State) : Result :=
  withLanes f.guard [f.a, f.b] [] f.d true s fun v s =>
    let s := s.holdTo v (State.sourcesReady v v.threads (rsrSources v) [])
    let ts := v.threads.filter fun t => anyOn f.n (s.guard v f.guard t)
    let s0 := s
    let (s, stop) := s.watch v 0 (ts.flatMap fun t => s0.elemWatched v f .read true t)
    if stop then .next s else
    .next (ts.foldl (fun s t =>
      s.issueOp v (.ldx (s0.source v t 64 f.a).toNat (s0.operandB v t 64 f) f.shape f.kind (s0.fpMode v t f.n)
        (s0.guard v f.guard t)) f.d [t.tid] [t.tid] (t.heldBy true) true) (s.beginOrdinal v.g.id))
/-- LDX (R237). -/
def execLdx (f : F64) (s : State) : Result := laneLdx (form64 f) s
/-- LDX_64I (R237). -/
def execLdx64i (f : F64I) (s : State) : Result := laneLdx (formZ f.shape f.kind f.d f.a f.imm) s

/-- The code that `stx` stores for a sub-element (R238): scale byte and band scale where the page has them. -/
def stxCode (m : FpMode) (efmt i : Nat) (src : Format) (code sc band : Nat) : Nat :=
  match elemFormat efmt with
  | none => 0
  | some f =>
    let x := m.operand src code
    if blockSize efmt = 0 then m.result f i x
    else if f == .e2m1 then
      let s := m.operand .e3m5 sc
      if s.isNan || s.isZero then 0
      else f.flush (m.flushOut f) (f.divOf (m.rounding i) m.sat x (s.mul (if efmt = 11 then m.operand .bf16 band else .fin false 1 0)))
    else match e8m0Exp sc with
      | some e => m.result f i (match x with | .fin sg n d => .fin sg n (d - e) | y => y)
      | none => 0

/-- The pieces of an element's write (R234): a half-byte element writes only its half of a byte. -/
def Page.elemPieces (p : Page) (n code : Nat) : List Piece :=
  let b := elemHalves p.efmt
  if b = 1 then p.piecesOf (p.vbase + n / 2) 1 (if n % 2 = 0 then code % 16 else code % 16 * 16) (if n % 2 = 0 then 0x0F else 0xF0)
  else p.pieces (p.elemVa n) (b / 2) code

/-- The scale writes of the elements of one lane of `stx`: address, bytes, value (R238). -/
def Page.scaleWrites (p : Page) (n c : Nat) (on : List Nat) : List (Nat × Nat × Nat) :=
  on.flatMap fun i => (p.blockScale (n + i), 1, fld c 0 8) :: (if p.efmt = 11 then [(p.bandScale (n + i), 2, fld c 8 16)] else [])

/-- The element and scale writes of one lane of `stx`, all checked (R187, R238, R254). -/
def State.stxLane (s : State) (v : View) (f : Form) (data : Src) (scale : Bool) (t : Thread) : Checked (List Piece) :=
  let u := s.wgAccessor v.wg
  let a := (s.source v t 64 f.a).toNat
  let i0 := (s.operandB v t 64 f).toNat
  let m := s.fpMode v t f.n
  let c := (s.source v t 64 f.c).toNat
  match s.access u (elemsRule .write a i0 f.n) false a with
  | .error e => .error (faultOf e a)
  | .ok (p, s1) =>
    match p.firstElem a i0 f.n, formatOf f.shape f.kind with
    | .error e, _ => .error e
    | _, none => .ok ([], s1)
    | .ok n, some src =>
      let on := (List.range f.n).filter fun i => (s.guard v f.guard t).getLsbD i
      let elems := on.flatMap fun i =>
        p.elemPieces (n + i) (stxCode m p.efmt i src (subOf f.w (s.source v t f.w data) i) (fld c 0 8) (fld c 8 16))
      let writes := if scale && blockSize p.efmt != 0 then p.scaleWrites n c on else []
      match s1.accessEach u false (writes.map fun w => (storeRule w.2.1, w.1)) with
      | (.error e, _) => .error e
      | (.ok l, s2) => .ok (elems ++ (l.zip writes).flatMap fun e => e.1.pieces e.2.1 e.2.2.1 e.2.2.2, s2)

/-- Whether `stx` gives scales to a page that has none: C8 holds 0xCC there, and WSCALE is 0 (R238). -/
def State.scalesOut (s : State) (v : View) (f : Form) (scale : Bool) : Bool :=
  (f.c != .zero || scale) && v.threads.any fun t => anyOn f.n (s.guard v f.guard t) &&
    match s.access (s.wgAccessor v.wg) (formatRule .write) false (s.source v t 64 f.a).toNat with
    | .ok (p, _) => blockSize p.efmt == 0
    | .error _ => false

/-- `stx` of each lane with a guard bit on. The reserved fields of R238 are checked before every other operand but A (R79). -/
def laneStx (f : Form) (data : Src) (scale : Bool) (s : State) : Result :=
  onGroup s fun v =>
    let s1 := s.holdTo v (State.sourcesReady v v.threads [f.a] (guardPreds v f.guard))
    if srcAllowed v.leaf.regs f.a && v.threads.all (hasValue · f.a) && s1.scalesOut v f scale then .next (s1.illegal .reserved) else
    withLanes f.guard [f.a, f.b, f.c, data] [] .none false s fun v s =>
      let s := s.holdTo v (State.sourcesReady v v.threads (rsrSources v) [])
      let ts := v.threads.filter fun t => anyOn f.n (s.guard v f.guard t)
      let s0 := s
      s.storeLanes v 1 (ts.flatMap fun t => s0.elemWatched v f .write scale t) ts fun s t => s.stxLane v f data scale t
/-- STX (R238). -/
def execStx (f : F64S) (wscale : Bool) (s : State) : Result := laneStx (formS f) f.data wscale s
/-- STX_64I (R238). -/
def execStx64i (f : F64IS) (s : State) : Result := laneStx (formZ f.shape f.kind .none f.a f.imm) f.data false s

end Sys2Proof.Machine
end

