-- ==== Sys2Proof/Machine/Synchronise.lean ====
section
/-!
DEFINITION. The rest of the memory instructions: atomics, `stash`, `pref`, thread-issued copies, `phase`, `fence`, `waitv`, and
the uniform `kld`, `kst`, `katom` on every executor (R131, R174, R239 to R252, R318, R356).
-/
namespace Sys2Proof.Machine

/-! ### Publishing boundaries -/

/-- What later accesses of some threads wait for. -/
def State.gatesOf (s : State) (wg : Nat) (tids : List Nat) : List Nat :=
  ((s.wg? wg).map fun w => (w.threads.filter fun t => tids.contains t.tid).flatMap (·.gates)).getD []

/-- Begin a boundary of some threads of a workgroup at a limit: every store of the core before it must land (R215), after what the threads'
own accesses wait for. -/
def State.boundaryAt (s : State) (limit core wg : Nat) (tids : List Nat) (next : AfterBoundary) : State :=
  let b : Boundary := { id := s.seq, core, wg, tids, limit, after := s.gatesOf wg tids, next }
  { s with boundaries := s.boundaries ++ [b] }.bump

/-- Begin a publishing boundary of some threads of a workgroup (R215). -/
def State.boundary (s : State) (core wg : Nat) (tids : List Nat) (next : AfterBoundary) : State := s.boundaryAt s.seq core wg tids next

/-- Make some threads' later accesses wait for a boundary or an operation. -/
def State.gateThreads (s : State) (wg : Nat) (tids : List Nat) (id : Nat) (loadsOnly : Bool) : State :=
  s.mapThreads wg tids fun t =>
    if loadsOnly then { t with waits := t.waits.filter s.pending ++ [id] } else { t with gates := t.gates.filter s.pending ++ [id] }

/-! ### Atomics (R239 to R244) -/

/-- The address of an atomic: A + offset × width. -/
def atomAddress (off : Int) (width : Nat) (a : W64) : Nat := (a + w64 (unsigned 64 (off * width))).toNat

/-- Issue an atomic of a group: a releasing flavour waits for a boundary, an acquiring one holds later accesses (Table 8.4). -/
def State.issueAtomic (s : State) (v : View) (fl : Flavour) (dst : Dst) (tids : List Nat) (ts : List Thread) (kind : LongKind)
    (returning : Bool) : State :=
  let after := ts.flatMap (·.heldBy true)
  let rel := fl == .rel || fl == .ar
  let b := s.seq
  let s := if rel then s.boundary v.wg.core v.wg.id tids .nothing else s
  let id := s.seq
  let s := s.issueOp v kind dst (if returning then tids else []) tids (after ++ if rel then [b] else []) returning
  if fl == .acq then s.gateThreads v.wg.id tids id true
  else if fl == .ar then s.gateThreads v.wg.id tids id false else s

/-- An atomic of each lane whose guard bit 0 is on. -/
def laneAtomic (f : Form) (off : Int) (fl : Flavour)
    (kind : State → View → List AtomLane → LongKind) (s : State) : Result :=
  let returning := f.d != .none
  withLanes f.guard [f.a, f.b, f.c] [] f.d returning s fun v s =>
    let ts := s.accessing v f.guard
    let n := widthOf f.shape
    let ls := ts.map fun t => (⟨t.tid, atomAddress off n (s.source v t 64 f.a), s.source v t f.w f.b, s.source v t f.w f.c⟩ : AtomLane)
    let (s, stop) := s.watch v 2 (ls.map fun l => (l.tid % 32, l.va, n))
    if stop then .next s else
    let s := if returning then s.beginOrdinal v.g.id else s
    if ls.isEmpty then .next s else .next (s.issueAtomic v fl f.d (ls.map (·.tid)) ts (kind s v ls) returning)

/-- ATOM (R239). -/
def execAtom (f : F64) (op : AtomOp) (fl : Flavour) (off : Int) (s : State) : Result :=
  laneAtomic (form64 f) off fl (fun _ _ ls => .atom op f.shape f.kind fl ls) s

/-- A contribution after the input flush of its class (R51, R244). -/
def State.flushContribution (s : State) (v : View) (g : Form) (l : AtomLane) : AtomLane :=
  match v.wg.thread? l.tid, formatOf g.shape g.kind with
  | some t, some f => { l with b := w64 (f.flush ((s.fpMode v t g.n).flushIn f) (subOf g.w l.b 0)) }
  | _, _ => l

/-- ATOMX (R244). -/
def execAtomx (f : F64) (rdclr : Bool) (fl : Flavour) (off : Int) (s : State) : Result :=
  laneAtomic (form64 f) off fl (fun s v ls => .atomx rdclr f.shape fl (ls.map (s.flushContribution v (form64 f)))) s

/-! ### Stash and prefetch -/

/-- The page rule of `stash`: an EXR page has the format subcause (R245). -/
def stashRule : PageRule := { plainRule .write with format := fun p => !p.exr }

/-- STASH (R245). -/
def execStash (f : F64S) (s : State) : Result :=
  let g := formS f
  withLanes g.guard [g.a, g.b, g.c, f.data] [] .none false s fun v s =>
    let ts := v.threads.filter fun t => anyOn g.n (s.guard v g.guard t)
    let b := widthOf f.shape
    let s0 := s
    let cells := fun (t : Thread) =>
      let a := (s0.source v t 64 g.a).toNat
      let tb := s0.source v t 64 g.b
      let c := s0.source v t 64 g.c
      let on := (List.range g.n).filter fun i => (s0.guard v g.guard t).getLsbD i
      let d := s0.source v t g.w f.data
      (on.map fun i => (a + i * b, subOf g.w d i)) ++ on.map fun i => ((tb + w64 i * c).toNat, subOf g.w d i)
    s.storeLanes v 1 (ts.flatMap fun t => (cells t).map fun e => (t.tid % 32, e.1, b)) ts fun s t =>
      let a := (s0.source v t 64 g.a).toNat
      let tb := (s0.source v t 64 g.b).toNat
      let c := (s0.source v t 64 g.c).toNat
      if a % 8 ≠ 0 then .error (2, 0, a) else if tb % b ≠ 0 || c % b ≠ 0 then .error (2, 0, tb) else
      match s.accessEach (s.wgAccessor v.wg) false ((cells t).map fun e => (stashRule, e.1)) with
      | (.error e, _) => .error e
      | (.ok l, s) => .ok ((l.zip (cells t)).flatMap fun e => e.1.pieces e.2.1 b e.2.2, s)

/-- `pref` of each lane whose guard bit 0 is on: the checks of a load (R246, R253); an L1 prefetch may fill the line's sector. -/
def lanePref (a : Address) (target : PrefTarget) (f : Form) (s : State) : Result :=
  withLanes f.guard [f.a, f.b] [] .none false s fun v s =>
    let n := widthOf f.shape
    let (ok, bad, s) := checkLanes s v.wg (fun s t =>
      let va := s.laneAddress v a f t
      if va % n ≠ 0 then .error (2, 0, va) else
      match s.access (s.wgAccessor v.wg) (loadRule n) false va with
      | .error e => .error (3, e, va)
      | .ok (p, s) => .ok ((p, va), s)) (s.accessing v f.guard)
    if !bad.isEmpty then .next (s.trapLanes bad) else
    .next (ok.foldl (fun s e =>
      let p := e.2.1
      let fill := target == .l1 && (p.home e.2.2 == .home || p.home e.2.2 == .core)
      if fill && Config.choose s.fresh (32 * p.pa e.2.2 + 5) then s.fillSector v.wg.core (p.share == 0) v.leaf.job (p.pa e.2.2) else s) s)
/-- PREF (R246). -/
def execPref (f : F32) (off : Int) (s : State) : Result := lanePref (.scaled off) .l1 (form32 .i f) s
/-- PREF_64 (R246). -/
def execPref64 (f : F64) (shift : Nat) (target : PrefTarget) (s : State) : Result := lanePref (.indexed shift) target (form64 f) s
/-- PREF_64I (R246). -/
def execPref64i (f : F64I) (s : State) : Result := lanePref .plain .l1 (memForm f) s

/-! ### Thread-issued copies (R249 to R252) -/

/-- CPOUT (R249): every lane is checked before any copy starts. -/
def execCpout (f : F64) (s : State) : Result :=
  let g := form64 f
  withLanes g.guard [g.a, g.b, g.c] [] .none false s fun v s =>
    let s0 := s
    let (ok, bad, s) := checkLanes s v.wg (fun s t =>
      let a := (s0.source v t 64 g.a).toNat
      let b := (s0.source v t 64 g.b).toNat
      let c := (s0.source v t 64 g.c).toNat
      if a % 4 ≠ 0 then .error (2, 0, a) else if b % 4 ≠ 0 then .error (2, 0, b)
      else if c % 4 ≠ 0 || 65536 < c || v.leaf.scratch < b + c then .error (4, 0, b)
      else .ok ((a, b, c), s)) (s.accessing v g.guard)
    if !bad.isEmpty then .next (s.trapLanes bad) else
    .next (ok.foldl (fun s e =>
      if e.2.2.2 = 0 then s else
      let c : Copy := { id := s.seq, wg := v.wg.id, region := v.leaf.id, job := v.leaf.job
                        kind := .out e.1.tid e.2.1 e.2.2.1 e.2.2.2 none (List.replicate e.2.2.2 none) [] none
                        line := 0, seq := s.seq, after := e.1.gates, sent := false, got := [] }
      ({ s with copies := s.copies ++ [c] }.mapThread v.wg.id e.1.tid fun t =>
        { t with unsealed := t.unsealed ++ [c.id] }).bump) s)

/-- The executing threads of a word of every present lane. -/
def View.tids (v : View) : List Nat := v.threads.map (·.tid)

/-- Label a copy with its batch. -/
def Copy.seal (c : Copy) (n : Nat) : Copy :=
  { c with kind := match c.kind with
      | .out t d o b _ src fx fl => .out t d o b (some n) src fx fl
      | k => k }

/-- CSEAL (R251). -/
def execCseal (n : Nat) (s : State) : Result :=
  onGroup s fun v =>
    let ids := v.threads.flatMap (·.unsealed)
    let s : State := { s with copies := s.copies.map fun c => if ids.contains c.id then c.seal n else c }
    .next (s.mapThreads v.wg.id v.tids fun t => { t with batches := t.batches ++ t.unsealed.map (·, n), unsealed := [] })

/-- The copies of some threads' batches, `n` = 8 naming all, that have not completed. -/
def State.batchCopies (s : State) (v : View) (n : Nat) : List Copy :=
  let ids := v.threads.flatMap fun t => (t.batches.filter fun b => n == 8 || b.2 == n).map (·.1)
  s.copies.filter fun c => ids.contains c.id

/-- The fault of a thread's copy: thread, address, subcause. -/
def Copy.outFault (c : Copy) : Option (Nat × Nat × Nat) :=
  match c.kind with
  | .out t _ _ _ _ _ _ (some (a, e)) => some (t, a, e)
  | _ => none

/-- Drop the copies among some in which a fault has been found. -/
def State.dropFailed (s : State) (cs : List Copy) : State :=
  let gone := (cs.filter (·.outFault.isSome)).map (·.id)
  { s with copies := s.copies.filter fun c => !gone.contains c.id }

/-- Take the fault of some copies, if one has been found (R252): the lanes whose copies met the same subcause raise it. -/
def State.takeCopyFault (s : State) (cs : List Copy) : Option State :=
  match cs.filterMap (·.outFault) with
  | [] => none
  | (t, a, e) :: r =>
    let same := (r.filter fun x => x.2.2 == e).map (·.1 % 32)
    some ((s.dropFailed cs).trapHere 0x0A 4 e a (t % 32 :: same))

/-- One thread's `cwait`: its later memory instructions wait for an operation that ends once the named copies have been performed, and the
batches are then empty (R251). -/
def State.waitBatches (s : State) (v : View) (n : Nat) (t : Thread) : State :=
  let ids := (t.batches.filter fun b => n == 8 || b.2 == n).map (·.1)
  if !(s.copies.any fun c => ids.contains c.id) then
    s.mapThread v.wg.id t.tid fun t => { t with batches := t.batches.filter fun b => !(n == 8 || b.2 == n) }
  else (s.issueOp v (.cwait ids) .none [] [t.tid] [] false).gateThreads v.wg.id [t.tid] s.seq false

/-- CWAIT (R251, R252): a copy fault found by now is taken here; one found later, when it is found. -/
def execCwait (n : Nat) (s : State) : Result :=
  onGroup s fun v =>
    match s.takeCopyFault (s.batchCopies v n) with
    | some s => .next s
    | none => .next (v.threads.foldl (fun s t => s.waitBatches v n t) s)

/-! ### Phase and fence (R247, R248) -/

/-- Whether a pending operation reads for a thread: `ld`, `ldx`, returning atomics, `kld`, and `lds` where asked. -/
def LongOp.loads (o : LongOp) (scratch : Bool) : Bool :=
  match o.kind with
  | .load .. | .ldx .. => true
  | .atom .. | .atomx .. => o.dst != .none
  | .lds .. => scratch
  | _ => false

/-- Whether loads of some threads before a place in local order have not completed. -/
def State.loadsPending (s : State) (wg : Nat) (tids : List Nat) (scratch : Bool) (before : Nat) : Bool :=
  s.ops.any fun o => o.wg == wg && decide (o.seq < before) && o.loads scratch && o.present.any tids.contains

/-- Whether loads of some threads before a place in local order have not taken their values; one whose result a freeze holds has. -/
def State.loadsUntaken (s : State) (wg : Nat) (tids : List Nat) (before : Nat) : Bool :=
  s.ops.any fun o => o.wg == wg && decide (o.seq < before) && o.held.isNone && o.loads false && o.present.any tids.contains

/-- PHASE_PUB (R247). -/
def execPhasePub (s : State) : Result :=
  onGroup s fun v => .next ((s.boundary v.wg.core v.wg.id v.tids .nothing).gateThreads v.wg.id v.tids s.seq false)
/-- PHASE_ACQ (R247): the refresh comes once earlier loads have taken their values, and later loads wait for it (Table 8.2). -/
def execPhaseAcq (s : State) : Result :=
  onGroup s fun v => .next ((s.boundaryAt 0 v.wg.core v.wg.id v.tids .refresh).gateThreads v.wg.id v.tids s.seq true)
/-- PHASE_AR (R247). -/
def execPhaseAr (s : State) : Result :=
  onGroup s fun v => .next ((s.boundary v.wg.core v.wg.id v.tids .refresh).gateThreads v.wg.id v.tids s.seq false)

/-- FENCE_LD (R248). -/
def execFenceLd (s : State) : Result :=
  onGroup s fun v => if s.loadsPending v.wg.id v.tids true s.seq then holdWord s else .next s

/-- Whether the host has not acknowledged every store of a thread before a place in local order. -/
def State.hostUnacked (s : State) (wg tid before : Nat) : Bool :=
  s.path.any fun p => p.wg == wg && p.tids.contains tid && decide (p.seq < before) && p.dest == .host

/-- FENCE_IO (R248): the threads' later host accesses wait for the host's acknowledgement of their earlier host stores. -/
def execFenceIo (s : State) : Result :=
  onGroup s fun v => .next ((s.mapThreads v.wg.id v.tids fun t =>
    { t with fences := t.fences.filter (s.hostUnacked v.wg.id t.tid) ++ [s.seq] }).bump)

/-- The copies of a thread that have source bytes to read. -/
def State.unreadOf (s : State) (wg tid : Nat) : List Nat :=
  (s.copies.filter fun c => c.wg == wg && c.unread && match c.kind with
    | .out t .. => t == tid
    | _ => false).map (·.id)

/-- FENCE_SP (R248): the threads' later `sts` wait until their earlier copies have read their sources. -/
def execFenceSp (s : State) : Result :=
  onGroup s fun v => .next (s.mapThreads v.wg.id v.tids fun t => { t with spFence := s.unreadOf v.wg.id t.tid })

/-! ### Waiting on memory (R174) -/

/-- Set what the run's trailer will do. -/
def State.setTail (s : State) (gid : Nat) (t : Tail) : State :=
  s.mapGroup gid fun g => { g with run := g.run.map fun r => { r with tail := t } }

/-- WAITV (R174): each lane whose guard bit 0 is on parks at the trailer. -/
def execWaitv (f : F64) (c : Cond) (s : State) : Result :=
  let g := form64 f
  withLanes g.guard [g.a, g.b, g.c] [] g.d true s fun v s =>
    let ts := s.accessing v g.guard
    let n := widthOf f.shape
    let s0 := s
    let (s, stop) := s.watch v 0 (watched n (ts.map fun t => (t, (s0.source v t 64 g.a).toNat)))
    if stop then .next s else
    let d := match g.d with | .x r => r | _ => 0
    let (parks, s) := ts.foldl (fun (acc : List (Nat × WaitvPark) × State) t =>
      let s := acc.2
      let w : WaitvPark := { va := (s0.source v t 64 g.a).toNat, width := n, signed := f.kind == .i, cond := c
                             operand := s0.operandB v t g.w g, timeout := (s0.source v t 64 g.c).toNat, since := 0
                             read := 0, lastRead := none, dst := d, op := s.seq }
      (acc.1 ++ [(t.tid, w)], s.issueOp v .waitv g.d [t.tid] [t.tid] (t.heldBy true) true)) ([], s.beginOrdinal v.g.id)
    .next (s.setTail v.g.id (.waitv parks))

/-! ### The checks of long-latency operations -/

/-- The accessor of an operation. -/
def LongOp.accessor (o : LongOp) : Accessor :=
  match o.issuer with
  | .group _ => coreAccessor o.core o.job
  | .stream _ => { coreAccessor o.core o.job with core := none }
  | .fabric n => procAccessor n o.job
  | .control n => match o.kind with
    | .rcbrd .. => ⟨64 + n / 16 * 8, n / 16, none, some o.job⟩
    | _ => controlAccessor n

/-- The thread in whose program order an operation stands. -/
def LongOp.tid (o : LongOp) : Nat := (o.present.head?).getD 0

/-- The subcause of an uncorrectable error in bytes that an access consumes, if any holds one: 0 HBM4E, 1 LLC (R339). -/
def State.errorIn (s : State) (p : Page) (va width : Nat) : Option Nat :=
  let n := if p.exr then 64 else width
  match p.home va with
  | .package _ | .host => none
  | _ => (s.errors.find? fun e => decide (p.pa va ≤ e.1) && decide (e.1 < p.pa va + n)).map (·.2)

/-- Whether some scratchpad bytes of a workgroup hold an uncorrectable error (R339). -/
def State.scrUpset (s : State) (wg off n : Nat) : Bool :=
  ((s.wg? wg).map fun w => (List.range n).any fun i => w.upsets.contains (.scr (off + i))).getD false

/-- One address's check. -/
def checkAccess (s : State) (u : Accessor) (rule : PageRule) (sticky : Bool) (va width : Nat) : Except (Nat × Nat × Nat) State :=
  if va % width ≠ 0 then .error (2, 0, va) else
  match s.access u rule sticky va with
  | .error e => .error (3, e, va)
  | .ok (p, t) => match s.errorIn p va width with
    | some e => .error (0x0E, e, va)
    | none => .ok t

/-- Checks of several lanes: the state with their translations held, or the lowest failing lane with its fault and those
that fail alike (R242). -/
def checkEach (s : State) (one : State → AtomLane → Except (Nat × Nat × Nat) State) :
    List AtomLane → Except (Nat × Nat × Nat × List Nat) State
  | [] => .ok s
  | l :: r =>
    match one s l with
    | .ok t => checkEach t one r
    | .error (c, e, a) => .error (c, e, a, l.tid :: (r.filter fun x => match one s x with
        | .error (c', e', _) => c' == c && e' == e
        | .ok _ => false).map (·.tid))

/-- The scale bytes that `ldx` reads for its elements: address and bytes. -/
def Page.scaleReads (p : Page) (n e : Nat) (mask : Byte) : List (Nat × Nat) :=
  if blockSize p.efmt = 0 then [] else
  ((List.range e).filter mask.getLsbD).flatMap fun i =>
    (p.blockScale (n + i), 1) :: (if p.efmt = 11 then [(p.bandScale (n + i), 2)] else [])

/-- The bytes of the elements whose guard is on: address and bytes. -/
def Page.elemReads (p : Page) (n e : Nat) (mask : Byte) : List (Nat × Nat) :=
  ((List.range e).filter mask.getLsbD).map fun i => (p.elemVa (n + i), (elemHalves p.efmt + 1) / 2)

/-- The bytes that an operation reaches through translations: address and count, the scale bytes of a formatted load among them (R237). -/
def State.reachesOf (s : State) (o : LongOp) : List (Nat × Nat) :=
  match o.kind with
  | .load va n .. => [(va, n)]
  | .rcbrd va w => [(va + 8 * w, 8)]
  | .atom _ sh _ _ ls | .atomx _ sh _ ls => ls.map fun l => (l.va, widthOf sh)
  | .ldx va i sh _ _ mask =>
    match s.access o.accessor (formatRule .read) true va with
    | .error _ => [(va, 1)]
    | .ok (p, _) => match p.firstElem va i.toNat (64 / shapeBits sh) with
      | .error _ => [(va, 1)]
      | .ok n => p.elemReads n (64 / shapeBits sh) mask ++ p.scaleReads n (64 / shapeBits sh) mask
  | _ => []

/-- Whether an operation reaches another package, whose faults arrive with its answers. -/
def State.opRemote (s : State) (o : LongOp) : Bool :=
  ((s.reachesOf o).map (·.1)).any fun va => match s.access o.accessor (plainRule .read) true va with
    | .ok (p, _) => match p.home va with
      | .package _ => true
      | _ => false
    | .error _ => false

/-- The region that the device holds for a job at an RCB address (R176). -/
def State.held? (s : State) (job va : Nat) : Option Region := s.regions.find? fun r => r.job == job && r.va == va

/-- Every check of an operation that can raise a fault (R122, R236, R237, R242): the state with translations held, or cause,
subcause, address and the threads that raise it. -/
def State.opCheck (s : State) (o : LongOp) : Except (Nat × Nat × Nat × List Nat) State :=
  let u := o.accessor
  let all := fun (r : Except (Nat × Nat × Nat) State) => r.mapError fun e => (e.1, e.2.1, e.2.2, o.present)
  match o.kind with
  | .load va n _ _ => all (checkAccess s u (loadRule n) o.checked va n)
  | .lds off n _ _ =>
    match scratchFault ((((s.wg? o.wg).bind s.leafOf).map (·.scratch)).getD 0) off n with
    | some (c, e, a) => .error (c, e, a, o.present)
    | none => if s.scrUpset o.wg off n then .error (0x0E, 3, off, o.present) else .ok s
  | .ldx va i sh _ _ mask =>
    let e := 64 / shapeBits sh
    all (match s.access u (elemsRule .read va i.toNat e) o.checked va with
      | .error x => .error (faultOf x va)
      | .ok (p, t) =>
        match p.firstElem va i.toNat e with
        | .error x => .error x
        | .ok n =>
          match t.accessEach u o.checked ((p.scaleReads n e mask).map fun w => (loadRule w.2, w.1)) with
          | (.error x, _) => .error x
          | (.ok l, t) =>
            match ((p.elemReads n e mask).map (p, ·) ++ l.zip (p.scaleReads n e mask)).findSome? fun q => (t.errorIn q.1 q.2.1 q.2.2).map (·, q.2.1) with
            | some q => .error (0x0E, q.1, q.2)
            | none => .ok t)
  | .atom op sh _ _ ls => checkEach s (fun s l => checkAccess s u (atomRule op) o.checked l.va (widthOf sh)) ls
  | .atomx _ sh _ ls => checkEach s (fun s l => checkAccess s u (atomxRule (widthOf sh)) o.checked l.va (widthOf sh)) ls
  | .rcbrd va w =>
    if va % 256 ≠ 0 then .error (2, 0, va, o.present)
    else if (s.held? o.job va).isSome then .ok s
    else all (checkAccess s u (loadRule 8) o.checked (va + 8 * w) 8)
  | _ => .ok s

/-! ### Uniform memory instructions (R131, R243, R318, R356) -/

/-- The accessor of a uniform word's executor. Only a group goes through its core's L1 (Table 8.3). -/
def State.uniAccessor (s : State) (u : Uni) : Accessor :=
  match u with
  | .lane v _ _ => s.wgAccessor v.wg
  | .unit (.stream w) =>
    match s.wg? w with
    | some g => { coreAccessor g.core (s.jobOf g) with core := none }
    | none => ⟨96, 0, none, none⟩
  | .unit (.fabric n) => procAccessor n (((s.proc? n).bind (·.job)).getD 0)
  | .unit (.control n) => controlAccessor n
  | .unit (.group _) => ⟨96, 0, none, none⟩

/-- The address of a uniform access. -/
def State.uniAddress (s : State) (u : Uni) (a : Address) (f : Form) : Nat :=
  a.of (widthOf f.shape) (s.uniSource u 64 f.a) (s.uniOperandB u 64 f)

/-- The program counter of the word. -/
def State.turnPc (s : State) : Nat := (s.turn.map (·.pc)).getD 0

/-- The job of a control core's current event, EVT7[31:0] (R319); 0 with none. -/
def State.eventJob (s : State) (n : Nat) : Nat :=
  (((s.control? n).bind (·.current)).map fun e => (e.words.getD 7 0).toNat % 2 ^ 32).getD 0

/-- The workgroup, core and job of a unit. -/
def State.unitHome (s : State) (u : UnitId) : Nat × Nat × Nat :=
  match u with
  | .stream w => match s.wg? w with
    | some g => (w, g.core, s.jobOf g)
    | none => (w, 0, 0)
  | .fabric n => (0, 0, ((s.proc? n).bind (·.job)).getD 0)
  | .control n => (0, 0, s.eventJob n)
  | .group _ => (0, 0, 0)

/-- Issue a long-latency operation of an executor that serves no thread; its destination interlocks (R280). A fault found at issue
stops the executor before the word (R309, R357). A releasing atomic of a stream waits for its core's earlier stores. -/
def State.issueUnitOp (s : State) (u : UnitId) (kind : LongKind) (dst : Dst) (rel : Bool) : Result :=
  let h := s.unitHome u
  match s.opCheck (newOp s u h.1 h.2.1 h.2.2 s.turnPc kind dst) with
  | .error (c, e, a, _) => trapNext (if c = 3 then s.walked (newOp s u h.1 h.2.1 h.2.2 s.turnPc kind dst).accessor a else s) c e 0 a []
  | .ok _ =>
    let after := if rel then [s.seq] else []
    let s := if rel then s.boundary h.2.1 h.1 [] .nothing else s
    let drop := fun (o : LongOp) => if o.issuer == u && o.dst == dst && dst != .none then { o with dst := .none } else o
    .next { s with ops := s.ops.map drop ++ [{ newOp s u h.1 h.2.1 h.2.2 s.turnPc kind dst with after }] }.bump

/-- `kld`. -/
def uniLoad (a : Address) (nol1 : Bool) (f : Form) (s : State) : Result :=
  withUni f.guard 1 [f.a, f.b] f.d true s fun u s =>
    let n := widthOf f.shape
    let va := s.uniAddress u a f
    let kind : LongKind := .load va n (f.kind == .i) nol1
    match u with
    | .lane v t on =>
      let (s, stop) := s.watch v 0 [(t.tid % 32, va, n)]
      if stop then .next s else
      .next (((s.beginOrdinal v.g.id).supersedeDst v.wg.id f.d).issueOp v kind f.d (on.map (·.tid)) (on.map (·.tid)) (on.flatMap (·.heldBy true)) true)
    | .unit i => s.issueUnitOp i kind f.d false
/-- KLD (R131). -/
def execKld (f : F32) (off : Int) (s : State) : Result := uniLoad (.scaled off) false (form32 .i f) s
/-- KLD_64 (R131). -/
def execKld64 (f : F64) (m : MemMod) (s : State) : Result := uniLoad (.indexed m.shift) (m.l1h == .nol1) (form64 f) s
/-- KLD_64I (R131). -/
def execKld64i (f : F64I) (s : State) : Result := uniLoad .plain false (memForm f) s

/-- `kst`: one access of its group (R234); at its home at once from an executor without a store path. -/
def uniStore (a : Address) (data : Src) (f : Form) (s : State) : Result :=
  withUni f.guard 1 [f.a, f.b, data] .none false s fun u s =>
    let n := widthOf f.shape
    let va := s.uniAddress u a f
    let x := (s.uniSource u f.w data).toNat
    let put := fun (s : State) (l : List Piece) => match u with
      | .lane v _ on => s.storeAll v.wg.core v.wg.id v.leaf.job (on.flatMap (·.gates)) [(on.map (·.tid), l)]
      | .unit i => s.storeNow (match i with | .stream w => some ((s.unitHome i).2.1, w) | _ => none) (s.unitHome i).2.2 (.unit i s.turnPc va) l
    let go := fun (s : State) (lanes : List Nat) => match s.storeAt (s.uniAccessor u) va n x with
      | .error (c, e, w) => trapNext (if c = 3 then s.walked (s.uniAccessor u) w else s) c e 0 w lanes
      | .ok (l, s) => .next (put s l)
    match u with
    | .lane v t on =>
      let (s, stop) := s.watch v 1 [(t.tid % 32, va, n)]
      if stop then .next s else go s (on.map (·.tid % 32))
    | .unit _ => go s []
/-- KST (R131). -/
def execKst (f : F32) (off : Int) (s : State) : Result := uniStore (.scaled off) (dataSrc f.d) (form32 .i f) s
/-- KST_64 (R131). -/
def execKst64 (f : F64S) (m : MemMod) (s : State) : Result := uniStore (.indexed m.shift) f.data (formS f) s
/-- KST_64I (R131). -/
def execKst64i (f : F64IS) (s : State) : Result := uniStore .plain f.data (formIS f) s

/-- KATOM (R243). On a stream, a releasing flavour waits for its core's earlier stores. -/
def execKatom (f : F64) (op : AtomOp) (fl : Flavour) (off : Int) (s : State) : Result :=
  let g := form64 f
  let returning := g.d != .none
  withUni g.guard 1 [g.a, g.b, g.c] g.d returning s fun u s =>
    let n := widthOf f.shape
    let va := atomAddress off n (s.uniSource u 64 g.a)
    let b := s.uniSource u g.w g.b
    let c := s.uniSource u g.w g.c
    match u with
    | .lane v t on =>
      let (s, stop) := s.watch v 2 [(t.tid % 32, va, n)]
      if stop then .next s else
      let s := (if returning then s.beginOrdinal v.g.id else s).supersedeDst v.wg.id g.d
      .next (s.issueAtomic v fl g.d (on.map (·.tid)) on (.atom op f.shape f.kind fl [⟨t.tid, va, b, c⟩]) returning)
    | .unit i =>
      let rel := (fl == .rel || fl == .ar) && (match i with | .stream _ => true | _ => false)
      s.issueUnitOp i (.atom op f.shape f.kind fl [⟨0, va, b, c⟩]) g.d rel

end Sys2Proof.Machine
end

