-- ==== Sys2Proof/Machine/LongOps.lean ====
section
/-!
DEFINITION. The completion of long-latency operations (R28 to R30, R120, R237, R239 to R244, R274, R317, R323, R409), the
reads and releases of `waitv` (R174), the store path's drains and publishing boundaries (R213 to R216), and
the head of the Timetable with its bubble counters (R400 to R405).
-/
namespace Sys2Proof.Machine

/-- The STATUS word of a region (Table 5.1, offset 0x28). -/
def Region.status (r : Region) : Nat := r.state + r.lref * 2 ^ 4 + r.rref * 2 ^ 8 + r.loff * 2 ^ 32
/-- A word of the device's copy of an RCB, STATUS as it stands (R176). -/
def Region.copyWord (r : Region) (i : Nat) : W64 := if i = 5 then w64 r.status else r.words.getD i 0

/-! ### Threads and their timers -/

/-- Whether a freeze holds a thread: that of its group, or of its partition where it is in none (R323). -/
def State.threadFrozen (s : State) (wg tid : Nat) : Bool :=
  match s.wg? wg with
  | none => false
  | some w =>
    match (w.thread? tid).map fun t => t.place with
    | some (Place.group g) => match s.group? g with
      | some g => s.groupFrozen w g s.cyc
      | none => s.frozenAt w (tid / 32 % 4) s.cyc
    | _ => s.frozenAt w (tid / 32 % 4) s.cyc

/-- Whether a unit that is no group is frozen: by a package freeze or its job's Bell. -/
def State.unitFrozen (s : State) (job : Nat) : Bool := s.pfrz.isSome || s.jobHeldAt job s.cyc

/-- Whether a freeze holds a unit or a copy engine of a job, and no single step has been granted to it. -/
def State.unitHeld (s : State) (job : Nat) (g : Grant) : Bool := s.unitFrozen job && !s.grants.contains g

/-- A granted single step is complete: the grant is used, and cause 0x10 is raised with stop code 011 (R394). `w` is the workgroup of
a stream or of an engine's copy. -/
def State.stepTaken (s : State) (g : Grant) (w : Option Workgroup) (pc : Nat) : State :=
  if !s.grants.contains g then s else
  let s := { s with grants := s.grants.erase g }
  let st : Stop := { cause := 0x10, sub := 0, detail := 0, code := 3, cont := false, reexec := false, pc, addr := 0, lanes := [], tid := 0
                     clk := s.cyc }
  match g, w with
  | .stream _, some w => s.raise (clusterOf w.core) w.core 4 none (s.wgEvent w 0 true st)
  | .engine e job, some w => s.raise (clusterOf w.core) w.core 0 none
      (eventWords 0x10 0 0 (0xFFC000 + e) 3 false false 0 0 0 0 0 (((s.leafOf w).map (·.va)).getD 0) s.cyc w.w job)
  | .fabric n, _ => s.raise (n / 8 * 16) (n / 8 * 64) 4 none
      (eventWords 0x10 0 0 (0xFFE000 + n) 3 false false pc 0 0 0 0 0 s.cyc 0 (((s.proc? n).bind (·.job)).getD 0))
  | _, _ => s

/-- Whether a debug cause stops a group: a stop of its own, or the freeze of its partition (R322, R323). -/
def State.debugHeld (s : State) (core : Nat) (g : Group) : Bool := (g.stop.map (·.debug)).getD false || (s.part core g.part).frozen.isSome

/-- Whether a debug cause stops a group of a workgroup (R323). -/
def State.debugStopped (s : State) (wg : Nat) : Bool :=
  ((s.wg? wg).map fun w => s.groups.any fun g => g.wg == wg && s.debugHeld w.core g).getD false

/-! ### Performing -/

/-- What performing an operation gives: nothing yet, its values (one for every thread, or one each), or a request sent. -/
inductive OpOut where
  | wait
  | sent (s : State) (got : Fetched) (own : Masked)
  | done (v : W64) (s : State)
  | each (l : List (Nat × W64)) (s : State)

/-- The reader of an operation. -/
def LongOp.reader (o : LongOp) (nol1 : Bool) : Reader :=
  { core := o.accessor.core, wg := o.wg, tids := o.present, seq := o.seq, job := o.job, nol1, got := o.got, own := o.own }

/-- Read bytes for an operation whose checks have passed: with the translations that they hold. -/
def State.readFor (s : State) (o : LongOp) (rule : PageRule) (va n : Nat) : Found :=
  match s.access o.accessor rule true va with
  | .error e => .fault 3 e va
  | .ok (p, t) => t.readPage p (o.reader false) va n

/-- Ask another package for bytes. -/
def State.fetchRemote (s : State) (o : LongOp) (pkg pa : Nat) (exr : Option Nat) (own : Masked) (va n : Nat) : OpOut :=
  .sent (s.request pkg o.job pa exr (.read n) (.op o.id va)) o.got (o.own ++ own)

/-- One read of an operation's bytes, or why it cannot go on. -/
def State.readOr (s : State) (o : LongOp) (rule : PageRule) (va n : Nat) : Except OpOut (List Byte × State) :=
  match s.readFor o rule va n with
  | .bytes l t => .ok (l, t)
  | .wait | .fault .. => .error .wait
  | .remote k pa exr own t => .error (t.fetchRemote o k pa exr own va n)

/-- An element of a page with its scale byte and band scale (R237): number, code, scales. -/
def State.readElem (s : State) (o : LongOp) (p : Page) (n i : Nat) : Except OpOut ((Nat × Nat × Nat × Nat) × State) := do
  let h := elemHalves p.efmt
  let (l, s) ← s.readOr o (formatRule .read) (p.elemVa (n + i)) ((h + 1) / 2)
  let c := leNat l
  let code := if h = 1 then (if (n + i) % 2 = 0 then c % 16 else c / 16) else c
  if blockSize p.efmt = 0 then return ((i, code, 0, 0), s) else
  let (sc, s) ← s.readOr o (loadRule 1) (p.blockScale (n + i)) 1
  if p.efmt ≠ 11 then return ((i, code, leNat sc, 0), s) else
  let (b, s) ← s.readOr o (loadRule 2) (p.bandScale (n + i)) 2
  return ((i, code, leNat sc, leNat b), s)

/-- The elements of a lane's `ldx`. -/
def State.readElems (s : State) (o : LongOp) (p : Page) (n : Nat) : List Nat → Except OpOut (List (Nat × Nat × Nat × Nat) × State)
  | [] => .ok ([], s)
  | i :: r => do
    let (e, s) ← s.readElem o p n i
    let (l, s) ← s.readElems o p n r
    return (e :: l, s)

/-- The register that `ldx` forms (R237). -/
def ldxWord (sh : Shape) (k : Kind) (efmt : Nat) (m : FpMode) (l : List (Nat × Nat × Nat × Nat)) : W64 :=
  perSub (shapeBits sh) fun i =>
    match l.find? (·.1 == i), formatOf sh k, elemFormat efmt with
    | some (_, code, sc, band), some g, some f =>
      m.result g i (if blockSize efmt = 0 then m.operand f code
        else scaledVal m f code sc (if efmt = 11 then some band else none))
    | _, _, _ => 0

/-- Whether two byte ranges meet. -/
def overlaps (a n b m : Nat) : Bool := decide (a < b + m) && decide (b < a + n)

/-- Whether an earlier store of an operation's threads to some bytes still waits in the store path (Table 8.4). -/
def State.ownStorePending (s : State) (o : LongOp) (dest : PathDest) (pa n : Nat) : Bool :=
  s.path.any fun p => p.wg == o.wg && decide (p.seq < o.seq) && !p.posted && p.tids.any o.present.contains && sameSpace p.dest dest &&
    p.bytes.any fun b => overlaps b.pa 1 pa n

/-- The lanes of an atomic, performed in lane order at their homes; those on another package travel to it together (R207, R240). -/
def State.atomLanes (s : State) (o : LongOp) (rule : PageRule) (exr : Option Nat) (req : List PodLane → PodOp) (far : AtomLane → Nat → PodLane)
    (here : State → Page → AtomLane → Option (Nat × State)) : List AtomLane → List (Nat × W64) → List (Nat × Nat × PodLane) → OpOut
  | [], got, [] => .each got s
  | [], got, away =>
    .sent ((distinct (away.map (·.1))).foldl (fun s k => s.requestLanes o k exr req ((away.filter (·.1 == k)).map (·.2))) s) got o.own
  | l :: r, got, away =>
    match s.access (o.accessor) rule true l.va with
    | .error _ => .wait
    | .ok (p, t) =>
      match here t p l, p.home l.va with
      | some (m, t'), _ => State.atomLanes t' o rule exr req far here r (got ++ [(l.tid, w64 m)]) away
      | none, .package k => State.atomLanes t o rule exr req far here r got (away ++ [(k, l.tid, far l (p.pa l.va))])
      | none, _ => .wait

/-- Whether an atomic must wait: for the threads' earlier accesses to the same locations, for their earlier loads and atomics, and on a
host page for what R233 and a `fence.io` put before it (R213, Table 8.4). -/
def State.atomWaits (s : State) (o : LongOp) (rule : PageRule) (n : Nat) (ls : List AtomLane) : Bool :=
  s.readsBefore o.wg o.present o.seq || ls.any fun l =>
    match s.access (o.accessor) rule true l.va with
    | .error _ => false
    | .ok (p, _) => s.ownStorePending o (p.home l.va) (p.pa l.va) n ||
      (p.home l.va == .host && (s.hostStorePending o.wg o.present o.seq || s.ioFenced o.wg o.present o.seq))

/-- The core whose L1 an operation goes through. -/
def LongOp.l1Core (o : LongOp) : Option Nat := match o.issuer with | .group _ => some o.core | _ => none
/-- The core on which an operation's unit runs, with its workgroup: the home of its core-scope pages (R210). -/
def LongOp.near (o : LongOp) : Option (Nat × Nat) := match o.issuer with | .group _ | .stream _ => some (o.core, o.wg) | _ => none

/-- What an operation reads or writes: destinations, physical addresses, bytes. -/
def State.spansOf (s : State) (o : LongOp) : List (PathDest × Nat × Nat) :=
  (s.reachesOf o).filterMap fun e => match s.access o.accessor (plainRule .read) true e.1 with
    | .ok (p, _) => some (p.home e.1, p.pa e.1, e.2)
    | .error _ => none

/-- Whether two spans have a location in common; all host accesses of a thread keep their order (R233). -/
def spansMeet (a b : PathDest × Nat × Nat) : Bool :=
  (a.1 == .host && b.1 == .host) || (sameSpace a.1 b.1 && overlaps a.2.1 a.2.2 b.2.1 b.2.2)

/-- Whether a load must wait for an earlier load or atomic of a thread of its own, or of its own unit, that reads the same location and has
no value yet (R121, R220, R233). -/
def State.loadBehind (s : State) (o : LongOp) : Bool :=
  let mine := s.spansOf o
  s.ops.any fun q => decide (q.seq < o.seq) && q.held.isNone && q.wg == o.wg &&
    (q.present.any o.present.contains || (q.present.isEmpty && q.issuer == o.issuer)) && (s.spansOf q).any fun a => mine.any (spansMeet a)

/-- Perform an operation whose checks have passed. -/
def State.performOp (s : State) (o : LongOp) : OpOut :=
  match o.kind with
  | .value v _ _ => .done v s
  | .load va n sg nol1 =>
    match s.loadAt (o.accessor) (o.reader nol1) true va n with
    | .bytes l t => .done (extendLoad sg n (leNat l)) t
    | .wait | .fault .. => .wait
    | .remote k pa exr own t => t.fetchRemote o k pa exr own va n
  | .lds _ n sg v => .done (extendLoad sg n v) s
  | .ldx va i sh k m mask =>
    match s.access (o.accessor) (formatRule .read) true va with
    | .error _ => .wait
    | .ok (p, t) =>
      match p.firstElem va i.toNat (64 / shapeBits sh) with
      | .error _ => .wait
      | .ok n =>
        match t.readElems o p n ((List.range (64 / shapeBits sh)).filter mask.getLsbD) with
        | .error e => e
        | .ok (l, t) => .done (ldxWord sh k p.efmt m l) t
  | .atom op sh k _ ls =>
    let n := widthOf sh
    if !o.got.isEmpty || ls.isEmpty then .each o.got s
    else if s.atomWaits o (atomRule op) n ls then .wait
    else s.atomLanes o (atomRule op) none (.atomic op k n) (fun l pa => ⟨pa, l.b.toNat % 2 ^ (8 * n), l.c.toNat % 2 ^ (8 * n), 0⟩)
      (fun s p l => s.atomHere p o.l1Core o.near o.job op sh k l.va l.b.toNat l.c.toNat) ls [] []
  | .atomx clear sh _ ls =>
    let n := widthOf sh
    if !o.got.isEmpty || ls.isEmpty then .each o.got s
    else if s.atomWaits o (atomxRule n) n ls then .wait
    else s.atomLanes o (atomxRule n) (some n) (.cell clear) (fun l pa => ⟨pa, l.b.toNat % 2 ^ (8 * n), 0, 0⟩)
      (fun s p l => s.atomxHere p clear l.va ((cellFormat n).toVal (l.b.toNat % 2 ^ (8 * n)))) ls [] []
  | .rcbrd va w =>
    match s.held? o.job va with
    | some r => .done (r.copyWord w) s
    | none =>
      match s.loadAt (o.accessor) (o.reader false) true (va + 8 * w) 8 with
      | .bytes l t => .done (w64 (leNat l)) t
      | .wait | .fault .. => .wait
      | .remote k pa exr own t => t.fetchRemote o k pa exr own (va + 8 * w) 8
  | _ => .wait

/-! ### Landing results -/

/-- The bits of its destination that an operation writes (R25, R237). -/
def LongOp.mask (o : LongOp) : W64 :=
  match o.kind with
  | .value _ m sh => guardMask (shapeBits sh) m
  | .ldx _ _ sh _ _ m => guardMask (shapeBits sh) m
  | _ => BitVec.allOnes 64

/-- Count an operation complete in every flag that it was added to (R30). -/
def State.completeFlags (s : State) (o : LongOp) : State :=
  s.mapThreads o.wg o.present fun t =>
    o.flags.foldl (fun t f =>
      let n := sget 0 t.flags f - 1
      { t with flags := sset 0 t.flags f n, setAt := if n = 0 then sset 0 t.setAt f s.cyc else t.setAt }) t

/-- Remove an operation, complete. -/
def State.endOp (s : State) (o : LongOp) : State :=
  { s.completeFlags o with ops := s.ops.filter (·.id != o.id) }

/-- Update a pending operation. -/
def State.mapOp (s : State) (id : Nat) (f : LongOp → LongOp) : State := { s with ops := updFirst (·.id == id) f s.ops }
/-- A pending operation. -/
def State.op? (s : State) (id : Nat) : Option LongOp := s.ops.find? (·.id == id)

/-- A long-latency result lands in an x register: what an earlier fixed-latency write of it left unsettled is superseded (R27, R29). -/
def Thread.landX (t : Thread) (n : Nat) (mask v : W64) : Thread :=
  { t with x := sset 0 t.x n (merge mask (sget 0 t.x n) v)
           settling := t.settling.filter (·.reg != .x n)
           stale := t.stale.filter (·.reg != .x n), upsets := t.upsets.filter (· != .x n) }

/-- Write an operation's results and complete it: `got` holds the threads' own values, `v` every other's: a `katom` has one lane,
whose value every destination thread takes (R29, R120, R243). R28 leaves a read of a pending result open; the model reads the old
value until this step, whose time is free, and a uniform result lands in all its lanes here (DESIGN CHOICE, log 97). -/
def State.landOp (s : State) (o : LongOp) (v : W64) (got : List (Nat × W64)) : State :=
  let val := fun (tid : Nat) => ((got.find? (·.1 == tid)).map (·.2)).getD v
  let s := s.endOp o
  match o.dst, o.issuer with
  | .x n, .group _ => (o.tids.filter fun t => !o.dropped.contains t).foldl (fun s tid =>
      s.mapThread o.wg tid fun t => t.landX n o.mask (val tid)) s
  | .k n, u =>
    if !o.dropped.isEmpty then s else
    match u with
    | .group _ => s.mapWg o.wg fun w =>
        { w with k := sset 0 w.k n (val o.tid), ksettling := w.ksettling.filter (·.k != n), upsets := w.upsets.filter (· != .k n) }
    | .stream w => s.mapStream w fun x => { x with k := sset 0 x.k n (val 0), upsets := x.upsets.filter (· != n) }
    | .fabric p => s.mapProc p fun x => { x with k := sset 0 x.k n (val 0) }
    | .control c => s.mapControl c fun x => { x with k := sset 0 x.k n (val 0) }
  | _, _ => s

/-- Whether an operation's results are held: its threads are frozen (R323). -/
def State.opFrozen (s : State) (o : LongOp) : Bool :=
  match o.issuer with
  | .group _ => o.present.any (s.threadFrozen o.wg)
  | .control _ => false
  | _ => s.unitFrozen o.job

/-- The refresh of an acquiring atomic (R219, Table 8.4). -/
def State.acquire (s : State) (o : LongOp) : State :=
  match o.kind, o.issuer with
  | .atom _ _ _ fl _, .group _ | .atomx _ _ fl _, .group _ => if fl == .acq || fl == .ar then s.refresh o.core else s
  | _, _ => s

/-- Give an operation its results: written now, or held while a freeze lasts. -/
def State.deliver (s : State) (o : LongOp) (v : W64) (got : List (Nat × W64)) : State :=
  let s := s.acquire o
  if s.opFrozen o then s.mapOp o.id fun o => { o with held := some v, got } else s.landOp o v got

/-- Apply the held results of some operations (R323). -/
def State.applyHeld (s : State) (p : LongOp → Bool) : State :=
  (s.ops.filter fun o => o.held.isSome && p o).foldl (fun s o => s.landOp o (o.held.getD 0) o.got) s

/-! ### Faults found after issue (R317) -/

/-- An operation without some of its threads. -/
def LongOp.without (o : LongOp) (tids : List Nat) : LongOp :=
  let cut := fun (l : List AtomLane) => l.filter fun a => !tids.contains a.tid
  { o with present := o.present.filter fun t => !tids.contains t
           tids := o.tids.filter fun t => !tids.contains t
           kind := match o.kind with
             | .atom op sh k fl l => .atom op sh k fl (cut l)
             | .atomx c sh fl l => .atomx c sh fl (cut l)
             | k => k }

/-- Take some threads out of an operation: it counts as complete for them, and ends with the last. -/
def State.shrinkOp (s : State) (o : LongOp) (tids : List Nat) : State :=
  let r := o.without tids
  if r.present.isEmpty then s.endOp o
  else (s.completeFlags { o with present := o.present.filter tids.contains }).mapOp o.id fun _ => r

/-- Whether an operation is an atomic of a group that nothing of which has been performed, and whose checks may still fail. -/
def LongOp.unperformed (o : LongOp) : Bool :=
  !o.checked && !o.sent && o.held.isNone && match o.kind, o.issuer with
    | .atom .., .group _ | .atomx .., .group _ => true
    | _, _ => false

/-- The atomics that a fault stop overtakes: those of a stopped group's threads that have not been performed are discarded, as the
re-execution of their region performs them (R83, R317; log 108). A `katom` of threads that go on stays. -/
def State.discardAtomics (s : State) (g : Group) : State :=
  (s.ops.filter fun o => o.wg == g.wg && o.unperformed && o.present.any g.tids.contains).foldl (fun s o =>
    match s.op? o.id with
    | some o => s.shrinkOp o g.tids
    | none => s) s

/-- Take a fault of an access of some threads. Threads are taken by the group they are in; a thread in a bin or parked is taken out into a
stopped group of its own; an exited thread's fault is discarded. -/
def State.threadFault (s : State) (wg pc cause sub detail addr : Nat) (tids : List Nat) (noResume : Bool) : State :=
  tids.foldl (fun s tid =>
    match s.thread? wg tid with
    | none => s
    | some t =>
      if t.place == .exited then s else
      let (s, g) := s.isolate wg tid
      let mates := (((s.group? g).map (·.tids)).getD []).filter tids.contains
      let s := match s.group? g with
        | some g => s.discardAtomics g
        | none => s
      s.trapGroup g cause sub detail 0 addr pc (mates.map (· % 32)) noResume) s

/-- Take an operation's fault on the unit that issued it. -/
def State.opFault (s : State) (o : LongOp) (cause sub addr : Nat) (tids : List Nat) (noResume : Bool) : State :=
  match o.issuer with
  | .stream w => s.trapStream w cause sub 0 addr o.pc 0
  | .fabric n => s.trapProc n cause sub addr o.pc
  | .control n => s.trapControl n
  | .group _ => s.threadFault o.wg o.pc cause sub 0 addr tids noResume

/-- The operations of the same word: the lanes of one instruction (R317). -/
def LongOp.sameWord (o q : LongOp) : Bool := q.issuer == o.issuer && q.pc == o.pc && q.issued == o.issued && q.wg == o.wg

/-- Whether a unit stands stopped. -/
def State.unitStopped (s : State) (u : UnitId) : Bool :=
  match u with
  | .group g => ((s.group? g).bind (·.stop)).isSome
  | .stream w => ((s.stream? w).bind (·.stop)).isSome
  | .fabric n => ((s.proc? n).bind (·.stop)).isSome
  | .control n => ((s.control? n).map (·.trapped)).getD false

/-- An operation of a stream or a fabric processor fails after its issue: the unit stops, and the operation stays, to be performed
anew once the unit continues (R309, R357). -/
def State.failUnitOp (s : State) (o : LongOp) (cause sub addr : Nat) : State :=
  if s.unitStopped o.issuer then s
  else (s.mapOp o.id fun o => { o with sent := false, checked := false, got := [], own := [] }).opFault o cause sub addr [] false

/-- Whether an operation is one of a stream or a fabric processor. -/
def LongOp.ofUnit (o : LongOp) : Bool := match o.issuer with | .stream _ | .fabric _ => true | _ => false

/-- An atomic's check failed before any lane was performed: the failing lanes' groups stop, and discard their lanes of it; the lanes of
threads that go on elsewhere stay to be performed. A `katom` fails for every thread it serves (R122, R242). -/
def State.failAtomic (s : State) (o : LongOp) (cause sub addr : Nat) (tids : List Nat) (lanes : Nat) : State :=
  let tids := if lanes = 1 then o.present else tids
  let s := s.opFault o cause sub addr tids false
  match s.op? o.id with
  | some o => s.shrinkOp o tids
  | none => s

/-- An operation's check failed: its word's lanes that fail are found together, and each failing lane's operation ends. -/
def State.failOp (s : State) (o : LongOp) (cause sub addr : Nat) (tids : List Nat) : State :=
  let s := if cause = 3 then s.walked o.accessor addr else s
  if o.ofUnit then s.failUnitOp o cause sub addr else
  match o.kind with
  | .atom _ _ _ _ l | .atomx _ _ _ l => s.failAtomic o cause sub addr tids l.length
  | _ =>
  let mates := s.ops.filter fun q => o.sameWord q && q.id != o.id && s.clear q.after && !q.sent
  let bad := mates.filter fun q => match s.opCheck q with | .error _ => true | .ok _ => false
  let alike := bad.filter fun q => match s.opCheck q with | .error (c, e, _, _) => c == cause && e == sub | .ok _ => false
  let s := (o :: bad).foldl (fun s q => s.endOp q) s
  s.opFault o cause sub addr (tids ++ alike.flatMap (·.present)) false

/-! ### The binning engine's patch and the Timetable's wait -/

/-- A copy's held words with BOX_d replaced (Table 10.1). -/
def patchBox (words : List W64) (d v : Nat) : List W64 :=
  let i := if d < 4 then 11 else 12
  let lo := 16 * (d % 4)
  let w := (words.getD i 0).toNat
  words.set i (w64 (w - w / 2 ^ lo % 2 ^ 16 * 2 ^ lo + v % 2 ^ 16 * 2 ^ lo))

/-- `binpatch` performed at its engine (R274): the value stored, and the state with the held entry patched. -/
def State.patch (s : State) (job target : Nat) (b c : W64) (field : PatchField) (index : Nat) : W64 × State :=
  let none_ : W64 × State := (BitVec.allOnes 64, s)
  if 2 ^ 16 ≤ b.toNat then none_ else
  let set := sget (⟨0, [], 0⟩ : BinSet) s.binsets (fld b.toNat 8 8)
  let v := sget 0 set.counts (fld b.toNat 0 8) * c.toNat
  let region := s.regions.find? fun r => r.job == job && r.held && r.va == target
  let isHeld := fun (c : Copy) => c.job == job && match c.kind with
    | .bulk _ _ _ tlr _ _ _ .held _ => tlr == target
    | _ => false
  match field with
  | .gx => match region with
    | some r => if index ≠ 0 then none_ else
      let x := min v (2 ^ 32 - 1)
      (w64 x, s.mapRegion r.id fun r => { r with words := r.words.set 10 (w64 (r.gy * 2 ^ 32 + x)) })
    | none => none_
  | .par => match region with
    | some r => if r.field 15 0 10 / 8 ≤ index then none_ else
      (w64 v, s.mapRegion r.id fun r => { r with params := r.params.set index (w64 v) })
    | none => none_
  | .box => match s.copies.find? isHeld with
    | some cp => match cp.kind with
      | .bulk bar n arr tlr org off words st ra =>
        if fld (words.getD 1 0).toNat 56 3 ≤ index then none_ else
        let x := min v 65535
        (w64 x, { s with copies := updFirst (·.id == cp.id) (fun q => { q with kind := .bulk bar n arr tlr org off (patchBox words index x) st ra }) s.copies })
      | _ => none_
    | none => none_

/-- A register of the Timetable by its index (Table 16.13). -/
def Timetable.reg (t : Timetable) (i : Nat) : W64 :=
  if i = 0 then w64 (t.state + t.code * 2 ^ 8 + t.sub * 2 ^ 12)
  else if i = 1 then w64 (t.head + t.pass * 2 ^ 16)
  else if i = 2 then t.bup else if i = 3 then t.bdn else if i = 4 then t.bst
  else if i = 5 then w64 t.crf else if i = 6 then w64 t.crb
  else if i = 7 then w64 (t.runs.foldl (fun a r => a ||| ((2 ^ r.2.2 - 1) * 2 ^ r.2.1)) 0)
  else if i = 8 then w64 t.drop
  else if 0x10 ≤ i && i < 0x20 then w64 (sget 0 t.frdy (i - 0x10))
  else if 0x20 ≤ i && i < 0x30 then w64 (sget 0 t.brdy (i - 0x20))
  else BitVec.allOnes 64

/-- Whether an entry of a pass has completed (R402, R409): it was issued, and its task is no longer running. -/
def Timetable.entryDone (t : Timetable) (pass entry : Nat) : Bool :=
  (decide (pass < t.pass) || (pass == t.pass && decide (entry < t.head))) &&
    !(t.tasks.any fun k => k.pass == pass && k.entry == entry)

/-- TLEN of the Timetable's TCB. -/
def Timetable.tlen (t : Timetable) : Nat := fld (t.tcb.getD 0 0).toNat 0 10

/-- The counter that a `ttwait` selects (R409): 0 `.rdy`, 1 `.cr`. -/
def Timetable.counter (t : Timetable) (sel : Nat) (a : W64) : Nat :=
  if sel = 0 then (if fld a.toNat 4 1 = 0 then sget 0 t.frdy (fld a.toNat 0 4) else sget 0 t.brdy (fld a.toNat 0 4))
  else if sel = 1 then (if fld a.toNat 0 1 = 0 then t.crf else t.crb) else 0

/-- Whether the engine runs for a job, frozen or not. -/
def Timetable.runsFor (t : Timetable) (job : Nat) : Bool := (t.state == 1 || t.state == 2) && t.job == job

/-- The neighbour's package, by side; 0xFFFF for none (Table 16.8). -/
def Timetable.neighbour (t : Timetable) (prev : Bool) : Nat := fld (t.tcb.getD 2 0).toNat (if prev then 0 else 16) 16

/-- Send a ready or free-slot message to a neighbour, or count it in DROP (R408). -/
def State.ttSend (s : State) (job : Nat) (free prev : Bool) (mb count : Nat) : State :=
  let k := s.tt.neighbour prev
  if !s.tt.runsFor job || k = 0xFFFF || count = 0 then { s with tt := { s.tt with drop := s.tt.drop + 1 } }
  else s.send (.timetable k ⟨job, free, prev, mb, count⟩)

/-- Send every message of a group whose boundaries and `cwait`s have completed (R408), but none of a job that stands frozen (R391). -/
def State.flushPosts (s : State) : State :=
  let due := fun (p : PendingPost) => s.clear p.after && !s.unitFrozen p.job
  (s.posts.filter due).foldl (fun s p => s.ttSend p.job p.free p.prev p.mb p.count) { s with posts := s.posts.filter fun p => !due p }

/-! ### The head of the Timetable, and its bubbles (R400 to R405) -/

/-- An entry, taken apart (Table 16.9). -/
structure TtEntry where
  kind  : Nat
  mb    : Nat
  sd    : Int
  upn   : Nat
  dnn   : Nat
  stage : Nat
  leaf  : Nat
  sound : Bool
deriving DecidableEq, Repr

/-- The entry of two words; `sound` says that KIND, SD and the reserved field are legal, and UPN and DNN 0 in a W entry. -/
def ttEntry (w : W64 × W64) : TtEntry :=
  let f := fld w.1.toNat
  let sd := signed 8 (f 8 8)
  { kind := f 0 4, mb := f 4 4, sd, upn := f 16 8, dnn := f 24 8, stage := f 32 8, leaf := w.2.toNat
    sound := decide (f 0 4 < 4) && decide (-64 ≤ sd) && decide (sd ≤ 64) && f 40 24 == 0 &&
      !(f 0 4 == 3 && (f 16 8 != 0 || f 24 8 != 0)) }

/-- Fields of the TCB (Table 16.8). -/
def Timetable.stg (t : Timetable) : Nat := fld (t.tcb.getD 0 0).toNat 40 8
def Timetable.stash (t : Timetable) : Nat := fld (t.tcb.getD 0 0).toNat 32 8
def Timetable.reps (t : Timetable) : Nat := fld (t.tcb.getD 0 0).toNat 16 16
def Timetable.tbase (t : Timetable) : Nat := (t.tcb.getD 1 0).toNat
def Timetable.cmb (t : Timetable) : Nat := (t.tcb.getD 3 0).toNat

/-- The ready and the credit counter of an entry (R401). -/
def Timetable.ready (t : Timetable) (e : TtEntry) : Nat :=
  if e.kind = 1 then sget 0 t.frdy e.mb else if e.kind = 2 then sget 0 t.brdy e.mb else 0
def Timetable.credit (t : Timetable) (e : TtEntry) : Nat := if e.kind = 1 then t.crf else if e.kind = 2 then t.crb else 0

/-- The run of stash slots that a micro-batch holds: first slot and length. -/
def Timetable.run (t : Timetable) (mb : Nat) : Nat × Nat := sget (0, 0) t.runs mb

/-- The lowest free run of `n` slots within the stash (R402). -/
def Timetable.freeRun (t : Timetable) (n : Nat) : Option Nat :=
  (List.range (t.stash + 1 - n)).find? fun a => t.runs.all fun r => !overlaps a n r.2.1 r.2.2

/-- The waits of the head (R402): up, down, stash. -/
def State.ttWaits (s : State) (e : TtEntry) : Bool × Bool × Bool :=
  let t := s.tt
  let leafBusy := s.regions.any fun r => r.job == t.job && r.va == e.leaf && r.field 0 56 8 == 3 && decide (1 ≤ r.state) && decide (r.state ≤ 3)
  (t.tasks.any (·.mb == e.mb) || leafBusy || decide (t.ready e < e.upn), decide (t.credit e < e.dnn),
    decide (0 < e.sd) && (t.freeRun e.sd.toNat).isNone)

/-- The clk up to which clks count as of clk `upto`: not beyond the freeze that holds the engine. -/
def State.ttUpto (s : State) (upto : Nat) : Nat :=
  let a := match s.pfrz with
    | some c => min upto c
    | none => upto
  match if s.tt.state = 2 then (s.job? s.tt.job).bind (·.freeze) else none with
  | some f => min a f.cyc
  | none => a

/-- Count the clks up to `upto` in the bubble counter whose condition holds (R405). -/
def State.ttCount (s : State) (upto : Nat) : State :=
  let t := s.tt
  let n := s.ttUpto upto - t.counted
  match t.entry with
  | none => s
  | some w =>
    if t.state != 1 && t.state != 2 then s else
    let e := ttEntry w
    let ws := s.ttWaits e
    let t := { t with counted := t.counted + n }
    { s with tt := if e.kind = 0 then t else if ws.1 then { t with bup := t.bup + w64 n } else if ws.2.1 then { t with bdn := t.bdn + w64 n }
                   else if ws.2.2 then { t with bst := t.bst + w64 n } else t }

/-! ### What completes -/

/-- The value with which a `ttwait` completes now, if it does (R409). -/
def State.ttwaitValue (s : State) (job sel : Nat) (a thr : W64) : Option W64 :=
  let t := s.tt
  let mine := t.runsFor job
  if sel = 3 then some ((s.ttCount s.cyc).tt.reg (fld a.toNat 0 8))
  else if !mine then some (w64 ((if t.job == job && t.state != 0 then t.counter sel a else 0) + 2 ^ 62))
  else if sel = 2 then
    if t.tlen ≤ fld a.toNat 0 9 then some (BitVec.allOnes 64)
    else if t.entryDone (fld a.toNat 16 16) (fld a.toNat 0 9) then some 1 else none
  else if thr.toNat ≤ t.counter sel a then some (w64 (t.counter sel a)) else none

/-- A `cwait` whose copies have been performed is over, and its batches are empty; a fault of one of them is taken for every lane of the
instruction whose copies met the same subcause (R251, R252). -/
def State.copiesDone (s : State) (o : LongOp) (ids : List Nat) : State :=
  let cs := fun (l : List Nat) => s.copies.filter fun c => l.contains c.id
  match (cs ids).filterMap (·.outFault) with
  | [] => if (cs ids).isEmpty then ((s.endOp o).mapThreads o.wg o.present fun t =>
      { t with batches := t.batches.filter fun b => !ids.contains b.1 }).flushPosts else s
  | (_, a, e) :: _ =>
    let alike := s.ops.filter fun q => o.sameWord q && match q.kind with
      | .cwait l => (cs l).any fun c => (c.outFault.map (·.2.2)) == some e
      | _ => false
    let gone := alike.flatMap fun q => match q.kind with
      | .cwait l => cs l
      | _ => []
    ((alike.foldl (fun s q => s.endOp q) s).dropFailed gone).threadFault o.wg o.pc 0x0A 4 e a (alike.flatMap (·.present)) true

/-- What a completing operation of any kind gives. -/
def State.opOut (s : State) (o : LongOp) : OpOut :=
  match o.kind with
  | .binpatch target b c field index => if s.unitFrozen o.job then .wait else let r := s.patch o.job target b c field index; .done r.1 r.2
  | .ttwait sel a thr _ _ =>
    match s.ttwaitValue o.job sel a thr with
    | some v => .done v s
    | none => .wait
  | _ => s.performOp o

/-- LONG_LATENCY_COMPLETE (R30). -/
def execLongLatencyComplete (op : Nat) (s : State) : Result :=
  match s.op? op with
  | none => .next s
  | some o =>
    if o.sent || o.held.isSome || !s.clear o.after then .next s else
    match o.kind with
    | .cwait ids => .next (s.copiesDone o ids)
    | _ =>
    match s.opCheck o with
    | .error (c, e, a, tids) => .next (s.failOp o c e a tids)
    | .ok t =>
      if t.loadBehind o then .next s else
      match t.opOut o with
      | .wait => .next s
      | .sent t got own => if s.opFrozen o then .next s else .next (t.mapOp o.id fun o => { o with sent := true, checked := true, got, own })
      | .done v t => .next (t.deliver o v [])
      | .each l t =>
        let got := l.map fun e => (e.1, match o.kind with
          | .atom _ sh k _ _ => extendLoad (k == .i) (widthOf sh) e.2.toNat
          | _ => e.2)
        .next (t.deliver o ((got.head?.map (·.2)).getD 0) got)

/-! ### `waitv` (R174) -/

/-- File a released thread under the header after its park (Table 5.9). -/
def State.release (s : State) (wg tid : Nat) : State :=
  match s.wg? wg with
  | none => s
  | some w =>
    match w.thread? tid with
    | none => s
    | some t => s.fileOrTrap w (tid / 32) [tid % 32] t.next false none t.next

/-- Whether a value meets a `waitv` condition: the low width bits of both, by the kind (R98, R174). -/
def WaitvPark.holds (w : WaitvPark) (v : Nat) : Bool :=
  let n := 8 * w.width
  let int := fun (x : Nat) => if w.signed then Sys2Proof.signed n (x % 2 ^ n) else ((x % 2 ^ n : Nat) : Int)
  condHolds w.cond (int v) (int w.operand.toNat)

/-- Update a parked thread's record. -/
def State.setPark (s : State) (wg tid : Nat) (w : WaitvPark) : State := s.mapThread wg tid fun t => { t with place := .waitv w }

/-- The record of a thread parked by `waitv`. -/
def State.parkOf (s : State) (wg tid : Nat) : Option WaitvPark :=
  (s.thread? wg tid).bind fun t => match t.place with | .waitv w => some w | _ => none

/-- WAITV_REREAD (R174): the location is read with the effect of an acquiring load. -/
def execWaitvReread (wg tid : Nat) (s : State) : Result :=
  match s.wg? wg, s.parkOf wg tid with
  | some g, some w =>
    match s.op? w.op with
    | none => .next s
    | some o =>
      if g.residence != .resident || s.threadFrozen wg tid || o.sent || !s.clear o.after then .next s else
      let u := s.wgAccessor g
      match checkAccess s u (loadRule w.width) o.checked w.va w.width with
      | .error (c, e, a) => .next ((s.endOp o).opFault o c e a [tid] false)
      | .ok s =>
        let s := s.refresh g.core
        match s.loadAt u (o.reader false) true w.va w.width with
        | .wait | .fault .. => .next s
        | .remote k pa exr own t =>
          let t := (t.request k o.job pa exr (.read w.width) (.op o.id w.va)).mapOp o.id fun o => { o with sent := true, checked := true, own }
          .next (t.setPark wg tid { w with read := s.cyc })
        | .bytes l t =>
          let v := leNat l
          if w.holds v then .next ((t.landOp o (extendLoad w.signed w.width v) []).release wg tid)
          else .next ((t.mapOp o.id fun o => { o with checked := true, got := [], own := [] }).setPark wg tid
            { w with read := s.cyc, lastRead := some (extendLoad w.signed w.width v) })
  | _, _ => .next s

/-- WAITV_TIMEOUT (R174): the timer stands still while a debug cause stops a group of the workgroup, or a freeze holds. -/
def execWaitvTimeout (wg tid : Nat) (s : State) : Result :=
  match s.wg? wg, s.parkOf wg tid with
  | some g, some w =>
    if g.residence != .resident || s.threadFrozen wg tid || s.debugStopped wg || w.timeout = 0 || s.cyc < w.since + w.timeout then .next s
    else match w.lastRead, s.op? w.op with
      | some v, some o => .next ((s.landOp o v []).release wg tid)
      | _, _ => .next s
  | _, _ => .next s

/-! ### Drains and boundaries (R213 to R216) -/

/-- Whether an earlier store of the path must be performed before another: of the same core to the same byte; core-scope stores reach the
L1 in local order (R210), a thread's host stores the host in program order (R233). -/
def PathStore.before (q p : PathStore) : Bool :=
  q.core == p.core && decide (q.seq < p.seq) && !q.posted &&
    ((sameSpace q.dest p.dest && q.bytes.any fun a => p.has a.pa) || (q.dest == .core && p.dest == .core) ||
      (q.dest == .host && p.dest == .host && q.wg == p.wg && q.tids.any p.tids.contains))

/-- Whether a store of the path may be performed now: its boundaries have completed, no earlier store must come before it, its threads'
earlier loads have their values, no `fence.io` holds it, and no Bell does (Table 16.3, R213, R248, R395). -/
def State.mayDrain (s : State) (p : PathStore) : Bool :=
  !p.sent && s.clear p.after && (p.stepped || !s.jobFrozenAt p.job s.cyc) && !s.readsBefore p.wg p.tids p.seq &&
  (p.dest != .host || !s.ioFenced p.wg p.tids p.seq) && !s.path.any (·.before p)

/-- Perform a store of the path at its scope home (R210, R230): each sector is one write (R216). A host store is posted, and stays until
the host acknowledges it. -/
def State.drain (s : State) (p : PathStore) : State :=
  let gone := fun (s : State) => { s with path := s.path.filter (· != p) }
  match p.dest with
  | .home => (gone (s.homeWrite (s.homeMerge p.data))).l1Update p.core .home p.data
  | .core => gone (s.l1Write p.core p.job p.wg p.data)
  | .host => { s.send (.hostWrite (p.bytes.map fun b => (b.pa, b.val))) with path := s.path.map fun q => if q == p then { q with sent := true } else q }
  | .cell a n => gone ((s.touch a).setCell a (cellOf ((cellFormat n).toVal (leNat (p.bytes.map (·.val))))))
  | .package k =>
    let tag := s.seq
    let s := { s with path := s.path.map fun q => if q == p then { q with sent := true, tag } else q }
    s.request k p.job ((p.bytes.map (·.pa)).head?.getD 0) p.exr (.write p.data) (.store tag)

/-- STORE_DRAIN (R216), or the host's acknowledgement of a posted store. -/
def execStoreDrain (core index : Nat) (s : State) : Result :=
  match (s.path.filter (·.core == core))[index]? with
  | some p => .next (if p.posted then { s with path := s.path.filter (· != p) } else if s.mayDrain p then s.drain p else s)
  | none => .next s

/-- Whether every store that precedes a boundary has been performed; core-scope stores are not published (R215), but reach the L1 before
their workgroup is saved (R217). A boundary that refreshes waits for its threads' earlier loads (Table 8.2). -/
def State.boundaryMet (s : State) (b : Boundary) : Bool :=
  s.clear b.after &&
  !(s.path.any fun p => p.core == b.core && decide (p.seq < b.limit) && !p.posted && (p.dest != .core || (b.next == .save && p.wg == b.wg))) &&
  (b.next != .refresh || !s.loadsUntaken b.wg b.tids b.id)

end Sys2Proof.Machine
end

