-- ==== Sys2Proof/Machine/Own.lean ====
section
/-!
DEFINITION. The accesses of the package's own units (command processor, dispatcher, loader, Timetable): translated under a job, at
package scope, by no core (R134, R139, R144, R399, R431).
-/
namespace Sys2Proof.Machine

/-- A page rule of the package's own units: no EXR page serves them. -/
def ownRule (n : Need) : PageRule := { plainRule n with format := fun p => !p.exr }

/-- The page of an access of the package's own units under a rule. The access is made at the home die, so that the die of a die-scope
page is no fault. -/
def State.ownPageBy (s : State) (job : Nat) (rule : PageRule) (va : Nat) : Except Nat (Page × State) :=
  let at_ := fun (d : Nat) => s.translate (ownAccessor d job) rule false va
  match at_ 0, at_ 1, at_ 2, at_ 3 with
  | .error 5, .error 5, .error 5, r => r
  | .error 5, .error 5, r, _ => r
  | .error 5, r, _, _ => r
  | r, _, _, _ => r

/-- The page of a plain access of the package's own units. -/
def State.ownPage (s : State) (job : Nat) (n : Need) (va : Nat) : Except Nat (Page × State) := s.ownPageBy job (ownRule n) va

/-- A little-endian word of `n` bytes, n dividing 8, read by the package's own units; a read of another package's page crosses to it
(R207). -/
def State.ownNat (s : State) (job va n : Nat) : Except Nat (Nat × State) :=
  match s.ownPage job .read va with
  | .error e => .error e
  | .ok (p, s) =>
    match p.home va with
    | .package _ => (farRead s.fresh va n).map fun l => (leNat l, s)
    | .host => .ok (leNat (hostRead s.fresh (p.pa va) n), s)
    | _ => let r := s.homeRead none (p.pa va) n; .ok (leNat r.1, r.2)

/-- `k` 64-bit words from an address. -/
def State.ownWords (s : State) (job va : Nat) : Nat → Except Nat (List W64 × State)
  | 0 => .ok ([], s)
  | k + 1 => match s.ownNat job va 8 with
    | .error e => .error e
    | .ok (v, s) => match State.ownWords s job (va + 8) k with
      | .error e => .error e
      | .ok (l, s) => .ok (w64 v :: l, s)

/-- Write a word of `n` bytes by the package's own units; nothing where the access would fault. -/
def State.ownWrite (s : State) (job va n v : Nat) : State :=
  match s.ownPage job .write va with
  | .error _ => s
  | .ok (p, s) =>
    match p.home va with
    | .package k => s.request k job (p.pa va) none (.write (whole ((leBytes n v).zipIdx.map fun e => (p.pa va + e.2, e.1)))) .own
    | .host => s.hostWrite (p.pa va) (leBytes n v)
    | _ => s.homeWrite ((leBytes n v).zipIdx.map fun e => (p.pa va + e.2, e.1))

/-- Write a value of `n` bytes that may cross a page. -/
def State.ownWriteAny (s : State) (job va n v : Nat) : State :=
  if va % 0x10000 + n ≤ 0x10000 then s.ownWrite job va n v
  else (leBytes n v).zipIdx.foldl (fun s e => s.ownWrite job (va + e.2) 1 e.1.toNat) s

/-- Write the STATUS word of a region where its RCB stands (R134). -/
def State.writeStatus (s : State) (id : Nat) : State :=
  match s.region? id with
  | some r => s.ownWriteAny r.job (r.va + 0x28) 8 r.status
  | none => s

/-- Change a region's STATE, and write it (R134, Table 5.6). -/
def State.setRegionState (s : State) (id st : Nat) : State :=
  match s.region? id with
  | some r => if r.state = st then s else (s.mapRegion id fun r => { r with state := st }).writeStatus id
  | none => s

/-- The regions of a subtree: those whose chain of parents passes through `id`, itself among them. -/
def State.inSubtree (s : State) (id : Nat) : Nat → Region → Bool
  | 0, r => r.id == id
  | n + 1, r => r.id == id || ((r.parent.bind s.region?).map (s.inSubtree id n)).getD false
/-- Whether a region lies in the subtree of another. -/
def State.under (s : State) (id : Nat) (r : Region) : Bool := s.inSubtree id s.regions.length r

/-! ### Completion entries (R431) -/

/-- A queue's packet word 0 (R428). -/
def Queue.word0 (q : Queue) : Nat := ((q.packet.bind (·.words[0]?)).map (·.toNat)).getD 0

/-- Complete the packet of a queue: the 16-byte entry, then the MSI-X vector when IRQ is set; the queue moves on. -/
def State.completePacket (s : State) (n status detail : Nat) (value : W64) : State :=
  match s.queues[n]? with
  | none => s
  | some q =>
    if q.packet.isNone then s else
    let w0 := fld q.word0 0 24 + status % 256 * 2 ^ 24 + detail % 2 ^ 32 * 2 ^ 32
    let s := s.hostWrite (0x40000000000000 + q.qcbase.toNat + 16 * q.qhead.toNat) (leBytes 8 w0 ++ leBytes 8 value.toNat)
    let s := if fld q.word0 24 1 = 1 then s.send (.msix q.qmsi.toNat) else s
    { s with queues := s.queues.modify n fun q =>
        { q with packet := none, done := q.done + 1, qhead := w64 ((q.qhead.toNat + 1) % max 1 q.qsize.toNat) } }

/-- An entry of queue 0's completion ring that no packet asked for (R139, R330, R431). -/
def State.report (s : State) (op : Nat) (value : W64) (detail : Nat) : State := s.send (.report op value detail)

end Sys2Proof.Machine
end

