-- ==== Sys2Proof/Machine/Loader.lean ====
section
/-!
DEFINITION. The program loader (R35, R80 to R83, R283, R334): the runs reachable from a kernel's entry, their graph, and the checks
FORM, DIST, YIELD and REGION of Table 3.15. It reads code words by their fields.
-/
namespace Sys2Proof.Machine

/-! ### What a code word reads and writes -/

/-- A register that a code word names. -/
inductive CodeReg where
  | x (n : Nat) | p (n : Nat) | k (n : Nat) | o (n : Nat) | l (n : Nat)
deriving DecidableEq, Repr

/-- Whether a register outlives its run (R24). -/
def CodeReg.lasting : CodeReg → Bool
  | .o _ | .l _ => false
  | _ => true

/-- The register of a 7-bit source (Table 3.3). -/
def codeSrc7 (c : Nat) : List CodeReg :=
  if c < 0x40 then [.x c] else if c < 0x50 then [.k (c - 0x40)] else if c < 0x58 then [.o (c - 0x50)]
  else if c < 0x5C then [.l (c - 0x58)] else []
/-- The register of an 8-bit source (Table 3.8). -/
def codeSrc8 (c : Nat) : List CodeReg :=
  if c < 0x80 then [.x c] else if c < 0xC0 then [.k (c - 0x80)] else if c < 0xC8 then [.o (c - 0xC0)]
  else if c < 0xCC then [.l (c - 0xC8)] else []
/-- The register of a 6-bit destination, or of a store's data (Table 3.4). -/
def codeDst6 (c : Nat) : List CodeReg := if c < 0x30 then [.x c] else if c < 0x38 then [.o (c - 0x30)] else []
/-- The register of an 8-bit destination (Table 3.8). -/
def codeDst8 (c : Nat) : List CodeReg :=
  if c < 0x80 then [.x c] else if c < 0xC0 then [.k (c - 0x80)] else if c < 0xC8 then [.o (c - 0xC0)] else []

/-- How a run ends when its last instruction is one of R33's; `cond` that some lanes may go on to the next header. -/
inductive Branch where
  | direct (off : Int) (cond : Bool)
  | call (off : Int) (cond : Bool)
  | indirect (cond : Bool)
  | ret (cond : Bool)
  | exit (cond : Bool)
deriving DecidableEq, Repr

/-- What the loader takes from one instruction; `lat` is 0 where no fixed-latency result is formed, and `whole` says that no guard can leave
a destination as it was. -/
structure CodeUse where
  reads   : List CodeReg
  writes  : List CodeReg
  whole   : Bool
  lat     : Nat
  nonIdem : Bool
  branch  : Option Branch
deriving DecidableEq, Repr

/-- Latency of a lane-set instruction's result (Table 1.4, R26); 0 for long latency or no result. -/
def laneLat (op : Nat) : Nat :=
  if op < 0x1C then (if op = 2 || op = 3 || op = 4 || op = 0x1A || op = 0x1B then 2 else 1)
  else if 0x20 ≤ op && op < 0x34 then (if 0x28 ≤ op && op < 0x30 then 0 else 4)
  else if 0x40 ≤ op && op < 0x48 then 2
  else if 0x50 ≤ op && op < 0x58 then 5
  else if op = 0x72 then 1 else 0
/-- Latency of a uniform instruction's result (Table 1.4, R26). -/
def uniLat (op : Nat) : Nat :=
  if op < 0x15 then (if op = 2 || op = 3 then 2 else if op = 4 then 5 else 1)
  else if op = 0x25 || op = 0x31 || op = 0x33 || op = 0x35 || op = 0x3A || op = 0x73 then 1 else 0

/-- Non-idempotent instructions (R83). -/
def nonIdempotent (uni : Bool) (op : Nat) : Bool :=
  if uni then op == 0x22 || op == 0x36 || op == 0x31 || op == 0x28 || op == 0x37 || op == 0x38 || op == 0x39 || op == 0x70 || op == 0x72
  else op == 0x66 || op == 0x67 || op == 0x6A || op == 0x6B

/-- Instructions whose D names data to store (R119). -/
def storesData (uni : Bool) (op : Nat) : Bool :=
  if uni then op == 0x21 else op == 0x61 || op == 0x63 || op == 0x65 || op == 0x68

/-- The predicates that an instruction's own fields read and write (R97 to R99, R105). -/
def codePreds (uni dbl : Bool) (op w0 w1 : Nat) : List CodeReg × List CodeReg :=
  if uni then ([], [])
  else if op = 0x15 || op = 0x26 then ([], [.p (if dbl then fld w0 12 3 else fld w0 14 3)])
  else if !dbl then ([], [])
  else if op = 0x14 then ([.p (fld w1 0 3)], [])
  else if op = 0x16 || op = 0x17 then
    (if fld w1 3 1 = 1 then [.p (fld w1 0 3)] else [], if fld w1 7 1 = 1 then [.p (fld w1 4 3)] else [])
  else ([], [])

/-- The predicates of the two guards of a word (R71, Table 3.6). -/
def codeGuards (pfx : Option Nat) (dbl : Bool) (w0 w1 : Nat) : List CodeReg :=
  (match pfx with
    | some p => if fld p 21 1 = 1 then [.p (fld p 17 3)] else []
    | none => []) ++
  if dbl && fld w0 3 1 == 0 && fld w1 15 1 == 1 then [.p (fld w1 12 2)] else []

/-- The k registers that a word reads without naming each: the origin of a copy (R262), the mask of `cinchcfg` (R172), the random
bits of `rng` and of a prefix's stochastic rounding (R50, R116). -/
def codeExtra (pfx : Option Nat) (uni : Bool) (op w0 w1 : Nat) : List CodeReg :=
  if uni && op == 0x36 && isDouble w0 then (List.range 3).map fun i => .k (fld w1 24 8 - 0x80 + i)
  else if uni && op == 0x35 && isDouble w0 && fld w0 4 8 != 0xCC then (List.range 4).map fun i => .k (fld w0 4 8 - 0x80 + i)
  else if !uni && op == 0x45 then [.k 61, .k 62]
  else if (pfx.map fun p => fld p 26 3 == 5).getD false then [.k 61, .k 62, .k 63] else []

/-- The branch of an instruction, if it is one (R33). -/
def codeBranch (guarded uni dbl : Bool) (op w0 w1 : Nat) : Option Branch :=
  let off := if dbl then signed 32 w1 else signed 20 (fld w0 0 20)
  if uni then
    if op = 0x23 then some (.direct off (dbl && fld w0 12 8 != 0xFF))
    else if op = 0x24 then some (.indirect false)
    else if op = 0x25 then some (.call off false)
    else if op = 0x26 then some (.ret false)
    else if op = 0x27 then some (.exit false) else none
  else if op = 0x70 then some (.direct off guarded)
  else if op = 0x71 then some (.indirect guarded)
  else if op = 0x72 then some (.call off guarded)
  else if op = 0x73 then some (.ret guarded)
  else if op = 0x75 then some (.exit guarded) else none

/-- What the loader takes from one instruction and the prefix before it. -/
def codeUse (pfx : Option Nat) (w0 w1 : Nat) : CodeUse :=
  let uni := isUniform w0
  let dbl := isDouble w0
  let op := opField w0
  let offset := (uni && op == 0x23) || (!uni && op == 0x70)
  let noDst := offset || storesData uni op || (!uni && (op == 0x15 || op == 0x26))
  let preds := codePreds uni dbl op w0 w1
  let guards := codeGuards pfx dbl w0 w1
  let ops := if dbl then
      codeSrc8 (fld w0 4 8) ++ (if fld w0 3 1 = 1 then [] else codeSrc8 (fld w1 24 8) ++ codeSrc8 (fld w1 16 8)) ++
        (if storesData uni op then codeSrc8 (fld w0 12 8) else [])
    else if offset then [] else
      codeSrc7 (fld w0 7 7) ++ codeSrc7 (fld w0 0 7) ++ (if storesData uni op then codeDst6 (fld w0 14 6) else [])
  { reads := ops ++ preds.1 ++ guards ++ codeExtra pfx uni op w0 w1
    writes := (if noDst then [] else if dbl then codeDst8 (fld w0 12 8) else codeDst6 (fld w0 14 6)) ++ preds.2
    whole := guards.isEmpty
    lat := if uni then uniLat op else laneLat op
    nonIdem := nonIdempotent uni op
    branch := codeBranch (!guards.isEmpty) uni dbl op w0 w1 }

/-! ### One run -/

/-- A walk over the counted words of a run: clk of the last issue with the header at 0, address, prefix, ready clks of this run's
results, pushes (latest first), registers written whatever the guards, registers read from before the run, instructions. -/
structure Scan where
  clk    : Nat
  addr   : Nat
  pfx    : Option Nat
  ready  : List (CodeReg × Nat)
  pushes : List Nat
  own    : List CodeReg
  reads  : List CodeReg
  uses   : List (Nat × CodeUse)
deriving DecidableEq, Repr

/-- The clk at which this run's own result in a register can be used. -/
def Scan.readyAt (s : Scan) : CodeReg → Nat
  | .l n => s.pushes.getD n 0
  | r => ((s.ready.find? (·.1 == r)).map (·.2)).getD 0

/-- Walk over one instruction of `n` words (R22 to R24, R27, R29). -/
def Scan.instr (s : Scan) (n w0 w1 : Nat) : Scan :=
  let u := codeUse s.pfx w0 w1
  let t := u.reads.foldl (fun a r => max a (s.readyAt r)) (s.clk + n)
  let kept := s.ready.filter fun e => !u.writes.contains e.1
  { clk := t, addr := s.addr + 4 * n, pfx := none
    ready := if u.lat = 0 then kept else kept ++ u.writes.map (·, t + u.lat)
    pushes := if u.lat = 0 then s.pushes else (t + u.lat) :: s.pushes
    own := if u.whole then s.own ++ u.writes else s.own
    reads := s.reads ++ u.reads.filter fun r => r.lasting && !s.own.contains r
    uses := s.uses ++ [(s.addr, u)] }

/-- Walk over the counted words of a run. -/
def Scan.words (s : Scan) : List Nat → Scan
  | [] => s
  | [w] => if isPrefixWord w || lenField w == 3 then { s with clk := s.clk + 1, addr := s.addr + 4, pfx := some w } else s.instr 1 w 0
  | w :: v :: r =>
    if isPrefixWord w || lenField w == 3 then Scan.words { s with clk := s.clk + 1, addr := s.addr + 4, pfx := some w } (v :: r)
    else if isDouble w then Scan.words (s.instr 2 w v) r
    else Scan.words (s.instr 1 w 0) (v :: r)

/-- A run as the loader sees it: its header, whether a form is bad, the clk of its trailer with the header at 0, what it may read from
before it, what it writes whatever its guards, settle times left at its trailer, its instructions, its next header, its branch. -/
structure CodeRun where
  head   : Nat
  r      : Bool
  dist   : Nat
  bad    : Bool
  clks   : Nat
  reads  : List CodeReg
  writes : List CodeReg
  settle : List (CodeReg × Nat)
  uses   : List CodeUse
  next   : Nat
  branch : Option (Nat × Branch)
deriving DecidableEq, Repr

/-- Read a word of code, as a fetch of the job by the package's own units. -/
def State.codeWord (s : State) (job pc : Nat) : Option Nat :=
  match s.ownPage job .fetch pc with
  | .error _ => none
  | .ok (p, s) =>
    match p.home pc with
    | .package _ => (farRead s.fresh pc 4).toOption.map leNat
    | .host => some (leNat (hostRead s.fresh (p.pa pc) 4))
    | _ => some (leNat (s.homeRead none (p.pa pc) 4).1)

/-- A run whose header or words are bad. -/
def CodeRun.bad_ (head : Nat) (r : Bool) (dist : Nat) : CodeRun :=
  { head, r, dist, bad := true, clks := 1, reads := [], writes := [], settle := [], uses := [], next := head, branch := none }

/-- The run at an address, when a header stands there (R74, R80). -/
def State.codeRun (s : State) (job pc : Nat) : Option CodeRun :=
  match s.codeWord job pc with
  | none => none
  | some w =>
    if !isHeaderWord w then none else
    match decodeHeader w with
    | .error _ => some (CodeRun.bad_ pc (fld w 6 1 == 1) (fld w 12 5))
    | .ok h =>
      let ws := (List.range (h.len + 1)).filterMap fun i => s.codeWord job (pc + 4 + 4 * i)
      let last := s.codeWord job (pc + 4 * (h.len + 2))
      if ws.length ≠ h.len + 1 || !(last.map isTrailerWord).getD false then some (CodeRun.bad_ pc h.r h.dist) else
      let c := Scan.words { clk := 0, addr := pc + 4, pfx := none, ready := [], pushes := [], own := [], reads := [], uses := [] } ws
      let t := c.clk + 1
      some { head := pc, r := h.r, dist := h.dist, bad := false, clks := t, reads := c.reads, writes := c.own
             settle := (c.ready.filter fun e => e.1.lasting && decide (t < e.2)).map fun e => (e.1, e.2 - t)
             uses := c.uses.map (·.2), next := pc + 4 * (h.len + 3)
             branch := c.uses.getLast?.bind fun u => u.2.branch.map (u.1, ·) }

/-! ### The graph (R81) -/

/-- A branch's target. -/
def branchTarget (pc : Nat) (off : Int) : Nat := unsigned 64 ((pc : Int) + 4 * off)

/-- The next header of a run, where it may go on there. -/
def CodeRun.falls (r : CodeRun) (cond : Bool) : List Nat := if cond then [r.next] else []

/-- The headers that a run names or falls to; those of a `ret` and of an indirect branch are found from the whole graph. -/
def CodeRun.direct (r : CodeRun) : List Nat :=
  if r.bad then [] else
  match r.branch with
  | none => [r.next]
  | some (pc, .direct off c) | some (pc, .call off c) => branchTarget pc off :: r.falls c
  | some (_, .indirect c) | some (_, .ret c) | some (_, .exit c) => r.falls c

/-- Whether a run ends with a call. -/
def CodeRun.calls (r : CodeRun) : Option Nat :=
  match r.branch with
  | some (pc, .call off _) => some (branchTarget pc off)
  | _ => none

/-- The headers to which a walk goes on from a run: the header after a call as well. -/
def CodeRun.walks (r : CodeRun) : List Nat := r.direct ++ if r.calls.isSome then [r.next] else []

/-- The runs that a walk from some headers finds. -/
def State.discover (s : State) (job : Nat) : Nat → List Nat → List CodeRun → List CodeRun
  | 0, _, found => found
  | _, [], found => found
  | n + 1, a :: todo, found =>
    if found.any (·.head == a) then s.discover job n todo found else
    match s.codeRun job a with
    | none => s.discover job n todo found
    | some r => s.discover job n (r.walks ++ todo) (found ++ [r])

/-- The runs that stand one after another in address order. -/
def State.sweep (s : State) (job : Nat) : Nat → Nat → List CodeRun
  | 0, _ => []
  | n + 1, a => match s.codeRun job a with
    | none => []
    | some r => r :: if r.bad then [] else s.sweep job n r.next

/-- Whether a run ends with an indirect branch. -/
def CodeRun.indirect (r : CodeRun) : Bool := match r.branch with
  | some (_, .indirect _) => true
  | _ => false

/-- The runs of a kernel: those that a walk from its entry finds, and, where one of them ends with an indirect branch, those that a walk
finds from every header with R = 1 of the kernel, which goes on from its entry in address order (R81, log 112). -/
def State.kernelRuns (s : State) (job entry : Nat) : List CodeRun :=
  let found := s.discover job (2 ^ 62) [entry] []
  if found.any (·.indirect) then s.discover job (2 ^ 62) (((s.sweep job (2 ^ 62) entry).filter (·.r)).map (·.head)) found else found

/-- The headers with R = 1 of some runs, where an indirect branch may land (R81). -/
def landings (runs : List CodeRun) : List Nat := (runs.filter (·.r)).map (·.head)

/-- The runs of a callee: those reached from its first header without following a return. -/
def calleeRuns (runs : List CodeRun) : Nat → List Nat → List Nat → List Nat
  | 0, _, seen => seen
  | _, [], seen => seen
  | n + 1, a :: todo, seen =>
    if seen.contains a then calleeRuns runs n todo seen else
    match runs.find? (·.head == a) with
    | none => calleeRuns runs n todo seen
    | some r =>
      let on := if r.calls.isSome then [r.next] else r.direct ++ if r.indirect then landings runs else []
      calleeRuns runs n (on ++ todo) (seen ++ [a])

/-- Steps that a walk over some runs may take: each is entered once and names at most all others and two more. -/
def walkFuel (runs : List CodeRun) : Nat := (runs.length + 4) * (runs.length + 1)

/-- The headers after the calls whose callee holds a run. -/
def returnsTo (runs : List CodeRun) (r : CodeRun) : List Nat :=
  runs.filterMap fun c => c.calls.bind fun t =>
    if (calleeRuns runs (walkFuel runs) [t] []).contains r.head then some c.next else none

/-- The successor headers of a run, those at which a header was found (R81). -/
def successors (runs : List CodeRun) (r : CodeRun) : List Nat :=
  let extra := match r.branch with
    | some (_, .indirect _) => landings runs
    | some (_, .ret _) => returnsTo runs r
    | _ => []
  (r.direct ++ if r.bad then [] else extra).filter fun a => runs.any (·.head == a)

/-- A run with its successors. -/
abbrev Graph := List (CodeRun × List Nat)

/-- The predecessors of a header. -/
def Graph.preds (g : Graph) (a : Nat) : List CodeRun := (g.filter fun e => e.2.contains a).map (·.1)

/-! ### The checks -/

/-- The settle time left in a register at the trailer of a run, from its own results or one that stood unsettled at its header
(R27, R35); a result outlives at most one further run. -/
def Graph.left (g : Graph) (r : CodeRun) (x : CodeReg) : Nat :=
  let own := ((r.settle.find? (·.1 == x)).map (·.2)).getD 0
  if r.writes.contains x then own else
  (g.preds r.head).foldl (fun a q =>
    max a ((((q.settle.find? (·.1 == x)).map (·.2)).getD 0) - (r.dist + 1 + r.clks))) own

/-- Whether a run can read an unsettled result (DIST). -/
def Graph.tooNear (g : Graph) (r : CodeRun) : Bool :=
  r.reads.any fun x => (g.preds r.head).any fun q => decide (r.dist < g.left q x)

/-- One round of the longest counts from each header to the end of a yield path (R82). -/
def Graph.longer (g : Graph) (v : List (Nat × Nat)) : List (Nat × Nat) :=
  g.map fun e => (e.1.head, e.1.clks + 1 + e.2.foldl (fun a b =>
    match g.find? (·.1.head == b) with
    | some q => max a (q.1.dist + if q.1.r then 0 else ((v.find? (·.1 == b)).map (·.2)).getD 0)
    | none => a) 0)

/-- Rounds of `longer`. -/
def Graph.rounds (g : Graph) : Nat → List (Nat × Nat)
  | 0 => g.map fun e => (e.1.head, 0)
  | n + 1 => g.longer (g.rounds n)

/-- The count that exceeds every limit. -/
def endless : Nat := 2 ^ 62

/-- The headers from which a path over `n` further headers with R = 0 goes on. -/
def Graph.goesOn (g : Graph) : Nat → List Nat
  | 0 => g.map (·.1.head)
  | n + 1 =>
    let before := g.goesOn n
    let on := (g.filter fun e => !e.1.r && before.contains e.1.head).map (·.1.head)
    (g.filter fun e => e.2.any on.contains).map (·.1.head)

/-- The longest count from each header that starts a yield path; a cycle without a header with R = 1 exceeds every limit (R82): a path
longer than the graph goes round one. -/
def Graph.longest (g : Graph) (entry : Nat) : List (Nat × Nat) :=
  let v := g.rounds g.length
  let round := g.goesOn (g.length + 1)
  (g.filter fun e => e.1.r || e.1.head == entry).map fun e =>
    (e.1.head, if round.contains e.1.head then endless
      else ((v.find? (·.1 == e.1.head)).map (·.2)).getD 0 + if e.1.r then 0 else e.1.dist)

/-- Whether a run breaks R83: more than one non-idempotent instruction, one that is not last (or last but a branch), or a
successor whose header has R = 0. -/
def Graph.notLast (g : Graph) (e : CodeRun × List Nat) : Bool :=
  let us := e.1.uses
  let n := (us.filter (·.nonIdem)).length
  let ends := (us.getLast?.map (·.nonIdem)).getD false ||
    (e.1.branch.isSome && (us.dropLast.getLast?.map (·.nonIdem)).getD false)
  n != 0 && (n != 1 || !ends || e.2.any fun b => g.any fun q => q.1.head == b && !q.1.r)

/-- What a region has done on the way to a point (R334): registers that every path has read or written, and registers that some
path read before writing them. -/
structure Touched where
  all  : List CodeReg
  read : List CodeReg
deriving DecidableEq, Repr

/-- Add the members of a list that are not there yet. -/
def joinList {α : Type} [BEq α] (a b : List α) : List α := a ++ b.filter fun x => !a.contains x

/-- One instruction: reads, then writes. -/
def Touched.step (t : Touched) (u : CodeUse) : Touched :=
  let rs := u.reads.filter (·.lasting)
  { all := joinList (joinList t.all rs) (u.writes.filter (·.lasting)), read := joinList t.read (rs.filter fun r => !t.all.contains r) }

/-- Whether some instruction writes a register that was read before (R334). -/
def Touched.breaks (t : Touched) : List CodeUse → Bool
  | [] => false
  | u :: r => u.writes.any (fun x => x.lasting && (t.step u).read.contains x) || Touched.breaks (t.step u) r

/-- What two paths have done. -/
def Touched.join (a b : Touched) : Touched := ⟨a.all.filter b.all.contains, joinList a.read b.read⟩

/-- One round of the flow within regions: what every path to each header has done; none where no path is known yet. -/
def Graph.flow (g : Graph) (entry : Nat) (v : List (Nat × Option Touched)) : List (Nat × Option Touched) :=
  g.map fun e =>
    let start : Option Touched := if e.1.r || e.1.head == entry then some ⟨[], []⟩ else none
    (e.1.head, if e.1.r then start else (g.preds e.1.head).foldl (fun a q =>
      match (v.find? (·.1 == q.head)).bind (·.2) with
      | none => a
      | some t =>
        let t := q.uses.foldl Touched.step t
        match a with
        | none => some t
        | some b => some (b.join t)) start)

/-- Rounds of the flow. -/
def Graph.flows (g : Graph) (entry : Nat) : Nat → List (Nat × Option Touched)
  | 0 => g.map fun e => (e.1.head, none)
  | n + 1 => g.flow entry (g.flows entry n)

/-- Rounds after which the flow stands still: each header's sets change at most once for each of the 200 registers. -/
def flowRounds (g : Graph) : Nat := 402 * g.length + 1

/-- The lowest of some header addresses. -/
def lowestOf : List Nat → Option Nat
  | [] => none
  | a :: r => some (r.foldl min a)

/-- The graph of a kernel. -/
def State.kernelGraph (s : State) (job entry : Nat) : Graph :=
  let runs := s.kernelRuns job entry
  runs.map fun r => (r, successors runs r)

/-- The header at which a region check fails (REGION), the lowest. -/
def Graph.regionFault (g : Graph) (entry : Nat) : Option Nat :=
  let v := g.flows entry (flowRounds g)
  lowestOf ((g.filter fun e => g.notLast e ||
    (((v.find? (·.1 == e.1.head)).bind (·.2)).map fun t => t.breaks e.1.uses).getD false).map (·.1.head))

/-- Whether SENTRY passes R283. -/
def State.sentryOk (s : State) (job sentry : Nat) : Bool :=
  sentry % 4 == 0 && match s.ownPage job .fetch sentry with
    | .ok (p, _) => fld p.w0 2 1 == 1
    | .error _ => false

/-- The header whose yield path exceeds a limit, the lowest (R82). -/
def exceeds (l : List (Nat × Nat)) (plim : Nat) : Option Nat := lowestOf ((l.filter fun e => decide (plim < e.2)).map (·.1))

/-- The loader's verdict on a binary: a code of Table 3.15 and an offending header, or the counts of its yield paths. The lowest
code that applies is reported. -/
def State.loadKernel (s : State) (job entry plim : Nat) : Except (Nat × Nat) (List (Nat × Nat)) :=
  let g := s.kernelGraph job entry
  if !g.any (·.1.head == entry) then .error (1, entry) else
  match lowestOf ((g.filter (·.1.bad)).map (·.1.head)) with
  | some a => .error (1, a)
  | none =>
    match lowestOf ((g.filter fun e => g.tooNear e.1).map (·.1.head)) with
    | some a => .error (2, a)
    | none =>
      let l := g.longest entry
      match lowestOf ((l.filter fun e => decide (endless ≤ e.2)).map (·.1)), g.regionFault entry with
      | some a, _ => .error (3, a)
      | none, some a => .error (match exceeds l plim with
        | some b => (3, b)
        | none => (4, a))
      | none, none => .ok l

/-- The loader's check of a leaf (R80, R82, R283): code and LOFF, 0 where it is accepted, and the state that remembers an accepted
binary. -/
def State.checkKernel (s : State) (job entry sentry plim : Nat) : Nat × Nat × State :=
  let off := fun (a : Nat) => (a + 2 ^ 64 - entry) % 2 ^ 32
  let stream := sentry == 0 || s.sentryOk job sentry
  let judge := fun (l : List (Nat × Nat)) (s : State) => match exceeds l plim with
    | some a => (3, off a, s)
    | none => (0, 0, s)
  match s.kernels.find? fun k => k.job == job && k.entry == entry with
  | some k => if stream then judge k.longest s else (1, 0, s)
  | none =>
    match s.loadKernel job entry plim with
    | .error (c, a) => if stream || c == 1 then (c, off a, s) else (1, 0, s)
    | .ok l => if stream then judge l { s with kernels := s.kernels ++ [⟨job, entry, l⟩] } else (1, 0, s)

end Sys2Proof.Machine
end

