-- ==== Sys2Proof/Machine/Regions.lean ====
section
/-!
DEFINITION. The region tree: reading and checking region control blocks (R133 to R135, R138, R441), accepting and refusing launches,
`launch` and `rcbrd` (R175, R176), and the binning engine's instructions (R270 to R275).
-/
namespace Sys2Proof.Machine

/-! ### Checks of a node (Table 5.1, Table 5.5) -/

/-- A field of an RCB's words. -/
def rcbField (l : List W64) (i lo n : Nat) : Nat := fld (l.getD i 0).toNat lo n

/-- FORMAT: kind, version and reserved fields; the STATUS word is never read (R134). -/
def rcbFormat (kind : Nat) (l : List W64) : Bool :=
  let z := fun (i lo n : Nat) => rcbField l i lo n == 0
  rcbField l 0 56 8 == kind && rcbField l 0 48 8 == 1 && z 0 39 9 &&
  z 2 53 11 && z 2 41 7 && z 2 38 2 && z 2 25 7 && z 2 9 7 && z 3 48 16 && z 3 20 12 && z 4 40 24 && z 6 0 64 && z 7 0 64 &&
  (if kind = 3 then z 11 32 32 && z 12 48 16 && z 12 33 7 && z 13 37 27 && z 15 10 54 && (List.range 11).all (fun i => z (21 + i) 0 64)
   else (List.range 24).all fun i => z (8 + i) 0 64)

/-- RANGE of the inheritable fields: 0 where the override bit is 0, within Table 5.1 where it is 1 (R20, R135). -/
def rcbInherit (l : List W64) : Bool :=
  let ovr := fun (i : Nat) => rcbField l 0 (32 + i) 1 == 1
  let f := rcbField l
  let one := fun (i : Nat) (zero ok : Bool) => if ovr i then ok else zero
  one 0 (f 2 0 9 == 0 && f 2 16 9 == 0) (decide (1 ≤ f 2 16 9) && decide (f 2 16 9 ≤ 256) && decide (f 2 0 9 ≤ f 2 16 9)) &&
  one 1 (f 2 32 6 == 0) (decide (f 2 32 6 < 48)) && one 2 (f 2 40 1 == 0) true &&
  one 3 (f 2 48 5 == 0) (decide (1 ≤ f 2 48 5) && decide (f 2 48 5 ≤ 16)) &&
  one 4 (f 3 0 20 == 0) (decide (1024 ≤ f 3 0 20)) &&
  one 5 (f 3 32 16 == 0) (decide (f 3 32 3 < 6) && f 3 35 5 == 0) && one 6 (f 4 0 40 == 0) true

/-- RANGE of a leaf's own fields. -/
def rcbLeafRange (l : List W64) : Bool :=
  let f := rcbField l
  let g := f 10 0 32 * f 10 32 32 * f 11 0 32
  let n := f 12 0 11 * f 12 11 11 * f 12 22 11
  decide (1 ≤ g) && decide (g ≤ 2 ^ 32) && decide (1 ≤ n) && decide (n ≤ 1024) && decide (f 13 32 5 ≤ 16) && decide (f 13 26 6 ≤ 32) &&
  decide (f 13 20 6 ≤ 32) && decide (f 13 8 12 ≤ 3072) && decide (1 ≤ f 13 0 8) && decide (f 13 0 8 ≤ 128) &&
  decide (f 15 0 10 ≤ 512) && f 15 0 3 == 0 && f 8 0 2 == 0 && f 9 0 2 == 0 && f 14 0 3 == 0 && f 16 0 6 == 0

/-- RANGE of a node or leaf below the job. -/
def rcbRange (leaf : Bool) (l : List W64) : Bool := rcbInherit l && rcbField l 0 0 32 == 0 && (!leaf || rcbLeafRange l)

/-- Whether an RCB's 256 bytes can be read and written as an access of a job, in this package (ADDRESS). -/
def State.rcbReachable (s : State) (job va : Nat) : Bool :=
  let ok := fun (n : Need) (a : Nat) => match s.ownPage job n a with
    | .ok (p, _) => match p.home a with
      | .package _ => false
      | _ => true
    | .error _ => false
  ok .read va && ok .write va && ok .read (va + 255) && ok .write (va + 255)

/-- Whether a parameter block can be read as an access of a job, in this package (RANGE, Table 5.5). -/
def State.paramReachable (s : State) (job va n : Nat) : Bool :=
  n == 0 || [va, va + (n - 1)].all fun a => match s.ownPage job .read a with
    | .ok (p, _) => match p.home a with
      | .package _ => false
      | _ => true
    | .error _ => false

/-- The 32 words of an RCB, where ADDRESS and the alignment allow. -/
def State.readRcb (s : State) (job va : Nat) : Option (List W64 × State) :=
  if va % 256 ≠ 0 || !s.rcbReachable job va then none else (s.ownWords job va 32).toOption

/-! ### Live nodes (R441) -/

/-- A region record as it is made. -/
def State.newRegion (s : State) (job va : Nat) (words : List W64) (parent : Option Nat) : Region :=
  { id := s.seq, job, va, words, params := [], parent, state := 0, rref := 0, lref := 0, loff := 0, live := false, order := s.seq
    nextW := 0, ended := 0, held := false, device := false, k60 := none }

/-- The live node of a job at an address, making inner nodes live along the chain of PARENT addresses; none where a check fails. -/
def State.liveNode (s : State) (job : Nat) : Nat → List Nat → Nat → Option (Nat × State)
  | 0, _, _ => none
  | n + 1, seen, va =>
    if va = 0 || seen.contains va then none else
    match s.regions.find? fun r => r.job == job && r.va == va && r.field 0 56 8 != 3 && r.state != 5 with
    | some r => if r.live then some (r.id, s) else none
    | none =>
      match s.readRcb job va with
      | none => none
      | some (l, s) =>
        if !(rcbFormat 2 l && rcbRange false l) then none else
        match s.liveNode job n (va :: seen) (l.getD 1 0).toNat with
        | none => none
        | some (p, s) =>
          some (s.seq, ({ s with regions := s.regions ++ [{ s.newRegion job va l (some p) with live := true }] }).bump)

/-! ### Quota (R135, R204) -/

/-- The proper ancestors of a region, nearest first. -/
def State.ancestorsFrom (s : State) : Nat → Option Nat → List Region
  | 0, _ => []
  | _, none => []
  | n + 1, some p => match s.region? p with
    | none => []
    | some r => r :: s.ancestorsFrom n r.parent
/-- The proper ancestors of a region. -/
def State.ancestors (s : State) (r : Region) : List Region := s.ancestorsFrom s.regions.length r.parent

/-- Bytes charged against a node's own quota: a job's chunks, and the pins saved for nodes of the subtree (R303). -/
def State.charged (s : State) (r : Region) : Nat :=
  (if r.parent.isNone then 0x200000 * (s.chunks.filter fun e => e.2.owner == r.job).length else 0) +
  20480 * (s.pins.filter fun p => p.holder.isNone && p.core.isNone && ((s.region? p.node).map (s.under r.id)).getD false).length

/-- Whether a node's own quota leaves room for some bytes more; a quota of 0 is no limit. -/
def State.quotaRoom (s : State) (r : Region) (bytes : Nat) : Bool :=
  r.field 4 0 40 == 0 || decide (s.charged r + bytes ≤ r.field 4 0 40 * 0x10000)

/-! ### Acceptance (R138) -/

/-- What acceptance takes from a launch: the copy of the RCB and of the parameter block, and the parent. -/
structure Accepted where
  words  : List W64
  params : List W64
  parent : Nat
deriving DecidableEq, Repr

/-- The conditions of Table 5.5 after ADDRESS, in its order: the refusal code with the loader's code and offset, or what is
accepted; and the state with inner nodes made live. Inner nodes that the launch names first stay live when it is then refused with RANGE,
QUOTA or LOADER: between R441 and R138 that is the model's choice (DESIGN CHOICE, log 105). -/
def State.judgeLeaf (s : State) (job va : Nat) (l : List W64) : Except (Nat × Nat × Nat × State) (Accepted × State) :=
  if va % 256 ≠ 0 || !rcbFormat 3 l || (l.getD 1 0).toNat % 256 ≠ 0 then .error (1, 0, 0, s) else
  match s.liveNode job (2 ^ 56) [] (l.getD 1 0).toNat with
  | none => .error (2, 0, 0, s)
  | some (p, t) =>
    let r := t.newRegion job va l (some p)
    if !rcbRange true l || !t.paramReachable job (r.word 14) (r.field 15 0 10) then .error (3, 0, 0, t) else
    match t.ownWords job (r.word 14) (r.field 15 0 10 / 8) with
    | .error _ => .error (3, 0, 0, t)
    | .ok (ps, t) =>
      if (t.ancestors r).any fun a => !t.quotaRoom a (r.field 4 0 40 * 0x10000) then .error (4, 0, 0, t) else
      let e := (r.under ((t.region? p).map t.effective)).plim
      match t.checkKernel job r.kentry r.sentry e with
      | (0, _, t) => .ok (⟨l, ps, p⟩, t)
      | (c, off, t) => .error (5, c, off, t)

/-- Enter state 2 in every ancestor in state 0: its first child was accepted (R139). -/
def State.wake (s : State) (r : Region) : State := (s.ancestors r).foldl (fun s a => if a.state = 0 then s.setRegionState a.id 2 else s) s

/-- Forget the record of an ended launch of a leaf. -/
def State.forget (s : State) (job va : Nat) : State :=
  { s with regions := s.regions.filter fun r => !(r.job == job && r.va == va && (r.field 0 56 8 == 3 || r.state == 5)) }

/-- Accept or refuse a launch (R138): the STATUS word, the leaf's region if it was accepted, and the state after it. -/
def State.acceptLeaf (s : State) (job va : Nat) (held device : Bool) : Nat × Option Nat × State :=
  if !s.rcbReachable job va then (5 + 6 * 2 ^ 8, none, s) else
  let s := s.forget job va
  let l := match s.ownWords job va 32 with
    | .ok r => r.1
    | .error _ => []
  match s.judgeLeaf job va l with
  | .error (c, lref, loff, s) =>
    let r := { s.newRegion job va l none with state := 5, rref := c, lref, loff }
    (r.status, none, (({ s with regions := s.regions ++ [r] }).bump).writeStatus r.id)
  | .ok (a, s) =>
    let r := { s.newRegion job va a.words (some a.parent) with params := a.params, state := 1, held, device }
    (r.status, some r.id, ((({ s with regions := s.regions ++ [r] }).bump).writeStatus r.id).wake r)

/-- Held entries of the package: launches and copies (R272). -/
def State.heldEntries (s : State) : Nat :=
  (s.regions.filter (·.held)).length + (s.copies.filter fun c => match c.kind with
    | .bulk _ _ _ _ _ _ _ .held _ => true
    | _ => false).length

/-- Device-side launches that stand in the package's queue: accepted, none of their workgroups started (R175). -/
def State.queuedLaunches (s : State) : Nat := (s.regions.filter fun r => r.device && r.state == 1).length

/-- Whether a held copy of a job has an address (R272). -/
def State.copyHoldsAt (s : State) (job va : Nat) : Bool := s.copies.any fun c => c.job == job && match c.kind with
  | .bulk _ _ _ tlr _ _ _ .held _ => tlr == va
  | _ => false

/-- Whether a pending launch must wait (R175, R272, R388): for an earlier launch of its leaf, for room, for a held copy at its address, for a
frozen job. -/
def State.launchWaits (s : State) (p : PendingLaunch) : Bool :=
  let device := match p.source with
    | .instruction _ => true
    | _ => false
  (s.regions.any fun r => r.job == p.job && r.va == p.va && r.field 0 56 8 == 3 && decide (1 ≤ r.state) && decide (r.state ≤ 3)) ||
  (device && decide (4096 ≤ s.queuedLaunches)) || (p.held && (decide (1024 ≤ s.heldEntries) || s.copyHoldsAt p.job p.va)) || s.jobFrozen p.job ||
  match p.source with
  | .instruction o => ((s.op? o).map fun o => !s.clear o.after).getD true
  | _ => false

/-! ### `launch` and `rcbrd` -/

/-- The job as which a unit launches: that of its leaf, program or current event (Table 5.3). -/
def Uni.job (s : State) : Uni → Nat
  | .lane v _ _ => v.leaf.job
  | .unit u => (s.unitHome u).2.2

/-- The core of a uniform word's executor. -/
def Uni.core (s : State) : Uni → Nat
  | .lane v _ _ => v.wg.core
  | .unit u => (s.unitHome u).2.1

/-- Issue a uniform long-latency word's operation. -/
def State.issueUni (s : State) (u : Uni) (kind : LongKind) (d : Dst) : Result :=
  match u with
  | .lane v _ on =>
    .next (((s.beginOrdinal v.g.id).supersedeDst v.wg.id d).issueOp v kind d (on.map (·.tid)) (on.map (·.tid)) (on.flatMap (·.heldBy true)) true)
  | .unit i => s.issueUnitOp i kind d false

/-- A control core with no event has no job: its launch and its `rcbrd` give all ones. -/
def State.eventless (s : State) (u : Uni) : Bool :=
  match u with
  | .unit (.control n) => ((s.control? n).bind (·.current)).isNone
  | _ => false

/-- LAUNCH (R175). -/
def execLaunch (d : Dst) (a : Src) (held : Bool) (guard : Option Guard) (s : State) : Result :=
  withUni guard 1 [a] d true s fun u s =>
    if s.eventless u then .next (s.uniCommit u d 1 (BitVec.allOnes 64)) else
    let va := (s.uniSource u 64 a).toNat
    let p : PendingLaunch := { source := .instruction s.seq, job := u.job s, va, held, core := u.core s }
    ({ s with launches := s.launches ++ [p] } : State).issueUni u (.launch va) d

/-- RCBRD (R176). -/
def execRcbrd (d : Dst) (a : Src) (word : Nat) (guard : Option Guard) (s : State) : Result :=
  withUni guard 1 [a] d true s fun u s =>
    if s.eventless u then .next (s.uniCommit u d 1 (BitVec.allOnes 64)) else
    s.issueUni u (.rcbrd (s.uniSource u 64 a).toNat word) d

/-! ### The binning engine (R270 to R275) -/

/-- A free bin set. -/
def freeSet : BinSet := ⟨0, [], 0⟩
/-- Whether a bin set is bound. -/
def State.bound (s : State) (n : Nat) : Bool := s.binsets.any (·.1 == n)
/-- Whether naming a set is a misuse (Table 13.1, R270). -/
def State.setMisuse (s : State) (job n : Nat) : Bool := decide (256 ≤ n) || (s.bound n && (sget freeSet s.binsets n).owner != job)
/-- Take the binning-misuse trap. -/
def State.binTrap (s : State) (n : Nat) : State := s.trapHere 7 0 (if n < 256 then n else 0xFFFF) 0 []

/-- Hold a bin set; a bound set stays listed whatever it holds. -/
def setBin : Sparse BinSet → Nat → BinSet → Sparse BinSet
  | [], n, b => [(n, b)]
  | (m, c) :: r, n, b => if n < m then (n, b) :: (m, c) :: r else if n = m then (n, b) :: r else (m, c) :: setBin r n b

/-- Count one item; counters saturate (R271). -/
def BinSet.item (b : BinSet) (v : Nat) : BinSet :=
  if v < 256 then { b with counts := sset 0 b.counts v (min (2 ^ 32 - 1) (sget 0 b.counts v + 1)) }
  else { b with drop := min (2 ^ 32 - 1) (b.drop + 1) }

/-- BINCT (R271). -/
def execBinct (set bin : Src) (guard : Option Guard) (s : State) : Result :=
  withUni guard 1 [set, bin] .none false s fun u s =>
    let n := (s.uniSource u 64 set).toNat
    let job := u.job s
    match u with
    | .lane v _ on =>
      let bad := on.filter fun t => !hasValue t bin
      if !bad.isEmpty then trapNext s 1 0 0 0 (bad.map (·.tid % 32))
      else if s.setMisuse job n then .next (s.binTrap n)
      else
        let s := s.holdTo v (State.sourcesReady v on [bin] [])
        let b := { sget freeSet s.binsets n with owner := job }
        .next { s with binsets := setBin s.binsets n (on.foldl (fun b t => b.item (s.source v t 64 bin).toNat) b) }
    | .unit _ =>
      if !(match bin with | .k _ => true | _ => false) then .next (s.illegal .reserved)
      else if s.setMisuse job n then .next (s.binTrap n)
      else
        let b := { sget freeSet s.binsets n with owner := job }
        .next { s with binsets := setBin s.binsets n (b.item (s.uniSource u 64 bin).toNat) }

/-- BINPATCH (R274): performed at its engine when the operation completes. A set number of 256 or more is none of the misuse's, as
B[15:8] cannot name one; a free set or another job's is. -/
def execBinpatch (d : Dst) (target bin mult : Src) (field : PatchField) (index : Nat) (guard : Option Guard) (s : State) : Result :=
  withUni guard 1 [target, bin, mult] d true s fun u s =>
    let b := s.uniSource u 64 bin
    let n := fld b.toNat 8 8
    if b.toNat < 2 ^ 16 && (!s.bound n || s.setMisuse (u.job s) n) then .next (s.binTrap n)
    else s.issueUni u (.binpatch (s.uniSource u 64 target).toNat b (s.uniSource u 64 mult) field index) d

/-- Release a held launch (R275): refused where the patched fields break RANGE; at once complete with GX 0, which the leaf's
completion finds; else queued. -/
def State.releaseLaunch (s : State) (r : Region) : State :=
  let s := s.mapRegion r.id fun r => { r with held := false }
  if r.gx = 0 || (rcbRange true r.words && s.paramReachable r.job (r.word 14) (r.field 15 0 10)) then s
  else (s.mapRegion r.id fun r => { r with state := 5, rref := 3 }).writeStatus r.id

/-- Release what a job holds at an address: a launch, and a copy, which becomes ready to start. -/
def State.releaseHeld (s : State) (job target : Nat) : State :=
  let s := match s.regions.find? fun r => r.job == job && r.held && r.va == target with
    | some r => s.releaseLaunch r
    | none => s
  { s with copies := s.copies.map fun c =>
      match c.kind with
      | .bulk bar n arr tlr org off words .held ra =>
        if c.job == job && tlr == target then { c with kind := .bulk bar n arr tlr org off words .ready ra } else c
      | _ => c }

/-- BINREL (R275). -/
def execBinrel (target : Src) (guard : Option Guard) (s : State) : Result :=
  withUni guard 1 [target] .none false s fun u s => .next (s.releaseHeld (u.job s) (s.uniSource u 64 target).toNat)

/-- BINREL_CLEAR (R275). -/
def execBinrelClear (set : Src) (guard : Option Guard) (s : State) : Result :=
  withUni guard 1 [set] .none false s fun u s =>
    let n := (s.uniSource u 64 set).toNat
    if s.setMisuse (u.job s) n then .next (s.binTrap n)
    else .next { s with binsets := s.binsets.filter (·.1 != n) }

end Sys2Proof.Machine
end

