-- ==== Sys2Proof/Machine/Barriers.lean ====
section
/-!
DEFINITION. Barrier registers, cinch lines and the completion of publishing boundaries (R155, R156, R169 to R173, R215, R281).
-/
namespace Sys2Proof.Machine

/-- File released threads of a workgroup: block by block, one set per header in the order of their lowest lanes (R148, R149). -/
def State.releaseAll (s : State) (wg : Nat) (tids : List Nat) : State :=
  (distinct (tids.map (· / 32))).foldl (fun s b =>
    let ls := (distinct tids).filter (· / 32 == b)
    let nexts := (ls.filterMap fun t => (s.thread? wg t).map (·.next)).foldl (fun a x => if a.contains x then a else a ++ [x]) []
    nexts.foldl (fun s h =>
      match s.wg? wg with
      | none => s
      | some w =>
        let set := ls.filter fun t => (w.thread? t).map (·.next) == some h
        s.fileOrTrap w b (set.map (· % 32)) h false none h) s) s

/-- The threads of a workgroup parked on a barrier register with a token (R170). -/
def Workgroup.parkedOn (w : Workgroup) (bar : Nat) (token : Bool) : List Nat :=
  (w.threads.filter fun t => t.place == .barwait bar token).map (·.tid)

/-- The value that `bartest` returns (Table 6.4). -/
def Barrier.word (b : Barrier) : W64 :=
  w64 ((if b.gen then 2 ^ 63 else 0) + b.exp * 2 ^ 51 + b.arr * 2 ^ 40 + b.expb * 2 ^ 20 + b.arrb)

/-- Update a barrier register. -/
def State.mapBar (s : State) (wg n : Nat) (f : Barrier → Barrier) : State := s.mapWg wg fun w => { w with bars := w.bars.modify n f }

/-- End a stream's wait (R281, R173). -/
def Stream.endWait (w : StreamWait) (x : Stream) : Stream := if x.wait == some w then { x with wait := none } else x

/-- An arrival (R170): the generation before it and the state after it, the phase completed where it is full; none where it is
a misuse, and nothing changes. Released threads refresh their core (Table 8.2); a stream that waits for the phase goes on (R281). -/
def State.arrive (s : State) (wg n members bytes : Nat) : Option (Bool × State) :=
  match s.wg? wg with
  | none => none
  | some w =>
    match w.bars[n]? with
    | none => none
    | some b =>
      let arr := b.arr + members
      let arrb := b.arrb + bytes
      if b.exp = 0 || b.exp < arr || b.expb < arrb then none
      else if arr = b.exp && arrb = b.expb then
        let s := (s.mapBar wg n fun b => { b with gen := !b.gen, arr := 0, arrb := 0 }).mapStream wg (·.endWait (.bar n b.gen))
        let ts := w.parkedOn n b.gen
        some (b.gen, if ts.isEmpty then s else (s.refresh w.core).releaseAll wg ts)
      else some (b.gen, s.mapBar wg n fun b => { b with arr, arrb })

/-- The workgroup of a uniform word's executor. -/
def Uni.wgOf (s : State) : Uni → Option Workgroup
  | .lane v _ _ => s.wg? v.wg.id
  | .unit (.stream w) => s.wg? w
  | _ => none

/-- Barrier misuse (Table 13.1): a group's instruction stops the group; a stream's stops the workgroup. -/
def State.barMisuse (s : State) (u : Uni) (n : Nat) : State :=
  match u with
  | .lane v _ _ => s.trapGroup v.g.id 5 0 n 0 0 v.turn.pc v.g.lanes false
  | .unit (.stream w) => s.trapWorkgroup w 5 1 n 0
  | .unit _ => s

/-- A barrier instruction on a register that the workgroup has (R155). -/
def onBar (u : Uni) (n : Nat) (s : State) (body : Workgroup → Barrier → State → Result) : Result :=
  match u.wgOf s with
  | none => .next (s.illegal .executor)
  | some w =>
    match w.bars[n]? with
    | none => .next (s.illegal .operand)
    | some b => body w b s

/-- `barinit` (R171). -/
def barInit (members bytes : Src) (n : Nat) (guard : Option Guard) (s : State) : Result :=
  withUni guard 1 [members, bytes] .none false s fun u s =>
    onBar u n s fun w b s =>
      let m := (s.uniSource u 64 members).toNat
      let y := (s.uniSource u 64 bytes).toNat
      if b.arr ≠ 0 || b.arrb ≠ 0 || m = 0 || 2047 < m || 1048575 < y then .next (s.barMisuse u n)
      else .next (s.mapBar w.id n fun b => { b with exp := m, expb := y })
/-- BARINIT (R171). -/
def execBarinit (members : Src) (n : Nat) (s : State) : Result := barInit members .zero n none s
/-- BARINIT_64 (R171). -/
def execBarinit64 (members bytes : Src) (n : Nat) (guard : Option Guard) (s : State) : Result := barInit members bytes n guard s

/-- Whether a queued matrix instruction still writes the scratchpad, or, for a publishing arrival, the scratchpad or memory (R281). -/
def MatrixOp.writes (pub : Bool) (q : MatrixOp) : Bool :=
  match q.instr with
  | .drainSt .. | .rowexp .. => pub || fld (q.regs.getD 1 0).toNat 2 1 == 0
  | .drainAdd .. | .spill .. => pub
  | _ => false

/-- Whether a stream still has earlier writes to perform that its arrival waits for: those to the scratchpad, and with the publish
bit its drains to memory (R224, R281). -/
def State.streamDraining (s : State) (wg : Nat) (pub : Bool) : Bool :=
  ((s.stream? wg).map fun x => x.queue.any (·.writes pub)).getD false || (pub && s.remotes.any (·.drains wg))

/-- `barrive` (R171): on a group it counts the lanes whose guard is on; without any it arrives with 0 members and writes its
token only to a k register. A group's publishing arrival takes effect when its boundary completes and holds nothing meanwhile
(Table 8.1): its token is the generation at its issue. A stream's waits for its writes (R281). -/
def barArrive (d : Dst) (bytes : Src) (n : Nat) (pub : Bool) (guard : Option Guard) (s : State) : Result :=
  let go := fun (u : Uni) (members : Nat) (s : State) =>
    onBar u n s fun w b s =>
      let count := (s.uniSource u 64 bytes).toNat
      match u with
      | .lane v _ on =>
        let tids := (if on.isEmpty then v.threads else on).map (·.tid)
        match if pub then some (b.gen, s.boundary v.wg.core w.id tids (.arrive n members count)) else s.arrive w.id n members count with
        | none => .next (s.barMisuse u n)
        | some (gen, s) =>
          let tok := w64 (if gen then 1 else 0)
          match members, d with
          | 0, .k r => .next (s.writeK v r tok 1)
          | 0, _ => .next s
          | _, d => .next (s.uniCommit u d 1 tok)
      | .unit _ =>
        if s.streamDraining w.id pub then holdWord s else
        match s.arrive w.id n members count with
        | none => .next (s.barMisuse u n)
        | some (gen, s) => .next (s.uniCommit u d 1 (w64 (if gen then 1 else 0)))
  match s.turn with
  | none => .refused .noExecutor
  | some t =>
    match t.unit with
    | .group _ =>
      onGroup s fun v =>
        if !([bytes].all (srcAllowed v.leaf.regs) && dstAllowed v.leaf.regs d) then .next (s.illegal .operand)
        else
          let s := s.holdTo v (State.sourcesReady v v.threads [] (guardPreds v guard))
          let on := v.threads.filter fun t => anyOn 1 (s.guard v guard t)
          match on.head?.or v.threads.head? with
          | none => .next s
          | some src =>
            if !hasValue src bytes then trapNext s 1 0 0 0 [src.tid % 32]
            else go (.lane v src on) on.length (s.holdTo v (State.sourcesReady v [src] [bytes] []))
    | _ => withUni guard 1 [bytes] d false s fun u s => go u 1 s
/-- BARRIVE (R171). -/
def execBarrive (d : Dst) (bytes : Src) (n : Nat) (s : State) : Result := barArrive d bytes n false none s
/-- BARRIVE_64 (R171). -/
def execBarrive64 (d : Dst) (bytes : Src) (n : Nat) (pub : Bool) (guard : Option Guard) (s : State) : Result :=
  barArrive d bytes n pub guard s

/-- BARWAIT (R171, R281). -/
def execBarwait (token : Src) (n : Nat) (s : State) : Result :=
  withUni none 1 [token] .none false s fun u s =>
    onBar u n s fun w b s =>
      let tok := (s.uniSource u 64 token).getLsbD 0
      match u with
      | .lane v _ _ =>
        if tok != b.gen then .next (s.refresh w.core) else .next (s.setTail v.g.id (.barwait n tok))
      | .unit _ => if tok != b.gen then .next s else .next (s.mapStream w.id fun x => { x with wait := some (.bar n tok) })

/-- BARTEST (R171). -/
def execBartest (d : Dst) (n : Nat) (s : State) : Result :=
  withUni none 1 [] d false s fun u s => onBar u n s fun _ b s => .next (s.uniCommit u d 1 b.word)

/-! ### Cinch lines (R156, R172, R173) -/

/-- The thread id under which a stream arrives at a cinch line. -/
def streamTid : Nat := 1024

/-- Update a cinch line. -/
def State.mapLine (s : State) (n : Nat) (f : CinchLine → CinchLine) : State := { s with cinch := s.cinch.modify n f }

/-- Whether a core is outside a line's mask. -/
def CinchLine.outside (l : CinchLine) (core : Nat) : Bool := (l.mask.map fun m => !m.contains core).getD false

/-- Whether an arrival from a workgroup at a line is a misuse: the line of another region, or a core outside the mask (R173). -/
def CinchLine.misuse (l : CinchLine) (region core : Nat) : Bool :=
  match l.region with
  | none => false
  | some r => r != region || l.outside core

/-- Count an arrival once in its phase; the count that reaches T sets the time of completion (R173). -/
def CinchLine.count (l : CinchLine) (wg tid clk : Nat) : CinchLine :=
  if l.arrived.contains (wg, tid) then l else
  let a := l.arrived ++ [(wg, tid)]
  { l with arrived := a, full := if a.length = l.expect then some clk else l.full }

/-- A parked thread arrives at its line: it counts when the line is bound to its region, waits when it is bound to none, and
raises the cinch-misuse trap otherwise (R173). -/
def State.arriveLine (s : State) (wg tid line : Nat) : State :=
  match s.wg? wg, s.cinch[line]? with
  | some w, some l =>
    if l.misuse w.region w.core then
      let (s, g) := s.isolate wg tid
      s.trapGroup g 6 0 line 0 0 (((s.thread? wg tid).map (·.next)).getD 0) [tid % 32] false
    else if l.region.isNone then s
    else (s.mapLine line (·.count wg tid s.cyc)).mapThread wg tid fun t => { t with place := .cinch line true 0 }
  | _, _ => s

/-- CINCH (R173, R281). -/
def execCinch (line : Nat) (s : State) : Result :=
  withUni none 1 [] .none false s fun u s =>
    match u.wgOf s, s.cinch[line]? with
    | some w, some l =>
      if l.misuse w.region w.core then .next (s.trapHere 6 0 line 0 []) else
      match u with
      | .lane v _ _ => .next (s.setTail v.g.id (.cinch line))
      | .unit _ =>
        let s := s.mapStream w.id fun x => { x with wait := some (.cinch line) }
        .next (if l.region.isNone then s else s.mapLine line (·.count w.id streamTid s.cyc))
    | _, _ => .next (s.illegal .executor)

/-- The threads that wait, uncounted, at a line in a region, with their boundaries complete, and streams that do. -/
def State.waitingAt (s : State) (region line : Nat) : List (Nat × Nat) :=
  (s.wgs.filter fun w => w.region == region).flatMap fun w =>
    ((w.threads.filter fun t => t.place == .cinch line false 0).map fun t => (w.id, t.tid)) ++
      if ((w.stream.bind (·.wait)).map (· == .cinch line)).getD false then [(w.id, streamTid)] else []

/-- Bind a line: arrivals of the region that waited count now (R173). -/
def State.bindLine (s : State) (line region : Nat) (mask : Option (List Nat)) (t : Nat) : State :=
  let s := s.mapLine line fun _ => { region := some region, mask, expect := t, arrived := [], full := none }
  (s.waitingAt region line).foldl (fun s e =>
    if e.2 == streamTid then s.mapLine line (·.count e.1 streamTid s.cyc) else s.arriveLine e.1 e.2 line) s

/-- The status of a `cinchcfg` (Table 6.6). -/
def State.cinchStatus (s : State) (l : CinchLine) (region : Nat) (mask : Option (List Nat)) (t : Option Nat) : Nat :=
  let held := s.coresOf region
  if (l.region.map (· != region)).getD false then 1
  else if !l.arrived.isEmpty then 2
  else match t with
    | none => 0
    | some n => if n = 0 || 262144 < n || (mask.map fun m => !(m.any held.contains)).getD false then 3 else 0

/-- A uniform word's k register by number. -/
def State.uniK (s : State) (u : Uni) (n : Nat) : W64 := s.uniSource u 64 (.k n)

/-- The cores of a 256-bit mask in four k registers (R172). -/
def State.coreMask (s : State) (u : Uni) (j : Nat) : List Nat :=
  (List.range 256).filter fun c => (s.uniK u (j + c / 64)).getLsbD (c % 64)

/-- CINCHCFG (R172). -/
def execCinchcfg (d : Dst) (mask : Option Nat) (t : Src) (line : Nat) (guard : Option Guard) (s : State) : Result :=
  let ks := (mask.map fun j => [Src.k j, .k (j + 1), .k (j + 2), .k (j + 3)]).getD []
  withUni guard 1 (t :: ks) d false s fun u s =>
    match u.wgOf s, s.cinch[line]? with
    | some w, some l =>
      let m := mask.map (s.coreMask u)
      let n := (s.uniSource u 64 t).toNat
      let st := s.cinchStatus l w.region m (some n)
      let s := if st = 0 then s.bindLine line w.region m n else s
      .next (s.uniCommit u d 1 (w64 st))
    | _, _ => .next (s.illegal .executor)

/-- CINCHCFG_UNBIND (R172). -/
def execCinchcfgUnbind (d : Dst) (line : Nat) (guard : Option Guard) (s : State) : Result :=
  withUni guard 1 [] d false s fun u s =>
    match u.wgOf s, s.cinch[line]? with
    | some w, some l =>
      let st := s.cinchStatus l w.region none none
      let s := if st = 0 then s.mapLine line fun _ => CinchLine.reset else s
      .next (s.uniCommit u d 1 (w64 st))
    | _, _ => .next (s.illegal .executor)

/-- CINCH_COMPLETE (R173): 48 clk after the last arrival every parked thread of the phase is released, and the count restarts. -/
def execCinchComplete (line : Nat) (s : State) : Result :=
  match s.cinch[line]? with
  | none => .next s
  | some l =>
    match l.full with
    | none => .next s
    | some c =>
      if s.cyc < c + 48 then .next s else
      let s := s.mapLine line fun l => { l with arrived := [], full := none }
      let ws := distinct (l.arrived.map (·.1))
      .next (ws.foldl (fun s wg =>
        match s.wg? wg with
        | none => s
        | some w =>
          let ts := (w.threads.filter fun t => t.place == .cinch line true 0).map (·.tid)
          let s := s.mapStream wg (·.endWait (.cinch line))
          if w.residence != .resident then s.mapThreads wg ts fun t => { t with place := .bin }
          else if ts.isEmpty then s else (s.refresh w.core).releaseAll wg ts) s)

/-- The line, whether counted, and the boundary of a thread parked on a cinch line. -/
def State.cinchOf (s : State) (wg tid : Nat) : Option (Nat × Bool × Nat) :=
  (s.thread? wg tid).bind fun t => match t.place with | .cinch l c g => some (l, c, g) | _ => none

/-- PUBLISH_BOUNDARY_COMPLETE (R215, Table 8.1). -/
def execPublishBoundaryComplete (id : Nat) (s : State) : Result :=
  match s.boundaries.find? (·.id == id) with
  | none => .next s
  | some b =>
    if !s.boundaryMet b then .next s else
    let s := ({ s with boundaries := s.boundaries.filter (·.id != id) } : State).flushPosts
    match b.next with
    | .nothing | .exit | .save => .next s
    | .refresh => .next (s.refresh b.core)
    | .arrive n members bytes =>
      match s.arrive b.wg n members bytes with
      | some r => .next r.2
      | none => .next (s.trapWorkgroup b.wg 5 0 n 0)
    | .cinch line => .next (b.tids.foldl (fun s tid =>
        match s.cinchOf b.wg tid with
        | some (l, c, g) =>
          if l == line && g == id then
            (s.mapThread b.wg tid fun t => { t with place := .cinch l c 0 }).arriveLine b.wg tid line else s
        | _ => s) s)

end Sys2Proof.Machine
end

