-- ==== Sys2Proof/Machine/ControlFlow.lean ====
section
/-!
DEFINITION. Branches, calls, `exit`, `reform`, `brk`, `trap`, `nop`, `pmark` and the uniform branches on every executor
(R123 to R127, R132, R160, R280, R318, R357), and `lcrbin` (R343).
-/
namespace Sys2Proof.Machine

/-- An address a signed number of words away. -/
def relAddress (pc : Nat) (off : Int) : Nat := unsigned 64 ((pc : Int) + 4 * off)

/-- Whether a header with R = 0 stands at an address: no indirect branch may name it (R81). -/
def State.plainHeaderAt (s : State) (w : Workgroup) (pc : Nat) : Bool :=
  match s.fetch (s.wgAccessor w) pc with
  | .ok (v, _, _) => isHeaderWord v && fld v 6 1 == 0
  | .error _ => false

/-- The next header of each present lane when the lanes of some threads take a branch each to its target (R124). -/
def View.targets (v : View) (taken : List (Nat × Nat)) : List (Nat × Nat) :=
  v.g.lanes.map fun l => (l, ((taken.find? (·.1 == l)).map (·.2)).getD v.nextHeader)

/-- Take a direct branch in some lanes. -/
def State.branchTo (s : State) (v : View) (lanes : List Nat) (target : Nat) : State :=
  s.setTail v.g.id (.branch (v.targets (lanes.map (·, target))))

/-- Take a branch through a register: each taking lane to its own target. A target that is not a multiple of 4 raises the opcode
subcause at the branch (R123), and so does a header with R = 0 unless the branch is a return (R81). -/
def State.branchEach (s : State) (v : View) (ret : Bool) (taken : List (Nat × Nat)) : State :=
  let bad := taken.filter fun e => e.2 % 4 != 0 || (!ret && s.plainHeaderAt v.wg e.2)
  if bad.isEmpty then s.setTail v.g.id (.branch (v.targets taken))
  else s.trapHere 0 (illegalCode .opcode) 0 0 (bad.map (·.1))

/-- The lanes whose guard bit 0 is on. -/
def State.lanesOn (s : State) (v : View) (g : Option Guard) : List Nat :=
  (v.threads.filter fun t => (s.guard v g t).getLsbD 0).map (·.tid % 32)

/-! ### Lane branches (R124) -/

/-- `br`: the link register of `call`, when it has one, takes the address of the header after the trailer. -/
def laneBranch (link : Dst) (off : Int) (s : State) : Result :=
  withLanes none [] [] link false s fun v s =>
    let on := s.lanesOn v none
    let s := s.branchTo v on (relAddress v.turn.pc off)
    match link with
    | .none => .next s
    | d => .next (s.commit v d 1 (v.threads.map fun t =>
        { tid := t.tid, value := w64 v.nextHeader, mask := if on.contains (t.tid % 32) then BitVec.allOnes 64 else 0
          pred := none }))
/-- BR (R124). -/
def execBr (off : Int) (s : State) : Result := laneBranch .none off s
/-- BR_64I (R124). -/
def execBr64i (off : Int) (s : State) : Result := laneBranch .none off s
/-- CALL (R124). -/
def execCall (link : Dst) (off : Int) (s : State) : Result := laneBranch link off s

/-- `brx` and `ret`. -/
def laneBranchTo (ret : Bool) (a : Src) (guard : Option Guard) (s : State) : Result :=
  withLanes guard [a] [] .none false s fun v s =>
    let on := v.threads.filter fun t => (s.guard v guard t).getLsbD 0
    .next (s.branchEach v ret (on.map fun t => (t.tid % 32, (s.source v t 64 a).toNat)))
/-- BRX (R124). -/
def execBrx (a : Src) (s : State) : Result := laneBranchTo false a none s
/-- BRX_64 (R124). -/
def execBrx64 (a : Src) (guard : Option Guard) (s : State) : Result := laneBranchTo false a guard s
/-- RET (R124). -/
def execRet (a : Src) (s : State) : Result := laneBranchTo true a none s
/-- RET_64 (R124). -/
def execRet64 (a : Src) (guard : Option Guard) (s : State) : Result := laneBranchTo true a guard s

/-! ### The ends of a run -/

/-- REFORM (R160). -/
def execReform (s : State) : Result := onGroup s fun v => .next (s.setTail v.g.id (.reform false))
/-- REFORM_ALL (R160). -/
def execReformAll (s : State) : Result := onGroup s fun v => .next (s.setTail v.g.id (.reform true))

/-- The copies of `cpout` that some lanes of a group still have in flight. -/
def State.copiesOf (s : State) (v : View) (lanes : List Nat) : List Copy :=
  s.copies.filter fun c => c.wg == v.wg.id && match c.kind with
    | .out t .. => lanes.any fun l => t == 32 * v.g.block + l
    | _ => false

/-- Some lanes exit at the trailer; a copy fault found by now is taken here (R252). -/
def State.exitLanes (s : State) (v : View) (lanes : List Nat) : State :=
  (s.takeCopyFault (s.copiesOf v lanes)).getD (s.setTail v.g.id (.exit lanes))

/-- `exit` of the lanes whose guard is on. -/
def laneExit (guard : Option Guard) (s : State) : Result :=
  withLanes guard [] [] .none false s fun v s => .next (s.exitLanes v (s.lanesOn v guard))
/-- EXIT (R125). -/
def execExit (s : State) : Result := laneExit none s
/-- EXIT_64 (R125). -/
def execExit64 (guard : Option Guard) (s : State) : Result := laneExit guard s

/-! ### Debug stops, markers, no operation (R126, R127) -/

/-- Count a hit of a breakpoint whose action is 000. -/
def State.countBreak (s : State) (n : Nat) : State := { s with bpcnt := s.bpcnt.modify n (· + 1) }

/-- The action of a breakpoint for a job (R324). -/
def State.breakAction (s : State) (job n : Nat) : Nat :=
  let r := (s.bpact.getD n 1).toNat
  if fld r 3 1 = 0 || fld r 32 32 != job then 1 else fld r 0 3

/-- BRK (R126, R324). -/
def execBrk (n : Nat) (s : State) : Result :=
  withLanes none [] [] .none false s fun v s =>
    let on := s.lanesOn v none
    if on.isEmpty then .next s else
    let act := s.breakAction v.leaf.job n
    if act = 0 then .next (s.countBreak n)
    else .next (s.debugStop v.g v.wg 0x0B 0 n 0 v.turn.pc on act 1)

/-- The software trap with a code. -/
def laneTrap (code : Src) (s : State) : Result :=
  withLanes none [code] [] .none false s fun v s =>
    let on := v.threads.filter fun t => (s.guard v none t).getLsbD 0
    match on with
    | [] => .next s
    | t :: _ =>
      let c := match code with
        | .imm i => unsigned 16 i
        | x => (s.source v t 64 x).toNat % 2 ^ 16
      .next (s.trapGroup v.g.id 0x0C 0 c 0 0 v.turn.pc (on.map (·.tid % 32)) false)
/-- TRAP (R126). -/
def execTrap (b : Src) (s : State) : Result := laneTrap b s
/-- TRAP_64I (R126). -/
def execTrap64i (code : Nat) (s : State) : Result := laneTrap (.imm code) s

/-- NOP (R127). -/
def execNop (s : State) : Result := withLanes none [] [] .none false s fun _ s => .next s

/-- Write bytes at a physical address at package scope; an address that does not exist takes nothing (Table 7.1). -/
def State.physWrite (s : State) (pa : Nat) (l : List Byte) : State :=
  if inHost pa then s.hostWrite pa l
  else if inHbm pa then s.homeWrite (l.zipIdx.map fun e => (pa + e.2, e.1)) else s

/-- Record a marker in the trace ring of a core, when it traces (R344). -/
def State.trace (s : State) (v : View) (marker : Nat) : State :=
  match s.cores[v.wg.core]? with
  | none => s
  | some c =>
    if !c.trctl.getLsbD 0 then s
    else if c.trsize.toNat < c.trused.toNat + 16 then
      { s with cores := s.cores.modify v.wg.core fun c => { c with trdrop := c.trdrop + 1 } }
    else
      let w1 := marker % 2 ^ 16 + v.g.part * 2 ^ 16 + v.wg.core * 2 ^ 18 + v.wg.w * 2 ^ 32
      let s := s.physWrite ((c.trbase + c.trhead).toNat) (leBytes 8 s.cyc ++ leBytes 8 w1)
      { s with cores := s.cores.modify v.wg.core fun c =>
          { c with trhead := w64 ((c.trhead.toNat + 16) % c.trsize.toNat), trused := c.trused + 16 } }

/-- `pmark`: the marker is read as a uniform source (R36); no lane on records nothing. -/
def laneMark (marker : Src) (s : State) : Result :=
  withLanes none [marker] [] .none false s fun v s =>
    match v.threads.filter fun t => (s.guard v none t).getLsbD 0 with
    | [] => .next s
    | t :: _ =>
      let m := match marker with
        | .imm i => unsigned 16 i
        | x => (s.source v t 64 x).toNat % 2 ^ 16
      .next (s.trace v m)
/-- PMARK (R127). -/
def execPmark (b : Src) (s : State) : Result := laneMark b s
/-- PMARK_64I (R127). -/
def execPmark64i (code : Nat) (s : State) : Result := laneMark (.imm code) s

/-! ### Uniform branches (R132) -/

/-- Move an executor without lanes to a word. -/
def State.setUnitPc (s : State) (u : UnitId) (pc : Nat) : State :=
  match u with
  | .group _ => s
  | .stream w => s.mapStream w fun x => { x with pc }
  | .fabric n => s.mapProc n fun x => { x with pc }
  | .control n => s.mapControl n fun x => { x with pc }

/-- Every present lane to one header, or an executor without lanes to a word. A target read from a register (`some ret`) is
checked (R81, R123). -/
def State.uniBranch (s : State) (u : Uni) (target : Nat) (indirect : Option Bool) : State :=
  match u with
  | .lane v _ _ =>
    let all := v.g.lanes.map (·, target)
    match indirect with
    | some ret => s.branchEach v ret all
    | none => s.setTail v.g.id (.branch all)
  | .unit i => if target % 4 ≠ 0 then s.illegal .opcode else s.setUnitPc i target

/-- UBR (R132). -/
def execUbr (off : Int) (s : State) : Result :=
  withUni none 1 [] .none false s fun u s => .next (s.uniBranch u (relAddress s.turnPc off) none)

/-- Where an executor goes when a branch is not taken: a group stays a branch's end, to the header after the trailer. -/
def State.uniFall (s : State) (u : Uni) : State :=
  match u with
  | .lane v _ _ => s.setTail v.g.id (.branch (v.targets []))
  | .unit _ => s

/-- UBR_64I (R132). -/
def execUbr64i (sense : BrSense) (a : Src) (off : Int) (s : State) : Result :=
  withUni none 1 [a] .none false s fun u s =>
    let x := s.uniSource u 64 a
    let go := match sense with
      | .always => true
      | .nz => x != 0
      | .z => x == 0
    .next (if go then s.uniBranch u (relAddress s.turnPc off) none else s.uniFall u)

/-- `ubrx` and `uret`. -/
def uniBranchTo (ret : Bool) (a : Src) (s : State) : Result :=
  withUni none 1 [a] .none false s fun u s => .next (s.uniBranch u (s.uniSource u 64 a).toNat (some ret))
/-- UBRX (R132). -/
def execUbrx (a : Src) (s : State) : Result := uniBranchTo false a s
/-- UBRX_64 (R132). -/
def execUbrx64 (a : Src) (s : State) : Result := uniBranchTo false a s
/-- URET (R132). -/
def execUret (a : Src) (s : State) : Result := uniBranchTo true a s
/-- URET_64 (R132). -/
def execUret64 (a : Src) (s : State) : Result := uniBranchTo true a s

/-- UCALL (R132): the link is the header after the trailer on a group, the word after the call elsewhere. -/
def execUcall (link : Dst) (off : Int) (s : State) : Result :=
  withUni none 1 [] link false s fun u s =>
    let back := match u with
      | .lane v _ _ => v.nextHeader
      | .unit _ => s.turnPc + 8
    .next ((s.uniBranch u (relAddress s.turnPc off) none).uniCommit u link 1 (w64 back))

/-- A processor past `uexit` whose transfers, signals and results are over is idle (R356). -/
def State.settle (s : State) (n : Nat) : State :=
  match s.proc? n with
  | none => s
  | some p =>
    let waits := s.ops.any fun o => o.issuer == .fabric n && match o.kind with
      | .launch _ => false
      | _ => true
    if p.ending && p.queue.isEmpty && p.signals.isEmpty && !waits then { s with procs := s.procs.set n FabricProc.reset } else s

/-- A fabric program ends: its processor waits for its transfers (R356). -/
def State.endProgram (s : State) (n : Nat) : State := (s.mapProc n fun p => { p with ending := true }).settle n

/-- `uexit` on an executor without lanes: a stream ends (R282), a fabric program ends (R355); a control core has no threads that
could exit, and goes on. -/
def State.endUnit (s : State) (u : UnitId) : State :=
  match u with
  | .group _ => s
  | .stream w => s.mapStream w fun x => { x with stage := .ended }
  | .fabric n => s.endProgram n
  | .control _ => s

/-- `uexit`. -/
def uniExit (s : State) : Result :=
  withUni none 1 [] .none false s fun u s =>
    match u with
    | .lane v _ _ => .next (s.exitLanes v v.g.lanes)
    | .unit i => .next (s.endUnit i)
/-- UEXIT (R132). -/
def execUexit (s : State) : Result := uniExit s
/-- UEXIT_64 (R132). -/
def execUexit64 (s : State) : Result := uniExit s

/-- LCRBIN (R343): the counter as it stands at issue. -/
def execLcrbin (d : Dst) (range cls : Nat) (guard : Option Guard) (s : State) : Result :=
  withUni guard 1 [] d false s fun u s =>
    match u with
    | .lane v _ _ => .next (s.uniCommit u d 1 (sget 0 (s.part v.wg.core v.g.part).lcc (range * 5 + cls)))
    | .unit _ => .next (s.illegal .executor)

end Sys2Proof.Machine
end

