-- ==== Sys2Proof/Machine/Runs.lean ====
section
/-!
DEFINITION. Run control: headers and the choice of the next run (R21, R31, R34, R152 to R154, R317), prefixes (R71, R73), trailers
and what the end of a run does to its threads (R27, R30, R32, R33, R149), and the drawing of bins (R150).
-/
namespace Sys2Proof.Machine

/-! ### Headers -/

/-- The flags that a header waits for. -/
def waitFlags (h : HeaderWord) : List Nat := (List.range 12).filter fun i => h.wait.testBit i

/-- The clk from which a header's flag and distance conditions hold in a thread; none while a flag is clear (R27, R31). -/
def Thread.readyFor (t : Thread) (h : HeaderWord) : Option Nat :=
  if (waitFlags h).any fun f => sget 0 t.flags f != 0 then none else
  let set := (waitFlags h).foldl (fun a f => max a (if sget 0 t.setAt f = 0 then 0 else sget 0 t.setAt f + 1)) 0
  some (max set (if t.trailer = 0 then 0 else t.trailer + 1 + h.dist))

/-- The clk from which a header's conditions hold in every thread of a group. -/
def State.groupReady (s : State) (g : Group) (h : HeaderWord) : Option Nat :=
  match s.wg? g.wg with
  | none => none
  | some w => (g.tids.filterMap w.thread?).foldl (fun acc t => acc.bind fun a => (t.readyFor h).map (max a)) (some 0)

/-- Pass the checks of every operation that some threads wait for, so that an R header may issue: the state with their
translations held, or none while one fails or must wait (R317). -/
def State.passChecks (s : State) (wg : Nat) (tids : List Nat) : Option State :=
  (s.ops.filter fun o => o.wg == wg && (!o.checked || o.sent) && o.present.any tids.contains).foldl (fun acc o => acc.bind fun s =>
    match s.opCheck o with
    | .ok t => if s.opRemote o then none else some (t.mapOp o.id fun o => { o with checked := true })
    | .error _ => none) (some s)

/-- The keys of Table 5.10 for a ready candidate, lower values preferred. -/
def State.issueKeys (s : State) (g : Group) (w : Workgroup) (h : HeaderWord) (ready : Nat) : List Nat :=
  let prio := ((s.leafOf w).map fun r => (s.effective r).prio).getD 0
  [47 - min 47 (prio + if g.lifted then 1 else 0), if g.parked then ready else g.since, 3 - h.hint, w.order, g.block, g.pc]

/-- Whether a list of keys precedes another. -/
def keysBefore : List Nat → List Nat → Bool
  | a :: r, b :: q => decide (a < b) || (a == b && keysBefore r q)
  | _, _ => false

/-- Whether a group may take part in the selection of its partition. -/
def State.selectable (s : State) (g : Group) (w : Workgroup) : Bool :=
  g.run.isNone && g.stop.isNone && g.filing.isNone && w.stopped.isNone && w.residence == .resident &&
    !s.groupFrozen w g s.cyc

/-- The keys of a group, when it is a ready candidate on this clk. -/
def State.readyKeys (s : State) (g : Group) : Option (List Nat) := do
  let w ← s.wg? g.wg
  if !s.selectable g w then none else
  let h ← s.headerAt w g.pc
  let ready ← s.groupReady g h
  if s.cyc < ready || (!g.parked && s.cyc < g.since) then none else
  if h.r && (s.passChecks g.wg g.tids).isNone then none else
  some (s.issueKeys g w h ready)

/-- Whether a group is the candidate that its partition selects on this clk (R153). -/
def State.selected (s : State) (g : Group) (w : Workgroup) (keys : List Nat) : Bool :=
  s.groups.all fun q =>
    q.id == g.id || q.part != g.part || ((s.wg? q.wg).map (·.core)) != some w.core ||
      match s.readyKeys q with
      | some k => !keysBefore k keys
      | none => true

/-- A thread at the issue of its next header: o and l are dead, `%rec` counts an R header, writes that have settled are
forgotten (R24, R27, R34). -/
def Thread.enter (t : Thread) (pc clk : Nat) (r : Bool) : Thread :=
  let t := { t with o := [], l := [], next := pc, stale := t.stale.filter fun e => decide (clk ≤ e.ready) }
  if r then { t with regionsR := t.regions, retiredR := t.retired, lastR := pc, regions := t.regions + 1 } else t

/-- Whether some run of a workgroup that is still in progress has a header no later than a clk. -/
def State.runSince (s : State) (wg clk : Nat) : Bool :=
  s.groups.any fun q => q.wg == wg && (q.run.map fun r => decide (r.clk ≤ clk)).getD false

/-- Start the run of a group: its header issues. -/
def State.startRun (s : State) (g : Group) (w : Workgroup) (h : HeaderWord) : State :=
  let run : Run := { header := g.pc, clk := s.cyc, pc := g.pc + 4, left := h.len + 1, pfx := none, ordinals := [], tail := .fall }
  let s := s.mapThreads w.id g.tids fun t => t.enter g.pc s.cyc h.r
  let s := s.mapWg w.id fun x =>
    { x with ksettling := x.ksettling.filter fun e => e.own.isSome || decide (s.cyc ≤ e.ready) || s.runSince w.id e.ready }
  s.mapGroup g.id fun g => { g with run := some run, parked := false, lifted := false, skipWatch := false }

/-- A group of a workgroup that is leaving its core stops before an R header: its threads stand at their next header (R337). -/
def State.dissolve (s : State) (g : Group) : State :=
  { s with groups := s.groups.filter (·.id != g.id) }.mapThreads g.wg g.tids fun t => { t with place := .bin }

/-- HEADER (R21, R31, R34, R74, R153). -/
def execHeader (h : HeaderWord) (s : State) : Result :=
  match s.turn with
  | none => .refused .noExecutor
  | some t =>
    match t.unit with
    | .group id =>
      match s.group? id with
      | none => .fault .noSuchUnit
      | some g =>
        match s.wg? g.wg with
        | none => .fault .noSuchUnit
        | some w =>
          if g.run.isSome then .next (s.illegal .opcode)
          else match s.groupReady g h with
            | none => holdWord s
            | some ready =>
              if s.cyc < ready || (!g.parked && s.cyc < g.since) then holdWord s
              else if h.r && w.residence == .leaving then .next (s.dissolve g)
              else if w.residence == .resident && !s.selected g w (s.issueKeys g w h ready) then holdWord s
              else if h.r then
                match s.passChecks g.wg g.tids with
                | none => holdWord s
                | some s => .next (s.startRun g w h)
              else .next (s.startRun g w h)
    | _ => .next (s.illegal .opcode)

/-! ### Prefixes -/

/-- Whether a prefix before a word is orphan: before another prefix, a run control word, a word of the other set (R73). -/
def orphanBefore (uni : Bool) (w : Nat) : Bool := isPrefixWord w || isHeaderWord w || isTrailerWord w || isUniform w != uni

/-- The word after the one being performed, if it can be fetched. -/
def State.wordAfter (s : State) (w : Workgroup) (pc : Nat) : Option Nat :=
  match s.fetch (s.wgAccessor w) pc with
  | .ok (_, .ok v, _) => some v
  | _ => none

/-- PREFIX (R71, R73). -/
def execPrefixWord (p : PrefixFields) (s : State) : Result :=
  onGroup s fun v =>
    let orphan := ((s.wordAfter v.wg v.turn.pc).map (orphanBefore p.uniform)).getD false
    if v.run.left = 0 then .next (s.illegal .opcode)
    else if v.run.left = 1 || orphan then .next (s.illegal .orphan)
    else .next (s.mapGroup v.g.id fun g => { g with run := g.run.map fun r => { r with pfx := some (v.turn.pc, encodePrefix p) } })

/-! ### Trailers -/

/-- A valid entry of a trailer adds its instruction to the flag's count, in each thread for which it is still pending (R30). -/
def State.addEntry (s : State) (wg : Nat) (r : Run) (e : CompletionEntry) : State :=
  (r.ordinals.getD e.ordinal []).foldl (fun s id =>
    match s.op? id with
    | none => s
    | some o => (s.mapOp id fun o => { o with flags := o.flags ++ [e.flag] }).mapThreads wg o.present fun t =>
        { t with flags := sset 0 t.flags e.flag (sget 0 t.flags e.flag + 1) }) s

/-- A thread after the trailer of its run: o and l are dead, and results settle in its main registers (R24, R27). -/
def Thread.endRun (t : Thread) (clk next : Nat) : Thread :=
  { t with o := [], l := [], next, trailer := clk, settling := []
           stale := t.stale ++ t.settling.map fun e => { e with ready := max e.ready clk } }

/-- The next header of a lane after a run. -/
def Tail.nextOf (fall : Nat) (lane : Nat) : Tail → Nat
  | .branch ts => ((ts.find? (·.1 == lane)).map (·.2)).getD fall
  | _ => fall

/-- The entries of a trailer. -/
def trailerEntries (t : TrailerWord) : List CompletionEntry := t.e0.toList ++ t.e1.toList ++ t.e2.toList

/-- Release a finished partition. -/
def Partition.release (p : Partition) (gid : Nat) : Partition := if p.busy == some gid then { p with busy := none } else p

/-- What the last exit of a workgroup does: open and held copies are discarded (R269); a stream not begun ends, one stalled at a
wait has its wait ended and issues no more (R282). -/
def State.lastExit (s : State) (wg : Nat) : State :=
  match s.wg? wg with
  | none => s
  | some w =>
    if w.threads.any (·.place != .exited) then s else
    let drop := fun (c : Copy) => c.wg == wg && match c.kind with
      | .bulk _ _ _ _ _ _ _ st _ => st == .filling || st == .awaiting || st == .held
      | _ => false
    let s := { s with copies := s.copies.filter fun c => !drop c }
    s.mapStream wg fun x =>
      if x.stage == .idle || (x.stage == .running && (x.stop.isNone || x.assist.isSome) && x.wait.isSome) then { x with stage := .ended, wait := none }
      else x

/-- Some lanes of a group exit: a publishing boundary, and they leave every count of live threads (R125, R149). -/
def State.exitThreads (s : State) (g : Group) (lanes : List Nat) : State :=
  match s.wg? g.wg with
  | none => s
  | some w =>
    let tids := lanes.map (32 * g.block + ·)
    let s := if tids.isEmpty then s else s.boundary w.core w.id tids .exit
    ((s.leaveGroup g.id lanes).mapThreads w.id tids fun t => { t with place := .exited }).lastExit w.id

/-- The distinct next headers of a group's lanes, in the order of their lowest lanes. -/
def nextsOf (w : Workgroup) (g : Group) : List Nat :=
  (g.tids.filterMap fun t => (w.thread? t).map (·.next)).foldl (fun a x => if a.contains x then a else a ++ [x]) []

/-- File a group's lanes, one set per next header. -/
def State.fileGroup (s : State) (g : Group) (all : Bool) (at_ : Nat) : State :=
  match s.wg? g.wg with
  | none => s
  | some w => (nextsOf w g).foldl (fun s h =>
      match s.wg? g.wg with
      | none => s
      | some w => s.fileOrTrap w g.block (g.lanes.filter fun l => (w.thread? (32 * g.block + l)).map (·.next) == some h) h all
          (some g.id) at_) s

/-- Park a group's threads on a barrier register; when its generation has changed meanwhile they are released at once (R171). -/
def State.parkBar (s : State) (g : Group) (bar : Nat) (token : Bool) : State :=
  let s := (s.leaveGroup g.id g.lanes).mapThreads g.wg g.tids fun t => { t with place := .barwait bar token }
  match s.wg? g.wg with
  | none => s
  | some w => if (w.bars[bar]?).any fun b => b.gen != token then (s.refresh w.core).releaseAll g.wg g.tids else s

/-- Park a group's threads on a cinch line: they arrive once their publishing boundary completes (R173). -/
def State.parkCinch (s : State) (g : Group) (line : Nat) : State :=
  match s.wg? g.wg with
  | none => s
  | some w =>
    let id := s.seq
    let s := s.boundary w.core w.id g.tids (.cinch line)
    (s.leaveGroup g.id g.lanes).mapThreads g.wg g.tids fun t => { t with place := .cinch line false id }

/-- Park the lanes of a `waitv`; the others stay formed (R174). -/
def State.parkWaitv (s : State) (g : Group) (parks : List (Nat × WaitvPark)) : State :=
  parks.foldl (fun s e =>
    (s.leaveGroup g.id [e.1 % 32]).mapThread g.wg e.1 fun t => { t with place := .waitv { e.2 with since := s.cyc, read := s.cyc } }) s

/-- What the end of a run does to its threads, each at its next header (Table 5.9). -/
def State.applyTail (s : State) (g : Group) (tail : Tail) (at_ : Nat) : State :=
  match s.wg? g.wg with
  | none => s
  | some w =>
    match tail with
    | .fall => s
    | .branch _ =>
      if 1 < (nextsOf w g).length || g.lanes.length < (w.liveOf g.block).length then s.fileGroup g false at_ else s
    | .reform all => s.fileGroup g all at_
    | .exit lanes => s.exitThreads g lanes
    | .barwait bar token => s.parkBar g bar token
    | .cinch line => s.parkCinch g line
    | .waitv parks => s.parkWaitv g parks

/-- Whether a single step leaves what a trailer does to its threads undone until the next `gresume` (R329). -/
def Tail.waits : Tail → Bool
  | .fall | .exit _ => false
  | _ => true

/-- The event of a completed step, for a group that stops, or that is gone (R329); under a Bell it carries stop code 011 (R394). -/
def State.stepDone (s : State) (g : Group) (w : Workgroup) (tid pc : Nat) : State :=
  let bell := s.jobFrozen (s.jobOf w)
  match s.group? g.id with
  | some _ => s.trapGroup g.id 0x10 0 0 (if bell then 3 else 0) 0 pc [tid % 32] false
  | none =>
    let st : Stop := { cause := 0x10, sub := 0, detail := 0, code := if bell then 3 else 0, cont := !bell, reexec := !bell, pc, addr := 0
                       lanes := [tid % 32], tid, clk := s.cyc }
    s.raise (clusterOf w.core) w.core g.part none (s.wgEvent w tid false st)

/-- End a run at its trailer: the threads' writes settle, the partition is free, and the run's end takes effect, or waits for the
next `gresume` after a single step. -/
def State.endRun (s : State) (g : Group) (w : Workgroup) (r : Run) (park : Bool) (pc : Nat) : State :=
  let s := s.mapWg w.id fun w =>
    { w with threads := w.threads.map fun t =>
               if g.tids.contains t.tid then t.endRun s.cyc (r.tail.nextOf (pc + 4) (t.tid % 32)) else t
             ksettling := w.ksettling.map fun e => if e.own == some g.id then { e with own := none, ready := max e.ready s.cyc } else e }
  let head := r.tail.nextOf (pc + 4) ((g.lanes.head?).getD 0)
  let s := s.mapGroup g.id fun g =>
    { g with run := none, pc := head, since := s.cyc + 1, parked := park, lifted := false, skipWatch := false, step := none, held := 0
             filing := if g.step.isSome && r.tail.waits then some r.tail else none }
  let s := s.mapPart w.core g.part (·.release g.id)
  let s := if g.step.isSome && r.tail.waits then s else s.applyTail g r.tail pc
  let s := s.checkReform w.id g.block pc
  match g.step with
  | some tid => s.stepDone g w tid pc
  | none => s

/-- TRAILER (R27, R30, R32, R33, R75, R149). -/
def execTrailer (t : TrailerWord) (s : State) : Result :=
  onGroup s fun v =>
    if v.run.left ≠ 0 then .next (s.illegal .opcode)
    else if (trailerEntries t).any fun e => decide (v.run.ordinals.length ≤ e.ordinal) then .next (s.illegal .reserved)
    else .next (((trailerEntries t).foldl (fun s e => s.addEntry v.wg.id v.run e) s).endRun v.g v.wg v.run t.park v.turn.pc)

/-! ### Lane-cycles (R342) -/

/-- Count lane-cycles of a partition in a range, by class (0 active, 1 diverged, 2 predicated off, 3 absent, 4 idle). -/
def Partition.count (p : Partition) (range : Nat) (classes : List Nat) : Partition :=
  { p with lcc := classes.zipIdx.foldl (fun m e => sset 0 m (range * 5 + e.2) (sget 0 m (range * 5 + e.2) + w64 e.1)) p.lcc }

/-- Count the clks up to `clk` as idle. -/
def State.countIdle (s : State) (core part clk : Nat) : State :=
  s.mapPart core part fun p => { p.count 15 [0, 0, 0, 0, 32 * (clk - p.counted)] with counted := max p.counted clk }

/-! ### Drawing bins (R150) and lifting candidates (R154) -/

/-- A bin of a partition by its number. -/
def State.bin? (s : State) (core part bin : Nat) : Option Bin :=
  s.bins.find? fun b => b.core == core && b.part == part && b.index == bin

/-- Whether a bin may be drawn at all: not on its last-filing clk, not of a workgroup that is leaving or stopped. -/
def State.drawable (s : State) (b : Bin) : Bool :=
  decide (b.last < s.cyc) && ((s.wg? b.wg).map fun w => w.residence == .resident && w.stopped.isNone).getD false

/-- Draw a bin on a condition of its own. -/
def State.drawIf (s : State) (core part bin : Nat) (p : Workgroup → Region → Bin → Bool) : State :=
  match s.bin? core part bin with
  | none => s
  | some b =>
    match s.wg? b.wg with
    | none => s
    | some w => match s.leafOf w with
      | some r => if s.drawable b && p w r b && !w.diverged.contains b.block then s.draw b else s
      | none => s

/-- Whether a bin is full (R150, R161). -/
def Bin.full (w : Workgroup) (b : Bin) : Bool := b.lanes.length == (w.liveOf b.block).length
/-- Whether a bin has aged (R150): ageing stands still under a freeze (R323). -/
def State.aged (s : State) (w : Workgroup) (r : Region) (b : Bin) : Bool :=
  !b.all && decide (b.filed + r.age + b.held ≤ s.cyc) && !s.frozenAt w b.part s.cyc

/-- BIN_FULL_DRAW (R150, R161). -/
def execBinFullDraw (core part bin : Nat) (s : State) : Result := .next (s.drawIf core part bin fun w _ b => b.full w)

/-- BIN_AGED_DRAW (R150). -/
def execBinAgedDraw (core part bin : Nat) (s : State) : Result := .next (s.drawIf core part bin s.aged)

/-- The waiting-since clk of a candidate (R152); none while the group is no candidate: one that parked at its trailer is one once its
next header's flag and distance conditions hold. -/
def State.waitingSince (s : State) (g : Group) : Option Nat :=
  if g.run.isSome || g.stop.isSome || g.filing.isSome then none
  else if g.parked then
    ((s.wg? g.wg).bind (s.headerAt · g.pc)).bind fun h => (s.groupReady g h).filter fun c => decide (c ≤ s.cyc)
  else if g.since ≤ s.cyc then some g.since else none

/-- Whether a candidate has waited long enough to be lifted (R154): the count stands still while a debug cause stops a group of the
workgroup (R323). -/
def State.liftable (s : State) (g : Group) : Bool :=
  !g.lifted && !s.debugStopped g.wg && ((s.wg? g.wg).map fun w => !s.frozenAt w g.part s.cyc).getD false &&
    ((s.waitingSince g).map fun c => decide (c + g.held + 4096 < s.cyc)).getD false

/-- CANDIDATE_LIFT (R154). -/
def execCandidateLift (group : Nat) (s : State) : Result :=
  match s.group? group with
  | some g => .next (if s.liftable g then s.mapGroup group fun g => { g with lifted := true } else s)
  | none => .next s

end Sys2Proof.Machine
end

