-- ==== Sys2Proof/Machine/Placement.lean ====
section
/-!
DEFINITION. The region dispatcher: workgroups on cores (R139 to R146, R278, R403), the requests that a region give up cores and the
saving of pre-empted workgroups (R336 to R338, R410), and killing regions (R330).
-/
namespace Sys2Proof.Machine

/-! ### Resources of a core (R142, Table 5.7) -/

/-- Workgroups in a leaf's grid. -/
def Region.total (r : Region) : Nat := r.gx * r.gy * r.gz
/-- Blocks of a workgroup (R146). -/
def Region.blocks (r : Region) : Nat := (r.wgsz + 31) / 32
/-- Blocks bound to a partition. -/
def Region.blocksOf (r : Region) (part : Nat) : Nat := (r.blocks + 3 - part) / 4
/-- Whether its workgroups have streams. -/
def Region.streams (r : Region) : Nat := if r.sentry = 0 then 0 else 1

/-- The leaves of the workgroups that stand on a core. -/
def State.residents (s : State) (core : Nat) : List Region :=
  (s.wgs.filter fun w => w.core == core && w.residence != .saved).filterMap s.leafOf

/-- Tiles of a core that hold detached pins (R303). -/
def State.pinnedTiles (s : State) (core : Nat) : Nat := (s.pins.filter fun p => p.holder.isNone && p.core == some core).length

/-- Whether a workgroup of a leaf fits a core, counting `pinned` tiles for detached pins. -/
def State.fitsWith (s : State) (r : Region) (pinned core : Nat) : Bool :=
  let l := r :: s.residents core
  let room := fun (f : Region → Nat) (most : Nat) => decide ((l.map f).sum ≤ most)
  (List.range 4).all (fun p => room (fun r => 32 * r.blocksOf p) 256) && room Region.scratch 786432 &&
  room Region.tiles (32 - pinned) && room Region.macros 32 && room Region.bars 128 && room Region.streams 4 && decide (l.length ≤ 32)

/-- Whether a workgroup of a leaf fits a core. -/
def State.fits (s : State) (r : Region) (core : Nat) : Bool := s.fitsWith r (s.pinnedTiles core) core

/-! ### The core of a workgroup (R144) -/

/-- The die of a declared operand's chunk; none where the address does not translate. An address that translates to host memory or to another
package has no stack of this package: R144 leaves open what it declares, and the model counts it as no declaration (DESIGN CHOICE,
log 104). -/
def State.declaredDie (s : State) (r : Region) (base stride w : Nat) : Option Nat :=
  if base = 0 then none else
  let va := (base + w * stride) % 2 ^ 64
  match s.ownPageBy r.job (plainRule .read) va with
  | .error _ => none
  | .ok (p, _) => match p.home va with
    | .package _ | .host => none
    | _ => some (s.homeDie (p.pa va))

/-- Thread slots in use on a die. -/
def State.slotsUsed (s : State) (die : Nat) : Nat :=
  ((s.wgs.filter fun w => dieOf w.core == die && w.residence != .saved).filterMap s.leafOf |>.map fun r => 32 * r.blocks).sum

/-- The die with the most free thread slots, the lowest on a tie. -/
def State.emptiestDie (s : State) : Nat :=
  (List.range 4).foldl (fun b d => if s.slotsUsed d < s.slotsUsed b then d else b) 0

/-- The home die of a workgroup. -/
def State.homeDieOf (s : State) (r : Region) (w : Nat) : Nat :=
  ((s.declaredDie r (r.word 17) (r.word 18) w).or (s.declaredDie r (r.word 19) (r.word 20) w)).getD s.emptiestDie

/-- The order in which dies are searched: nearest first on the ring. -/
def dieOrder (d : Nat) : List Nat := [d, (d + 1) % 4, (d + 3) % 4, (d + 2) % 4]

/-- Whether no new workgroup of a region starts on a core: a request has chosen it (R336). -/
def State.barred (s : State) (r : Region) (core : Nat) : Bool := s.requests.any fun q => q.chosen.contains core && s.under q.region r

/-- The core of workgroup `w` of a leaf, of those where `fits` holds. -/
def State.coreFor (s : State) (r : Region) (w : Nat) (fits : Nat → Bool) : Option Nat :=
  let held := s.coresOf r.id
  (dieOrder (s.homeDieOf r w)).findSome? fun d =>
    let cs := ((List.range 64).map (64 * d + ·)).filter fun c => fits c && !s.barred r c
    (cs.find? held.contains).or (if held.length < (s.effective r).cmax then cs.head? else none)

/-! ### Starting and resuming (R141, R338) -/

/-- The lowest free resident slot of a core. -/
def State.freeSlot (s : State) (core : Nat) : Nat := ((List.range 32).find? fun i => (s.slot? core i).isNone).getD 0

/-- The k registers at a start: the parameter words, and the entry word of a leaf that the Timetable launched (R141, R403). -/
def Region.startK (r : Region) : Sparse W64 :=
  let k := ssetAll 0 [] 0 r.params
  match r.k60 with
  | some w => sset 0 k 60 w
  | none => k

/-- A stream not begun (R278). -/
def Stream.start (entry : Nat) (k : Sparse W64) : Stream :=
  { stage := .idle, pc := entry, last := 0, k, rnd := 0, flush := 0, queue := [], stop := none, wait := none, outbound := none
    lists := [], buffered := [], assist := none, upsets := [] }

/-- Start the next new workgroup of a leaf on a core: its full groups are candidates at the kernel entry (R141, R152). -/
def State.startWg (s : State) (r : Region) (core : Nat) : State :=
  let k := r.startK
  let id := s.seq
  let wg : Workgroup :=
    { id, region := r.id, w := r.nextW, core, slot := s.freeSlot core, order := id, residence := .resident
      threads := (List.range r.wgsz).map fun t => Thread.start t r.kentry (s.effective r).mode .bin
      k, ksettling := [], scr := [], acc := [], macros := List.replicate r.macros CimMacro.reset
      bars := List.replicate r.bars ⟨false, 0, 0, 0, 0⟩
      stream := if r.sentry = 0 then none else some (Stream.start r.sentry k), stopped := none, diverged := [], copyTurn := 0, upsets := [] }
  let s := ({ s with wgs := s.wgs ++ [wg] }).bump
  let s := (List.range r.blocks).foldl
    (fun s b => s.formGroup id b ((List.range 32).filter fun l => decide (32 * b + l < r.wgsz)) r.kentry) s
  ((s.refresh core).mapRegion r.id fun r => { r with nextW := r.nextW + 1 }).setRegionState r.id 2

/-- A line bound to a region under an explicit mask gains a core (R338). -/
def CinchLine.gain (l : CinchLine) (region core : Nat) : CinchLine :=
  if l.region == some region then { l with mask := l.mask.map (insertLane core) } else l

/-- Resume a saved workgroup on a core: each thread is filed at its resume header (R335, R338). -/
def State.resumeWg (s : State) (w : Workgroup) (core : Nat) : State :=
  let w := { w with core, slot := s.freeSlot core, order := s.seq, residence := .resident }
  let back := fun (t : Thread) =>
    if t.place == .exited then t else
    let h := s.resumeHeader w t
    { t.reset h.2 with next := h.1, place := .bin }
  let live := (w.threads.filter (·.place != .exited)).map (·.tid)
  let w := { w with threads := w.threads.map back }
  let lines : List CinchLine := s.cinch.map fun l => l.gain w.region core
  let s := { s.mapWg w.id (fun _ => w) with cinch := lines }.bump.forgetClean core (s.jobOf w)
  let t := ((s.refresh core).releaseAll w.id live).setRegionState w.region 2
  if w.upsets.contains .context then t.trapWorkgroup w.id 0x0E 5 0 0 else t

/-! ### Ends of workgroups (R139, R141, R282, R299, R303) -/

/-- Whether nothing of a workgroup runs or waits any more but a contribution in its outbound slot. -/
def State.wgEnded (s : State) (w : Workgroup) : Bool :=
  w.residence == .resident && w.stopped.isNone && w.threads.all (·.place == .exited) &&
  (w.stream.map fun x => x.stage == .ended && x.queue.isEmpty && x.stop.isNone).getD true &&
  !(s.ops.any (·.wg == w.id)) && !(s.boundaries.any (·.wg == w.id)) && !(s.copies.any (·.wg == w.id)) &&
  !(s.remotes.any (·.drains w.id)) && !(s.path.any fun p => p.wg == w.id && !p.posted)

/-- Whether nothing of a workgroup runs or waits any more. -/
def State.wgDone (s : State) (w : Workgroup) : Bool := s.wgEnded w && (w.stream.map fun x => x.outbound.isNone).getD true

/-- Detach a workgroup's pins: they stay in the accumulator memory of its core. -/
def State.detachPins (s : State) (w : Workgroup) : State :=
  { s with pins := s.pins.map fun p =>
      match p.holder with
      | some (g, t) => if g == w.id then
          { p with holder := none, core := some w.core
                   contents := (w.acc.filter fun e => e.1 / 4096 == t).map fun e => (e.1 % 4096, e.2) } else p
      | none => p }

/-- Whether contributions or open lists are left at a workgroup's exit. -/
def Stream.receives (x : Stream) : Bool := !x.lists.isEmpty || !x.buffered.isEmpty

/-- End a workgroup: it leaves its core, or takes the matrix-misuse trap for what it never received (R299). -/
def State.endWg (s : State) (w : Workgroup) : State :=
  if (w.stream.map (·.receives)).getD false then
    (s.mapStream w.id fun x => { x with lists := [], buffered := [] }).trapWorkgroup w.id 8 4 0 0
  else
    let s := (s.depart w.core w.id).detachPins w
    { s with wgs := s.wgs.filter (·.id != w.id) }.mapRegion w.region fun r => { r with ended := r.ended + 1 }

/-- End every workgroup of which nothing is left. -/
def State.retire (s : State) : State := (s.wgs.filter s.wgDone).foldl State.endWg s

/-! ### Requests for cores (R145, R336) -/

/-- The cores on which workgroups of a subtree stand. -/
def State.coresUnder (s : State) (node : Nat) : List Nat :=
  (List.range 256).filter fun c => s.wgs.any fun w => w.core == c && w.residence != .saved && ((s.leafOf w).map (s.under node)).getD false

/-- The workgroups of a subtree that stand on a core. -/
def State.wgsUnder (s : State) (node core : Nat) : List Workgroup :=
  s.wgs.filter fun w => w.core == core && w.residence != .saved && ((s.leafOf w).map (s.under node)).getD false

/-- Whether a queued event is of a group of a workgroup: its handle names the workgroup's slot on its core, and no stream (R321). -/
def EventRec.ofGroup (e : EventRec) (w : Workgroup) : Bool :=
  let f := fld (e.words.getD 0 0).toNat
  e.core == w.core && f 18 3 < 4 && decide (f 24 24 < 2 ^ 23) && f 24 8 == w.core && f 32 5 == w.slot

/-- Whether a debug cause stops a group of any workgroup on a core (R323). -/
def State.debugCore (s : State) (core : Nat) : Bool := s.wgs.any fun w => w.core == core && w.residence != .saved && s.debugStopped w.id

/-- Whether a core may be chosen: no group of the region there is stopped, none of their events is queued, and no debug stop holds the core. -/
def State.choosable (s : State) (node core : Nat) : Bool :=
  let ws := s.wgsUnder node core
  !(s.groups.any fun g => g.stop.isSome && ws.any (·.id == g.wg)) && ws.all (fun w => w.stopped.isNone) &&
  !(ws.any fun w => (List.range 4).any fun p => s.frozenAt w p s.cyc) &&
  !s.debugCore core && !((s.events.map (·.event) ++ s.controls.flatMap (·.queue)).any fun e => ws.any e.ofGroup)

/-- Live threads of a subtree on a core. -/
def State.threadsUnder (s : State) (node core : Nat) : Nat :=
  ((s.wgsUnder node core).map fun w => (w.threads.filter (·.place != .exited)).length).sum

/-- The core that a request chooses next. -/
def State.chooseCore (s : State) (q : CoreRequest) : Option Nat :=
  ((s.coresUnder q.region).filter fun c => !q.chosen.contains c && s.choosable q.region c).foldl
    (fun best c => match best with
      | none => some c
      | some b => if s.threadsUnder q.region c ≤ s.threadsUnder q.region b then some c else some b) none

/-- Stop the workgroups of a subtree on a core: candidates and filed groups at once, an issuing group before its next R header
(R337). -/
def State.leaveCore (s : State) (node core : Nat) : State :=
  (s.wgsUnder node core).foldl (fun s w =>
    if w.residence != .resident then s else
    let s := s.mapWg w.id fun w => { w with residence := .leaving }
    let s := (s.groups.filter fun g => g.wg == w.id && g.run.isNone).foldl State.dissolve s
    { s with bins := s.bins.filter (·.wg != w.id) }) s

/-- Choose cores for a request while it wants more and some qualify. -/
def State.serveRequest (s : State) : Nat → CoreRequest → State × CoreRequest
  | 0, q => (s, q)
  | n + 1, q =>
    if q.cores ≤ q.chosen.length then (s, q) else
    match s.chooseCore q with
    | none => (s, q)
    | some c => State.serveRequest (s.leaveCore q.region c) n { q with chosen := q.chosen ++ [c] }

/-- Whether a request is over: its cores have been given up, or its region has ended. -/
def State.requestOver (s : State) (q : CoreRequest) : Bool :=
  (decide (q.cores ≤ q.chosen.length) && !(q.chosen.any (s.coresUnder q.region).contains)) ||
  ((s.region? q.region).map fun r => decide (4 ≤ r.state)).getD true

/-- Serve every request in the order of their arrival. -/
def State.serveRequests (s : State) : State :=
  let s : State := { s with requests := s.requests.filter fun q => !s.requestOver q }
  s.requests.zipIdx.foldl (fun s e =>
    let r := s.serveRequest 256 e.1
    { r.1 with requests := r.1.requests.set e.2 r.2 }) s

/-! ### WORKGROUP_DISPATCH (R143 to R145) -/

/-- The workgroup that a leaf starts next: a saved one, the lowest W first, or its W that is next. -/
def State.nextWg (s : State) (r : Region) : Option (Option Workgroup × Nat) :=
  let saved := s.wgs.filter fun w => w.region == r.id && w.residence == .saved
  let low := saved.foldl (fun b w => match b with
    | none => some w
    | some c => if w.w < c.w then some w else some c) (none : Option Workgroup)
  match low with
  | some w => some (some w, w.w)
  | none => if r.nextW < r.total then some (none, r.nextW) else none

/-- Whether a leaf has workgroups to place now. -/
def State.wants (s : State) (r : Region) : Bool :=
  r.field 0 56 8 == 3 && decide (1 ≤ r.state) && decide (r.state ≤ 3) && !r.held && !s.jobFrozen r.job && (s.nextWg r).isSome

/-- The keys by which leaves are served (R143). -/
def State.serveKeys (s : State) (r : Region) : List Nat :=
  let e := s.effective r
  [if (s.coresOf r.id).length < e.cmin then 0 else 1, 63 - e.prio, r.order]

/-- Insert a leaf into the order of service. -/
def insertByKeys (r : List Nat × Region) : List (List Nat × Region) → List (List Nat × Region)
  | [] => [r]
  | q :: l => if keysBefore r.1 q.1 then r :: q :: l else q :: insertByKeys r l

/-- The leaves that want to place a workgroup, in order of service. -/
def State.queue (s : State) : List Region :=
  ((s.regions.filter s.wants).foldl (fun l r => insertByKeys (s.serveKeys r, r) l) []).map (·.2)

/-- Place the next workgroup of a leaf, where one fits. -/
def State.placeNext (s : State) (r : Region) : Option State :=
  match s.nextWg r with
  | none => none
  | some (w, n) => (s.coreFor r n (s.fits r)).map fun c => match w with
    | some w => s.resumeWg w c
    | none => s.startWg r c

/-- Save a detached pin whose tile keeps the next workgroup of a leaf from starting, where its node's quota allows (R303). -/
def State.savePin (s : State) (r : Region) : Option State := do
  let (_, n) ← s.nextWg r
  let c ← s.coreFor r n (s.fitsWith r 0)
  let may := fun (p : Pin) => p.holder.isNone && p.core == some c && ((s.region? p.node).map fun a =>
    (a :: s.ancestors a).all fun a => s.quotaRoom a 20480).getD false
  let p ← s.pins.find? may
  some { s with pins := s.pins.map fun q => if q == p then { q with core := none } else q }

/-- The region that is asked to give up a core: of lower priority, above its CMIN; the lowest priority, then the latest
accepted (R145). -/
def State.donor (s : State) (r : Region) : Option Region :=
  (s.regions.filter fun q => q.field 0 56 8 == 3 && decide ((s.effective q).prio < (s.effective r).prio) &&
    decide ((s.effective q).cmin < (s.coresOf q.id).length)).foldl (fun best q => match best with
      | none => some q
      | some b =>
        let p := (s.effective q).prio
        let pb := (s.effective b).prio
        if p < pb || (p == pb && b.order < q.order) then some q else some b) none

/-- Ask for a core for a leaf below its CMIN, one request at a time. -/
def State.askFor (s : State) (r : Region) : State :=
  if (s.effective r).cmin ≤ (s.coresOf r.id).length || s.requests.any (·.asker == some r.id) then s else
  match s.donor r with
  | none => s
  | some q => ({ s with requests := s.requests ++ [({ region := q.id, asker := some r.id, cores := 1, chosen := [] } : CoreRequest)] } : State).serveRequests

/-- A running leaf that holds no core and still has workgroups is suspended (Table 5.6). -/
def State.suspend (s : State) (r : Region) : State :=
  if r.state == 2 && (s.coresOf r.id).isEmpty then s.setRegionState r.id 3 else s

/-- Whether a leaf's next workgroup fits no core, even with the room that a pin could give. -/
def State.unplaced (s : State) (r : Region) : Bool := (s.placeNext r).isNone && (s.savePin r).isNone

/-- WORKGROUP_DISPATCH: workgroups that are over leave, requests are served, a core is asked for where a leaf below its CMIN fits none, and one
workgroup is placed; where none can be, a pin is saved. -/
def execWorkgroupDispatch (s : State) : Result :=
  let s := s.retire.serveRequests
  let q := s.queue
  let s := (q.filter s.unplaced).foldl State.askFor s
  match q.findSome? s.placeNext with
  | some t => .next t
  | none => match q.findSome? s.savePin with
    | some t => .next t
    | none => .next (q.foldl State.suspend s)

/-! ### CONTEXT_SAVE (R337, R410) -/

/-- Cancel the pending `ttwait`s that `p` selects, the latest first: their flags are set, and their threads resume at the R header
before the earliest of them (R410). -/
def State.cancelTtwaits (s : State) (p : LongOp → Bool) : State :=
  (s.ops.reverse.filter p).foldl (fun s o =>
    match o.kind with
    | .ttwait _ _ _ _ back =>
      back.foldl (fun s b => s.mapThread o.wg b.1 fun t =>
        { t with next := b.2.1, lastR := b.2.1, regions := b.2.2.1, retired := b.2.2.2, regionsR := b.2.2.1, retiredR := b.2.2.2 })
        (s.endOp o)
    | _ => s) s

/-- Whether an operation keeps a workgroup from being saved: `waitv` and `ttwait` do not, nor a `cwait`, whose copies are saved too. -/
def LongOp.drains (o : LongOp) : Bool := match o.kind with
  | .waitv | .ttwait .. | .cwait _ => false
  | _ => true

/-- Whether the units of a leaving workgroup have stopped and its operations have drained. -/
def State.stoppedForSave (s : State) (w : Workgroup) : Bool :=
  w.stopped.isNone && !(s.groups.any (·.wg == w.id)) && !(s.ops.any fun o => o.wg == w.id && (o.drains || o.sent)) &&
  !(s.copies.any fun c => c.wg == w.id && c.sent) && (w.stream.map fun x => x.stop.isNone).getD true &&
  !(s.remotes.any fun r => r.drains w.id || r.use.ofUnit (.stream w.id)) &&
  !s.unitFrozen (s.jobOf w) && !(List.range 4).any fun p => (s.part w.core p).frozen.isSome

/-- Bytes that saved contexts take in the context store. -/
def State.savedBytes (s : State) : Nat := ((s.wgs.filter (·.residence == .saved)).map fun w => Config.contextBytes w.id).sum

/-- Begin a save: waits are cancelled or forgotten, threads leave their bins, and the save publishes. -/
def State.beginSave (s : State) (w : Workgroup) : State :=
  let s := s.cancelTtwaits (·.wg == w.id)
  let waits := fun (o : LongOp) => match o.kind with | .cwait _ => true | _ => false
  let s : State := { s with ops := s.ops.filter (fun o => o.wg != w.id || waits o), bins := s.bins.filter (·.wg != w.id) }
  let b : Boundary := { id := s.seq, core := w.core, wg := w.id, tids := w.threads.map (·.tid), limit := s.seq, after := [], next := .save }
  ({ s with boundaries := s.boundaries ++ [b] } : State).bump.mapWg w.id fun w => { w with residence := .saving b.id }

/-- End a save whose boundary has completed: the workgroup's resources are free. -/
def State.endSave (s : State) (w : Workgroup) : State :=
  let s := (s.depart w.core w.id).mapWg w.id fun w => { w with residence := .saved }
  let s := match s.leafOf w with
    | some r => s.suspend r
    | none => s
  { s with requests := s.requests.filter fun q => !s.requestOver q }

/-- CONTEXT_SAVE: a leaving workgroup is saved once its units have stopped, its stores are published, and the context store has
room. -/
def execContextSave (wg : Nat) (s : State) : Result :=
  match s.wg? wg with
  | none => .next s
  | some w =>
    match w.residence with
    | .leaving => .next (if s.stoppedForSave w then s.beginSave w else s)
    | .saving b => .next (if !s.pending b && !s.unitFrozen (s.jobOf w) && decide (s.savedBytes + Config.contextBytes w.id ≤ s.ctxsize) then s.endSave w else s)
    | _ => .next s

/-! ### Killing (R330) -/

/-- Remove a workgroup at once: its unpublished stores are performed or discarded, each by choice; its copies, operations and
pending launches are discarded. -/
def State.removeWg (s : State) (w : Workgroup) : State :=
  let mine := fun (o : LongOp) => o.wg == w.id && match o.issuer with
    | .group _ | .stream _ => true
    | _ => false
  let dead := (s.ops.filter mine).map (·.id)
  let keep := fun (p : PathStore) => p.wg != w.id || p.sent || Config.choose s.fresh (32 * p.seq + 4)
  let s := if w.residence == .saved then s else s.depart w.core w.id
  let s := s.detachPins w
  { s with
    wgs := s.wgs.filter (·.id != w.id), groups := s.groups.filter (·.wg != w.id), bins := s.bins.filter (·.wg != w.id)
    ops := s.ops.filter fun o => !mine o, path := s.path.filter keep
    boundaries := s.boundaries.filter (·.wg != w.id), posts := s.posts.filter (·.wg != w.id), copies := s.copies.filter (·.wg != w.id)
    launches := s.launches.filter fun l => match l.source with
      | .instruction o => !dead.contains o
      | _ => true }

/-- Whether a leaf has been accepted and has not ended, or an inner node or job has not been killed. -/
def Region.killable (r : Region) : Bool := if r.field 0 56 8 = 3 then decide (1 ≤ r.state) && decide (r.state ≤ 3) else decide (r.state ≤ 3)

/-- The Timetable's state when one of its leaves has been killed (Table 16.11). -/
def Timetable.failed (t : Timetable) (ids : List Nat) : Timetable :=
  if (t.state == 1 || t.state == 2) && t.tasks.any (fun k => (k.region.map ids.contains).getD false) then
    { t with state := 4, code := 5, sub := 0 } else t

/-- Kill every region of a node's subtree; each takes STATE 7. -/
def State.killSubtree (s : State) (node : Nat) : State :=
  let dead := (s.regions.filter fun r => s.under node r && r.killable).map (·.id)
  let s := (s.wgs.filter fun w => dead.contains w.region).foldl State.removeWg s
  let s : State := { s with
    pins := s.pins.filter fun p => !dead.contains p.node
    holding := s.holding.filter fun c => !dead.contains c.region
    cinch := s.cinch.map fun l => if (l.region.map dead.contains).getD false then CinchLine.reset else l
    requests := s.requests.filter fun q => !(dead.contains q.region || (q.asker.map dead.contains).getD false)
    tt := (if dead.isEmpty then s.tt else { (s.ttCount (s.cyc + 1)).tt with changed := s.cyc }).failed dead }
  dead.foldl (fun s id => (s.mapRegion id fun r => { r with held := false }).setRegionState id 7) s

/-- Kill a leaf's subtree for a fault and pass it through the fault domains: the region in which it stops takes STATE 6. -/
def State.failAt (s : State) (code : Nat) : Nat → Nat → State
  | 0, _ => s
  | n + 1, node =>
    match s.region? node with
    | none => s
    | some r =>
      let up := if (s.effective r).fdom = 1 then r.parent else none
      let s := s.killSubtree node
      match up with
      | some p => s.failAt code n p
      | none => (s.setRegionState node 6).report 0xFF (w64 r.va) code

/-- Kill a region as faulted (R330). -/
def State.failFrom (s : State) (node code : Nat) : State := s.failAt code (s.regions.length + 1) node

/-- What `gkill` and KILL do to a region. -/
def State.killRegion (s : State) (node code : Nat) (faulted : Bool) : State :=
  if faulted then s.failFrom node code else s.killSubtree node

end Sys2Proof.Machine
end

