-- ==== Sys2Proof/Machine/Copies.lean ====
section
/-!
DEFINITION. The copy engines: slices and bulk copies (R255 to R267, R269, R272, R275), and the lines of thread-issued copies (R250,
R252, R268).
-/
namespace Sys2Proof.Machine

/-! ### CPSLICE (R262, R263) -/

/-- Whether a copy is open: slices are missing, it has not yet read its TLR, or it waits for a held entry (R263, R272). -/
def Copy.isOpen (c : Copy) : Bool := match c.kind with
  | .bulk _ _ _ _ _ _ words st _ => st == .filling || st == .awaiting || (st == .ready && words.isEmpty)
  | _ => false

/-- Whether a copy is open on a barrier register and lacks a slice. -/
def Copy.lacks (c : Copy) (wg bar slice : Nat) : Bool := match c.kind with
  | .bulk b _ arr _ _ _ _ .filling _ => c.wg == wg && b == bar && !arr.contains slice
  | _ => false

/-- Whether a slice has the address, origin, offset and count of the copy it joins. -/
def Copy.agrees (c : Copy) (tlr : Nat) (org : List Int) (off count : Nat) : Bool := match c.kind with
  | .bulk _ n _ t o f _ _ _ => n == count && t == tlr && o == org && f == off
  | _ => false

/-- A copy with one slice more; the last makes it ready to start. -/
def Copy.join (c : Copy) (slice : Nat) (by_ : Nat × Nat) : Copy := match c.kind with
  | .bulk b n arr t o f ws _ _ =>
    { c with kind := .bulk b n (arr ++ [slice]) t o f ws (if arr.length + 1 = n then .ready else .filling) by_ }
  | _ => c

/-- CPSLICE (R262, R263). -/
def execCpslice (tlr : Src) (origin : Nat) (off : Src) (bar slice count : Nat) (s : State) : Result :=
  withUni none 1 [tlr, off, .k origin, .k (origin + 1), .k (origin + 2)] .none false s fun u s =>
    onBar u bar s fun w _ s =>
      let t := (s.uniSource u 64 tlr).toNat
      let f := (s.uniSource u 64 off).toNat
      let org := (List.range 6).map fun d => signed 32 (fld (s.uniK u (origin + d / 2)).toNat (32 * (d % 2)) 32)
      let by_ := match u with
        | .lane _ src _ => (src.tid, s.turnPc)
        | .unit _ => (0, s.turnPc)
      if t % 128 ≠ 0 then trapNext s 2 0 0 t [] else
      match s.copies.find? (·.lacks w.id bar slice) with
      | some c =>
        if !c.agrees t org f count then .next (s.trapWorkgroup w.id 5 1 bar 0)
        else .next { s with copies := updFirst (·.id == c.id) (·.join slice by_) s.copies }
      | none =>
        if 8 ≤ (s.copies.filter fun c => c.wg == w.id && c.isOpen).length then holdWord s else
        let c : Copy := { id := s.seq, wg := w.id, region := w.region, job := s.jobOf w
                          kind := .bulk bar count [] t org f [] .filling by_
                          line := 0, seq := s.seq, after := [], sent := false, got := [] }
        .next ({ s with copies := s.copies ++ [c.join slice by_] }).bump

/-! ### Engines (R255) -/

/-- The copy engine that serves a core. -/
def engineOf (core : Nat) : Nat := core / 8

/-- Whether a copy stands at its engine: a bulk copy that is ready or active, or any `cpout`. -/
def Copy.atEngine (c : Copy) : Bool := match c.kind with
  | .bulk _ _ _ _ _ _ _ st _ => st == .ready || st == .active
  | .out .. => true

/-- The copies that an engine holds: the first 64 in arrival order. -/
def State.engineCopies (s : State) (e : Nat) : List Copy :=
  (s.copies.filter fun c => c.atEngine && ((s.wg? c.wg).map fun w => w.residence == .resident && engineOf w.core == e).getD false).take 64

/-- Update a copy. -/
def State.mapCopy (s : State) (id : Nat) (f : Copy → Copy) : State := { s with copies := updFirst (·.id == id) f s.copies }
/-- Remove a copy. -/
def State.dropCopy (s : State) (id : Nat) : State := { s with copies := s.copies.filter (·.id != id) }
/-- A copy by its number. -/
def State.copy? (s : State) (id : Nat) : Option Copy := s.copies.find? (·.id == id)

/-- Whether a copy may go on: its workgroup is resident and not stopped, nothing freezes it, no answer is outstanding. -/
def State.copyRuns (s : State) (c : Copy) : Bool :=
  !c.sent && s.clear c.after &&
  ((s.wg? c.wg).map fun w => w.residence == .resident && w.stopped.isNone && !s.unitHeld c.job (.engine (engineOf w.core) c.job)).getD false

/-- The accessor of a copy: its core's translation unit, past no L1 (Table 8.3). -/
def State.copyAccessor (s : State) (c : Copy) : Accessor :=
  match s.wg? c.wg with
  | some w => { s.wgAccessor w with core := none }
  | none => ⟨96, 0, none, some c.job⟩

/-- Stop a bulk copy with a copy fault (R266): the workgroup stops, and nothing arrives. -/
def State.copyFault (s : State) (c : Copy) (kind detail addr : Nat) : State :=
  (s.dropCopy c.id).trapWorkgroup c.wg 0x0A kind detail addr

/-! ### Reading for a copy -/

/-- What reading for a copy gives: bytes, a fault (cause, subcause, address), or requests sent to other packages. -/
inductive CopyRead where
  | bytes (l : List Byte) (s : State)
  | fault (cause sub addr : Nat)
  | sent (s : State)

/-- The page rule of an engine's reads: an EXR page has the format subcause (R264). -/
def copyRule : PageRule := ownRule .read

/-- Read single bytes for an engine, with the core at whose L1 core-scope bytes are read, if any: those had, the sectors that must be asked for (package, physical and
virtual address), or a fault. -/
def State.gather (s : State) (near : Option Nat) (job : Nat) (u : Accessor) (rule : PageRule) (got : Fetched) (use : Nat → RemoteUse) :
    List Nat → List Byte → List (Nat × Nat × Nat) → CopyRead
  | [], l, [] => .bytes l s
  | [], _, ask => .sent (ask.foldl (fun s q => s.request q.1 job q.2.1 none (.read 32) (use q.2.2)) s)
  | va :: r, l, ask =>
    match s.translate u rule false va with
    | .error e => .fault 3 e va
    | .ok (p, s) =>
      match s.errorIn p va 1 with
      | some e => .fault 0x0E e va
      | none =>
      match p.home va, near with
      | .package k, _ =>
        match Fetched.at got va 1 with
        | some b => State.gather s near job u rule got use r (l ++ b) ask
        | none =>
          let q := (k, p.pa va / 32 * 32, va / 32 * 32)
          State.gather s near job u rule got use r (l ++ [0]) (if ask.contains q then ask else ask ++ [q])
      | .host, _ => State.gather s near job u rule got use r (l ++ hostRead s.fresh (p.pa va) 1) ask
      | .core, some c => let b := s.coreRead c (p.pa va) 1; State.gather b.2 near job u rule got use r (l ++ b.1) ask
      | _, _ => let b := s.homeRead none (p.pa va) 1; State.gather b.2 near job u rule got use r (l ++ b.1) ask

/-- Read bytes for a copy: its sources at their own scopes, its TLR at package scope (R264). -/
def State.copyBytes (s : State) (c : Copy) (near : Option Nat) (vas : List Nat) : CopyRead :=
  match s.gather near c.job (s.copyAccessor c) copyRule c.got (.copy c.id) vas [] [] with
  | .sent s => .sent (s.mapCopy c.id fun c => { c with sent := true })
  | r => r

/-! ### Layout (R256 to R261) -/

/-- A tensor layout record, taken apart (Table 10.1). -/
structure Layout where
  base : Nat
  fill : Nat
  swz  : Nat
  ndim : Nat
  esz  : Nat
  page : Bool
  held : Bool
  fmt  : Nat
  fillc : Nat
  dim  : List Nat
  str  : List Nat
  box  : List Nat
  sound : Bool
deriving DecidableEq, Repr

/-- The fields of a TLR's 16 words; `sound` says that VER and the reserved fields are as they must be. -/
def layoutOf (l : List W64) : Layout :=
  let f := rcbField l
  { base := f 0 0 64, fill := f 1 62 2, swz := f 1 59 3, ndim := f 1 56 3, esz := f 1 54 2, page := f 1 53 1 == 1
    held := f 1 52 1 == 1, fmt := f 1 0 6, fillc := f 2 0 64
    dim := [f 3 0 32, f 3 32 32, f 4 0 32, f 4 32 32, f 5 0 32, f 5 32 32]
    str := [0, f 6 0 64, f 7 0 64, f 8 0 64, f 9 0 64, f 10 0 64]
    box := [f 11 0 16, f 11 16 16, f 11 32 16, f 11 48 16, f 12 0 16, f 12 16 16]
    sound := f 1 40 8 == 1 && f 1 48 4 == 0 && f 1 6 34 == 0 && f 12 32 32 == 0 && f 13 0 64 == 0 && f 14 0 64 == 0 && f 15 0 64 == 0 }

/-- The conditions of R258 that do not need the element size. -/
def Layout.plain (t : Layout) (org : List Int) : Bool :=
  t.sound && t.fill != 3 && decide (t.swz < 4) && decide (1 ≤ t.ndim) && decide (t.ndim ≤ 6) && decide (t.fmt < 13) &&
  !(t.page && (t.fmt != 0 || t.esz != 0)) && !(t.fmt != 0 && t.esz != 0) &&
  (List.range 6).all fun d =>
    if d < t.ndim then t.dim.getD d 0 != 0 && t.box.getD d 0 != 0
    else t.dim.getD d 0 == 0 && t.box.getD d 0 == 0 && t.str.getD d 0 == 0 && org.getD d 0 == 0

/-- Element size in half bytes, of a layout whose format is known (R257). -/
def Layout.halves (t : Layout) : Nat := if t.fmt ≠ 0 then elemHalves t.fmt else 2 * 2 ^ t.esz

/-- A TLR's words with the format of the page of BASE in place of FPAGE: it is taken once, when the TLR is read (R257, R264). -/
def withFormat (words : List W64) (efmt : Nat) : List W64 :=
  let w := (words.getD 1 0).toNat
  words.set 1 (w64 (w - w % 64 + efmt - fld w 53 1 * 2 ^ 53))

/-- Box positions. -/
def Layout.count (t : Layout) : Nat := (t.box.take t.ndim).foldl (· * ·) 1
/-- Box bytes Q, for an element size in half bytes. -/
def Layout.bytes (t : Layout) (h : Nat) : Nat := t.count * h / 2

/-- The conditions of R258 that need the element size. -/
def Layout.sized (t : Layout) (h : Nat) (org : List Int) : Bool :=
  let b := if h = 1 then 1 else h / 2
  (List.range 6).all (fun d => decide (t.ndim ≤ d) || signed 64 (t.str.getD d 0) % (b : Int) == 0) && t.base % b == 0 &&
  !(h == 1 && (t.box.getD 0 0 % 2 == 1 || org.getD 0 0 % 2 == 1)) && decide (t.bytes h ≤ 1048575)

/-- The range condition of R260. -/
def Layout.inRange (t : Layout) (h off share : Nat) : Bool :=
  off % (if t.swz = 0 then 16 else 128) == 0 && decide (off + t.bytes h ≤ share)

/-- Mirror a coordinate into a dimension (R261). -/
def mirror (c : Int) (n mode : Nat) : Int :=
  if mode = 1 then
    let m := c % (2 * n : Nat)
    if m < n then m else (2 * n - 1 : Nat) - m
  else if n = 1 then 0 else
    let m := c % (2 * n - 2 : Nat)
    if m < n then m else (2 * n - 2 : Nat) - m

/-- The tensor coordinates of a box position. -/
def Layout.coords (t : Layout) (org : List Int) (e : Nat) : List Int :=
  ((List.range t.ndim).foldl (fun (acc : List Int × Nat) d =>
    let b := t.box.getD d 1
    (acc.1 ++ [org.getD d 0 + (acc.2 % b : Nat)], acc.2 / b)) ([], e)).1

/-- Where a box position's element stands, in half bytes from address 0; none where a constant fills it. -/
def Layout.place (t : Layout) (h : Nat) (org : List Int) (e : Nat) : Option Nat :=
  let c := t.coords org e
  let inside := (c.zip t.dim).all fun p => decide (0 ≤ p.1) && decide (p.1 < p.2)
  if !inside && t.fill == 0 then none else
  let c := if inside then c else (c.zip t.dim).map fun p => mirror p.1 p.2 t.fill
  let far := ((c.zip t.str).drop 1).foldl (fun a (p : Int × Nat) => a + p.1 * signed 64 p.2) (0 : Int)
  some (unsigned 64 ((t.base : Int) + far + c.headD 0 * h / 2) * 2 + (c.headD 0 * h % 2).toNat)

/-- Where one half byte of a copy comes from: an address and which half, or a constant. -/
inductive HalfSource where
  | mem (va : Nat) (high : Bool)
  | fill (v : Nat)
deriving DecidableEq, Repr

/-- The source of half byte `x` of a box. -/
def Layout.half (t : Layout) (h : Nat) (org : List Int) (x : Nat) : HalfSource :=
  match t.place h org (x / h) with
  | some p => let q := (p + x % h) % 2 ^ 65; .mem (q / 2) (q % 2 == 1)
  | none => .fill (t.fillc / 16 ^ (x % h) % 16)

/-- The box byte that stands at a byte of the copy's scratchpad area, by its swizzle, its own inverse (R260). -/
def Layout.unswizzle (t : Layout) (v : Nat) : Nat :=
  if t.swz = 0 then v else
  let p := 16 * 2 ^ t.swz
  v ^^^ (v / p % (p / 16) * 16)

/-- The destination bytes of one line: scratchpad offset and box byte. -/
def Layout.line (t : Layout) (h off n : Nat) : List (Nat × Nat) :=
  ((List.range 128).map fun i => (off / 128 + n) * 128 + i).filterMap fun a =>
    if a < off then none else
    let u := t.unswizzle (a - off)
    if u < t.bytes h then some (a, u) else none

/-- Lines of a bulk copy. -/
def Layout.lines (t : Layout) (h off : Nat) : Nat :=
  let q := t.bytes h
  let p := 16 * 2 ^ t.swz
  if q = 0 then 0 else (off % 128 + (if t.swz = 0 then q else (q + p - 1) / p * p) + 127) / 128

/-! ### BULK_COPY_START (R263, R264, R272, R275) -/

/-- A copy's TLR words with its element format, or the fault of the page of BASE (R257, R258). -/
def State.copyFormat (s : State) (c : Copy) (words : List W64) : Except (Nat × Nat) (List W64 × State) :=
  let t := layoutOf words
  if !t.page then .ok (words, s) else
  match s.translate (s.copyAccessor c) { copyRule with format := fun _ => true } false t.base with
  | .error e => .error (e, t.base)
  | .ok (p, s) => if p.efmt = 0 then .error (6, t.base) else .ok (withFormat words p.efmt, s)

/-- Scratchpad bytes of a workgroup. -/
def State.share (s : State) (wg : Nat) : Nat := (((s.wg? wg).bind s.leafOf).map (·.scratch)).getD 0

/-- The parts of a bulk copy. -/
structure Bulk where
  bar   : Nat
  tlr   : Nat
  org   : List Int
  off   : Nat
  words : List W64
  stage : CopyStage
deriving DecidableEq, Repr

/-- The parts of a copy, if it is a bulk copy. -/
def Copy.bulk? (c : Copy) : Option Bulk := match c.kind with
  | .bulk bar _ _ tlr org off words stage _ => some ⟨bar, tlr, org, off, words, stage⟩
  | _ => none

/-- A copy with its TLR's words and its stage. -/
def Copy.staged (c : Copy) (words : List W64) (stage : CopyStage) : Copy := match c.kind with
  | .bulk bar n arr tlr org off _ _ ra => { c with kind := .bulk bar n arr tlr org off words stage ra, got := [] }
  | _ => c

/-- Complete a bulk copy: it arrives once on its barrier register with Q bytes (R265), last of what reaches the register on its clk (R170). -/
def State.endBulk (s : State) (c : Copy) (bar q : Nat) : State :=
  let s := (s.dropCopy c.id).mapWg c.wg fun w => { w with copyTurn := s.cyc }
  match s.arrive c.wg bar 1 q with
  | some r => r.2
  | none => s.trapWorkgroup c.wg 5 1 bar 0

/-- Start a bulk copy whose layout has been read and checked. -/
def State.beginBulk (s : State) (c : Copy) (b : Bulk) (t : Layout) : State :=
  if t.lines t.halves b.off = 0 then s.endBulk c b.bar (t.bytes t.halves) else s.mapCopy c.id (·.staged b.words .active)

/-- Whether a copy holds an entry of a job at a TLR address (R272). -/
def Copy.holds (c : Copy) (job tlr : Nat) : Bool := c.job == job && (c.bulk?.map fun x => x.stage == .held && x.tlr == tlr).getD false

/-- Hold a copy for the binning engine (R272): it waits, still open, with the TLR it has read, while no entry is free or a held launch has its
address. -/
def State.holdCopy (s : State) (c : Copy) (b : Bulk) : State :=
  if s.copies.any (fun q => q.id != c.id && q.holds c.job b.tlr) then s.copyFault c 3 0 b.tlr
  else
    let full := decide (1024 ≤ s.heldEntries) || s.regions.any fun r => r.job == c.job && r.held && r.va == b.tlr
    s.mapCopy c.id (·.staged b.words (if full then .awaiting else .held))

/-- Check a bulk copy that has all its slices and its TLR's words, and start it or hold it. -/
def State.judgeBulk (s : State) (c : Copy) (b : Bulk) : State :=
  if !(layoutOf b.words).plain b.org then s.copyFault c 0 0 b.tlr else
  match s.copyFormat c b.words with
  | .error (e, a) => s.copyFault c 2 e a
  | .ok (words, s) =>
    let t := layoutOf words
    let b := { b with words }
    if !t.sized t.halves b.org then s.copyFault c 0 0 b.tlr
    else if !t.inRange t.halves b.off (s.share c.wg) then s.copyFault c 1 0 b.off
    else if t.held then s.holdCopy c b
    else s.beginBulk c b t

/-- Start a released copy: the rules on Q apply again to its patched boxes. -/
def State.startReleased (s : State) (c : Copy) (b : Bulk) : State :=
  let t := layoutOf b.words
  let h := t.halves
  if 1048575 < t.bytes h || (h == 1 && t.box.getD 0 0 % 2 == 1) then s.copyFault c 0 0 b.tlr
  else if !t.inRange h b.off (s.share c.wg) then s.copyFault c 1 0 b.off
  else s.beginBulk c b t

/-- The little-endian words of some bytes. -/
def wordsOf : Nat → List Byte → List W64
  | 0, _ => []
  | n + 1, l => w64 (leNat (l.take 8)) :: wordsOf n (l.drop 8)

/-- BULK_COPY_START. -/
def execBulkCopyStart (copy : Nat) (s : State) : Result :=
  match s.copy? copy with
  | none => .next s
  | some c =>
    match c.bulk? with
    | none => .next s
    | some b =>
      let e := ((s.wg? c.wg).map fun w => engineOf w.core).getD 0
      if b.stage == .awaiting && s.copyRuns c then .next (s.holdCopy c b)
      else if b.stage != .ready || !s.copyRuns c || !(s.engineCopies e).any (·.id == c.id) then .next s
      else if !b.words.isEmpty then .next (s.startReleased c b)
      else match s.copyBytes c none ((List.range 128).map (b.tlr + ·)) with
        | .bytes l s => .next (s.judgeBulk c { b with words := wordsOf 16 l })
        | .fault 3 e a => .next (s.copyFault c 2 e a)
        | .fault cause e a => .next ((s.dropCopy c.id).trapWorkgroup c.wg cause e 0 a)
        | .sent s => .next s

/-! ### COPY_LINE (R255) -/

/-- The byte had for an address. -/
def byteIn (l : List (Nat × Byte)) (a : Nat) : Nat := match l.find? (·.1 == a) with
  | some e => e.2.toNat
  | none => 0

/-- The half bytes of one line of a bulk copy: scratchpad offset, and the sources of its low and high halves. -/
def Layout.sources (t : Layout) (org : List Int) (off n : Nat) : List (Nat × HalfSource × HalfSource) :=
  (t.line t.halves off n).map fun p => (p.1, t.half t.halves org (2 * p.2), t.half t.halves org (2 * p.2 + 1))

/-- One line of a bulk copy. -/
def State.bulkLine (s : State) (c : Copy) (b : Bulk) : State :=
  let t := layoutOf b.words
  let dst := t.sources b.org b.off c.line
  let vas := distinct (dst.flatMap fun d => [d.2.1, d.2.2].filterMap fun x => match x with
    | .mem va _ => some va
    | .fill _ => none)
  match s.copyBytes c ((s.wg? c.wg).map (·.core)) vas with
  | .fault 3 e a => s.copyFault c 2 e a
  | .fault cause e a => (s.dropCopy c.id).trapWorkgroup c.wg cause e 0 a
  | .sent s => s
  | .bytes l s =>
    let mem : List (Nat × Byte) := vas.zip l
    let take := fun (x : HalfSource) => match x with
      | .fill v => v
      | .mem va high => if high then byteIn mem va / 16 else byteIn mem va % 16
    let s := s.scrWrite c.wg (dst.map fun d => (d.1, BitVec.ofNat 8 (take d.2.1 + 16 * take d.2.2)))
    if c.line + 1 < t.lines t.halves b.off then s.mapCopy c.id fun c => { c with line := c.line + 1, got := [] }
    else s.endBulk c b.bar (t.bytes t.halves)

/-- Stop a thread's copy with a fault: reported later by its thread, or now for the workgroup if it has exited (R252). -/
def State.failOut (s : State) (c : Copy) (addr sub : Nat) : State :=
  match c.kind with
  | .out t d o b n src ls _ =>
    if ((s.thread? c.wg t).map (·.place)) == some .exited then (s.dropCopy c.id).trapWorkgroup c.wg 0x0A 4 sub addr
    else s.mapCopy c.id fun c => { c with kind := .out t d o b n src ls (some (addr, sub)), sent := false }
  | _ => s

/-- The lines of a thread's copy that have not been performed: number, first address, address past the last (R268). -/
def Copy.outLines (c : Copy) : List (Nat × Nat × Nat) :=
  match c.kind with
  | .out _ d _ b _ _ ls _ =>
    ((List.range ((d + b + 127) / 128 - d / 128)).filter fun i => !ls.contains i).map fun i =>
      (i, max d ((d / 128 + i) * 128), min (d + b) ((d / 128 + i + 1) * 128))
  | _ => []

/-- The bytes of some of a thread's copy's destination, as its source was read. -/
def Copy.outBytes (c : Copy) (lo hi : Nat) : List Byte := match c.kind with
  | .out _ d _ _ _ src _ _ => ((src.drop (lo - d)).take (hi - lo)).map (·.getD 0)
  | _ => []

/-- A line of a thread's copy has been performed: the copy goes on, or is complete. -/
def State.outDone (s : State) (c : Copy) (n : Nat) : State :=
  let done := fun (c : Copy) => { c with sent := false, kind := match c.kind with
      | .out t d o b m src ls f => .out t d o b m src (ls ++ [n]) f
      | k => k }
  if (done c).outLines.isEmpty then s.dropCopy c.id else s.mapCopy c.id done

/-- The page rule of a `cpout` line (R249). -/
def outRule : PageRule := { plainRule .write with physical := fun p => !inHost p.frame, format := fun p => !p.exr }

/-- The copy with the sectors of its source read that some destination bytes come from (R250). -/
def Copy.readFor (c : Copy) (scr : Sparse Byte) (lo hi : Nat) : Copy := match c.kind with
  | .out _ d o _ _ _ _ _ => c.readSource scr fun k => decide ((o + (lo - d)) / 32 ≤ k) && decide (k ≤ (o + (hi - 1 - d)) / 32)
  | _ => c

/-- One line of a thread's copy, any of those left, performed at its scope home (R250, R268). -/
def State.outStep (s : State) (c : Copy) (w : Workgroup) : State :=
  match c.outLines[Config.freeNat s.fresh (32 * c.id + 11) % max 1 c.outLines.length]? with
  | none => s.dropCopy c.id
  | some (n, va, hi) =>
    let c := c.readFor w.scr va hi
    let s := s.mapCopy c.id fun _ => c
    match s.translate (s.copyAccessor c) outRule false va with
    | .error e => s.failOut c va e
    | .ok (p, s) =>
      let at_ := whole ((c.outBytes va hi).zipIdx.map fun (e : Byte × Nat) => (p.pa va + e.2, e.1))
      match p.home va with
      | .package k =>
        (s.request k c.job (p.pa va) none (.write at_) (.copy c.id (p.pa va))).mapCopy c.id fun c => { c with sent := true, line := n }
      | .core => (s.l1Write w.core c.job w.id at_).outDone c n
      | d => ((s.homeWrite (s.homeMerge at_)).l1Update w.core d at_).outDone c n

/-- Whether an engine has a line of a copy to do: a stopped `cpout` waits for its thread, unless that has exited. -/
def State.lineDue (s : State) (c : Copy) : Bool :=
  s.copyRuns c && match c.kind with
    | .bulk _ _ _ _ _ _ _ st _ => st == .active
    | .out t _ _ _ _ _ _ f => f.isNone || ((s.thread? c.wg t).map (·.place)) == some .exited

/-- Move a copy behind the others of its engine, so that they take turns. -/
def State.rotate (s : State) (id : Nat) (act : List Copy) : State :=
  match s.copy? id, act.getLast? with
  | some c, some z =>
    if z.id == id then s else
    { s with copies := (s.copies.filter (·.id != id)).flatMap fun q => if q.id == z.id then [q, c] else [q] }
  | _, _ => s

/-- COPY_LINE: the engine's next copy in turn advances by one destination line. -/
def execCopyLine (engine : Nat) (s : State) : Result :=
  let act := s.engineCopies engine
  match act.find? s.lineDue with
  | none => .next s
  | some c =>
    match s.wg? c.wg with
    | none => .next s
    | some w =>
      let s := s.rotate c.id act
      let t := match c.bulk?, c.outFault with
        | some b, _ => s.bulkLine c b
        | none, some (_, a, e) => s.failOut c a e
        | none, none => s.outStep c w
      .next (if ((t.copy? c.id).any fun d => d.sent) || (t.wg? c.wg).any (·.stopped.isSome) then t else t.stepTaken (.engine engine c.job) (some w) 0)

end Sys2Proof.Machine
end

