-- ==== Sys2Proof/Machine/MatrixRows.lean ====
section
/-!
DEFINITION. What the matrix engine computes: tile descriptors (R287, R288), macros and their elements (R276, R291), the rows of `mma`
(R292, R293), of drains and row exponentials (R295, R296, R302, R305), and row statistics (R301).
-/
namespace Sys2Proof.Machine

/-! ### Tile descriptors (Table 11.2) -/

/-- A tile descriptor: its two registers taken apart. -/
structure TileDesc where
  addr  : Nat
  band  : Nat
  soff  : Nat
  pitch : Nat
  rows  : Nat
  fmt   : Nat
  space : Nat
  rsv   : Nat
deriving DecidableEq, Repr

/-- The descriptor in two k registers (R287). -/
def tileDesc (a b : W64) : TileDesc :=
  let f := fld b.toNat
  { addr := a.toNat, band := f 48 16, soff := f 28 20, pitch := f 12 16, rows := f 6 6 + 1, fmt := f 3 3, space := f 2 1, rsv := f 0 2 }

/-- The element format of a descriptor's FMT code. -/
def tileFormat : Nat → Format
  | 0 => .e4m3 | 1 => .e5m2 | 2 => .e2m1 | 3 => .bf16 | 4 => .fp32 | _ => .fp16
/-- Element size in half bytes. -/
def tileHalves : Nat → Nat
  | 0 | 1 => 2 | 2 => 1 | 4 => 8 | _ => 4
/-- Elements that share a block scale; 0 without block scales. -/
def tileBlock : Nat → Nat
  | 0 | 1 => 32 | 2 => 8 | _ => 0

/-- Scales of a row of `e` elements. -/
def TileDesc.spr (d : TileDesc) (e : Nat) : Nat := if tileBlock d.fmt = 0 then 0 else e / tileBlock d.fmt
/-- The address of a row. -/
def TileDesc.row (d : TileDesc) (r : Nat) : Nat := d.addr + 16 * d.pitch * r

/-- The values of SPACE and FMT that an instruction accepts (Table 11.3). -/
def accepts : MatrixWork → Nat → Nat → Bool
  | .bload .., s, f | .mma .., s, f => s == 0 && decide (f < 4)
  | .drainSt .., s, f => if s = 0 then f == 0 || f == 1 || f == 3 || f == 4 || f == 5 else f == 3 || f == 4 || f == 5
  | .drainAdd .., s, f => s == 1 && (f == 3 || f == 4)
  | .rowexp .., s, f => s == 0 && (f == 0 || f == 1)
  | _, _, _ => true

/-- The descriptor conditions of R288. -/
def TileDesc.sound (d : TileDesc) (w : MatrixWork) : Bool :=
  accepts w d.space d.fmt && d.rsv == 0 && (d.fmt == 2 || d.band == 0) && d.addr % 16 == 0 && (d.space == 1 || decide (d.addr < 2 ^ 20))

/-- The scratchpad offset of row `r`, or of its scales, where it lies beyond a share, for rows of `e` elements (R288, R309). -/
def TileDesc.beyond (d : TileDesc) (e share r : Nat) : Option Nat :=
  if share < d.row r + e * tileHalves d.fmt / 2 then some (d.row r)
  else if tileBlock d.fmt ≠ 0 && decide (share < d.soff + (r + 1) * d.spr e) then some (d.soff + r * d.spr e)
  else none

/-- The scratchpad bytes of row `r` with its scales. -/
def TileDesc.rowSpan (d : TileDesc) (e r : Nat) : List Nat :=
  (List.range (e * tileHalves d.fmt / 2)).map (d.row r + ·) ++ (List.range (d.spr e)).map (d.soff + r * d.spr e + ·)

/-- The code of element `i` of a row that starts at a scratchpad offset. -/
def scrCode (scr : Sparse Byte) (base h i : Nat) : Nat :=
  if h = 1 then (memByte scr (base + i / 2)).toNat / 16 ^ (i % 2) % 16 else memNat scr (base + i * h / 2) (h / 2)

/-! ### Values -/

/-- The settings of a queued matrix instruction; `coord` is the row's first coordinate (R290, R305). -/
def matrixFp (rnd flush : Nat) (seed tid coord : W64) : FpMode :=
  { rnd := (rndOf rnd).getD .rne, sat := .off, mode := BitVec.ofNat 32 (flush * 256), fzi := false, fzo := false, seed
    tid := tid.setWidth 32, coord }

/-- An element with its block scale; a BF16 element has none (R45). -/
def FpMode.scaledElem (m : FpMode) (fmt code scale : Nat) : FVal :=
  let x := m.operand (tileFormat fmt) code
  if fmt = 3 then x else if fmt = 2 then x.mul (m.operand .e3m5 scale) else x.scaleE8 scale

/-- A band scale: of the matrix class, though its format is BF16 (R290). -/
def FpMode.bandVal (m : FpMode) (code : Nat) : FVal := Format.bf16.toVal (Format.bf16.flush (m.flushIn .ax40) code)

/-- An accumulator element as an input. -/
def FpMode.accVal (m : FpMode) (a : Ax40) : FVal := m.operand .ax40 a.toNat

/-- round_AX40 of a sum with an accumulator element; RSR rounds by RNE here (R290, R292, R298). -/
def FpMode.accAdd (m : FpMode) (a : Ax40) (v : FVal) : Ax40 :=
  let md : Rounding := ⟨if m.rnd == .rsr then .rne else m.rnd, 0⟩
  BitVec.ofNat 40 (Format.ax40.flush (m.flushOut .ax40) (Format.ax40.ofVal md .off (sumVals m.rdn [m.accVal a, v])))

/-- The key of a tile's element. -/
def accKey (t r n : Nat) : Nat := 4096 * t + 64 * r + n
/-- An element of a tile. -/
def Workgroup.accAt (w : Workgroup) (t r n : Nat) : Ax40 := sget 0 w.acc (accKey t r n)
/-- The inputs of a tile's row. -/
def Workgroup.accRow (w : Workgroup) (m : FpMode) (t r : Nat) : List FVal := (List.range 64).map fun n => m.accVal (w.accAt t r n)

/-! ### Macros -/

/-- The tag of a macro that takes the first cell of a descriptor's format. -/
def tagOf : Nat → MacroTag
  | 0 => .e4mx | 1 => .e5mx | 2 => .fp4 | _ => .bfHigh
/-- The FMT code of a macro's tag. -/
def MacroTag.fmt : MacroTag → Nat
  | .e4mx => 0 | .e5mx => 1 | .fp4 => 2 | .bfHigh | .bfLow => 3
/-- Cells per element of a format (R276). -/
def cellsOf (fmt : Nat) : Nat := if fmt = 3 then 2 else 1

/-- A macro as a `bload` begins: its tag and band scale. -/
def CimMacro.begin_ (m : CimMacro) (tag : MacroTag) (band : Nat) : CimMacro :=
  { m with tag, band := BitVec.ofNat 16 (if band = 0 then 0x3F80 else band) }

/-- Load column `n` of a macro: 64 cells, and the column's scales (R291). -/
def CimMacro.column (m : CimMacro) (n : Nat) (cells : List Nat) (scales : List Nat) : CimMacro :=
  { m with cells := ssetEach 0 m.cells (cells.zipIdx.map fun e => (64 * e.2 + n, BitVec.ofNat 8 e.1))
           scales := ssetEach 0x7F m.scales (scales.zipIdx.map fun e => (8 * n + e.2, BitVec.ofNat 8 e.1)) }

/-- Column `n` of a described block: element codes and scales; a column past ROWS holds +0 under scale 1.0 (R291). -/
def TileDesc.column (d : TileDesc) (scr : Sparse Byte) (n : Nat) : List Nat × List Nat :=
  let spr := d.spr 64
  if d.rows ≤ n then (List.replicate 64 0, List.replicate spr (if d.fmt = 2 then 0x60 else 0x7F))
  else ((List.range 64).map fun k => scrCode scr (d.row n) (tileHalves d.fmt) k,
        (List.range spr).map fun q => (memByte scr (d.soff + n * spr + q)).toNat)

/-- Element (k, n) of the block that starts at a macro (R292). -/
def Workgroup.blockVal (w : Workgroup) (m : FpMode) (mac k n : Nat) : FVal :=
  match w.macros[mac]? with
  | none => .nan
  | some c =>
    let cell := (sget 0 c.cells (64 * k + n)).toNat
    let low := ((w.macros[mac + 1]?).map fun l => (sget 0 l.cells (64 * k + n)).toNat).getD 0
    let fmt := c.tag.fmt
    let code := if fmt = 3 then cell * 256 + low else cell
    let scale := (sget 0x7F c.scales (8 * n + (if fmt = 3 then 0 else k / tileBlock fmt))).toNat
    let x := m.scaledElem fmt code scale
    if fmt = 2 then x.mul (m.bandVal c.band.toNat) else x

/-- The tag of a macro. -/
def Workgroup.tagAt (w : Workgroup) (mac : Nat) : Option MacroTag := match w.macros[mac]? with
  | some c => some c.tag
  | none => none

/-- Whether a range of macros carries one format, BF16 pairs in high-then-low order (R292). -/
def Workgroup.oneFormat (w : Workgroup) (base count : Nat) : Bool :=
  match w.tagAt base with
  | none | some .bfLow => false
  | some .bfHigh => (List.range count).all fun i => w.tagAt (base + i) == some (if i % 2 = 0 then .bfHigh else .bfLow)
  | some t => (List.range count).all fun i => w.tagAt (base + i) == some t

/-! ### Rows -/

/-- The A row of an `mma`: elements × block scale × BAND (R292). -/
def TileDesc.aRow (d : TileDesc) (m : FpMode) (scr : Sparse Byte) (kb r : Nat) : List FVal :=
  let e := 64 * kb
  (List.range e).map fun i =>
    let code := scrCode scr (d.row r) (tileHalves d.fmt) i
    let scale := if tileBlock d.fmt = 0 then 0 else (memByte scr (d.soff + r * d.spr e + i / tileBlock d.fmt)).toNat
    let x := m.scaledElem d.fmt code scale
    if d.fmt = 2 && d.band != 0 then x.mul (m.bandVal d.band) else x

/-- One element of one row of an `mma`: an exact sum and one rounding per step along k (R292). -/
def Workgroup.mmaElem (w : Workgroup) (m : FpMode) (a : List FVal) (cells kb cim tile r j n : Nat) : Ax40 :=
  (List.range kb).foldl (fun acc b =>
    let mac := cim + cells * (j * kb + b)
    let prods := (List.range 64).map fun k => (a.getD (64 * b + k) .nan).mul (w.blockVal m mac k n)
    m.accAdd acc (sumVals m.rdn prods)) (w.accAt (tile + j) r n)

/-- Row `r` of an `mma`. -/
def Workgroup.mmaRow (w : Workgroup) (m : FpMode) (d : TileDesc) (cells kb nb cim tile r : Nat) : Workgroup :=
  let a := d.aRow m w.scr kb r
  { w with acc := ssetEach 0 w.acc ((List.range nb).flatMap fun j => (List.range 64).map fun n =>
      (accKey (tile + j) r n, w.mmaElem m a cells kb cim tile r j n)) }

/-- A converted row: element codes and group scales, and the columns whose result is subnormal (R306). -/
structure RowOut where
  codes  : List Nat
  scales : List Nat
  mask   : List Nat
deriving DecidableEq, Repr

/-- The columns of a row that need the subnormal assist: none where the class's FZO bit is set. -/
def assistMask (m : FpMode) (f : Format) (codes : List Nat) : List Nat :=
  if m.flushOut f then [] else (codes.zipIdx.filter fun e => f.subnormal e.1).map (·.2)

/-- The larger of two magnitudes. -/
def FVal.larger (a b : FVal) : FVal := match a, b with
  | .nan, _ | _, .nan => .nan
  | .inf _, _ | _, .inf _ => .inf false
  | .fin _ m e, .fin _ n d => if (FVal.fin false m e).lt (.fin false n d) then .fin false n d else .fin false m e

/-- A row converted into a format without block scales, or into MX groups of 32 under scales of R117 (R295, R302). -/
def FpMode.convertRow (m : FpMode) (fmt : Nat) (vals : List FVal) : RowOut :=
  let f := tileFormat fmt
  if tileBlock fmt = 0 then
    let codes := vals.zipIdx.map fun e => m.result f e.2 e.1
    ⟨codes, [], assistMask m f codes⟩
  else
    let k : Kind := if fmt = 0 then .e4 else .e5
    let scales := (List.range 2).map fun q => scaleOf m k (((vals.drop (32 * q)).take 32).foldl FVal.larger (.fin false 0 0))
    let codes := vals.zipIdx.map fun e =>
      let s := scales.getD (e.2 / 32) 0xFF
      if s = 0xFF then 0 else quantised { m with sat := .sat } f e.2 s e.1
    ⟨codes, scales, assistMask m f codes⟩

/-- 2^v as a dyadic number that rounds as the exact one does. -/
def exp2Val (v : FVal) : FVal := match SpecialFn.apply .ex2 v with
  | .exact x => x
  | .inexact n num den => .fin n num (-(Nat.log2 den : Int))

/-- The largest of some values, −0 below +0; a NaN makes it a NaN (R104). -/
def largest (l : List FVal) : FVal :=
  if l.any FVal.isNan then .nan else (l.drop 1).foldl (fun a b => if a.below b then b else a) (l.headD .nan)

/-- The values of a row of exponentials (R302). -/
def expRow (s : FVal) (l : List FVal) : List FVal :=
  let mx := largest l
  l.map fun a =>
    if mx.isNan || a.isNan then .nan
    else if mx == .inf true then .fin false 0 0
    else exp2Val (s.mul (sumVals false [a, mx.neg]))

/-- The three statistics of a row, as FP32 codes (R301). -/
def statRow (m : FpMode) (l : List FVal) : List Nat :=
  let f := Format.fp32
  let out := fun (v : FVal) => f.flush (m.flushOut f) (f.rneOf v)
  if l.any FVal.isNan then List.replicate 3 f.nan
  else [out (largest l), out (sumVals false l), out (sumVals false (l.map fun v => v.mul v))]

/-- `mdrain.add` on one element: w + α × acc, rounded once as `md` says; the input flushes of R290 name α and the accumulator, not the
weight (R296). -/
def addElem (m : FpMode) (md : Rounding) (f : Format) (w alpha : Nat) (a : Ax40) : Nat :=
  f.flush (m.flushOut f) (f.ofVal md m.sat (sumVals m.rdn [f.toVal w, (m.operand .fp32 alpha).mul (m.accVal a)]))

end Sys2Proof.Machine
end

