-- ==== Sys2Proof/Machine/Matrix.lean ====
section
/-!
DEFINITION. The stream's matrix instructions at issue (R279, R280, R290) and in the engine (R285, R291 to R309), the subnormal assist
(R306, R341), and peer contributions (R297 to R300).
-/
namespace Sys2Proof.Machine

/-! ### Issue -/

/-- MSTART (R279). -/
def execMstart (d : Dst) (s : State) : Result :=
  withUni none 1 [] d false s fun u s =>
    match u with
    | .unit _ => .next (s.illegal .executor)
    | .lane v _ _ =>
      match s.stream? v.wg.id with
      | none => .next (s.uniCommit u d 1 4)
      | some x =>
        let s := if x.stage == .idle then s.mapStream v.wg.id fun x => { x with stage := .running } else s
        .next (s.uniCommit u d 1 (if x.stop.isSome then 3 else if x.stage == .ended then 2 else 1))

/-- The stream whose turn it is. -/
def State.turnStream (s : State) : Option Nat :=
  match s.turn with
  | some t => match t.unit with
    | .stream w => some w
    | _ => none
  | none => none

/-- The rounding code of the stream whose turn it is. -/
def State.turnRnd (s : State) : Nat := ((s.turnStream.bind s.stream?).map (·.rnd)).getD 0

/-- Queue a matrix instruction with the k registers it reads and the modes as they stand; the stream holds while eight are queued.
One that rounds stochastically reads k61 to k63 as well (R305). -/
def matrixIssue (work : MatrixWork) (ks : List Nat) (dst : Dst) (draws : Bool) (s : State) : Result :=
  let rnd := if draws && s.turnRnd == 5 then [Src.k 61, .k 62, .k 63] else []
  withUni none 1 (ks.map Src.k ++ rnd) dst false s fun u s =>
    match u with
    | .unit (.stream w) =>
      match s.stream? w with
      | none => .next (s.illegal .executor)
      | some x =>
        if 8 ≤ x.queue.length then holdWord s else
        let q : MatrixOp := { instr := work, pc := s.turnPc, regs := (ks ++ [61, 62, 63]).map (s.unitK (.stream w)), rnd := x.rnd
                              flush := x.flush, step := 0, got := [] }
        .next (s.mapStream w fun x => { x with queue := x.queue ++ [q] })
    | _ => .next (s.illegal .executor)

/-- BLOAD (R291). -/
def execBload (desc cim : Nat) (s : State) : Result := matrixIssue (.bload desc cim) [desc, desc + 1] .none false s
/-- MMA (R292). -/
def execMma (desc kb nb cim tile : Nat) (s : State) : Result := matrixIssue (.mma desc kb nb cim tile) [desc, desc + 1] .none false s
/-- MZERO (R294). -/
def execMzero (tile count : Nat) (s : State) : Result := matrixIssue (.mzero tile count) [] .none false s
/-- MDRAIN_ST (R295). -/
def execMdrainSt (desc tile : Nat) (s : State) : Result := matrixIssue (.drainSt desc tile) [desc, desc + 1] .none true s
/-- MDRAIN_ADD (R296). -/
def execMdrainAdd (desc alpha tile : Nat) (s : State) : Result :=
  matrixIssue (.drainAdd desc alpha tile) [desc, desc + 1, alpha] .none true s
/-- MDRAIN_PEER (R297). -/
def execMdrainPeer (target tile : Nat) (s : State) : Result := matrixIssue (.drainPeer target tile) [target] .none false s
/-- MEXPECT (R298). -/
def execMexpect (list tile bar sources : Nat) (s : State) : Result :=
  matrixIssue (.expect list tile bar sources) [list, list + 1, list + 2, list + 3] .none false s
/-- ROWSTAT (R301). -/
def execRowstat (x block tile bar : Nat) (s : State) : Result := matrixIssue (.rowstat x block tile bar) [] .none false s
/-- ROWEXP (R302). -/
def execRowexp (desc scale tile : Nat) (s : State) : Result := matrixIssue (.rowexp desc scale tile) [desc, desc + 1, scale] .none true s
/-- MPIN (R303). -/
def execMpin (d : Dst) (key tile : Nat) (s : State) : Result := matrixIssue (.pin d key tile) [key] d false s
/-- MUNPIN (R303). -/
def execMunpin (tile : Nat) (s : State) : Result := matrixIssue (.unpin tile) [] .none false s
/-- MREFILL (R304). -/
def execMrefill (addr tile count : Nat) (s : State) : Result := matrixIssue (.refill addr tile count) [addr] .none false s
/-- MSPILL (R304). -/
def execMspill (addr tile count : Nat) (s : State) : Result := matrixIssue (.spill addr tile count) [addr] .none false s

/-- MMODE (R290): later matrix instructions sample the new modes at their issue (R52). -/
def execMmode (rnd flush : Nat) (s : State) : Result :=
  match matrixIssue (.mode rnd flush) [] .none false s with
  | .next t =>
    match s.turnStream with
    | some w =>
      if ((t.stream? w).map (·.queue.length)) == ((s.stream? w).map (·.queue.length)) then .next t
      else .next (t.mapStream w fun x => { x with rnd, flush })
    | none => .next t
  | r => r

/-! ### Steps (Table 11.7) -/

/-- The descriptor of a queued instruction. -/
def MatrixOp.desc (q : MatrixOp) : TileDesc := tileDesc (q.regs.getD 0 0) (q.regs.getD 1 0)

/-- Steps of a queued instruction; `rowstat` counts its rows. -/
def MatrixOp.total (q : MatrixOp) : Nat :=
  match q.instr with
  | .bload .. => 64
  | .mma .. | .drainSt .. | .drainAdd .. | .rowexp .. => q.desc.rows
  | .mzero _ n | .refill _ _ n | .spill _ _ n => 64 * n
  | .rowstat .. => 64
  | _ => 1

/-- The tiles that an instruction names. -/
def MatrixWork.tiles : MatrixWork → List Nat
  | .mma _ _ nb _ t => (List.range nb).map (t + ·)
  | .mzero t n | .refill _ t n | .spill _ t n => (List.range n).map (t + ·)
  | .drainSt _ t | .drainAdd _ _ t | .drainPeer _ t | .rowstat _ _ t _ | .rowexp _ _ t | .pin _ _ t | .unpin t => [t]
  | .bload .. | .expect .. | .mode .. => []

/-- The sources of an `mexpect` (R298). -/
def MatrixOp.sources (q : MatrixOp) (n : Nat) : List Nat := (List.range n).map fun i => fld (q.regs.getD (i / 2) 0).toNat (32 * (i % 2)) 32

/-- Whether a list repeats a value. -/
def repeats : List Nat → Bool
  | [] => false
  | a :: r => r.contains a || repeats r

/-- Whether a workgroup of a leaf has exited. -/
def State.hasExited (s : State) (r : Region) (n : Nat) : Bool :=
  decide (n < r.nextW) && !(s.wgs.any fun w => w.region == r.id && w.w == n)

/-- The elements of a row that an instruction's descriptor describes. -/
def MatrixOp.rowElems (q : MatrixOp) : Nat := match q.instr with
  | .mma _ kb _ _ _ => 64 * kb
  | _ => 64

/-- Whether a step of an instruction reaches the scratchpad through its descriptor: not past ROWS (R291). -/
def MatrixOp.touches (q : MatrixOp) : Bool := match q.instr with
  | .bload .. | .mma .. | .drainSt .. | .rowexp .. => q.desc.space == 0 && decide (q.step < q.desc.rows)
  | _ => false

/-- The scratchpad-range fault of a step, at its row (R288, R309): cause, subcause and offset. -/
def MatrixOp.rowCheck (q : MatrixOp) (share : Nat) : Option (Nat × Nat × Nat) :=
  if q.touches then (q.desc.beyond q.rowElems share q.step).map fun a => (4, 0, a) else none

/-- The scratchpad bytes that a step reads: a row of A with its scales, or a column of B (R286). -/
def MatrixOp.reads (q : MatrixOp) : List Nat := match q.instr with
  | .bload .. | .mma .. => if q.touches then q.desc.rowSpan q.rowElems q.step else []
  | _ => []

/-- The accumulator rows that a step reads, each as 64 × tile + row. -/
def MatrixOp.accRows (q : MatrixOp) : List Nat := match q.instr with
  | .mma _ _ nb _ t => (List.range nb).map fun j => 64 * (t + j) + q.step
  | .drainSt _ t | .drainAdd _ _ t | .rowexp _ _ t => [64 * t + q.step]
  | .spill _ t _ => [64 * t + q.step]
  | .drainPeer _ t => (List.range 64).map (64 * t + ·)
  | .rowstat _ _ t _ => (List.range (64 - q.step)).map (64 * t + q.step + ·)
  | _ => []

/-- The subcause with which a step consumes an uncorrectable error of its workgroup (R339): 3 scratchpad, 4 accumulator or macro. -/
def MatrixOp.consumes (q : MatrixOp) (w : Workgroup) : Upset → Option Nat
  | .scr a => if q.reads.contains a then some 3 else none
  | .acc i => if q.accRows.contains (i / 64) then some 4 else none
  | .cell i => match q.instr with
    | .mma _ kb nb m _ =>
      let n := (if w.tagAt m == some .bfHigh then 2 else 1) * kb * nb
      if decide (m ≤ i / 4096) && decide (i / 4096 < m + n) then some 4 else none
    | _ => none
  | .k _ | .context => none

/-- The trap of a step that consumes an uncorrectable error. -/
def MatrixOp.upsetCheck (q : MatrixOp) (w : Workgroup) : Option (Nat × Nat × Nat) := (w.upsets.findSome? (q.consumes w)).map fun e => (0x0E, e, 0)

/-- Whether bulk copies of a workgroup have written some but not all of what they write of some scratchpad bytes: a step that reads them waits,
so that it sees each row wholly old or wholly new (R286). -/
def State.torn (s : State) (wg : Nat) (l : List Nat) : Bool :=
  let mine := s.copies.filterMap fun c => if c.wg == wg then (c.bulk?.filter fun b => b.stage == .active).map fun b => (c.line, b) else none
  let marks := mine.flatMap fun e =>
    let t := layoutOf e.2.words
    (l.filter fun a => decide (e.2.off ≤ a) && decide (t.unswizzle (a - e.2.off) < t.bytes t.halves)).map fun a =>
      decide (a / 128 < e.2.off / 128 + e.1)
  marks.contains true && marks.contains false

/-- The pin of a key in a leaf's parent, and that of a tile (R303). -/
def State.pinOf (s : State) (node key : Nat) : Option Pin := s.pins.find? fun p => p.node == node && p.key == key
/-- Whether a tile is pinned under another key. -/
def State.pinnedElse (s : State) (wg tile node key : Nat) : Bool :=
  s.pins.any fun p => p.holder == some (wg, tile) && !(p.node == node && p.key == key)

/-- Whether `mpin` is a misuse (R303). -/
def State.pinMisuse (s : State) (w : Workgroup) (node key tile : Nat) : Bool :=
  s.pinnedElse w.id tile node key || match s.pinOf node key with
    | none => decide (1024 ≤ s.pins.length)
    | some p => (p.holder.map fun h => h.1 != w.id).getD false

/-- The checks of an instruction before its first step: trap cause, subcause and address (R288, R289, R309). A tile, macro or
register beyond the grant comes first, then the descriptor, the macros' format, peers and pins; the scratchpad range is checked row by row. -/
def State.matrixCheck (s : State) (w : Workgroup) (r : Region) (q : MatrixOp) : Option (Nat × Nat × Nat) :=
  let range : Option (Nat × Nat × Nat) := some (8, 0, 0)
  let peer : Option (Nat × Nat × Nat) := some (8, 4, 0)
  let one := q.instr.tiles.any fun t => decide (r.tiles ≤ t)
  let desc : Option (Nat × Nat × Nat) := if q.desc.sound q.instr then none else some (8, 1, 0)
  match q.instr with
  | .bload _ m => if r.macros < m + cellsOf q.desc.fmt then range else desc
  | .mma _ kb nb m _ =>
    let c := if w.tagAt m == some .bfHigh || w.tagAt m == some .bfLow then 2 else 1
    if 32 < c * kb * nb || r.macros < m + c * kb * nb || one then range
    else if desc.isNone && !w.oneFormat m (c * kb * nb) then some (8, 2, 0)
    else desc
  | .drainSt .. | .drainAdd .. | .rowexp .. => if one then range else desc
  | .drainPeer .. =>
    let k := (q.regs.getD 0 0).toNat
    if one then range
    else if r.total ≤ fld k 0 32 || fld k 0 32 == w.w || r.tiles ≤ fld k 32 5 || s.hasExited r (fld k 0 32) then peer else none
  | .expect _ t b n =>
    let l := q.sources n
    if r.tiles ≤ t then range
    else if r.bars ≤ b then some (0, 1, 0)
    else if repeats l || l.any (fun x => decide (r.total ≤ x) || x == w.w) ||
      (w.stream.map fun x => x.lists.any (·.tile == t)).getD false then peer else none
  | .rowstat x b _ n => if one || r.regs ≤ x + 2 || r.blocks ≤ b then range else if r.bars ≤ n then some (0, 1, 0) else none
  | .pin _ _ t =>
    if one then range
    else if s.pinMisuse w (r.parent.getD 0) (fld (q.regs.getD 0 0).toNat 0 32) t then some (8, 3, 0) else none
  | .refill .. | .spill .. =>
    if one then range else if (q.regs.getD 0 0).toNat % 16 ≠ 0 then some (2, 0, (q.regs.getD 0 0).toNat) else none
  | .mzero .. | .unpin _ => if one then range else none
  | .mode .. => none

/-- Move the head instruction of a stream past a step; the last step ends it. -/
def State.matrixDone (s : State) (wg : Nat) : State :=
  s.mapStream wg fun x => { x with queue := match x.queue with
    | q :: r => if q.total ≤ q.step + 1 then r else { q with step := q.step + 1, got := [] } :: r
    | [] => [] }

/-- A fault of a step stops the stream at it (R309). -/
def State.matrixFault (s : State) (w : Workgroup) (q : MatrixOp) (cause sub addr : Nat) : State :=
  s.trapStream w.id cause sub 0 addr q.pc 0

/-- The settings of an instruction on a tile's row (R290, R305); k61 to k63 stand after its own registers. -/
def MatrixOp.fp (q : MatrixOp) (w : Workgroup) (tile row : Nat) : FpMode :=
  let n := q.regs.length
  let k := fun (i : Nat) => q.regs.getD (n - 3 + i) 0
  matrixFp q.rnd q.flush (k 1) (k 2) (k 0 + w64 (((w.w * 32 + tile) * 64 + row) * 64))

/-! ### Rows in memory -/

/-- The pieces of a row stored at a virtual address, its pages translated in full first (R295, R304). -/
def State.rowPieces (s : State) (u : Accessor) (rule : PageRule) : Nat → Nat → List Byte → Except (Nat × Nat) (List Piece × State)
  | 0, _, _ => .ok ([], s)
  | _, _, [] => .ok ([], s)
  | n + 1, va, l =>
    let k := 0x10000 - va % 0x10000
    match s.translate u rule false va with
    | .error e => .error (e, va)
    | .ok (p, s) =>
      match State.rowPieces s u rule n ((va + k) % 2 ^ 64) (l.drop k) with
      | .error e => .error e
      | .ok (r, s) => .ok ((l.take k).zipIdx.map (fun e => (⟨p.home va, p.pa va + e.2, va + e.2, e.1, 0xFF, if p.exr then some p.cellBytes else none⟩ : Piece)) ++ r, s)

/-- The accessor of a stream. -/
def State.streamAccessor (s : State) (w : Workgroup) : Accessor := { s.wgAccessor w with core := none }

/-- Whether a destination is another package's. -/
def PathDest.remote : PathDest → Bool
  | .package _ => true
  | _ => false

/-- Store a row; the step is over once every other package has acknowledged its part. -/
def State.storeRow (s : State) (w : Workgroup) (q : MatrixOp) (va : Nat) (l : List Byte) : State :=
  match s.rowPieces (s.streamAccessor w) (ownRule .write) 8 (va % 2 ^ 64) l with
  | .error (e, a) => s.matrixFault w q 3 e a
  | .ok (ps, s) =>
    let s := s.storeNow (some (w.core, w.id)) (s.jobOf w) (.drain w.id va) ps
    if ps.any (·.dest.remote) then s else s.matrixDone w.id

/-- The bytes of a row of element codes. -/
def rowBytes (fmt : Nat) (codes : List Nat) : List Byte := codes.flatMap fun c => leBytes (tileHalves fmt / 2) c

/-- Write a converted row where its descriptor names. -/
def State.putRow (s : State) (w : Workgroup) (q : MatrixOp) (row : Nat) (codes scales : List Nat) : State :=
  let d := q.desc
  if d.space = 1 then s.storeRow w q (d.row row) (rowBytes d.fmt codes) else
  (s.scrWrite w.id ((rowBytes d.fmt codes).zipIdx.map (fun e => (d.row row + e.2, e.1)) ++
    (scales.map (BitVec.ofNat 8)).zipIdx.map fun e => (d.soff + scales.length * row + e.2, e.1))).matrixDone w.id

/-- The assist class of a format (Table 13.1, cause 0x0F). -/
def assistClass : Format → Nat
  | .fp64 => 3 | .fp32 => 2 | .ax40 | .e3m5 => 1 | _ => 0

/-- Stop a stream for the subnormal assist of a row: the masked columns read 0 (R306, R341). -/
def State.raiseAssist (s : State) (w : Workgroup) (q : MatrixOp) (f : Format) (row : Nat) (o : RowOut) : State :=
  let a : Assist := { cls := assistClass f, row, mask := w64 (laneBits o.mask)
                      elems := o.codes.zipIdx.map fun e => if o.mask.contains e.2 then 0 else w64 e.1
                      scales := o.scales.map w64 }
  (s.mapStream w.id fun x => { x with assist := some a }).trapStream w.id 0x0F a.cls row (laneBits o.mask) q.pc 0

/-- What `got` of an `mdrain.add` holds beside bytes: the packages that have added their part of its row, and the results of an assist that
are being stored (R296, R307, R341). -/
def doneKey (pkg : Nat) : Nat := 2 ^ 64 + pkg
def storedKey (n : Nat) : Nat := 2 ^ 65 + n

/-- Put a row, or stop for its assist. -/
def State.putOrAssist (s : State) (w : Workgroup) (q : MatrixOp) (row : Nat) (o : RowOut) : State :=
  if o.mask.isEmpty then s.putRow w q row o.codes o.scales else s.raiseAssist w q (tileFormat q.desc.fmt) row o

/-! ### `mdrain.add` -/

/-- Where each element of a row stands: destination, physical and virtual address. -/
def State.addPlaces (s : State) (w : Workgroup) (va bytes : Nat) : Except (Nat × Nat) (List (PathDest × Nat × Nat) × State) :=
  let rule : PageRule := { plainRule .atomic with physical := fun p => !inHost p.frame, format := fun p => !p.exr }
  match s.rowPieces (s.streamAccessor w) rule 8 va (List.replicate (64 * bytes) 0) with
  | .error e => .error e
  | .ok (ps, s) => .ok (((List.range 64).map fun n => match ps[n * bytes]? with
      | some p => (p.dest, p.pa, p.va)
      | none => (.home, 0, 0)), s)

/-- Read an element of a weight row at its home. -/
def State.weightAt (s : State) (w : Workgroup) (got : Fetched) (p : PathDest × Nat × Nat) (n : Nat) : Nat :=
  leNat (match p.1 with
    | .core => (s.coreRead w.core p.2.1 n).1
    | .package _ => (Fetched.at got p.2.2 n).getD []
    | _ => (s.homeRead none p.2.1 n).1)

/-- Write an element of a weight row at its home. -/
def State.setWeight (s : State) (w : Workgroup) (p : PathDest × Nat × Nat) (n v : Nat) : State :=
  let b := (leBytes n v).zipIdx.map fun (e : Byte × Nat) => (p.2.1 + e.2, e.1)
  match p.1 with
  | .core => s.l1Write w.core (s.jobOf w) w.id (whole b)
  | .home => s.homeWrite b
  | _ => s

/-- The request for the part of a row that stands on another package. -/
def State.addRequest (s : State) (w : Workgroup) (q : MatrixOp) (tile row : Nat) (ps : List (PathDest × Nat × Nat)) (k : Nat) : State :=
  let m := q.fp w tile row
  let els := (ps.zipIdx.filter fun e => e.1.1 == .package k).map fun e => (e.1.2.1, (w.accAt tile row e.2).toNat, (m.rounding e.2).r)
  s.request k (s.jobOf w) ((els.head?.map (·.1)).getD 0) none
    (.rowAdd ⟨q.desc.fmt == 4, fld (q.regs.getD 2 0).toNat 0 32, q.rnd, q.flush, els⟩) (.drain w.id (q.desc.row row))

/-- One row of `mdrain.add`, element by element (R296): the weights of other packages are read first, so that an assist comes before anything is
written (R306); then those packages add their parts, each once whatever faults meanwhile (R307), and the part here is added last. -/
def State.addRow (s : State) (w : Workgroup) (q : MatrixOp) (tile row : Nat) : State :=
  let d := q.desc
  let f := tileFormat d.fmt
  let b := tileHalves d.fmt / 2
  let m := q.fp w tile row
  let stored := (List.range 64).filterMap fun n => (q.got.find? (·.1 == storedKey n)).map (·.2.toNat)
  if !stored.isEmpty then s.storeRow w q (d.row row) (rowBytes d.fmt stored) else
  match s.addPlaces w (d.row row % 2 ^ 64) b with
  | .error (e, a) => s.matrixFault w q 3 e a
  | .ok (ps, s) =>
    let vas := (ps.filter (·.1.remote)).flatMap fun p => (List.range b).map (p.2.2 + ·)
    match s.gather none (s.jobOf w) (s.streamAccessor w) (ownRule .read) q.got (.drain w.id) vas [] [] with
    | .fault c e a => s.matrixFault w q c e a
    | .sent s => s
    | .bytes _ s =>
      let far := distinct (ps.filterMap fun p => match p.1 with
        | .package k => some k
        | _ => none)
      let due := far.filter fun k => !q.got.any (·.1 == doneKey k)
      let codes := ps.zipIdx.map fun e =>
        addElem m (m.rounding e.2) f (s.weightAt w q.got e.1 b) (fld (q.regs.getD 2 0).toNat 0 32) (w.accAt tile row e.2)
      let mask := assistMask m f codes
      if due.length == far.length && !mask.isEmpty then s.raiseAssist w q f row ⟨codes, [], mask⟩
      else if !due.isEmpty then due.foldl (fun s k => s.addRequest w q tile row ps k) s
      else ((ps.zip codes).foldl (fun s e => if e.1.1.remote then s else s.setWeight w e.1 b e.2) s).matrixDone w.id

/-! ### Spill and refill (R304) -/

/-- The address of a step's tile row. -/
def MatrixOp.spillRow (q : MatrixOp) : Nat := ((q.regs.getD 0 0).toNat + 20480 * (q.step / 64) + 320 * (q.step % 64)) % 2 ^ 64

/-- The 320 bytes of a tile's row. -/
def Workgroup.tileRow (w : Workgroup) (t r : Nat) : List Byte := (List.range 64).flatMap fun n => leBytes 5 (w.accAt t r n).toNat

/-- The elements of 320 bytes. -/
def axElems : Nat → List Byte → List Ax40
  | 0, _ => []
  | n + 1, l => BitVec.ofNat 40 (leNat (l.take 5)) :: axElems n (l.drop 5)

/-- Write a row of a tile. -/
def Workgroup.setRow (w : Workgroup) (t r : Nat) (l : List Ax40) : Workgroup :=
  { w with acc := ssetAll 0 w.acc (accKey t r 0) l, upsets := w.upsets.filter fun u => match u with
      | .acc i => i / 64 != 64 * t + r
      | _ => true }

/-- Refill one row. -/
def State.refillRow (s : State) (w : Workgroup) (q : MatrixOp) (tile : Nat) : State :=
  let vas := (List.range 320).map fun i => (q.spillRow + i) % 2 ^ 64
  match s.gather (some w.core) (s.jobOf w) (s.streamAccessor w) (ownRule .read) q.got (.drain w.id) vas [] [] with
  | .fault c e a => s.matrixFault w q c e a
  | .sent s => s
  | .bytes l s => (s.mapWg w.id fun w => w.setRow (tile + q.step / 64) (q.step % 64) (axElems 64 l)).matrixDone w.id

/-! ### Row statistics (R301) -/

/-- A row's statistics: an even row's are kept until the odd row of its lane has its own, and both are written as whole registers, for a live
thread (R301). -/
def State.statWrite (s : State) (w : Workgroup) (x block row : Nat) (codes : List Nat) : State :=
  let s := s.mapStream w.id fun y => { y with queue := y.queue.modify 0 fun q =>
    { q with got := q.got ++ codes.zipIdx.map fun e => (3 * row + e.2, w64 e.1) } }
  if row % 2 = 0 then s else
  let got := (((s.stream? w.id).bind (·.queue.head?)).map (·.got)).getD []
  let at_ := fun (i : Nat) => ((got.find? (·.1 == i)).map (·.2.toNat)).getD 0
  s.mapThread w.id (32 * block + row / 2) fun t =>
    if t.place == .exited then t else
    { t with x := (List.range 3).foldl (fun m i => sset 0 m (x + i) (w64 (at_ (3 * (row - 1) + i) + at_ (3 * row + i) * 2 ^ 32))) t.x }

/-- The engine's arrival for a finished instruction: 1 member and 0 bytes; a misuse stops the workgroup. -/
def State.engineArrive (s : State) (wg bar : Nat) : State :=
  match s.arrive wg bar 1 0 with
  | some r => r.2
  | none => s.trapWorkgroup wg 5 1 bar 0

/-- The rows of a `rowstat` from `row` on: written until one needs the assist; the arrival follows the last. -/
def State.statRows (s : State) (w : Workgroup) (q : MatrixOp) (x block tile bar : Nat) : Nat → Nat → State
  | 0, _ => (s.mapStream w.id fun x => { x with queue := x.queue.drop 1 }).engineArrive w.id bar
  | n + 1, row =>
    let m := q.fp w tile row
    let codes := statRow m (w.accRow m tile row)
    let mask := assistMask m .fp32 codes
    if mask.isEmpty then State.statRows (s.statWrite w x block row codes) w q x block tile bar n (row + 1)
    else (s.mapStream w.id fun x => { x with queue := x.queue.modify 0 fun q => { q with step := row } }).raiseAssist w q .fp32 row
      ⟨codes, [], mask⟩

/-! ### Peer contributions (R297 to R300) -/

/-- Apply a contribution to a tile, element by element. -/
def Workgroup.receive (w : Workgroup) (m : FpMode) (c : Contribution) : Workgroup :=
  { w with acc := ssetEach 0 w.acc ((List.range 4096).map fun i =>
      (4096 * c.tile + i, m.accAdd (sget 0 w.acc (4096 * c.tile + i)) (m.accVal (sget 0 c.vals i)))) }

/-- Apply the contribution that is next in an open list; the last one closes the list and arrives. -/
def State.applyTo (s : State) (wg : Nat) (l : ReceiveList) (c : Contribution) : State :=
  let m := matrixFp l.rnd l.flush 0 0 0
  let s := s.mapWg wg fun w => w.receive m c
  if l.sources.length ≤ l.pos + 1 then
    (s.mapStream wg fun x => { x with lists := x.lists.filter (·.tile != l.tile) }).engineArrive wg l.bar
  else s.mapStream wg fun x => { x with lists := x.lists.map fun k => if k.tile == l.tile then { k with pos := k.pos + 1 } else k }

/-- The open list of which a contribution is next. -/
def Stream.listFor (x : Stream) (c : Contribution) : Option ReceiveList :=
  x.lists.find? fun l => l.tile == c.tile && l.sources[l.pos]? == some c.src

/-- Apply buffered contributions while one is next in its list. -/
def State.applyBuffered (s : State) (wg : Nat) : Nat → State
  | 0 => s
  | n + 1 =>
    match s.stream? wg with
    | none => s
    | some x =>
      match x.buffered.find? fun c => (x.listFor c).isSome with
      | none => s
      | some c =>
        match x.listFor c with
        | none => s
        | some l => ((s.mapStream wg fun x => { x with buffered := x.buffered.erase c }).applyTo wg l c).applyBuffered wg n

/-- Apply what is buffered for a workgroup. -/
def State.applyAll (s : State) (wg : Nat) : State := s.applyBuffered wg (((s.stream? wg).map (·.buffered.length)).getD 0)

/-- Receive-buffer slots of a core in use. -/
def State.slotsBuffered (s : State) (core : Nat) : Nat :=
  ((s.wgs.filter fun w => w.core == core && w.residence != .saved).map fun w => (w.stream.map (·.buffered.length)).getD 0).sum

/-- What becomes of an offered contribution. -/
inductive Offered where
  | taken (s : State)
  | refused
  | away
  | gone

/-- Offer a contribution to its receiver (R299): applied when next in its list, else buffered in one of the core's 8 slots; refused
without a slot; away while the receiver has not started or is pre-empted; gone when it has exited. -/
def State.offerTo (s : State) (c : Contribution) : Offered :=
  match s.wgs.find? fun w => w.region == c.region && w.w == c.dst with
  | none => if ((s.region? c.region).map fun r => decide (c.dst < r.nextW)).getD true then .gone else .away
  | some w =>
    if w.residence != .resident then .away else
    match w.stream with
    | none => .gone
    | some x =>
      match x.listFor c with
      | some l => .taken ((s.applyTo w.id l c).applyAll w.id)
      | none =>
        if s.slotsBuffered w.core < 8 then .taken (s.mapStream w.id fun x => { x with buffered := x.buffered ++ [c] }) else .refused

/-- Empty a stream's outbound slot. -/
def State.sentOut (s : State) (wg : Nat) : State := s.mapStream wg fun x => { x with outbound := none }

/-- The contribution in a workgroup's outbound slot, while it may be offered. -/
def State.outboundOf (s : State) (wg : Nat) : Option (Workgroup × Contribution) :=
  match s.wg? wg with
  | none => none
  | some w =>
    if w.residence != .resident || w.stopped.isSome || s.unitFrozen (s.jobOf w) then none else
    (w.stream.bind (·.outbound)).map fun c => (w, c)

/-- Offer what a workgroup's outbound slot holds; when the receiver is away and the rest of the sender has ended, the package's holding
area takes it. A receiver that has exited makes it a misuse of the sender's. -/
def State.offerOutbound (s : State) (wg : Nat) : State :=
  match s.outboundOf wg with
  | none => s
  | some (w, c) =>
    match s.offerTo c with
    | .taken s => s.sentOut wg
    | .refused => s
    | .away => if s.wgEnded w && decide (s.holding.length < 256) then { s.sentOut wg with holding := s.holding ++ [c] } else s
    | .gone => (s.sentOut wg).trapWorkgroup wg 8 4 0 0

/-- PEER_CONTRIBUTION_ARRIVAL (R299): the contribution in a workgroup's outbound slot reaches its receiver. -/
def execPeerContributionArrival (sender : Nat) (s : State) : Result := .next (s.offerOutbound sender)

/-- PEER_CONTRIBUTION_REOFFER (R299): a workgroup's outbound slot is offered again; from 2^32 on, the holding area's entries are. -/
def execPeerContributionReoffer (sender : Nat) (s : State) : Result :=
  if sender < 2 ^ 32 then .next (s.offerOutbound sender) else
  match s.holding[sender - 2 ^ 32]? with
  | none => .next s
  | some c =>
    if s.unitFrozen (((s.region? c.region).map (·.job)).getD 0) then .next s else
    match s.offerTo c with
    | .taken t => .next { t with holding := t.holding.eraseIdx (sender - 2 ^ 32) }
    | .gone => .next { s with holding := s.holding.eraseIdx (sender - 2 ^ 32) }
    | .refused | .away => .next s

/-! ### Pins (R303) -/

/-- `mpin`: a new pin (status 0), or a detached one whose contents replace the tile (status 1). On the workgroup's own attached pin
the spec gives no status: it is a free value. -/
def State.pin (s : State) (w : Workgroup) (node key tile : Nat) : W64 × State :=
  match s.pinOf node key with
  | none => (0, { s with pins := s.pins ++ [{ node, key, holder := some (w.id, tile), core := none, contents := [] }] })
  | some p =>
    if p.holder.isSome then (Config.ownPin w.w key tile, s) else
    let acc := ssetEach 0 (w.acc.filter fun e => e.1 / 4096 != tile) (p.contents.map fun e => (4096 * tile + e.1, e.2))
    (1, { s.mapWg w.id (fun w => { w with acc }) with
          pins := s.pins.map fun q => if q == p then { q with holder := some (w.id, tile), core := none, contents := [] } else q })

/-! ### MATRIX_STEP (R307) -/

/-- Perform the next step of a queued instruction. -/
def State.matrixPerform (s : State) (w : Workgroup) (r : Region) (x : Stream) (q : MatrixOp) : State :=
  let d := q.desc
  let done := fun (s : State) => s.matrixDone w.id
  match q.instr with
  | .bload _ m =>
    let col := d.column w.scr q.step
    let start := fun (tag : MacroTag) (c : CimMacro) => if q.step = 0 then c.begin_ tag d.band else c
    let load := fun (tag : MacroTag) (f : Nat → Nat) (c : CimMacro) => (start tag c).column q.step (col.1.map f) col.2
    done (s.mapWg w.id fun w =>
      { w with macros := if d.fmt = 3 then (w.macros.modify m (load .bfHigh (· / 256))).modify (m + 1) (load .bfLow (· % 256))
                         else w.macros.modify m (load (tagOf d.fmt) id)
               upsets := w.upsets.filter fun u => match u with
                 | .cell i => !(i % 64 == q.step && (i / 4096 == m || (d.fmt == 3 && i / 4096 == m + 1)))
                 | _ => true })
  | .mma _ kb nb m t =>
    done (s.mapWg w.id fun _ => w.mmaRow (q.fp w t q.step) d (if w.tagAt m == some .bfHigh then 2 else 1) kb nb m t q.step)
  | .mzero t _ => done (s.mapWg w.id fun w => w.setRow (t + q.step / 64) (q.step % 64) (List.replicate 64 0))
  | .drainSt _ t => let m := q.fp w t q.step; s.putOrAssist w q q.step (m.convertRow d.fmt (w.accRow m t q.step))
  | .drainAdd _ _ t => s.addRow w q t q.step
  | .drainPeer _ t =>
    if x.outbound.isSome then s else
    let k := (q.regs.getD 0 0).toNat
    let c : Contribution := { region := r.id, src := w.w, dst := fld k 0 32, tile := fld k 32 5
                              vals := (w.acc.filter fun e => e.1 / 4096 == t).map fun e => (e.1 % 4096, e.2) }
    done (s.mapStream w.id fun x => { x with outbound := some c })
  | .expect _ t b n =>
    let l : ReceiveList := { tile := t, sources := q.sources n, pos := 0, bar := b, rnd := q.rnd, flush := q.flush }
    (done (s.mapStream w.id fun x => { x with lists := x.lists ++ [l] })).applyAll w.id
  | .rowstat xd b t n => s.statRows w q xd b t n (64 - q.step) q.step
  | .rowexp _ _ t =>
    let m := q.fp w t q.step
    let v := Format.fp32.toVal (fld (q.regs.getD 2 0).toNat 0 32)
    s.putOrAssist w q q.step (m.convertRow d.fmt (expRow v (w.accRow m t q.step)))
  | .pin dst _ t =>
    let p := s.pin w (r.parent.getD 0) (fld (q.regs.getD 0 0).toNat 0 32) t
    let s := done p.2
    match dst with
    | .k k => s.mapStream w.id fun x => { x with k := sset 0 x.k k p.1, upsets := x.upsets.filter (· != k) }
    | _ => s
  | .unpin t => done { s with pins := s.pins.filter fun p => p.holder != some (w.id, t) }
  | .refill _ t _ => s.refillRow w q t
  | .spill _ t _ => s.storeRow w q q.spillRow (w.tileRow (t + q.step / 64) (q.step % 64))
  | .mode .. => done s

/-- Whether a stream's engine may perform a step: its workgroup is resident, nothing stops or freezes it, no answer is outstanding. -/
def State.engineRuns (s : State) (w : Workgroup) (x : Stream) : Bool :=
  w.residence == .resident && w.stopped.isNone && x.stop.isNone && x.assist.isNone && !s.unitHeld (s.jobOf w) (.stream w.id) &&
  !(s.remotes.any (·.drains w.id))

/-- MATRIX_STEP: an instruction that names a tile with an open receive list is held (R298). -/
def execMatrixStep (wg : Nat) (s : State) : Result :=
  match s.wg? wg with
  | none => .next s
  | some w =>
    match w.stream, s.leafOf w with
    | some x, some r =>
      match x.queue with
      | [] => .next s
      | q :: _ =>
        if !s.engineRuns w x || x.lists.any (fun l => q.instr.tiles.contains l.tile) then .next s else
        if s.torn w.id q.reads then .next s else
        match ((if q.step = 0 then s.matrixCheck w r q else none).or (q.rowCheck r.scratch)).or (q.upsetCheck w) with
        | some (c, e, a) => .next (s.matrixFault w q c e a)
        | none =>
          let t := s.matrixPerform w r x q
          let now := ((t.stream? wg).bind fun y => y.queue.head?).map fun p => (p.pc, p.step)
          .next (if now = some (q.pc, q.step) && decide (((t.stream? wg).map (·.queue.length)) = some x.queue.length) then t
            else t.stepTaken (.stream wg) (some w) q.pc)
    | _, _ => .next s

/-! ### After the assist (R341) -/

/-- Continue a stream that stopped for an assist: the row as the handler left it is written, and the assist is counted. -/
def State.finishAssist (s : State) (w : Workgroup) (a : Assist) : State :=
  let s := (s.mapStream w.id fun x => { x with assist := none }).mapControl (clusterOf w.core) fun c => { c with assistcnt := c.assistcnt + 1 }
  match (w.stream.map (·.queue)).getD [] with
  | [] => s
  | q :: _ =>
    let codes := a.elems.map (·.toNat)
    match q.instr with
    | .rowstat xd b t n =>
      let s := s.statWrite w xd b a.row (codes.map (· % 2 ^ 32))
      s.statRows w q xd b t n (63 - a.row) (a.row + 1)
    | .drainAdd .. =>
      let kept : Fetched := codes.zipIdx.map fun e => (storedKey e.2, w64 e.1)
      (s.mapStream w.id fun x => { x with queue := x.queue.modify 0 fun q => { q with got := kept } }).putRow w q a.row codes []
    | _ => s.putRow w q a.row codes (a.scales.map (·.toNat))

end Sys2Proof.Machine
end

