-- ==== Sys2Proof/Machine/Transfers.lean ====
section
/-!
DEFINITION. Fabric transfers (R359 to R362, R368 to R379): their issue, compression blocks (R58, R59), collective descriptors, and
TRANSFER_STEP.
-/
namespace Sys2Proof.Machine

/-! ### Issue (R359) -/

/-- Queue a transfer with the k registers it reads; the processor holds while sixteen are queued. -/
def transferIssue (work : TransferWork) (d : Dst) (ks : List Nat) (s : State) : Result :=
  withUni none 1 (ks.map Src.k) d false s fun u s =>
    match u with
    | .unit (.fabric n) =>
      match s.proc? n with
      | none => .next (s.illegal .executor)
      | some p =>
        if 16 ≤ p.queue.length then holdWord s else
        let q : Transfer := { instr := work, pc := s.turnPc, regs := ks.map (s.unitK (.fabric n)), dst := d, step := 0, begun := false
                              cld := [], zeroRes := false, plan := [], sent := false, writing := false, got := [], due := [] }
        let s := match d with
          | .k r => s.setUnitK (.fabric n) r (s.unitK (.fabric n) r)
          | _ => s
        .next (s.mapProc n fun p => { p with queue := p.queue ++ [q] })
    | _ => .next (s.illegal .executor)

/-- FPUT (R362). -/
def execFput (d : Dst) (dst src count : Nat) (s : State) : Result := transferIssue .put d [dst, src, count] s
/-- FGET (R362). -/
def execFget (d : Dst) (dst src count : Nat) (s : State) : Result := transferIssue .get d [dst, src, count] s
/-- FCOMP (R372). -/
def execFcomp (d : Dst) (ctl src dst : Nat) (s : State) : Result := transferIssue .comp d [ctl, ctl + 1, src, dst] s
/-- FDECOMP (R373). -/
def execFdecomp (d : Dst) (ctl src dst : Nat) (s : State) : Result := transferIssue .decomp d [ctl, ctl, src, dst] s
/-- FDAR (R374). -/
def execFdar (d : Dst) (ctl src dst : Nat) (s : State) : Result := transferIssue (.dar false) d [ctl, ctl + 1, src, dst, ctl + 2] s
/-- FDAR_LAST (R374). -/
def execFdarLast (d : Dst) (ctl src dst : Nat) (s : State) : Result := transferIssue (.dar true) d [ctl, ctl + 1, src, dst, ctl + 2] s
/-- FCKPT (R377). -/
def execFckpt (d : Dst) (cld area hop : Nat) (s : State) : Result := transferIssue .ckpt d [cld, area, hop] s
/-- FREST (R378). -/
def execFrest (d : Dst) (cld area : Nat) (s : State) : Result := transferIssue .rest d [cld, area] s

/-! ### Compression (R58, R59) -/

/-- Magnitude of a value. -/
def FVal.abs : FVal → FVal
  | .inf _ => .inf false
  | .fin _ m e => .fin false m e
  | .nan => .nan

/-- A compressed block: element codes, BF16 scale, and the STATUS bits it sets. -/
structure Block where
  codes : List Nat
  scale : Nat
  bits  : Nat
deriving DecidableEq, Repr

/-- Compress FP32 codes; `trn` selects TRN, else SGN. -/
def compressBlock (trn : Bool) (x : List Nat) : Block :=
  let v := x.map Format.fp32.toVal
  let isInf : FVal → Bool := fun a => match a with
    | .inf _ => true
    | _ => false
  let neg := fun (a : FVal) => a.lt (.fin false 0 0)
  if v.any FVal.isNan then ⟨x.map fun _ => 0, 0x7FC0, 1⟩
  else if v.any isInf then
    ⟨v.map fun a => if trn then (if isInf a then (if neg a then 3 else 1) else 0) else if neg a then 1 else 0, 0x7F80, 2⟩
  else if trn then
    let s := min (Format.bf16.rneOf ((v.map FVal.abs).foldl FVal.larger (.fin false 0 0))) 0x7F7F
    let keep := fun (a : FVal) => match a with
      | .fin _ m e => decide (0 < m) && !((FVal.fin false m (e + 1)).lt (Format.bf16.toVal s))
      | _ => false
    ⟨v.map fun a => if keep a then (if neg a then 3 else 1) else 0, s, 0⟩
  else
    let sum := match sumVals false (v.map FVal.abs) with
      | .fin n m e => FVal.fin n m (e - (Nat.log2 x.length : Nat))
      | a => a
    ⟨v.map fun a => if neg a then 1 else 0, min (Format.bf16.rneOf sum) 0x7F7F, 0⟩

/-- The FP32 codes that a block decodes to; a reserved TRN code gives the canonical NaN (R58). -/
def decodeBlock (trn : Bool) (b : Block) : List Nat :=
  let s := b.scale * 2 ^ 16
  let minus := if b.scale < 0x8000 then s + 2 ^ 31 else s - 2 ^ 31
  if (Format.bf16.toVal b.scale).isNan then b.codes.map fun _ => Format.fp32.nan
  else b.codes.map fun c =>
    if trn then (if c = 2 then Format.fp32.nan else if c = 0 || b.scale % 0x8000 = 0 then 0 else if c = 1 then s else minus)
    else if c = 0 then s else minus

/-- The residuals that a block leaves (R59): +0 in a block with a non-finite input. -/
def Block.residuals (trn : Bool) (b : Block) (x : List Nat) : List Nat :=
  if b.bits ≠ 0 then x.map fun _ => 0
  else (x.zip (decodeBlock trn b)).map fun e => Format.fp32.rneOf (sumVals false [Format.fp32.toVal e.1, (Format.fp32.toVal e.2).neg])

/-- Bits of an element code. -/
def codeBits (trn : Bool) : Nat := if trn then 2 else 1

/-- The bytes of a block: its code field, then its scale. -/
def Block.bytes (trn : Bool) (b : Block) : List Byte :=
  leBytes (b.codes.length * codeBits trn / 8) (b.codes.zipIdx.foldl (fun a e => a + e.1 * 2 ^ (codeBits trn * e.2)) 0) ++ leBytes 2 b.scale

/-- The block of `n` elements that some bytes hold; a reserved TRN code sets NaN-seen. -/
def blockOf (trn : Bool) (n : Nat) (l : List Byte) : Block :=
  let w := codeBits trn
  let f := leNat (l.take (n * w / 8))
  let codes := (List.range n).map fun i => fld f (w * i) w
  ⟨codes, leNat ((l.drop (n * w / 8)).take 2), if trn && codes.any (· == 2) then 1 else 0⟩

/-! ### Collective descriptors (R368 to R370) -/

/-- A CLD, taken apart (Table 15.6). `sound` says that it is not malformed. -/
structure Cld where
  rbase  : Nat
  code   : Nat
  block  : Nat
  wide   : Bool
  nhop   : Nat
  party  : Nat
  cid    : Nat
  nseg   : Nat
  nsegs  : Nat
  mbs    : List Nat
  status : Nat
  sound  : Bool
deriving DecidableEq, Repr

/-- The CLD that 8 words hold. -/
def cldOf (l : List W64) : Cld :=
  let f := rcbField l
  let b := 16 * 2 ^ f 1 3 2
  { rbase := f 0 0 64, code := f 1 0 3, block := b, wide := f 1 5 1 == 1, nhop := f 1 8 8, party := f 1 16 16, cid := f 1 32 32
    nseg := f 2 0 32, nsegs := f 2 32 32, mbs := [f 3 0 64, f 4 0 64, f 5 0 64, f 6 0 64], status := f 7 0 64
    sound := decide (f 1 0 3 < 3) && f 1 6 2 == 0 && f 7 2 62 == 0 && f 0 0 7 == 0 && !(f 1 0 3 == 0 && f 0 0 64 != 0) &&
      !(f 1 5 1 == 1 && f 1 0 3 != 0) && decide (1 ≤ f 2 0 32) && decide (f 2 0 32 ≤ 2 ^ 24) && f 2 0 32 % b == 0 &&
      decide (1 ≤ f 2 32 32) && decide (f 2 32 32 ≤ 65535) && decide (1 ≤ f 1 8 8) }

/-- Bytes of a raw element. -/
def Cld.elemBytes (c : Cld) : Nat := if c.wide then 8 else 4
/-- The format of a raw element. -/
def Cld.format (c : Cld) : Format := if c.wide then .fp64 else .fp32
/-- Whether the code is TRN. -/
def Cld.trn (c : Cld) : Bool := c.code == 2
/-- Bytes of a compressed block. -/
def Cld.blockBytes (c : Cld) : Nat := c.block * codeBits c.trn / 8 + 2
/-- Bytes of a residual object. -/
def Cld.stride (c : Cld) : Nat := 128 + 128 * ((4 * c.nseg + 127) / 128)
/-- Where the residual object of a key lies. -/
def Cld.object (c : Cld) (seg hop : Nat) : Nat := (c.rbase + (hop * c.nsegs + seg) * c.stride) % 2 ^ 64
/-- The places of every residual object of the collective, in address order. -/
def Cld.objects (c : Cld) : List Nat := if c.rbase = 0 then [] else (List.range (c.nhop * c.nsegs)).map fun i => (c.rbase + i * c.stride) % 2 ^ 64

/-! ### The transfer's parts -/

/-- An operand of a transfer. -/
def Transfer.reg (q : Transfer) (i : Nat) : Nat := (q.regs.getD i 0).toNat
/-- The CLD of a transfer that has begun. -/
def Transfer.desc (q : Transfer) : Cld := cldOf q.cld
/-- Segment and hop of the key. -/
def Transfer.seg (q : Transfer) : Nat := fld (q.reg 1) 0 16
def Transfer.hop (q : Transfer) : Nat := fld (q.reg 1) 16 8

/-- Lines of 128 bytes that a range touches. -/
def lineCount (a n : Nat) : Nat := if n = 0 then 0 else (a % 128 + n + 127) / 128
/-- The part of a range that lies in its line `i`: offsets from its start, end exclusive. -/
def linePart (a n i : Nat) : Nat × Nat := (128 * i - a % 128, min n (128 * (i + 1) - a % 128))

/-- Steps of a transfer that has begun (R361). -/
def Transfer.total (q : Transfer) : Nat :=
  match q.instr with
  | .put | .get => lineCount (q.reg 0) (q.reg 2)
  | .comp | .decomp | .dar _ =>
    let c := q.desc
    if c.code = 0 then lineCount (q.reg 3) (c.nseg * c.elemBytes) else c.nseg / c.block
  | .ckpt => 1 + q.plan.length * (q.desc.stride / 128)
  | .rest => q.plan.length * (q.desc.stride / 128) + 1

/-- Whether a transfer reads and updates residuals. -/
def Transfer.residual (q : Transfer) : Bool :=
  q.desc.rbase != 0 && match q.instr with
    | .comp | .dar false => true
    | _ => false

/-- Update the oldest transfer of a processor. -/
def State.mapHead (s : State) (n : Nat) (f : Transfer → Transfer) : State :=
  s.mapProc n fun p => { p with queue := match p.queue with
    | [] => []
    | q :: r => f q :: r }

/-- The job of a processor's program. -/
def State.procJob (s : State) (n : Nat) : Nat := ((s.proc? n).bind (·.job)).getD 0
/-- The accessor of a processor's transfers. -/
def State.procAcc (s : State) (n : Nat) : Accessor := procAccessor n (s.procJob n)

/-- Complete the oldest transfer with a status (Table 15.5). -/
def State.endTransfer (s : State) (n status : Nat) : State :=
  (s.mapProc n fun p => match p.queue with
    | [] => p
    | q :: r => { p with
        queue := r, signals := p.signals.map fun g => { g with behind := g.behind - 1 }
        k := match q.dst with
          | .k d => sset 0 p.k d (w64 status)
          | _ => p.k }).settle n

/-- The oldest transfer's step is over; with the last it completes. -/
def State.lineDone (s : State) (n : Nat) (q : Transfer) : State :=
  let s := s.mapHead n fun q => { q with step := q.step + 1, sent := false, writing := false, got := [], due := [] }
  if q.total ≤ q.step + 1 then s.endTransfer n 0 else s

/-- Stop a processor for a fault of its oldest transfer, whose progress stands, what its step has still to write among it (R357, R360, R361). -/
def State.transferFault (s : State) (n : Nat) (q : Transfer) (cause sub addr : Nat) : State :=
  (s.mapHead n fun q => { q with sent := false, writing := false, got := [] }).trapProc n cause sub addr q.pc

/-- Addresses of `n` consecutive bytes. -/
def spanOf (a n : Nat) : List Nat := (List.range n).map fun i => (a + i) % 2 ^ 64

/-- The page of an access of the processor, and whether it lies with another package or the host. -/
def State.outside (s : State) (n : Nat) (need : Need) (va : Nat) : Bool :=
  match s.translate (s.procAcc n) (ownRule need) false va with
  | .ok (p, _) => (p.home va).remote || p.home va == .host
  | .error _ => false

/-- Read bytes for the oldest transfer of a processor and go on with them; `near` asks that they lie in this package (R362). -/
def State.withBytes (s : State) (n : Nat) (q : Transfer) (near : Bool) (vas : List Nat) (body : List Byte → State → State) : State :=
  match if near then vas.find? (s.outside n .read) else none with
  | some a => s.transferFault n q 3 8 a
  | none =>
    match s.gather none (s.procJob n) (s.procAcc n) copyRule q.got (.transfer n) vas [] [] with
    | .fault c e a => s.transferFault n q c e a
    | .sent s => s.mapHead n fun q => { q with sent := true }
    | .bytes l s => body l s

/-- The pieces of several writes, or the first fault. -/
def State.allPieces (s : State) (u : Accessor) : List (Nat × List Byte) → Except (Nat × Nat) (List (Nat × List Piece) × State)
  | [] => .ok ([], s)
  | (a, l) :: r =>
    match s.rowPieces u (ownRule .write) (l.length + 1) a l with
    | .error e => .error e
    | .ok (p, s) =>
      match State.allPieces s u r with
      | .error e => .error e
      | .ok (ps, s) => .ok ((a, p) :: ps, s)

/-- Store the parts of some writes whose destination `p` selects. -/
def State.storeParts (s : State) (n : Nat) (ps : List (Nat × List Piece)) (p : PathDest → Bool) : State :=
  ps.foldl (fun s e => s.storeNow none (s.procJob n) (.transfer n e.1) (e.2.filter fun x => p x.dest)) s

/-- Write what a step of the oldest transfer has formed, which ends the step: with parts on other packages those are written first, and the rest
when they have been acknowledged, so that a refused part leaves the step whole to be written again (R361, R372). -/
def State.writeStep (s : State) (n : Nat) (q : Transfer) (parts : List (Nat × List Byte)) : State :=
  match s.allPieces (s.procAcc n) parts with
  | .error (e, a) => (s.mapHead n fun q => { q with due := parts }).transferFault n q 3 e a
  | .ok (ps, s) =>
    if ps.any fun e => e.2.any (·.dest.remote) then
      (s.storeParts n ps (·.remote)).mapHead n fun q => { q with sent := true, writing := true, due := parts }
    else (s.storeParts n ps fun _ => true).lineDone n q

/-- Every part of a step on another package has been acknowledged: the parts of this one are written. -/
def State.writeRest (s : State) (n : Nat) (q : Transfer) : State :=
  match s.allPieces (s.procAcc n) q.due with
  | .error (e, a) => s.transferFault n q 3 e a
  | .ok (ps, s) => (s.storeParts n ps fun d => !d.remote).lineDone n q

/-! ### Beginning (R362, R368, R370, R371, R377, R378) -/

/-- The page rule of a mapped barrier (R365). -/
def barrierRule : PageRule :=
  { plainRule .atomic with physical := fun p => !inHost p.frame, format := fun p => !p.exr && decide (2 ≤ p.share) && decide (p.share ≤ 4) }

/-- The fault of a mapped barrier's address, if any: cause and subcause. -/
def State.barrierFault (s : State) (n va : Nat) : Option (Nat × Nat) :=
  if va % 64 ≠ 0 then some (2, 0) else
  match s.translate (s.procAcc n) barrierRule false va with
  | .error e => some (3, e)
  | .ok _ => none

/-- Begin the oldest transfer, under its CLD's words and with the residual objects it names; one of no steps completes. -/
def State.beginWith (s : State) (n : Nat) (q : Transfer) (cld : List W64) (zeroRes : Bool) (plan : List Nat) : State :=
  let q := { q with begun := true, cld, zeroRes, plan }
  let s := s.mapHead n fun p => { p with begun := true, cld, zeroRes, plan, sent := false, got := [] }
  if q.total = 0 then s.endTransfer n 0 else s

/-- Read and check the CLD of a transfer, and go on with its words. -/
def State.withCld (s : State) (n : Nat) (q : Transfer) (body : List W64 → Cld → State → State) : State :=
  if q.reg 0 % 64 ≠ 0 then s.transferFault n q 2 0 (q.reg 0) else
  s.withBytes n q true (spanOf (q.reg 0) 64) fun l s =>
    let ws := wordsOf 8 l
    if (cldOf ws).sound then body ws (cldOf ws) s else s.endTransfer n 2

/-- Check the key and the residual object of a transfer that uses residuals (R370, R371). -/
def State.checkKey (s : State) (n : Nat) (q : Transfer) (ws : List W64) : State :=
  let c := cldOf ws
  if q.reg 1 / 2 ^ 24 ≠ 0 || c.nsegs ≤ q.seg || c.nhop ≤ q.hop then s.endTransfer n 3
  else if !({ q with cld := ws }.residual) then s.beginWith n q ws false []
  else s.withBytes n q false (spanOf (c.object q.seg q.hop) 24) fun l s =>
    let h := rcbField (wordsOf 3 l)
    if h 0 0 1 = 0 then s.beginWith n q ws true []
    else if h 0 32 32 ≠ c.cid || h 0 16 16 ≠ q.seg || h 0 8 8 ≠ q.hop then s.endTransfer n 3
    else if h 1 0 16 ≠ c.party then s.endTransfer n 4
    else s.beginWith n q ws false []

/-- The alignment fault of a segment's addresses (R369), if any. -/
def Transfer.misaligned (q : Transfer) (c : Cld) : Option Nat :=
  ((q.regs.drop 2).map (·.toNat)).find? fun a => a % c.elemBytes != 0

/-- The first named barrier of a CLD that cannot be reached, with its fault. -/
def State.mbFault (s : State) (n : Nat) (c : Cld) : Option (Nat × Nat × Nat) :=
  c.mbs.findSome? fun a => if a = 0 then none else (s.barrierFault n a).map fun e => (e.1, e.2, a)

/-- Saved objects of a checkpoint area as its headers give them: their places, or none when a check of R378 fails. -/
def Cld.restorePlan (c : Cld) (headers : List (List W64)) : Option (List Nat) :=
  let ok := headers.all fun h => rcbField h 0 0 1 == 1 && rcbField h 0 32 32 == c.cid && rcbField h 1 0 16 == c.party &&
    decide (rcbField h 0 16 16 < c.nsegs) && decide (rcbField h 0 8 8 < c.nhop)
  if ok then some (if c.rbase = 0 then [] else headers.map fun h => c.object (rcbField h 0 16 16) (rcbField h 0 8 8)) else none

/-- Some bytes cut into rows of `n`. -/
def rowsOf (n : Nat) : Nat → List Byte → List (List Byte)
  | 0, _ => []
  | k + 1, l => l.take n :: rowsOf n k (l.drop n)

/-- Begin the oldest transfer: its checks, before anything is written. -/
def State.beginTransfer (s : State) (n : Nat) (q : Transfer) : State :=
  match q.instr with
  | .put | .get =>
    if q.reg 0 % 4 ≠ 0 then s.transferFault n q 2 0 (q.reg 0)
    else if q.reg 1 % 4 ≠ 0 || q.reg 2 % 4 ≠ 0 || 2 ^ 30 < q.reg 2 then s.transferFault n q 2 0 (q.reg 1)
    else s.beginWith n q [] false []
  | .comp | .decomp | .dar _ =>
    s.withCld n q fun ws c s =>
      if q.instr == .comp && c.wide then s.endTransfer n 2 else
      match q.misaligned c with
      | some a => s.transferFault n q 2 0 a
      | none => if q.instr == .decomp then s.beginWith n q ws false [] else s.checkKey n q ws
  | .ckpt =>
    if q.reg 1 % 128 ≠ 0 then s.transferFault n q 2 0 (q.reg 1) else
    s.withCld n q fun ws c s =>
      if c.nhop < q.reg 2 then s.endTransfer n 2 else
      match s.mbFault n c with
      | some (e, x, a) => s.transferFault n q e x a
      | none => s.withBytes n q false (c.objects.flatMap fun a => spanOf a 16) fun l s =>
          let own := (c.objects.zip (rowsOf 16 c.objects.length l)).filter fun e =>
            rcbField (wordsOf 2 e.2) 0 0 1 == 1 && rcbField (wordsOf 2 e.2) 1 0 16 == c.party
          s.beginWith n q ws false (own.map (·.1))
  | .rest =>
    if q.reg 1 % 128 ≠ 0 then s.transferFault n q 2 0 (q.reg 1) else
    s.withCld n q fun ws c s =>
      match s.mbFault n c with
      | some (e, x, a) => s.transferFault n q e x a
      | none => s.withBytes n q false (spanOf (q.reg 1) 16) fun l s =>
          let f := rcbField (wordsOf 2 l)
          if f 0 0 32 ≠ c.cid || f 0 32 16 ≠ c.party || c.nhop < f 0 48 16 then s.endTransfer n 2 else
          s.withBytes n q false (spanOf (q.reg 1) 16 ++ (List.range (f 1 0 64)).flatMap fun i => spanOf (q.reg 1 + 128 + i * c.stride) 16) fun l s =>
            match c.restorePlan ((rowsOf 16 (f 1 0 64) (l.drop 16)).map (wordsOf 2)) with
            | none => s.endTransfer n 2
            | some plan => s.beginWith n q ws false plan

/-! ### Steps -/

/-- Little-endian numbers of `w` bytes. -/
def numsOf (w : Nat) (l : List Byte) : List Nat := (rowsOf w (l.length / w) l).map leNat

/-- OR bits into the CLD's STATUS, an atomic at package scope (R368): the state, or a subcause. -/
def State.orStatus (s : State) (n : Nat) (q : Transfer) (bits : Nat) : Except Nat State :=
  if bits = 0 then .ok s else
  let va := q.reg 0 + 56
  match s.translate (s.procAcc n) (atomRule .or) false va with
  | .error e => .error e
  | .ok (p, s) => match s.atomHere p none none (s.procJob n) .or .d .n va bits 0 with
    | some (_, s) => .ok s
    | none => .error 8

/-- The elements of a step: first element and count. -/
def Transfer.elements (q : Transfer) : Nat × Nat :=
  let c := q.desc
  if c.code ≠ 0 then (q.step * c.block, c.block) else
  let r := linePart (q.reg 3) (c.nseg * c.elemBytes) q.step
  (r.1 / c.elemBytes, (r.2 - r.1) / c.elemBytes)

/-- Where the source bytes of a step stand, for a compressed or raw source. -/
def Transfer.sourceSpan (q : Transfer) : List Nat :=
  let c := q.desc
  let e := q.elements
  if q.instr == .comp || c.code = 0 then spanOf (q.reg 2 + e.1 * c.elemBytes) (e.2 * c.elemBytes)
  else spanOf (q.reg 2 + q.step * c.blockBytes) c.blockBytes

/-- Round the sum of two elements (R372, R374). -/
def addRound (f : Format) (e : Nat × Nat) : Nat := f.rneOf (sumVals false [f.toVal e.1, f.toVal e.2])

/-- Raw elements as bytes. -/
def rawBytes (w : Nat) (l : List Nat) : List Byte := l.flatMap (leBytes w)

/-- The header's bytes after the last step: VALID, key, CID and OWNER where the object was fresh, and SEQ one more (R371, R372). -/
def Transfer.header (q : Transfer) (seqno : Nat) : List (Nat × List Byte) :=
  let c := q.desc
  let o := c.object q.seg q.hop
  let first := if q.zeroRes then [(o, leBytes 8 (1 + q.hop * 2 ^ 8 + q.seg * 2 ^ 16 + c.cid * 2 ^ 32) ++ leBytes 8 c.party)] else []
  first ++ [((o + 16) % 2 ^ 64, leBytes 8 ((seqno + 1) % 2 ^ 64))]

/-- One step of `fcomp`, `fdecomp` or `fdar` (R372 to R374). -/
def State.segmentStep (s : State) (n : Nat) (q : Transfer) : State :=
  let c := q.desc
  let f := c.format
  let w := c.elemBytes
  let e := q.elements
  let dar := match q.instr with
    | .dar _ => true
    | _ => false
  let raw := match q.instr with
    | .decomp | .dar true => true
    | _ => false
  let o := c.object q.seg q.hop
  let src := q.sourceSpan
  let loc := if dar then spanOf (q.reg 4 + e.1 * w) (e.2 * w) else []
  let res := if q.residual && !q.zeroRes then spanOf (o + 128 + 4 * e.1) (4 * e.2) else []
  let tail := if q.residual then spanOf (o + 16) 8 else []
  s.withBytes n q false (src ++ loc ++ res ++ tail) fun l s =>
    let given := l.take src.length
    let packed := c.code ≠ 0 && q.instr != .comp
    let blk := blockOf c.trn c.block given
    let x := if packed then decodeBlock c.trn blk else (numsOf w given).map fun v => f.rneOf (f.toVal v)
    let l := l.drop src.length
    let y := if dar then (x.zip (numsOf w (l.take loc.length))).map (addRound f) else x
    let l := l.drop loc.length
    let z := if raw then y else
      (y.zip (if res.isEmpty then y.map fun _ => 0 else numsOf 4 (l.take res.length))).map (addRound f)
    let seqno := leNat (l.drop res.length)
    let b := compressBlock c.trn z
    let last := q.total ≤ q.step + 1
    let bits := (if packed then blk.bits else 0) ||| (if raw || c.code = 0 then 0 else b.bits)
    let out := if raw || c.code = 0 then [((q.reg 3 + e.1 * w) % 2 ^ 64, rawBytes w z)] else
      [((q.reg 3 + q.step * c.blockBytes) % 2 ^ 64, b.bytes c.trn ++
        if last then List.replicate ((4 - c.blockBytes * (q.step + 1) % 4) % 4) (0 : Byte) else [])]
    let back := if q.residual then
      ((o + 128 + 4 * e.1) % 2 ^ 64, rawBytes 4 (b.residuals c.trn z)) :: (if last then q.header seqno else []) else []
    match s.orStatus n q bits with
    | .error e => s.transferFault n q 3 e (q.reg 0 + 56)
    | .ok s => s.writeStep n q (out ++ back)

/-- One line of `fput` or `fget` (R362): the near side lies in this package. -/
def State.putStep (s : State) (n : Nat) (q : Transfer) : State :=
  let r := linePart (q.reg 0) (q.reg 2) q.step
  let put := q.instr == .put
  let dst := (q.reg 0 + r.1) % 2 ^ 64
  let far : Need → Nat → Bool := fun need va => match s.translate (s.procAcc n) (ownRule need) false va with
    | .ok (p, _) => p.home va == .host || (!put && need == .write && (p.home va).remote)
    | .error _ => false
  if far .write dst then s.transferFault n q 3 8 dst
  else if !put && far .read ((q.reg 1 + r.1) % 2 ^ 64) then s.transferFault n q 3 8 ((q.reg 1 + r.1) % 2 ^ 64)
  else s.withBytes n q put (spanOf (q.reg 1 + r.1) (r.2 - r.1)) fun l s => s.writeStep n q [(dst, l)]

/-- One line of `fckpt` (R377): the head first, then the objects. -/
def State.ckptStep (s : State) (n : Nat) (q : Transfer) : State :=
  let c := q.desc
  let area := q.reg 1
  if q.step = 0 then
    let named := c.mbs.filter (· != 0)
    s.withBytes n q false (named.flatMap fun a => spanOf (a + 8) 24) fun l s =>
      let rows := named.zip (rowsOf 24 named.length l)
      let mb := c.mbs.flatMap fun a => match rows.find? (·.1 == a) with
        | some e => e.2
        | none => List.replicate 24 (0 : Byte)
      s.writeStep n q [(area, leBytes 8 (c.cid + c.party * 2 ^ 32 + fld (q.reg 2) 0 16 * 2 ^ 48) ++ leBytes 8 q.plan.length ++
        leBytes 8 c.status ++ leBytes 8 0 ++ mb)]
  else
    let per := c.stride / 128
    let i := q.step - 1
    s.withBytes n q false (spanOf (q.plan.getD (i / per) 0 + 128 * (i % per)) 128) fun l s =>
      s.writeStep n q [((area + 128 * q.step) % 2 ^ 64, l)]

/-- One step of `frest` (R378): the saved objects line by line, and last the other headers, STATUS and the barriers. -/
def State.restStep (s : State) (n : Nat) (q : Transfer) : State :=
  let c := q.desc
  let area := q.reg 1
  let per := c.stride / 128
  if q.step < q.plan.length * per then
    s.withBytes n q false (spanOf (area + 128 * (q.step + 1)) 128) fun l s =>
      s.writeStep n q [((q.plan.getD (q.step / per) 0 + 128 * (q.step % per)) % 2 ^ 64, l)]
  else
    let others := c.objects.filter fun a => !q.plan.contains a
    s.withBytes n q false (spanOf area 128 ++ others.flatMap fun a => spanOf a 16) fun l s =>
      let head := l.take 128
      let mine := (others.zip (rowsOf 16 others.length (l.drop 128))).filter fun e => rcbField (wordsOf 2 e.2) 1 0 16 == c.party
      let clear := mine.map fun e => (e.1, (e.2.take 1).map (· &&& 0xFE))
      let bars := (c.mbs.zipIdx.filter (·.1 != 0)).map fun (e : Nat × Nat) => (e.1, List.replicate 8 (0 : Byte) ++ (head.drop (32 + 24 * e.2)).take 24)
      s.writeStep n q (clear ++ ((q.reg 0 + 56) % 2 ^ 64, (head.drop 16).take 8) :: bars)

/-- One step of the oldest transfer of a processor, or its beginning. -/
def State.runTransfer (s : State) (n : Nat) (q : Transfer) : State :=
  if !q.begun then s.beginTransfer n q else
  if !q.due.isEmpty then s.writeStep n q q.due else
  match q.instr with
  | .put | .get => s.putStep n q
  | .comp | .decomp | .dar _ => s.segmentStep n q
  | .ckpt => s.ckptStep n q
  | .rest => s.restStep n q

/-! ### Signals (R366, R408) -/

/-- Whether a processor's earlier stores and atomics still wait for an answer. -/
def State.procPending (s : State) (n seq : Nat) : Bool :=
  s.remotes.any (fun r => r.use.ofUnit (.fabric n) && decide (r.tag < seq)) ||
  s.ops.any fun o => o.issuer == .fabric n && decide (o.seq < seq) && match o.kind with
    | .atom .. => true
    | _ => false

/-- Whether a signal may be performed. -/
def State.signalDue (s : State) (n : Nat) (g : PendingSignal) : Bool := !g.sent && g.behind == 0 && !s.procPending n g.tag

/-- Perform a signal: at its barrier's home, here or on another package. -/
def State.doSignal (s : State) (n : Nat) (g : PendingSignal) : State :=
  let gone := fun (s : State) => (s.mapProc n fun p => { p with signals := p.signals.filter (·.tag != g.tag) }).settle n
  match g.work with
  | .post free prev mb count => gone (s.ttSend (s.procJob n) free prev mb count)
  | .add va amount =>
    match s.translate (s.procAcc n) { barrierRule with physical := fun _ => true } false va with
    | .error e => s.trapProc n 3 e va g.pc
    | .ok (p, s) =>
      match s.errorIn p va 8 with
      | some e => s.trapProc n 0x0E e va g.pc
      | none =>
      match p.home va with
      | .package k =>
        (s.request k (s.procJob n) (p.pa va) none (.atomic .add .n 8 [⟨p.pa va, amount.toNat, 0, s.seq⟩]) (.signal n g.tag)).mapProc n fun p =>
          { p with signals := p.signals.map fun x => if x.tag == g.tag then { x with sent := true } else x }
      | _ => match s.atomHere p none none (s.procJob n) .add .d .n va amount.toNat 0 with
        | some (_, s) => gone s
        | none => gone s

/-- Queue a signal of a processor, and perform it at once where nothing earlier waits. -/
def State.signal (s : State) (n : Nat) (work : SignalWork) : State :=
  match s.proc? n with
  | none => s
  | some p =>
    let g : PendingSignal := { work, pc := s.turnPc, behind := p.queue.length, tag := s.seq, sent := false }
    let s := (s.mapProc n fun p => { p with signals := p.signals ++ [g] }).bump
    if s.signalDue n g then s.doSignal n g else s

/-- TRANSFER_STEP (R361): a signal whose turn has come, or one step of the oldest transfer. -/
def execTransferStep (proc : Nat) (s : State) : Result :=
  match s.proc? proc with
  | none => .next s
  | some p =>
    if p.job.isNone || p.stop.isSome || s.unitHeld (p.job.getD 0) (.fabric proc) then .next s else
    match p.signals.find? (s.signalDue proc), p.queue with
    | some g, _ => .next (s.doSignal proc g)
    | none, [] => .next (s.settle proc)
    | none, q :: _ =>
      let t := if q.sent then s else s.runTransfer proc q
      let now := ((t.proc? proc).bind fun y => y.queue.head?).map (·.step)
      .next (if now = some q.step && decide (((t.proc? proc).map (·.queue.length)) = some p.queue.length) then t
        else t.stepTaken (.fabric proc) none q.pc)

end Sys2Proof.Machine
end

