-- ==== Sys2Proof/Machine/Fabric.lean ====
section
/-!
DEFINITION. Messages (R363, R364), mapped barriers (R365 to R367) and root slots (R380 to R382) of the fabric processors.
-/
namespace Sys2Proof.Machine

/-! ### Packets held by a freeze (R322, R391) -/

/-- Whether arriving packets of a job are held: under a package freeze, or under a Bell whose resume has not begun. -/
def State.packetsHeld (s : State) (job : Nat) : Bool :=
  s.pfrz.isSome || ((s.job? job).bind (·.freeze)).any fun f => decide (f.stage < 1)

/-- Hold an arriving packet of a job, or consume it. -/
def State.arriving (s : State) (job : Nat) (i : Instr) (consume : State → State) : State :=
  if s.packetsHeld job then { s with heldPkts := s.heldPkts ++ [(job, i)] } else consume s

/-! ### Root slots (R380 to R382) -/

/-- Combine a contribution into a slot's value (Table 15.10). -/
def slotCombine (op : Nat) (a b : W64) : W64 :=
  let f := fun (g : Format) (max : Bool) (mag : Bool) =>
    let m := 2 ^ (g.mag + 1)
    let x := if mag then b.toNat % 2 ^ g.mag else b.toNat % m
    w64 (minMax g max .off (a.toNat % m) x)
  match op with
  | 0 => f .fp32 true false
  | 1 => f .fp32 false false
  | 2 => f .fp32 true true
  | 3 => f .fp64 true false
  | 4 => f .fp64 false false
  | 5 => f .fp64 true true
  | 6 => a + b
  | _ => a ||| b

/-- The identity of a slot's operation (Table 15.10). -/
def slotIdentity (op : Nat) : W64 :=
  match op with
  | 0 => 0xFF800000 | 1 => 0x7F800000 | 3 => 0xFFF0000000000000 | 4 => 0x7FF0000000000000 | _ => 0

/-- Whether a contribution of an epoch comes after its slot has closed (R381). -/
def RootSlot.late (r : RootSlot) (epoch : Nat) : Bool := match r.closed with
  | some c => decide ((c + 2 ^ 16 - epoch % 2 ^ 16) % 2 ^ 16 < 2 ^ 15)
  | none => false

/-- A slot with a contribution applied; an index out of range or seen before changes nothing. -/
def OpenSlot.apply (a : OpenSlot) (index : Nat) (v : W64) : OpenSlot :=
  if a.n ≤ index || a.applied.contains index then a
  else { a with applied := a.applied ++ [index], value := slotCombine a.op a.value v }

/-- The status word of a slot that closes (R380). -/
def OpenSlot.status (a : OpenSlot) (timedOut : Bool) : Nat :=
  a.applied.length + (((List.range a.n).find? fun i => !a.applied.contains i).getD 0xFFFF) * 2 ^ 32 + (if timedOut then 2 ^ 63 else 0)

/-- The bitmap of missing contributors (R380). -/
def OpenSlot.missing (a : OpenSlot) : List Byte :=
  (List.range ((a.n + 7) / 8)).map fun i =>
    BitVec.ofNat 8 (((List.range 8).filter fun b => decide (8 * i + b < a.n) && !a.applied.contains (8 * i + b)).foldl (fun x b => x + 2 ^ b) 0)

/-- Write a destination k register of a processor. -/
def putK (k : Sparse W64) (d : Dst) (v : W64) : Sparse W64 := match d with
  | .k n => sset 0 k n v
  | _ => k

/-- Write a closing slot's bitmap, or stop the processor at its `fslot`. -/
def State.writeBitmap (s : State) (n : Nat) (a : OpenSlot) : State :=
  match a.bitmap with
  | none => s
  | some va =>
    match s.allPieces (s.procAcc n) [(va, a.missing)] with
    | .error (e, b) => s.trapProc n 3 e b a.pc
    | .ok (ps, s) => ps.foldl (fun s e => s.storeNow none (s.procJob n) (.unit (.fabric n) a.pc e.1) e.2) s

/-- Close a slot: its results are written, and what its pool holds for epochs past is discarded (R380, R381). -/
def State.closeSlot (s : State) (n slot : Nat) (a : OpenSlot) (timedOut : Bool) : State :=
  let r : RootSlot := { active := none, closed := some a.epoch }
  (s.mapProc n fun p => { p with
    slots := p.slots.set slot r, k := putK (putK p.k a.res a.value) a.stat (w64 (a.status timedOut))
    pool := p.pool.filter fun c => !(c.slot == slot && r.late c.epoch) }).writeBitmap n a

/-- Store a slot's state, closing it with its last contribution. -/
def State.setSlot (s : State) (n slot : Nat) (a : OpenSlot) : State :=
  if a.n ≤ a.applied.length then s.closeSlot n slot a false
  else s.mapProc n fun p => { p with slots := p.slots.modify slot fun r => { r with active := some a } }

/-- Tell the package of a sender that its message or contribution has been taken (R363, R381). -/
def State.accept (s : State) (src tag : Nat) : State :=
  if src = Config.pkg.toNat then s else s.send (.response src ⟨Config.pkg.toNat, tag, [], none, false⟩)

/-- A contribution at its root: applied, pooled or discarded; none when the pool has no room (R381). -/
def State.contribute (s : State) (c : RootContribution) : Option State :=
  Option.map (fun s => s.accept c.src c.tag) <| match s.proc? c.proc with
  | none => some s
  | some p =>
    if p.job != some c.job then some s else
    match p.slots[c.slot]? with
    | none => some s
    | some r =>
      let pooled := if p.pool.length < 1024 then some (s.mapProc c.proc fun p => { p with pool := p.pool ++ [c] }) else none
      match r.active with
      | some a => if a.epoch = c.epoch then some (s.setSlot c.proc c.slot (a.apply c.index c.value)) else if r.late c.epoch then some s else pooled
      | none => if r.late c.epoch then some s else pooled

/-! ### Messages (R363, R364) -/

/-- A message at its channel: delivered or discarded; none when the channel is full. -/
def State.deliverMessage (s : State) (m : FabricMessage) : Option State :=
  Option.map (fun s => s.accept m.src m.tag) <| match s.proc? m.proc with
  | none => some s
  | some p =>
    let q := sget [] p.channels m.channel
    if p.job != some m.job then some s
    else if q.length < 8 then some (s.mapProc m.proc fun p => { p with channels := sset [] p.channels m.channel (q ++ [m.words]) })
    else none

/-- Deliver what waited for room, in arrival order. -/
def State.letIn (s : State) : State :=
  s.waiting.foldl (fun s w =>
    let r := match w with
      | .message m => s.deliverMessage m
      | .contribution _ c => s.contribute c
    match r with
    | some t => t
    | none => { s with waiting := s.waiting ++ [w] }) { s with waiting := [] }

/-- Whether messages for a channel wait already. -/
def State.channelWaits (s : State) (m : FabricMessage) : Bool := s.waiting.any fun w => match w with
  | .message q => q.proc == m.proc && q.channel == m.channel
  | _ => false

/-- Put a message or contribution of a processor on its way to another package, and note that its acceptance is awaited. -/
def State.sendFabric (s : State) (pkg job : Nat) (use : RemoteUse) (o : Outgoing) : State :=
  (({ s with remotes := s.remotes ++ [⟨s.seq, pkg, job, use, true⟩] } : State).send o).bump

/-- FSEND (R363): the processor holds until the channel has room; of a channel of another package its acceptance tells it. -/
def execFsend (msg endpoint : Nat) (s : State) : Result :=
  let ks := (List.range 8).map (msg + ·)
  withUni none 1 ((endpoint :: ks).map Src.k) .none false s fun u s =>
    match u with
    | .unit (.fabric n) =>
      let e := (s.unitK (.fabric n) endpoint).toNat
      if fld e 21 3 ≠ 0 || fld e 28 36 ≠ 0 then .next (s.illegal .reserved) else
      let m : FabricMessage := { src := Config.pkg.toNat, tag := s.seq, job := s.procJob n, proc := fld e 16 5, channel := fld e 24 4, words := ks.map (s.unitK (.fabric n)) }
      if fld e 0 16 ≠ Config.pkg.toNat then .next (s.sendFabric (fld e 0 16) m.job (.fsend n) (.message (fld e 0 16) m))
      else if s.channelWaits m then holdWord s
      else match s.deliverMessage m with
        | some s => .next s
        | none => holdWord s
    | _ => .next (s.illegal .executor)

/-- FRECV (R364): the processor holds until its channel has a message. -/
def execFrecv (msg channel : Nat) (s : State) : Result :=
  withUni none 1 [] .none false s fun u s =>
    match u with
    | .unit (.fabric n) =>
      match ((s.proc? n).map fun p => sget [] p.channels channel).getD [] with
      | [] => holdWord s
      | m :: r =>
        let s := s.mapProc n fun p => { p with channels := sset [] p.channels channel r }
        .next (m.zipIdx.foldl (fun s e => s.setUnitK (.fabric n) (msg + e.2) e.1) s).letIn
    | _ => .next (s.illegal .executor)

/-- MESSAGE_ARRIVAL (R363). -/
def execMessageArrival (msg : FabricMessage) (s : State) : Result :=
  .next (s.arriving msg.job (.messageArrival msg) fun s =>
    if s.channelWaits msg then { s with waiting := s.waiting ++ [.message msg] } else
    match s.deliverMessage msg with
    | some t => t
    | none => { s with waiting := s.waiting ++ [.message msg] })

/-! ### Mapped barriers (R365 to R367) -/

/-- FSIG (R366). -/
def execFsig (bar : Nat) (amount : Src) (s : State) : Result :=
  withUni none 1 [.k bar, amount] .none false s fun u s =>
    match u with
    | .unit (.fabric n) =>
      let va := (s.unitK (.fabric n) bar).toNat
      if va % 64 ≠ 0 then trapNext s 2 0 0 va [] else
      match s.translate (s.procAcc n) { barrierRule with physical := fun _ => true } false va with
      | .error e => trapNext s 3 e 0 va []
      | .ok (_, s) => .next (s.signal n (.add va (s.uniSource u 64 amount)))
    | _ => .next (s.illegal .executor)

/-- The test of an `fwait` at its barrier's home in this package (R367): the status if it is known, TMO, and the state with COUNT
consumed. -/
def State.testBarrier (s : State) (pa : Nat) : Option Nat × Nat × State :=
  let r := s.homeRead none pa 64
  let f := fun (i : Nat) => leNat ((r.1.drop (8 * i)).take 8)
  if f 4 ≠ 0 || f 5 ≠ 0 || f 6 ≠ 0 || f 7 ≠ 0 then (some 2, f 3, r.2)
  else if f 1 ≤ f 0 then
    (some 0, f 3, r.2.homeWrite ((leBytes 8 (f 0 - f 1)).zipIdx.map (fun e => (pa + e.2, e.1)) ++
      (leBytes 8 ((f 2 + 1) % 2 ^ 64)).zipIdx.map fun e => (pa + 16 + e.2, e.1)))
  else (none, f 3, r.2)

/-- Test the barrier of a waiting processor: it goes on, waits, asks another package, or faults. -/
def State.tryWait (s : State) (n : Nat) (w : FWait) : State :=
  match s.translate (s.procAcc n) barrierRule false w.va with
  | .error e => s.trapProc n 3 e w.va w.pc
  | .ok (p, s) =>
    match s.errorIn p w.va 64 with
    | some e => s.trapProc n 0x0E e w.va w.pc
    | none =>
    match p.home w.va with
    | .package k =>
      (s.request k (s.procJob n) (p.pa w.va) none .consume (.wait n)).mapProc n fun p => { p with wait := some { w with sent := true } }
    | _ =>
      match s.testBarrier (p.pa w.va) with
      | (some st, _, s) => s.mapProc n fun p => { p with wait := none, k := putK p.k w.dst (w64 st) }
      | (none, tmo, s) => s.mapProc n fun p => { p with wait := some { w with tmo, sent := false } }

/-- Whether a checkpoint stands in a processor's queue: an `fwait` is not tested before it is written, so that the barriers it records are
those at its place in the program (R377, R379, and the final state of R413). -/
def FabricProc.checkpoints (p : FabricProc) : Bool := p.queue.any fun q => q.instr == .ckpt

/-- FWAIT (R367). -/
def execFwait (d : Dst) (bar : Nat) (s : State) : Result :=
  withUni none 1 [.k bar] d false s fun u s =>
    match u with
    | .unit (.fabric n) =>
      let va := (s.unitK (.fabric n) bar).toNat
      if va % 64 ≠ 0 then trapNext s 2 0 0 va [] else
      let s := match d with
        | .k r => s.setUnitK (.fabric n) r (s.unitK (.fabric n) r)
        | _ => s
      let w : FWait := { dst := d, va, pc := s.turnPc, since := s.cyc, tmo := 0, sent := false }
      if ((s.proc? n).map (·.checkpoints)).getD false then .next (s.mapProc n fun p => { p with wait := some w })
      else .next (s.tryWait n w)
    | _ => .next (s.illegal .executor)

/-- The wait of a processor that may go on now. -/
def State.waitOf (s : State) (n : Nat) : Option FWait :=
  match s.proc? n with
  | none => none
  | some p => if p.stop.isSome || s.unitFrozen (p.job.getD 0) || p.checkpoints then none else p.wait.filter fun w => !w.sent

/-- FWAIT_RECHECK (R367). -/
def execFwaitRecheck (proc : Nat) (s : State) : Result :=
  match s.waitOf proc with
  | some w => .next (s.tryWait proc w)
  | none => .next s

/-- FWAIT_TIMEOUT (R367): nothing but the status changes. -/
def execFwaitTimeout (proc : Nat) (s : State) : Result :=
  match s.waitOf proc with
  | some w =>
    if w.tmo = 0 || s.cyc < w.since + w.tmo then .next s
    else .next (s.mapProc proc fun p => { p with wait := none, k := putK p.k w.dst 1 })
  | none => .next s

/-! ### `fslot` and `fred` -/

/-- Apply the pooled contributions of a slot that has opened. -/
def State.drainPool (s : State) (n slot : Nat) (a : OpenSlot) : State :=
  let mine := fun (c : RootContribution) => c.slot == slot && c.epoch == a.epoch
  let cs := (((s.proc? n).map (·.pool)).getD []).filter mine
  let b := cs.foldl (fun a c => if a.applied.length < a.n then a.apply c.index c.value else a) a
  ((s.mapProc n fun p => { p with pool := p.pool.filter fun c => !mine c }).setSlot n slot b).letIn

/-- FSLOT (R380). -/
def execFslot (res config timeout : Nat) (bitmap : Option Nat) (s : State) : Result :=
  withUni none 1 ((config :: timeout :: bitmap.toList).map Src.k) .none false s fun u s =>
    match u with
    | .unit (.fabric n) =>
      let k := fun (r : Nat) => (s.unitK (.fabric n) r).toNat
      let c := k config
      let slot := fld c 16 4
      let isOpen := (((s.proc? n).bind fun p => p.slots[slot]?).bind (·.active)).isSome
      if fld c 0 16 = 0 || 8 ≤ fld c 20 4 || fld c 40 24 ≠ 0 || isOpen then .next (s.illegal .reserved) else
      let a : OpenSlot := { n := fld c 0 16, op := fld c 20 4, epoch := fld c 24 16, applied := [], value := slotIdentity (fld c 20 4)
                            limit := k timeout, since := s.cyc, res := .k res, stat := .k (res + 1), bitmap := bitmap.map k, pc := s.turnPc }
      let keep := fun (s : State) (r : Nat) => s.setUnitK (.fabric n) r (s.unitK (.fabric n) r)
      .next ((keep (keep s res) (res + 1)).drainPool n slot a)
    | _ => .next (s.illegal .executor)

/-- FRED (R381): it completes at issue. The processor holds while a contribution of its own has found no room. -/
def execFred (value root index : Nat) (s : State) : Result :=
  withUni none 1 [.k value, .k root, .k index] .none false s fun u s =>
    match u with
    | .unit (.fabric n) =>
      let k := fun (r : Nat) => s.unitK (.fabric n) r
      let r := (k root).toNat
      if fld r 21 3 ≠ 0 || fld r 28 4 ≠ 0 || fld r 48 16 ≠ 0 || (k index).toNat / 2 ^ 16 ≠ 0 then .next (s.illegal .reserved) else
      let own := (s.waiting.any fun w => match w with
          | .contribution (some m) _ => m == n
          | _ => false) || s.remotes.any (·.use == .fred n)
      if own then holdWord s else
      let c : RootContribution := { src := Config.pkg.toNat, tag := s.seq, job := s.procJob n, proc := fld r 16 5, slot := fld r 24 4, epoch := fld r 32 16
                                    index := fld (k index).toNat 0 16, value := k value }
      if fld r 0 16 ≠ Config.pkg.toNat then .next (s.sendFabric (fld r 0 16) c.job (.fred n) (.contribution (fld r 0 16) c)) else
      match s.contribute c with
      | some t => .next t.letIn
      | none => .next { s with waiting := s.waiting ++ [.contribution (some n) c] }
    | _ => .next (s.illegal .executor)

/-- FRED_ARRIVAL (R381). -/
def execFredArrival (c : RootContribution) (s : State) : Result :=
  .next (s.arriving c.job (.fredArrival c) fun s =>
    match s.contribute c with
    | some t => t.letIn
    | none => { s with waiting := s.waiting ++ [.contribution none c] })

/-- FSLOT_TIMEOUT (R380). -/
def execFslotTimeout (proc slot : Nat) (s : State) : Result :=
  match s.proc? proc with
  | none => .next s
  | some p =>
    match (p.slots[slot]?).bind (·.active) with
    | none => .next s
    | some a =>
      if a.limit = 0 || s.cyc < a.since + a.limit || s.unitFrozen (p.job.getD 0) then .next s
      else .next (s.closeSlot proc slot a true).letIn

end Sys2Proof.Machine
end

