-- ==== Sys2Proof/Machine/Timetable.lean ====
section
/-!
DEFINITION. The Timetable engine (R399 to R411): its head, counters, messages and end, `ttpost` and `ttwait`; the raise of a mapped
barrier at an end (R139, R404).
-/
namespace Sys2Proof.Machine

/-! ### Instructions (R407 to R409) -/

/-- TTPOST (R408): a group's message leaves once the boundaries and each `cwait` that its threads issued earlier have completed. -/
def execTtpost (mb count : Src) (free prev : Bool) (guard : Option Guard) (s : State) : Result :=
  withUni guard 1 [mb, count] .none false s fun u s =>
    let m := (s.uniSource u 64 mb).toNat % 16
    let n := min 65535 (s.uniSource u 64 count).toNat
    match u with
    | .lane v _ _ =>
      let waits := fun (o : LongOp) => o.wg == v.wg.id && o.present.any v.tids.contains && match o.kind with
        | .cwait _ => true
        | _ => false
      let after := ((s.boundaries.filter fun b => b.wg == v.wg.id && b.tids.any v.tids.contains).map (·.id)) ++ (s.ops.filter waits).map (·.id)
      if after.isEmpty then .next (s.ttSend v.leaf.job free prev m n)
      else .next { s with posts := s.posts ++ [{ wg := v.wg.id, job := v.leaf.job, after, free, prev, mb := m, count := n }] }
    | .unit (.fabric p) => .next (s.signal p (.post free prev m n))
    | .unit _ => .next (s.illegal .executor)

/-- Issue a `ttwait`: its group's threads keep the latest R header before it, for R410. -/
def ttWaitIssue (sel : Nat) (d : Dst) (cond thr timeout : Src) (guard : Option Guard) (s : State) : Result :=
  withUni guard 1 [cond, thr, timeout] d true s fun u s =>
    let named := match d with
      | .x _ | .k _ => true
      | _ => false
    if !named then .next (s.illegal .operand) else
    let back := match u with
      | .lane v _ _ => v.threads.map fun t => (t.tid, t.lastR, t.regionsR, t.retiredR)
      | .unit _ => []
    s.issueUni u (.ttwait sel (s.uniSource u 64 cond) (s.uniSource u 64 thr) (s.uniSource u 64 timeout).toNat back) d

/-- TTWAIT_RDY (R409). -/
def execTtwaitRdy (d : Dst) (cond threshold timeout : Src) (guard : Option Guard) (s : State) : Result :=
  ttWaitIssue 0 d cond threshold timeout guard s
/-- TTWAIT_CR (R409). -/
def execTtwaitCr (d : Dst) (cond threshold timeout : Src) (guard : Option Guard) (s : State) : Result :=
  ttWaitIssue 1 d cond threshold timeout guard s
/-- TTWAIT_DONE (R409). -/
def execTtwaitDone (d : Dst) (cond timeout : Src) (guard : Option Guard) (s : State) : Result :=
  ttWaitIssue 2 d cond .zero timeout guard s
/-- TTWAIT_RD (R409). -/
def execTtwaitRd (d : Dst) (index : Src) (guard : Option Guard) (s : State) : Result :=
  ttWaitIssue 3 d index .zero .zero guard s

/-- TTWAIT_TIMEOUT (R409): the counter with bit 63 set. -/
def execTtwaitTimeout (op : Nat) (s : State) : Result :=
  match s.op? op with
  | none => .next s
  | some o =>
    match o.kind with
    | .ttwait sel a _ timeout _ =>
      if timeout = 0 || o.held.isSome || !s.clear o.after || s.opFrozen o || s.cyc < o.issued + timeout then .next s
      else .next (s.deliver o (w64 (s.tt.counter sel a + 2 ^ 63)) [])
    | _ => .next s

/-! ### The head entry (R400 to R403) -/

/-- The engine in error (Table 16.11); the first error stands. -/
def State.ttError (s : State) (code sub : Nat) : State :=
  if s.tt.state = 4 then s else { s with tt := { s.tt with state := 4, code, sub } }

/-- The head moves to the next entry, or past the last pass; the new head stands from the next clk, on which it is read (R400). -/
def State.ttAdvance (s : State) : State :=
  let t := s.tt
  let last := t.head + 1 == t.tlen
  { s with tt := { t with head := if last then 0 else t.head + 1, pass := if last then t.pass + 1 else t.pass, entry := none
                          since := s.cyc + 1, counted := s.cyc + 1 } }

/-- Issue the head: counters and slots are taken, and its leaf is launched (R402, R403). -/
def State.ttIssue (s : State) (e : TtEntry) : State :=
  let t := s.tt
  let runs := if 0 < e.sd then sset (0, 0) t.runs e.mb ((t.freeRun e.sd.toNat).getD 0, e.sd.toNat) else t.runs
  let run := sget (0, 0) runs e.mb
  let k60 := t.pass * 2 ^ 48 + run.2 * 2 ^ 40 + (if run.2 = 0 then 0 else run.1) * 2 ^ 32 + t.head * 2 ^ 12 + e.mb
  let task : TtTask := { pass := t.pass, entry := t.head, mb := e.mb, sd := e.sd, va := e.leaf, region := none }
  let t := { t with runs, tasks := t.tasks ++ [task] }
  let t := if e.kind = 1 then { t with frdy := sset 0 t.frdy e.mb (t.ready e - e.upn), crf := t.crf - e.dnn }
    else if e.kind = 2 then { t with brdy := sset 0 t.brdy e.mb (t.ready e - e.upn), crb := t.crb - e.dnn } else t
  let p : PendingLaunch := { source := .timetable t.epoch (w64 k60), job := t.job, va := e.leaf, held := false, core := 0 }
  ({ s with tt := t, launches := s.launches ++ [p] }).ttAdvance

/-- The stash errors of R402, once the wait on upstream is known. -/
def Timetable.stashError (t : Timetable) (e : TtEntry) (up : Bool) : Bool :=
  decide ((t.stash : Int) < e.sd) ||
  (!up && ((decide (0 < e.sd) && (t.run e.mb).2 != 0) || (decide (e.sd < 0) && decide (((t.run e.mb).2 : Int) < -e.sd))))

/-- Whether a test of a head that has been read does more than wait (R402). -/
def State.ttReady (s : State) (e : TtEntry) : Bool :=
  let w := s.ttWaits e
  !e.sound || e.stage != s.tt.stg || e.kind == 0 || s.tt.stashError e w.1 || !(w.1 || w.2.1 || w.2.2)

/-- One test of a head that has been read (R402). -/
def State.ttTest (s : State) (e : TtEntry) : State :=
  let s := s.ttCount s.cyc
  if !e.sound then s.ttError 1 0
  else if e.stage ≠ s.tt.stg then s.ttError 2 0
  else if e.kind = 0 then s.ttAdvance
  else
    let w := s.ttWaits e
    if s.tt.stashError e w.1 then s.ttError 3 0
    else if w.1 || w.2.1 || w.2.2 then s else s.ttIssue e

/-- Whether the engine has a head to read or to test at this clk: it runs, and the head stands. -/
def State.ttStands (s : State) : Bool :=
  s.tt.state == 1 && s.pfrz.isNone && decide (s.tt.pass < s.tt.reps) && decide (s.tt.since ≤ s.cyc)

/-- Whether TT_HEAD_ISSUE has something to do now: a new head to read, or a test that does more than wait. A counter change or completion
of this clk counts from the next (R402). -/
def State.ttActs (s : State) : Bool :=
  s.ttStands && match s.tt.entry with
    | none => true
    | some w => decide (s.tt.changed < s.cyc) && s.ttReady (ttEntry w)

/-- TT_HEAD_ISSUE (R400, R402): the head is read on the clk on which it becomes the head, and tested on each clk; what has changed on a
clk counts from the next. -/
def execTtHeadIssue (s : State) : Result :=
  let t := s.tt
  let test := fun (s : State) (w : W64 × W64) => if t.changed < s.cyc then s.ttTest (ttEntry w) else s
  if !s.ttStands then .next s else
  match t.entry with
  | some w => .next (test s w)
  | none =>
    match s.ownWords t.job ((t.tbase + 16 * t.head) % 2 ^ 64) 2 with
    | .error e => .next (s.ttError 6 e)
    | .ok (l, s) =>
      let w := (l.getD 0 0, l.getD 1 0)
      .next (test { s with tt := { s.tt with entry := some w } } w)

/-! ### Messages (R406, R411) -/

/-- A counter raised, saturating (R401). -/
def ttRaise (a n : Nat) : Nat := min (2 ^ 32 - 1) (a + n)

/-- A message applied to its counter (R408). -/
def Timetable.take (t : Timetable) (m : TtMessage) : Timetable :=
  if m.free then (if m.prev then { t with crf := ttRaise t.crf m.count } else { t with crb := ttRaise t.crb m.count })
  else if m.prev then { t with brdy := sset 0 t.brdy m.mb (ttRaise (sget 0 t.brdy m.mb) m.count) }
  else { t with frdy := sset 0 t.frdy m.mb (ttRaise (sget 0 t.frdy m.mb) m.count) }

/-- TT_MESSAGE_ARRIVAL (R406): applied, held for an engine that is off, or discarded and counted. -/
def execTtMessageArrival (m : TtMessage) (s : State) : Result :=
  .next (s.arriving m.job (.ttMessageArrival m) fun s =>
    if s.tt.runsFor m.job then
      let s := s.ttCount (s.cyc + 1)
      { s with tt := { s.tt.take m with changed := s.cyc } }
    else if s.tt.state = 0 && s.tt.held.length < 1024 then { s with tt := { s.tt with held := s.tt.held ++ [m] } }
    else { s with tt := { s.tt with drop := s.tt.drop + 1 } })

/-! ### Ends (R139, R403, R404) -/

/-- Add 1 to a mapped barrier's COUNT as a releasing atomic of the package's own units, or the subcause that forbids it. On another
package it travels, and the answer serves the leaf of that RCB address, or the engine. The last value says whether an answer is awaited. -/
def State.raiseCmb (s : State) (job va : Nat) (leaf : Option Nat) : Except Nat (State × Bool) :=
  if va % 64 ≠ 0 then .error 6 else
  match s.ownPageBy job { barrierRule with physical := fun _ => true } va with
  | .error e => .error e
  | .ok (p, s) =>
    match p.home va with
    | .package k => .ok (s.request k job (p.pa va) none (.atomic .add .n 8 [⟨p.pa va, 1, 0, s.seq⟩]) (.cmb leaf), true)
    | _ => match s.atomHere p none none job .add .d .n va 1 0 with
      | some (_, s) => .ok (s, false)
      | none => .ok (s, false)

/-- TT_DONE (R404): the last entry has been issued and every launched leaf has completed. -/
def execTtDone (s : State) : Result :=
  let t := s.tt
  let asked := s.remotes.any fun r => match r.use with
    | .cmb leaf => leaf.isNone
    | _ => false
  if t.state != 1 || s.pfrz.isSome || t.pass < t.reps || !t.tasks.isEmpty || asked then .next s
  else if t.cmb = 0 then .next { s with tt := { t with state := 3 } }
  else match s.raiseCmb t.job t.cmb none with
    | .error e => .next (s.ttError 6 e)
    | .ok (s, true) => .next s
    | .ok (s, false) => .next { s with tt := { s.tt with state := 3 } }

/-- The end of a leaf: it counts from the next clk (R402), and where the engine launched it, its micro-batch's highest slots are released
(R403). -/
def State.ttLeafEnd (s : State) (region : Nat) : State :=
  let s := s.ttCount (s.cyc + 1)
  let s := { s with tt := { s.tt with changed := s.cyc } }
  match s.tt.tasks.find? fun k => k.region == some region with
  | none => s
  | some k =>
    let t := s.tt
    let run := t.run k.mb
    let left := run.2 - (-k.sd).toNat
    let runs := if k.sd < 0 then sset (0, 0) t.runs k.mb (if left = 0 then (0, 0) else (run.1, left)) else t.runs
    { s with tt := { t with runs, tasks := t.tasks.filter (· != k) } }

/-- The outcome of a launch of the engine, by the run of the engine that made it: an accepted leaf keeps its entry word; a refusal puts that
run in error, and no later one (R399, R403). -/
def State.ttLaunched (s : State) (epoch : Nat) (k60 : W64) (va : Nat) (region : Option Nat) : State :=
  match region with
  | none => if s.tt.epoch = epoch then s.ttError 4 0 else s
  | some id =>
    let s := s.mapRegion id fun r => { r with k60 := some k60 }
    if s.tt.epoch ≠ epoch then s else
    { s with tt := { s.tt with tasks := updFirst (fun k => k.region.isNone && k.va == va) (fun k => { k with region := some id }) s.tt.tasks } }

end Sys2Proof.Machine
end

