-- ==== Sys2Proof/Machine/Accept.lean ====
section
/-!
DEFINITION. The acceptance of launches and the completion of leaves (R137 to R139, R175, R403).
-/
namespace Sys2Proof.Machine

/-- Report a launch's outcome to its source (R175, R403, R431). -/
def State.launched (s : State) (p : PendingLaunch) (status : Nat) (region : Option Nat) : State :=
  match p.source with
  | .instruction id => match s.op? id with
    | some o => s.deliver o (w64 status) []
    | none => s
  | .queue q => s.completePacket q (if region.isSome then 0 else 1) 0 (w64 status)
  | .timetable epoch k60 => s.ttLaunched epoch k60 p.va region

/-- LAUNCH_ACCEPTANCE (R138). -/
def execLaunchAcceptance (index : Nat) (s : State) : Result :=
  match s.launches[index]? with
  | none => .next s
  | some p =>
    if s.launchWaits p then .next s else
    let device := match p.source with
      | .instruction _ => true
      | _ => false
    let s : State := { s with launches := s.launches.eraseIdx index }
    let r := s.acceptLeaf p.job p.va p.held device
    let t := if r.2.1.isSome then { r.2.2 with tt := (s.ttCount (s.cyc + 1)).tt } else r.2.2
    .next (t.launched p r.1 r.2.1)

/-- Whether a leaf's work is over: every workgroup has started and ended, and it is not held. -/
def State.leafOver (s : State) (r : Region) : Bool :=
  r.field 0 56 8 == 3 && decide (1 ≤ r.state) && decide (r.state ≤ 3) && !r.held && r.nextW == r.total && r.ended == r.total &&
  !(s.wgs.any (·.region == r.id))

/-- LEAF_COMPLETE (R139): STATE 4, the mapped barrier, the leaf's cinch lines, the Timetable. -/
def execLeafComplete (region : Nat) (s : State) : Result :=
  let s := s.retire
  match s.region? region with
  | none => .next s
  | some r =>
    if !s.leafOver r then .next s else
    let s := (s.ttCount (s.cyc + 1)).setRegionState region 4
    let lines : List CinchLine := s.cinch.map fun l => if l.region == some region then CinchLine.reset else l
    let s := ({ s with cinch := lines }).ttLeafEnd region
    if r.word 16 = 0 then .next s else
    match s.raiseCmb r.job (r.word 16) (some r.va) with
    | .ok (s, _) => .next s
    | .error e => .next (s.report 0xFD (w64 r.va) e)

end Sys2Proof.Machine
end

