-- ==== Sys2Proof/Machine/Freeze.lean ====
section
/-!
DEFINITION. Raising and ending the stops of R322: what a freeze held goes on where it stood, its timers not advanced (R323, R326,
R390, R396).
-/
namespace Sys2Proof.Machine

/-! ### The clks that a stop held -/

/-- The earliest of some clks, `now` where there is none. -/
def earliest (now : Nat) (l : List Nat) : Nat := l.foldl min now

/-- The clk from which freezes have held a partition's groups of a workgroup; now, where none does. -/
def State.frozenFrom (s : State) (w : Workgroup) (part : Nat) : Nat :=
  earliest s.cyc ((s.part w.core part).frozen.toList ++ s.pfrz.toList ++ (((s.job? (s.jobOf w)).bind (·.freeze)).map (·.since)).toList)

/-- The clk from which freezes, or the debug stop of a group, have held the timers of a workgroup's threads (R323). -/
def State.suspendedFrom (s : State) (w : Workgroup) (part : Nat) : Nat :=
  earliest (s.frozenFrom w part) ((s.groups.filter (·.wg == w.id)).flatMap fun g =>
    ((g.stop.filter (·.debug)).map (·.clk)).toList ++ (s.part w.core g.part).frozen.toList)

/-- The clk from which freezes have held the engines and programs of a job. -/
def State.haltedFrom (s : State) (job : Nat) : Nat :=
  earliest s.cyc (s.pfrz.toList ++ ((((s.job? job).bind (·.freeze)).filter fun f => decide (f.stage < 2)).map (·.cyc)).toList)

/-- The clk from which a freeze has stopped the lane-cycle counters of a partition (R323, R342). -/
def State.uncountedFrom (s : State) (core part : Nat) : Nat :=
  earliest s.cyc ((s.part core part).frozen.toList ++ s.pfrz.toList)

/-- A clk moved on by the clks that a stop held after it, when the stop began at `a` and what is left of it begins at `b`. -/
def shifted (t a b : Nat) : Nat := t + (max t b - max t a)

/-! ### Timers (R150, R154, R174, R323, R367, R380, R409) -/

/-- The park of a `waitv`, with a stop's clks not counted. -/
def Thread.thaw (t : Thread) (a b : Nat) : Thread :=
  match t.place with
  | .waitv p => { t with place := .waitv { p with since := shifted p.since a b } }
  | _ => t

/-- A processor's waits, with a stop's clks not counted. -/
def FabricProc.thaw (p : FabricProc) (a b : Nat) : FabricProc :=
  { p with wait := p.wait.map fun w => { w with since := shifted w.since a b }
           slots := p.slots.map fun x => { x with active := x.active.map fun o => { o with since := shifted o.since a b } } }

/-- `s` with every timer moved on by the clks that the stops of `b` held and those of `s` no longer hold. -/
def State.thawTimers (s b : State) : State :=
  let wg := fun (id : Nat) => s.wg? id
  let issued := fun (o : LongOp) =>
    match o.issuer, wg o.wg with
    | .group _, some w => shifted o.issued (b.frozenFrom w (o.tid / 32 % 4)) (s.frozenFrom w (o.tid / 32 % 4))
    | .group _, none | .control _, _ => o.issued
    | _, _ => shifted o.issued (b.haltedFrom o.job) (s.haltedFrom o.job)
  { s with
    groups := s.groups.map fun g => match wg g.wg, s.waitingSince g with
      | some w, some c => { g with held := shifted (c + g.held) (b.suspendedFrom w g.part) (s.suspendedFrom w g.part) - c }
      | _, _ => g
    bins := s.bins.map fun x => match wg x.wg with
      | some w => { x with held := shifted (x.filed + x.held) (b.frozenFrom w x.part) (s.frozenFrom w x.part) - x.filed }
      | none => x
    wgs := s.wgs.map fun w =>
      { w with threads := w.threads.map fun t => t.thaw (b.suspendedFrom w (t.tid / 32 % 4)) (s.suspendedFrom w (t.tid / 32 % 4)) }
    ops := s.ops.map fun o => match o.kind with
      | .ttwait .. => { o with issued := issued o }
      | _ => o
    procs := s.procs.map fun p => p.thaw (b.haltedFrom (p.job.getD 0)) (s.haltedFrom (p.job.getD 0)) }

/-- The lane-cycle counters of every partition, with a freeze's clks not counted (R342). -/
def State.thawCounters (s b : State) : State :=
  (List.range 1024).foldl (fun s i =>
    let n := s.uncountedFrom (i / 4) (i % 4) - b.uncountedFrom (i / 4) (i % 4)
    if n = 0 then s else s.mapPart (i / 4) (i % 4) fun p => { p with counted := p.counted + n }) s

/-- The bubble counters of the Timetable, with a freeze's clks not counted (R390). -/
def State.thawTimetable (s : State) (b : State) : State :=
  let c := b.ttCount s.cyc
  if b.pfrz == s.pfrz && b.tt.state == s.tt.state then s
  else { s with tt := { c.tt with state := s.tt.state, code := s.tt.code, sub := s.tt.sub, counted := max c.tt.counted s.cyc } }

/-- Consume what arrived for a job while its packets were held: first in order, and before anything that arrives now (R391). -/
def State.releasePackets (s : State) : State :=
  let free := fun (p : Nat × Instr) => !s.packetsHeld p.1
  { s with heldPkts := s.heldPkts.filter fun p => !free p, todo := (s.heldPkts.filter free).map (fun p => Act.event p.2) ++ s.todo }

/-- After the stops of `b` have become those of `s`: timers and counters go on, and held writes of what is no longer frozen are applied
(R323), with the packets and messages that waited (R391); what a continue released counts under no later freeze (R329). -/
def State.thaw (s b : State) : State :=
  let s := ((s.thawTimers b).thawCounters b).thawTimetable b
  let s : State := { s with groups := s.groups.map fun g => { g with go := g.go && ((s.wg? g.wg).map fun w => s.frozenAt w g.part s.cyc).getD false } }
  ((s.applyHeld fun o => !s.opFrozen o).releasePackets).flushPosts

/-- Raise a package freeze (R326). -/
def State.freezePackage (s : State) : State := { s with pfrz := s.pfrz.or (some s.cyc) }

/-- PFRZ_WRITE (R326): writing 1 raises a package freeze; only `gresume` ends one. -/
def execPfrzWrite (value : W64) (s : State) : Result := .next (if value.getLsbD 0 then s.freezePackage else s)

end Sys2Proof.Machine
end

