-- ==== Sys2Proof/Machine/Debug.lean ====
section
/-!
DEFINITION. The debug window, resumption and killing from a control core (R321, R327 to R330, R333, R341, R357, R394): `dwrd`, `dwwr`,
`gresume`, `gkill`, `eret`.
-/
namespace Sys2Proof.Machine

/-! ### What a handle names (R321, R357, R394) -/

/-- A live unit that a handle names. -/
inductive Target where
  | thread (w : Workgroup) (t : Thread)
  | stream (w : Workgroup) (x : Stream)
  | fabric (n : Nat) (p : FabricProc)
  | engine (e : Nat)
deriving DecidableEq, Repr

/-- The live unit of a handle register. -/
def State.target (s : State) (h : W64) : Option Target :=
  let f := fld h.toNat
  if h.toNat / 2 ^ 24 ≠ 0 then none
  else if f 13 11 = 0x7FF then
    (if f 0 13 < 32 then (s.proc? (f 0 13)).bind fun p => if p.job.isSome then some (.fabric (f 0 13) p) else none else none)
  else if f 13 11 = 0x7FE then (if f 0 13 < 32 then some (.engine (f 0 13)) else none)
  else match s.slot? (f 0 8) (f 8 5) with
    | none => none
    | some w =>
      if f 23 1 = 1 then (if f 13 10 = 0 then w.stream.map (.stream w) else none)
      else (w.thread? (f 13 10)).bind fun t => if t.place == .exited then none else some (.thread w t)

/-- The stop of a thread's own group. -/
def State.ownStop (s : State) (t : Thread) : Option Stop :=
  match t.place with
  | .group g => (s.group? g).bind (·.stop)
  | _ => none

/-- Whether a thread is stopped: with its group, its block, its workgroup, or frozen. -/
def State.threadStopped (s : State) (w : Workgroup) (t : Thread) : Bool :=
  (s.ownStop t).isSome || w.stopped.isSome || s.threadFrozen w.id t.tid || w.diverged.contains (t.tid / 32)

/-- Whether a thread is stopped in place: its run is intact (R323). -/
def State.inPlace (s : State) (w : Workgroup) (t : Thread) : Bool :=
  w.stopped.isNone && match s.ownStop t with
    | some st => st.debug
    | none => s.threadFrozen w.id t.tid

/-- Whether a stream is stopped. -/
def State.streamStopped (s : State) (w : Workgroup) (x : Stream) : Bool :=
  x.stop.isSome || w.stopped.isSome || s.unitFrozen (s.jobOf w)

/-! ### The window (R328) -/

/-- An item of the window: its value, and how it is written, where it can be. -/
structure Item where
  value : W64
  write : Option (W64 → State)

/-- A register code as Table 3.8 gives it. -/
def dstCode8 : Dst → Nat
  | .x n => n
  | .k n => 0x80 + n
  | .o n => 0xC0 + n
  | .none => 0xFF

/-- The pending writes of a thread, in order of issue (R323). -/
def State.pendingWrites (s : State) (w : Workgroup) (t : Thread) : List LongOp :=
  s.ops.filter fun o => o.wg == w.id && o.dst != .none && o.tids.contains t.tid && !o.dropped.contains t.tid

/-- A word of the pending writes: number 2m describes the m-th, number 2m + 1 is its value; what no write holds is open. -/
def State.pendingWord (s : State) (w : Workgroup) (t : Thread) (i : Nat) : W64 :=
  match (s.pendingWrites w t)[i / 2]? with
  | none => if i % 2 = 0 then 0 else w64 (Config.freeNat s.fresh (8 * i + 1))
  | some o =>
    let flags := o.flags.foldl (fun a f => a ||| 2 ^ f) 0
    if i % 2 = 0 then w64 (2 ^ 63 + (if o.held.isSome then 2 ^ 20 else 0) + flags * 2 ^ 8 + dstCode8 o.dst)
    else match o.held with
      | some v => ((o.got.find? (·.1 == t.tid)).map (·.2)).getD v
      | none => w64 (Config.freeNat s.fresh (8 * i + 1))

/-- Discard every held write of a thread to a register (R323). -/
def State.discardHeld (s : State) (wg tid : Nat) (d : Dst) : State :=
  { s with ops := s.ops.map fun o =>
      if o.wg == wg && o.dst == d && o.held.isSome && o.tids.contains tid then { o with dropped := o.dropped ++ [tid] } else o }

/-- Discard every held write of some operations to a k register (R323). -/
def State.discardHeldK (s : State) (mine : LongOp → Bool) (n : Nat) : State :=
  { s with ops := s.ops.map fun o => if mine o && o.dst == .k n && o.held.isSome then { o with dropped := 0 :: o.dropped } else o }

/-- A mode word as a `dwwr` leaves it: reserved bits 0, a reserved rounding code not taken (R20). -/
def modeWritten (old : W32) (v : W64) : W32 :=
  let m := v.toNat % 2 ^ 16 / 2 ^ 8 * 2 ^ 8
  BitVec.ofNat 32 (m + if v.toNat % 8 < 6 then v.toNat % 8 else old.toNat % 8)

/-- Words of thread control (space 4): resume header, next word, `%rec`, `%ret`, mode word, flags. -/
def State.threadControl (s : State) (w : Workgroup) (t : Thread) (i : Nat) : W64 :=
  let next := match t.place with
    | .group g => (((s.group? g).bind (·.run)).map (·.pc)).getD t.next
    | _ => t.next
  match i with
  | 0 => w64 (s.resumeHeader w t).1
  | 1 => w64 next
  | 2 => t.regions.setWidth 64
  | 3 => t.retired
  | 4 => t.mode.setWidth 64
  | _ => w64 (((List.range 12).filter fun f => sget 0 t.flags f == 0).foldl (fun a f => a + 2 ^ f) 0)

/-- An item of a stopped thread (spaces 0 to 4 and 8). -/
def State.threadItem (s : State) (w : Workgroup) (t : Thread) (space i : Nat) : Except Nat Item :=
  let put := fun (f : Thread → Thread) => s.mapThread w.id t.tid f
  let settled := fun (r : Reg) (t : Thread) => { t with settling := t.settling.filter (·.reg != r), stale := t.stale.filter (·.reg != r) }
  let most := match space with
    | 0 => ((s.leafOf w).map (·.regs)).getD 0
    | 3 => 4
    | 4 => 6
    | 8 => 2 ^ 64
    | _ => 8
  if most ≤ i then .error 3
  else if (space == 2 || space == 3 || space == 8 || (space == 4 && i == 1)) && !s.inPlace w t then .error 4
  else .ok (match space with
    | 0 => { value := sget 0 t.x i
             write := some fun v => (put fun t => settled (.x i) { t with x := sset 0 t.x i v, upsets := t.upsets.filter (· != .x i) }).discardHeld w.id t.tid (.x i) }
    | 1 => { value := (sget 0 t.p i).setWidth 64
             write := some fun v => put fun t => settled (.p i) { t with p := sset 0 t.p i (v.setWidth 8), upsets := t.upsets.filter (· != .p i) } }
    | 2 => { value := (sget (⟨0, 0⟩ : RunVal) t.o i).val, write := some fun v => put fun t => t.writeO w.w i (BitVec.allOnes 64) v s.cyc }
    | 3 => { value := ((t.l[i]?).map (·.val)).getD 0, write := none }
    | 4 => { value := s.threadControl w t i
             write := if i = 4 then some fun v => put fun t => { t with mode := modeWritten t.mode v } else none }
    | _ => { value := s.pendingWord w t i, write := none })

/-- A k register through a thread's handle: the workgroup's. -/
def State.wgKItem (s : State) (w : Workgroup) (i : Nat) : Except Nat Item :=
  if 64 ≤ i then .error 3 else
  .ok { value := sget 0 w.k i
        write := some fun v => (s.mapWg w.id fun w =>
          { w with k := sset 0 w.k i v, ksettling := w.ksettling.filter (·.k != i), upsets := w.upsets.filter (· != .k i) }).discardHeldK
          (fun o => o.wg == w.id && match o.issuer with | .group _ => true | _ => false) i }
/-- A k register of a stream or a fabric processor. -/
def State.unitKItem (s : State) (u : UnitId) (i : Nat) : Except Nat Item :=
  if 64 ≤ i then .error 3 else .ok { value := s.unitK u i, write := some fun v => s.setUnitK u i v }

/-- An item of a workgroup (spaces 6, 7, 9 and 11). -/
def State.wgItem (s : State) (w : Workgroup) (space i : Nat) : Except Nat Item :=
  let leaf := fun (f : Region → Nat) => ((s.leafOf w).map f).getD 0
  match space with
  | 6 => match w.bars[i]? with
    | some b => .ok { value := b.word, write := none }
    | none => .error 3
  | 7 =>
    if leaf Region.scratch < 8 * i + 8 then .error 3
    else .ok { value := w64 (leNat (sgetAll 0 w.scr (8 * i) 8))
               write := some fun v => s.mapWg w.id fun w =>
                 { w with scr := ssetAll 0 w.scr (8 * i) (leBytes 8 v.toNat), upsets := w.upsets.filter fun u => !(List.range 8).any fun b => u == .scr (8 * i + b) } }
  | 9 =>
    if leaf Region.tiles ≤ i / 4096 then .error 3
    else .ok { value := (sget 0 w.acc i).setWidth 64
               write := some fun v => s.mapWg w.id fun w => { w with acc := sset 0 w.acc i (v.setWidth 40), upsets := w.upsets.filter (· != .acc i) } }
  | _ => match w.macros[i / 4096]? with
    | some m => .ok { value := (sget 0 m.cells (i % 4096)).setWidth 64, write := none }
    | none => .error 3

/-- An item of the assist row of a stream (space 10, R341). -/
def State.assistItem (s : State) (w : Workgroup) (a : Assist) (i : Nat) : Except Nat Item :=
  let put := fun (f : Assist → Assist) => s.mapStream w.id fun x => { x with assist := x.assist.map f }
  if 66 ≤ i then .error 3
  else if i < 64 then .ok { value := a.elems.getD i 0, write := some fun v => put fun a => { a with elems := a.elems.set i v } }
  else .ok { value := a.scales.getD (i - 64) 0, write := some fun v => put fun a => { a with scales := a.scales.set (i - 64) v } }

/-- Whether a workgroup's units are stopped as spaces 9 and 11 need (R328). -/
def State.tilesStopped (s : State) (w : Workgroup) (t : Option Thread) : Bool :=
  match w.stream.filter (·.stage == .running), t with
  | some x, _ => s.streamStopped w x
  | none, some t => s.threadStopped w t
  | none, none => false

/-- The item of the window that a handle, a space and an index name, or a status (R327, R328). -/
def State.item (s : State) (h : W64) (space i : Nat) : Except Nat Item :=
  match s.target h with
  | none | some (.engine _) => .error 2
  | some (.fabric n p) =>
    if space ≠ 5 then .error 4
    else if !(p.stop.isSome || s.unitFrozen (p.job.getD 0)) then .error 1
    else s.unitKItem (.fabric n) i
  | some (.thread w t) =>
    if space = 10 then .error 4
    else if space = 9 || space = 11 then (if s.tilesStopped w (some t) then s.wgItem w space i else .error 1)
    else if !s.threadStopped w t then .error 1
    else if space = 5 then s.wgKItem w i
    else if space = 6 || space = 7 then s.wgItem w space i
    else s.threadItem w t space i
  | some (.stream w x) =>
    if space < 5 || space = 8 then .error 4
    else if space = 9 || space = 11 then (if s.tilesStopped w none then s.wgItem w space i else .error 1)
    else if space = 10 then
      match x.assist, x.stop with
      | some a, some _ => s.assistItem w a i
      | _, _ => .error 1
    else if !s.streamStopped w x then .error 1
    else if space = 5 then s.unitKItem (.stream w.id) i
    else s.wgItem w space i

/-! ### Executing on a control core -/

/-- Run a system instruction on its control core; elsewhere it raises the wrong-executor subcause (R37, R327). -/
def onControl (srcs : List Src) (dst : Dst) (s : State) (body : Nat → Control → State → Result) : Result :=
  withUni none 1 srcs dst false s fun u s =>
    match u with
    | .unit (.control n) =>
      match s.control? n with
      | some c => body n c s
      | none => .fault .noSuchUnit
    | _ => .next (s.illegal .executor)

/-- Set DWSTAT (R327). -/
def State.setStatus (s : State) (n status : Nat) : State := s.mapControl n fun c => { c with dwstat := w64 status }

/-- An index operand of the window. -/
def State.indexOf (s : State) (n : Nat) : Src → Nat
  | .imm v => v.toNat
  | .k r => (s.unitK (.control n) r).toNat
  | _ => 0

/-- DWRD (R327, R328). -/
def execDwrd (d handle : Nat) (index : Src) (space : Nat) (s : State) : Result :=
  onControl [.k handle, index] (.k d) s fun n _ s =>
    match s.item (s.unitK (.control n) handle) space (s.indexOf n index) with
    | .ok it => .next ((s.setUnitK (.control n) d it.value).setStatus n 0)
    | .error e => .next ((s.setUnitK (.control n) d 0).setStatus n e)

/-- DWWR (R327, R328). -/
def execDwwr (handle : Nat) (index : Src) (value space : Nat) (s : State) : Result :=
  onControl [.k handle, index, .k value] .none s fun n _ s =>
    match s.item (s.unitK (.control n) handle) space (s.indexOf n index) with
    | .error e => .next (s.setStatus n e)
    | .ok it => match it.write with
      | some f => .next ((f (s.unitK (.control n) value)).setStatus n 0)
      | none => .next (s.setStatus n 4)

/-! ### Resuming (R329, R394) -/

/-- Modes of `gresume` (Table 13.6). -/
inductive ResumeMode where
  | cont | reexec | step
deriving DecidableEq, Repr

/-- File what the trailer of a completed step left to file (R329). -/
def State.fileStepped (s : State) (gid : Nat) : State :=
  match s.group? gid with
  | none => s
  | some g => match g.filing with
    | none => s
    | some tail =>
      let s := s.mapGroup gid fun g => { g with filing := none }
      s.applyTail { g with filing := none } tail g.pc

/-- The clks in which a group stood stopped in the middle of its run are idle (R342). -/
def State.countStopped (s : State) (gid : Nat) : State :=
  match s.group? gid with
  | some g => match s.wg? g.wg with
    | some w => if g.run.isSome && g.stop.isSome && !s.frozenAt w g.part s.cyc then s.countIdle w.core g.part (s.cyc - 1) else s
    | none => s
  | none => s

/-- Continue a group stopped in place, by a stop of its own or by a freeze of its partition or package; one that a step stopped before
filing files its threads (R329). -/
def State.contGroup (s : State) (gid : Nat) : State :=
  let t := s.countStopped gid
  ((if ((s.group? gid).bind (·.stop)).isSome then (t.continueGroup gid).fileStepped gid
    else t.mapGroup gid fun g => { g with go := true })).thaw s

/-- Step a group stopped in place for one of its threads; after a filing, the first group drawn that holds the thread is stepped. -/
def State.stepGroup (s : State) (gid wg tid : Nat) : State :=
  let t := ((s.countStopped gid).continueGroup gid).fileStepped gid
  let t := match (t.thread? wg tid).map (·.place) with
    | some (.group q) => t.mapGroup q fun g => { g with step := some tid }
    | some .exited | none => t
    | _ => if t.grants.contains (.thread wg tid) then t else { t with grants := t.grants ++ [Grant.thread wg tid] }
  t.thaw s

/-- Re-execute a stopped group (R335). -/
def State.reexecGroup (s : State) (gid : Nat) : State := (s.reexecute gid).thaw s

/-- What `gresume` at group level does to a thread's group, or its status. A group that only a freeze stops is stopped in place; the event
that the control core handles (`reexec` is its EVT0[16]) says whether it may be re-executed. -/
def State.resumeThread (s : State) (mode : ResumeMode) (reexec : Bool) (w : Workgroup) (t : Thread) : Except Nat State :=
  let bell := s.jobFrozenAt (s.jobOf w) s.cyc
  if w.stopped.isSome || w.diverged.contains (t.tid / 32) then .error 5 else
  match t.place with
  | .group gid =>
    match (s.group? gid).bind (·.stop) with
    | some st =>
      if bell && !(mode == .step && st.debug) then .error 5
      else match mode with
        | .cont => if st.debug then .ok (s.contGroup gid) else .error 5
        | .step => if st.debug then .ok (s.stepGroup gid w.id t.tid) else .error 5
        | .reexec => if st.reexec then .ok (s.reexecGroup gid) else .error 5
    | none =>
      if !s.threadFrozen w.id t.tid then .error 1
      else match mode with
        | .step => .ok (s.stepGroup gid w.id t.tid)
        | .reexec => if bell || !reexec then .error 5 else .ok (s.reexecGroup gid)
        | .cont => if bell then .error 5 else .ok (s.contGroup gid)
  | _ => if bell then .error 5 else .error 1

/-- Continue a stream: it goes on at its recorded step, after the row of an assist (R309, R341). -/
def State.contStream (s : State) (w : Workgroup) (x : Stream) : State :=
  let s := s.mapStream w.id fun x => { x with stop := none }
  match x.assist with
  | some a => s.finishAssist w a
  | none => s

/-- What `gresume` at group level does to a stream. -/
def State.resumeStream (s : State) (mode : ResumeMode) (w : Workgroup) (x : Stream) : Except Nat State :=
  let open_ := (x.stop.map (·.cont)).getD true
  if w.stopped.isSome then .error 5
  else if s.jobHeldAt (s.jobOf w) s.cyc then
    if mode != .step || !open_ then .error 5
    else
      let t := { (s.contStream w x) with grants := (s.grants.filter (· != .stream w.id)) ++ [Grant.stream w.id] }
      .ok (if x.assist.isSome then t.stepTaken (.stream w.id) (some w) (((x.queue.head?).map (·.pc)).getD x.pc) else t)
  else if x.stop.isNone then (if s.pfrz.isSome then .error 5 else .error 1)
  else if mode == .cont && open_ then .ok (s.contStream w x) else .error 5

/-- What `gresume` at group level does to a fabric processor (R357). -/
def State.resumeProc (s : State) (mode : ResumeMode) (n : Nat) (p : FabricProc) : Except Nat State :=
  let open_ := (p.stop.map (·.cont)).getD true
  let go := s.mapProc n fun p => { p with stop := none }
  if s.jobHeldAt (p.job.getD 0) s.cyc then
    (if mode == .step && open_ then .ok { go with grants := (s.grants.filter (· != .fabric n)) ++ [Grant.fabric n] } else .error 5)
  else if p.stop.isNone then (if s.pfrz.isSome then .error 5 else .error 1)
  else if mode == .cont && open_ then .ok go else .error 5

/-- What `gresume` at group level does to a copy engine: one line of the job's copy that it would serve next (Table 16.6). -/
def State.resumeEngine (s : State) (mode : ResumeMode) (e : Nat) : Except Nat State :=
  match (s.engineCopies e).find? fun c => s.jobHeldAt c.job s.cyc with
  | none => .error 1
  | some c => if mode == .step then .ok { s with grants := s.grants ++ [Grant.engine e c.job] } else .error 5

/-- Whether a Bell holds what a handle names. -/
def State.bellHolds (s : State) : Target → Bool
  | .thread w _ => s.jobFrozenAt (s.jobOf w) s.cyc
  | .stream w _ => s.jobHeldAt (s.jobOf w) s.cyc
  | .fabric _ p => s.jobHeldAt (p.job.getD 0) s.cyc
  | .engine e => (s.engineCopies e).any fun c => s.jobHeldAt c.job s.cyc

/-- Release a freeze of an extent (R329): `t` is the state without it. A step or a re-execution then acts on the group of the handle's
thread, where its stop allows it. -/
def State.resumeFreeze (s : State) (mode : ResumeMode) (reexec : Bool) (u : Target) (frozen : Bool) (t : State) : Except Nat State :=
  if !frozen then .error 1 else
  match mode, u with
  | .cont, _ => .ok (t.thaw s)
  | m, .thread w h => (s.resumeThread m reexec w h).bind fun _ =>
    let t := t.thaw s
    match (t.thread? w.id h.tid).map fun x => x.place with
    | some (Place.group gid) => .ok (if m == .step then t.stepGroup gid w.id h.tid else t.reexecGroup gid)
    | _ => .error 5
  | _, _ => .error 5

/-- What `gresume` does, or its status. -/
def State.resume (s : State) (mode : ResumeMode) (level : StopLevel) (reexec : Bool) (h : W64) : Except Nat State :=
  match s.target h with
  | none => .error 2
  | some u =>
    if level != .group && s.bellHolds u then .error 5 else
    match level, u with
    | .package, u => s.resumeFreeze mode reexec u s.pfrz.isSome { s with pfrz := none }
    | .partition, .thread w t =>
      s.resumeFreeze mode reexec u (s.part w.core (t.tid / 32 % 4)).frozen.isSome
        (s.mapPart w.core (t.tid / 32 % 4) fun p => { p with frozen := none })
    | .partition, _ => .error 1
    | .group, .thread w t => s.resumeThread mode reexec w t
    | .group, .stream w x => s.resumeStream mode w x
    | .group, .fabric n p => s.resumeProc mode n p
    | .group, .engine e => s.resumeEngine mode e

/-- EVT0[16] of the event that a control core handles (Table 13.2). -/
def Control.reexec (c : Control) : Bool := ((c.current.bind (·.words[0]?)).map (·.getLsbD 16)).getD false

/-- `gresume`. -/
def doGresume (mode : ResumeMode) (handle : Nat) (level : StopLevel) (s : State) : Result :=
  onControl [.k handle] .none s fun n c s =>
    match s.resume mode level c.reexec (s.unitK (.control n) handle) with
    | .ok t => .next (t.setStatus n 0)
    | .error e => .next (s.setStatus n e)

/-- GRESUME_CONT (R329). -/
def execGresumeCont (handle : Nat) (level : StopLevel) (s : State) : Result := doGresume .cont handle level s
/-- GRESUME_REEXEC (R329). -/
def execGresumeReexec (handle : Nat) (level : StopLevel) (s : State) : Result := doGresume .reexec handle level s
/-- GRESUME_STEP (R329, R394). -/
def execGresumeStep (handle : Nat) (level : StopLevel) (s : State) : Result := doGresume .step handle level s

/-! ### Killing (R330, R357) -/

/-- What an access sent to another package serves of a processor. -/
def RemoteUse.ofProc (n : Nat) : RemoteUse → Bool
  | .unit (.fabric m) _ _ | .transfer m _ | .signal m _ | .wait m | .fsend m | .fred m => m == n
  | _ => false

/-- Stop the program of a fabric processor: it is idle (R338, R357). -/
def State.killProc (s : State) (n : Nat) : State :=
  let mine := fun (o : LongOp) => o.issuer == .fabric n
  let dead := (s.ops.filter mine).map (·.id)
  { s with
    procs := s.procs.set n FabricProc.reset, ops := s.ops.filter fun o => !mine o
    remotes := s.remotes.filter fun r => !(r.use.ofProc n || match r.use with
      | .op id _ => dead.contains id
      | _ => false)
    launches := s.launches.filter fun l => match l.source with
      | .instruction o => !dead.contains o
      | _ => true }

/-- GKILL (R330). -/
def execGkill (handle code : Nat) (faulted : Bool) (s : State) : Result :=
  onControl [.k handle, .k code] .none s fun n _ s =>
    let c := (s.unitK (.control n) code).toNat % 2 ^ 16
    match s.target (s.unitK (.control n) handle) with
    | some (.thread w _) | some (.stream w _) => .next ((s.killRegion w.region c faulted).setStatus n 0)
    | some (.fabric p _) => .next ((s.killProc p).setStatus n 0)
    | _ => .next (s.setStatus n 2)

/-! ### The end of handling (R333) -/

/-- Start the handling of the next queued event, if there is one (R320). -/
def State.startEvent (s : State) (n : Nat) : State :=
  s.mapControl n fun c => match c.current, c.queue with
    | none, e :: r => { c with current := some e, queue := r, pc := c.ccvec.toNat, watch := s.cyc, retried := false }
    | _, _ => c

/-- ERET (R333). -/
def execEret (s : State) : Result :=
  onControl [] .none s fun n _ s => .next ((s.mapControl n fun c => { c with current := none }).startEvent n)

end Sys2Proof.Machine
end

