-- ==== Sys2Proof/Machine/ControlCore.lean ====
section
/-!
DEFINITION. The cluster control cores (R318 to R320, R331 to R333, R338, R340): their events and watchdog, control registers, `tlbi`,
and the memory errors that the command processor hears of.
-/
namespace Sys2Proof.Machine

/-! ### Events (R317, R320) -/

/-- The cause in an event's words. -/
def EventRec.cause (e : EventRec) : Nat := (e.words.getD 0 0).toNat % 256

/-- Whether an event's cause has the unit's other long-latency work drain first (R317): debug causes and the assist leave it. -/
def EventRec.drains (e : EventRec) : Bool :=
  !(e.cause == 0x0B || e.cause == 0x0C || e.cause == 0x0D || e.cause == 0x0F || e.cause == 0x10)

/-- Whether an operation of a stopped unit is still out: held results have arrived. -/
def State.unitPending (s : State) (u : UnitId) (o : LongOp) : Bool :=
  o.held.isNone && match u with
    | .group g => ((s.group? g).map fun g => o.wg == g.wg && o.present.any g.tids.contains).getD false
    | u => o.issuer == u

/-- Whether a waiting event can be entered. -/
def State.canEnter (s : State) (e : PendingEvent) : Bool :=
  (((s.control? e.control).map fun c => decide (c.queue.length < 64)).getD false) &&
  (!e.event.drains || ((e.unit.map fun u => !s.ops.any (s.unitPending u)).getD true))

/-- Whether an event of a clk comes before another of the same clk: by core, then partition, the stream last. -/
def EventRec.before (a b : EventRec) : Bool := decide (a.core < b.core) || (a.core == b.core && decide (a.part < b.part))

/-- Enter an event in a queue; events of one clk stand in their order. -/
def enterEvent (e : EventRec) : List EventRec → List EventRec
  | [] => [e]
  | a :: r => if a.clk == e.clk && e.before a then e :: a :: r else a :: enterEvent e r

/-- The resume header and `%rec` of an event's thread as they stand now (Table 13.2). -/
def State.refreshEvent (s : State) (e : EventRec) (u : Option UnitId) : EventRec :=
  match u with
  | some (.group g) =>
    match s.group? g with
    | none => e
    | some g => match s.wg? g.wg with
      | none => e
      | some w => match w.thread? (fld (e.words.getD 0 0).toNat 37 10) with
        | none => e
        | some t =>
          let rec4 := w64 (t.regions.toNat * 2 ^ 32 + (e.words.getD 4 0).toNat % 2 ^ 32)
          { e with words := (e.words.set 2 (w64 (s.resumeHeader w t).1)).set 4 rec4 }
  | _ => e

/-- Cancel the pending `ttwait`s of a group that a fault stopped, before its event is entered (R410). -/
def State.cancelStopped (s : State) (e : PendingEvent) : State :=
  if !e.event.drains then s else
  match e.unit with
  | some (.group g) => match s.group? g with
    | some g => s.cancelTtwaits fun o => o.wg == g.wg && o.present.any g.tids.contains
    | none => s
  | _ => s

/-- EVENT_ENTER (R320). -/
def execEventEnter (index : Nat) (s : State) : Result :=
  match s.events[index]? with
  | none => .next s
  | some e =>
    let s := s.cancelStopped e
    if !s.canEnter e then .next s else
    let r := { s.refreshEvent e.event e.unit with clk := s.cyc }
    .next ({ s with events := s.events.eraseIdx index }.mapControl e.control fun c => { c with queue := enterEvent r c.queue })

/-- EVENT_HANDLER_START (R320). -/
def execEventHandlerStart (cluster : Nat) (s : State) : Result :=
  match s.control? cluster with
  | some c => .next (if c.trapped then s else s.startEvent cluster)
  | none => .next s

/-! ### The watchdog (R338) -/

/-- A control core after the command processor has reset it: its handler's address stays as firmware set it. -/
def Control.restarted (c : Control) : Control :=
  { Control.reset with ccvec := c.ccvec, queue := c.queue, last := c.last }

/-- The command processor acts on an event of a control core that failed twice. -/
def State.condemn (s : State) (e : EventRec) : State :=
  let w := fun (i : Nat) => (e.words.getD i 0).toNat
  let h := fld (w 0) 24 24
  if 0xFFE000 ≤ h then s.killProc (h % 32)
  else match s.held? (fld (w 7) 0 32) (w 5) with
    | some r => if r.killable then s.failFrom r.id 0xFFFF else s
    | none => s

/-- WATCHDOG_EXPIRY (R318, R338): a control core that trapped, or whose handling has lasted CCWDOG clk, handles its event again once;
then the command processor acts on its events, and it starts afresh. -/
def execWatchdogExpiry (cluster : Nat) (s : State) : Result :=
  match s.control? cluster with
  | none => .next s
  | some c =>
    match c.current with
    | none => .next s
    | some e =>
      if !c.trapped && s.cyc < c.watch + c.ccwdog.toNat then .next s
      else
        let s : State := { s with ops := s.ops.filter fun o => o.issuer != .control cluster }
        if !c.retried then
          .next (s.mapControl cluster fun c =>
            { c.restarted with current := some e, pc := c.ccvec.toNat, watch := s.cyc, retried := true, last := s.cyc })
        else
          let s := (e :: c.queue).foldl State.condemn s
          .next (s.mapControl cluster fun c => { c.restarted with queue := [], last := s.cyc })

/-! ### Errors found with no consuming access (R340) -/

/-- SCRUB_ERROR: the job that owns the chunk fails. -/
def execScrubError (pa : Nat) (s : State) : Result :=
  let s : State := if inHbm pa && !s.errors.any (·.1 == pa) then { s with errors := s.errors ++ [(pa, 0)] } else s
  match if inHbm pa then s.job? (s.chunk (chunkOf pa)).owner else none with
  | some j => .next (s.failFrom j.region (Config.freeNat s.fresh (8 * pa) % 2 ^ 32))
  | none => .next s

/-! ### `tlbi` (R331) -/

/-- Whether a held translation is one that `tlbi` invalidates: of a coalescing group, when it covers any of the pages (R184). -/
def tlbiHits (mode : TlbiMode) (va asid count : Nat) (e : TlbEntry) : Bool :=
  let g := fld e.entry 8 1 == 1
  let size := if e.block then 0x8000000 else 0x10000
  match mode with
  | .all => true
  | .asid => e.asid == asid && !g
  | .range => (e.asid == asid || g) && overlaps (e.vpn / e.members * e.members * size) (e.members * size) va (count * 0x10000)

/-- The physical bytes that a held translation covers: base and length. -/
def TlbEntry.frames (e : TlbEntry) : Nat × Nat :=
  let p := pageOf e.block (e.entry % 2 ^ 64) (e.entry / 2 ^ 64) 0
  (p.frame - e.vpn % e.members * p.frameBytes, e.members * p.frameBytes)

/-- Whether an access of a job that used a translation which `tlbi` invalidates, a global one among them, has not been performed. -/
def State.tlbiWaits (s : State) (mode : TlbiMode) (va asid count : Nat) : Bool :=
  let gone := s.tlb.filter (tlbiHits mode va asid count)
  let serves := fun (e : TlbEntry) (job : Nat) => fld e.entry 8 1 == 1 || (s.job? job).map (·.asid) == some e.asid
  (s.ops.any fun o => o.checked && o.held.isNone && (s.reachesOf o).any fun a => gone.any fun e =>
    serves e o.job && (e.covers a.1 || e.covers (a.1 + a.2 - 1))) ||
  s.path.any fun p => !p.posted && gone.any fun e => serves e p.job && p.bytes.any fun b => overlaps e.frames.1 e.frames.2 b.pa 1

/-- Invalidate translations, and the L1 lines that they cover, in every unit of the package; dirty core-scope bytes are written back
first. -/
def State.invalidate (s : State) (mode : TlbiMode) (va asid count : Nat) : State :=
  let gone := (s.tlb.filter (tlbiHits mode va asid count)).map TlbEntry.frames
  let sel := fun (k : Nat) => mode == .all || gone.any fun r => overlaps r.1 r.2 (k % 2 ^ 56) 1
  let s := s.writeBack sel
  { s with tlb := s.tlb.filter fun e => !tlbiHits mode va asid count e, l1 := s.l1.filter fun e => !sel e.1 }

/-- TLBI: the core goes on once every access that used an invalidated translation has been performed. -/
def execTlbi (mode : TlbiMode) (va asid count : Nat) (s : State) : Result :=
  onControl [.k va, .k asid, .k count] .none s fun n _ s =>
    let k := fun (r : Nat) => (s.unitK (.control n) r).toNat
    let a := k asid % 2 ^ 16
    if mode == .range && (k va % 0x10000 != 0 || k count == 0 || decide (2 ^ 20 < k count)) then .next (s.illegal .reserved)
    else if s.tlbiWaits mode (k va) a (k count) then holdWord s
    else .next (s.invalidate mode (k va) a (k count))

/-! ### Control registers (R332, Table 13.8) -/

/-- Keep some bits of a value. -/
def keepBits (v : W64) (m : Nat) : W64 := v &&& w64 m

/-- The words of a chunk record as `csrrd` reads them (Table 7.7). -/
def State.chunkWord (s : State) (c i : Nat) : W64 :=
  let r := s.chunk c
  let b := fun (x : Bool) => if x then 1 else 0
  match i with
  | 0 => w64 (r.frame * 2 ^ 16 + r.stack * 2 ^ 12 + b r.mig * 8 + b r.exr * 4 + b r.die * 2 + b r.pin)
  | 1 => w64 ((r.version + s.versions).toNat * 2 ^ 32 + r.owner)
  | _ => r.fresh

/-- Clear every lane-cycle counter of a core (R332): the classes of clks up to now are gone. -/
def State.clearLanes (s : State) (core : Nat) : State :=
  (List.range 4).foldl (fun s p => s.mapPart core p fun q => { q with lcc := [], counted := max q.counted s.cyc }) s

/-- LCCLR_WRITE (R332). -/
def execLcclrWrite (core : Nat) (value : W64) (s : State) : Result :=
  .next (if value.getLsbD 0 && decide (core < 256) then s.clearLanes core else s)

/-- Write XCWAYS: a reserved value, or a chunk that backs cells, leaves it unchanged (R199). -/
def State.setXcways (s : State) (v : W64) : State :=
  if 2 < v.toNat || s.chunks.any (fun c => c.2.exr) then s else { s with xcways := v }

/-- XCWAYS_WRITE (R199). -/
def execXcwaysWrite (value : W64) (s : State) : Result := .next (s.setXcways value)

/-- A register of a core's block, by its place in the block. -/
def CoreRegs.read (c : CoreRegs) (i : Nat) : Option W64 :=
  if i < 32 then some (if i % 2 = 0 then c.lcbase.getD (i / 2) 0 else c.lclim.getD (i / 2) 0)
  else match i with
    | 0x20 => some 0
    | 0x21 => some c.trctl
    | 0x22 => some c.trbase
    | 0x23 => some c.trsize
    | 0x24 => some c.trhead
    | 0x25 => some c.trdrop
    | _ => none

/-- Whether a value is a power of two from 4 KiB to 1 GiB. -/
def ringSize (v : Nat) : Bool := (List.range 19).any fun i => v == 2 ^ (12 + i)

/-- A write to a register of a core's block. -/
def CoreRegs.write (c : CoreRegs) (i : Nat) (v : W64) : CoreRegs :=
  if i < 32 then
    (if i % 2 = 0 then { c with lcbase := c.lcbase.set (i / 2) v } else { c with lclim := c.lclim.set (i / 2) v })
  else match i with
    | 0x21 => { c with trctl := keepBits v 1 }
    | 0x22 => if v.toNat % 4096 = 0 then { c with trbase := v, trused := 0 } else c
    | 0x23 => if ringSize v.toNat then { c with trsize := v, trused := 0 } else c
    | _ => c

/-- A register of a control core, by its address; none for an address that Table 13.8 does not list. -/
def State.csrRead (s : State) (n : Nat) (c : Control) (a : Nat) : Option W64 :=
  if a < 8 then some ((c.current.map fun e => e.words.getD a 0).getD 0)
  else if a < 0x0D then some (match a with
    | 8 => w64 c.queue.length
    | 9 => c.ccvec
    | 0x0A => c.dwstat
    | 0x0B => c.assistcnt
    | _ => c.ccwdog)
  else if 0x1000 ≤ a && a < 0x1400 then (s.cores[4 * n + (a - 0x1000) / 0x100]?).bind fun r => r.read (a % 0x100)
  else if 0x2000 ≤ a && a < 0x2010 then some (s.bpact.getD (a - 0x2000) 0)
  else if 0x2010 ≤ a && a < 0x2020 then some (s.bpcnt.getD (a - 0x2010) 0)
  else if 0x2020 ≤ a && a < 0x2040 then
    (s.wpts[(a - 0x2020) / 4]?).map fun w => if a % 4 = 0 then w.base else if a % 4 = 1 then w.limit else if a % 4 = 2 then w.ctl else w.count
  else if 0x2040 ≤ a && a < 0x2060 then
    (s.lranges[(a - 0x2040) / 2]?).map fun r => if a % 2 = 0 then r.lo else r.hi
  else match a with
    | 0x2060 => some s.xcways
    | 0x2061 => some s.migctl
    | 0x2062 => some s.chsel
    | 0x2063 => some (s.chunkWord s.chsel.toNat 0)
    | 0x2064 => some (s.chunkWord s.chsel.toNat 1)
    | 0x2065 => some (s.chunkWord s.chsel.toNat 2)
    | 0x2066 => some (if s.pfrz.isSome then 1 else 0)
    | _ => if 0x2080 ≤ a && a < 0x20C0 then some (s.domtab.getD (a - 0x2080) 0) else none

/-- A write to a register that Table 13.8 lists; read-only registers and reserved values change nothing. -/
def State.csrWrite (s : State) (n a : Nat) (v : W64) : State :=
  if 0x1000 ≤ a && a < 0x1400 then
    let core := 4 * n + (a - 0x1000) / 0x100
    if a % 0x100 = 0x20 then (if v.getLsbD 0 then s.clearLanes core else s)
    else { s with cores := s.cores.modify core fun r => r.write (a % 0x100) v }
  else if 0x2000 ≤ a && a < 0x2010 then
    (if 5 ≤ v.toNat % 8 then s else { s with bpact := s.bpact.set (a - 0x2000) (keepBits v 0xFFFFFFFF0000000F) })
  else if 0x2020 ≤ a && a < 0x2040 then
    (if a % 4 = 2 && decide (5 ≤ v.toNat % 8) then s
    else { s with wpts := s.wpts.modify ((a - 0x2020) / 4) fun w =>
      if a % 4 = 0 then { w with base := v } else if a % 4 = 1 then { w with limit := v }
      else if a % 4 = 2 then { w with ctl := keepBits v 0xFFFFFFFF0000003F } else w })
  else if 0x2040 ≤ a && a < 0x2060 then
    { s with lranges := s.lranges.modify ((a - 0x2040) / 2) fun r =>
        if a % 2 = 0 then { r with lo := v } else { r with hi := keepBits v 0xFFFFFF010000003F } }
  else match a with
    | 9 => if v.toNat % 4 = 0 then s.mapControl n fun c => { c with ccvec := v } else s
    | 0x0C => if 2 ^ 16 ≤ v.toNat && v.toNat < 2 ^ 32 then s.mapControl n fun c => { c with ccwdog := v } else s
    | 0x2060 => s.setXcways v
    | 0x2061 => { s with migctl := keepBits v 1 }
    | 0x2062 => if v.toNat < 393216 then { s with chsel := v } else s
    | 0x2066 => if v.getLsbD 0 then s.freezePackage else s
    | _ => s

/-- CSRRD (R332). -/
def execCsrrd (d addr : Nat) (s : State) : Result :=
  onControl [] (.k d) s fun n c s =>
    match s.csrRead n c addr with
    | some v => .next (s.setUnitK (.control n) d v)
    | none => .next (s.illegal .reserved)

/-- CSRWR (R332). -/
def execCsrwr (value addr : Nat) (s : State) : Result :=
  onControl [.k value] .none s fun n c s =>
    match s.csrRead n c addr with
    | some _ => .next (s.csrWrite n addr (s.unitK (.control n) value))
    | none => .next (s.illegal .reserved)

end Sys2Proof.Machine
end

