-- ==== Sys2Proof/Machine/BellOps.lean ====
section
/-!
DEFINITION. Raising, receiving and resuming a Bell (R384 to R397): `bell`, the roll call at its root, the stages of a resume.
-/
namespace Sys2Proof.Machine

/-! ### Raising and receiving (R384, R385, R388) -/

/-- BELL (R385). -/
def execBell (a : Src) (s : State) : Result :=
  withUni none 1 [a] .none false s fun u s =>
    let x := (s.uniSource u 64 a).toNat
    let raise := fun (job unit handle : Nat) => s.raiseBell job { cause := 3, unit, handle, code := fld x 0 16, addr := s.turnPc }
    match u with
    | .lane v src _ => .next (raise v.leaf.job 0 (handleOf v.wg.core v.wg.slot src.tid false))
    | .unit (.stream id) => match s.wg? id with
      | some w => .next (raise (s.jobOf w) 1 (handleOf w.core w.slot 0 true))
      | none => .fault .noSuchUnit
    | .unit (.fabric n) => .next (raise (s.procJob n) 2 (0xFFE000 + n))
    | .unit _ => .next (s.raiseBell (fld x 16 32) { cause := 4, unit := 3, handle := 0, code := fld x 0 16, addr := 0 })

/-- BELL_RECEIVE (R384, R388). -/
def execBellReceive (b : BellPacket) (s : State) : Result :=
  match s.job? b.job with
  | some j => .next (if bellAbove b.seq j.bseq then s.freezeJob b.job b.seq b.origin b.cause none else s)
  | none => .next s

/-! ### The roll call (R392, R393) -/

/-- The page of a write to the roll-call area: a pod-scope page of the root that the job may write. -/
def State.rollPage (s : State) (j : Job) (va : Nat) : Option (Page × State) :=
  match s.ownPageBy j.id (ownRule .write) va with
  | .ok (p, t) => if p.share == 4 && p.pkg == j.rootPkg then some (p, t) else none
  | .error _ => none

/-- RCAREA. -/
def Job.area (j : Job) : Nat := ((j.bcb.getD []).getD 1 0).toNat

/-- Write the header at the root (Table 16.5). -/
def State.writeHeader (s : State) (job : Nat) : State :=
  match s.job? job with
  | none => s
  | some j =>
    match s.rollPage j j.area with
    | some (p, s) =>
      let l := leBytes 8 (j.hseq * 2 ^ 32 + min (2 ^ 32 - 1) j.roll.length) ++ leBytes 8 j.hstate ++ List.replicate 48 (0 : Byte)
      (s.homeWrite (l.zipIdx.map fun e => (p.pa j.area + e.2, e.1))).mapJob job fun j => { j with headed := true }
    | none => s.mapJob job fun j => { j with headed := true }

/-- Whether every entry shows a resume stage. -/
def Job.allShow (j : Job) (stage : Nat) : Bool := decide (j.size ≤ (j.roll.filter fun e => decide (stage < e.2)).length)

/-- The queue whose BELL_RESUME for a job has begun. -/
def State.resumeQueue (s : State) (job : Nat) : Option Nat :=
  (List.range s.queues.length).find? fun n => (s.queues[n]?).any fun q =>
    (q.packet.any (·.started)) && fld q.word0 16 8 == 9 && fld q.word0 32 32 == job

/-- The BELL_RESUME of a job is done. -/
def State.resumed (s : State) (job : Nat) : State := match s.resumeQueue job with
  | some n => s.completePacket n 0 0 0
  | none => s

/-- The step of a resume stage of Bell `seq`. -/
def stageStep (job seq : Nat) : Nat → Instr
  | 1 => .resumeStage1 ⟨job, seq⟩
  | 2 => .resumeStage2 ⟨job, seq⟩
  | _ => .resumeStage3 ⟨job, seq⟩

/-- Begin a resume stage at the root: its own performance follows at once. -/
def State.driveStage (s : State) (job stage : Nat) : State :=
  let s := s.mapJob job fun j => { j with hstate := 3 + stage }
  { s with todo := Act.event (stageStep job (((s.job? job).map (·.bseq)).getD 0) stage) :: s.todo }

/-- What the root does once an entry has been written: the roll call is complete, or a stage is. -/
def State.rollStep (s : State) (job : Nat) : State :=
  match s.job? job with
  | none => s
  | some j =>
    if j.hstate = 1 && j.allShow 0 then s.mapJob job fun j => { j with hstate := 2 }
    else if j.hstate = 4 && j.allShow 1 then s.driveStage job 2
    else if j.hstate = 5 && j.allShow 2 then s.driveStage job 3
    else if j.hstate = 6 && j.allShow 3 then (s.mapJob job fun j => { j with hstate := 7 }).resumed job
    else s

/-- An entry has been written at the root: number and RSTAGE of a rank. -/
def State.rollEntry (s : State) (job rank seq stage : Nat) : State :=
  match s.job? job with
  | none => s
  | some j =>
    if !j.atRoot then s else
    let j := if bellAbove seq j.hseq || j.hstate = 0 then j.gathering seq else j
    if j.hseq ≠ seq || j.size ≤ rank then s else
    let s := s.mapJob job fun _ => { j with roll := sset 0 j.roll rank (max (sget 0 j.roll rank) (stage + 1)) }
    (s.rollStep job).writeHeader job

/-- Packets of a job held, bulk ones and others (Table 15.2). -/
def State.heldCounts (s : State) (job : Nat) : Nat × Nat :=
  let mine := s.heldPkts.filter fun p => p.1 == job
  let bulk := mine.filter fun p => match p.2 with
    | .podRequestArrival r => r.bulk
    | .podResponseArrival r => r.bulk
    | _ => false
  (bulk.length, mine.length - bulk.length)

/-- What the freeze of a job holds (Table 16.4): groups, and the streams, copies and transfers in the middle of their work. -/
def State.frozenCounts (s : State) (job : Nat) : Nat × Nat × Nat × Nat :=
  let ws := (s.wgsOf job).filter (·.residence != .saved)
  ((s.groups.filter fun g => ws.any (·.id == g.wg)).length,
    (ws.filter fun w => (w.stream.map fun x => x.queue.any fun q => decide (0 < q.step)).getD false).length,
    (s.copies.filter fun c => c.job == job && decide (0 < c.line)).length,
    (s.procs.filter fun p => p.job == some job && p.queue.any fun q => decide (0 < q.step)).length)

/-- Words 3 to 6 of the entry (Table 16.4), as the complete freeze stands. -/
def State.entryTail (s : State) (job : Nat) (f : BellFreeze) : List W64 :=
  let h := s.heldCounts job
  let n := s.frozenCounts job
  let t := s.tt.runsFor job
  [ w64 f.cyc, w64 (h.1 * 2 ^ 32 + h.2), w64 (n.1 * 2 ^ 48 + n.2.1 * 2 ^ 32 + n.2.2.1 * 2 ^ 16 + n.2.2.2),
    if t then w64 (s.tt.pass * 2 ^ 32 + s.tt.head) else 0 ]

/-- The entry's bytes (Table 16.4). -/
def BellFreeze.bytes (f : BellFreeze) : List Byte :=
  let r := f.raise.getD ⟨0, 0, 0, 0, 0⟩
  let ws : List W64 := [ w64 (f.seq * 2 ^ 32 + Config.pkg.toNat * 2 ^ 16 + f.nraise * 2 ^ 8 + f.shown * 2 ^ 4 + r.cause),
    w64 (r.unit * 2 ^ 48 + r.handle * 2 ^ 24 + r.code), w64 r.addr ] ++ f.entry ++ [0]
  ws.flatMap fun w => leBytes 8 w.toNat

/-- Write this package's entry, here or at the root (R392). -/
def State.writeEntry (s : State) (job : Nat) : State :=
  match s.job? job with
  | none => s
  | some j =>
    match j.bcb, j.freeze with
    | some _, some f =>
      let rank := j.bcbField 0 16 16
      let va := j.area + 64 + 64 * rank
      match s.rollPage j va with
      | none => s
      | some (p, s) =>
        match p.home va with
        | .package k => s.send (.request k ⟨Config.pkg.toNat, job, p.pa va, none, .rollCall rank f.bytes, 0, false⟩)
        | _ => (s.homeWrite (f.bytes.zipIdx.map fun e => (p.pa va + e.2, e.1))).rollEntry job rank f.seq f.shown
    | _, _ => s

/-- Update the freeze of a job. -/
def State.mapFreeze (s : State) (job : Nat) (f : BellFreeze → BellFreeze) : State :=
  s.mapJob job fun j => { j with freeze := j.freeze.map f }

/-- ROLL_CALL_ENTRY_WRITE (R392): the root first writes the header of a roll call that has begun; the entry is written once the freeze is
complete. -/
def execRollCallEntryWrite (job : Nat) (s : State) : Result :=
  match s.job? job with
  | none => .next s
  | some j =>
    match if j.bcb.isSome then j.freeze else none with
    | none => .next s
    | some f =>
      if j.atRoot && !j.headed then .next (s.writeHeader job)
      else if !f.entry.isEmpty || s.cyc < f.cyc then .next s
      else .next ((s.mapFreeze job fun f => { f with entry := s.entryTail job f }).writeEntry job)

/-- ROLL_CALL_TIMEOUT (R393): RCTMO µs after the root's own freeze, at the clock as it stands. -/
def execRollCallTimeout (job : Nat) (s : State) : Result :=
  match s.job? job with
  | none => .next s
  | some j =>
    match j.freeze with
    | none => .next s
    | some f =>
      let limit := j.bcbField 2 0 32
      if !j.atRoot || j.hstate ≠ 1 || f.seq ≠ j.hseq || limit = 0 || s.cyc < f.cyc + limit * s.host.clock then .next s
      else .next ((s.mapJob job fun j => { j with hstate := 3 }).writeHeader job)

/-! ### The ordered resume (R387, R396, R397) -/

/-- Whether a stage of Bell `seq` may be performed here now: only when that is the Bell in force (R396); at the root, or without a BCB, the
command processor drives it; elsewhere the command has come from the root. -/
def State.stageDue (s : State) (j : Job) (seq stage : Nat) : Bool :=
  seq == j.bseq && if j.bcb.isNone then (s.resumeQueue j.id).isSome else !j.atRoot || j.hstate == 3 + stage

/-- A stage has been performed: the entry shows it, and the command goes on to the fan-out; without a BCB the next stage follows. -/
def State.stageDone (s : State) (j : Job) (f : BellFreeze) (stage : Nat) : State :=
  let s := j.fan.foldl (fun s p => s.send (.resume p j.id f.seq stage)) s
  let s := (s.mapFreeze j.id fun f => { f with shown := stage }).writeEntry j.id
  if j.bcb.isNone && decide (stage < 3) then { s with todo := Act.event (stageStep j.id f.seq (stage + 1)) :: s.todo } else s

/-- RESUME_STAGE_1 (R391, R396): every held packet of the job is consumed, in order, and from then on each as it arrives. The stage is
complete when none is left and what it sent has been acknowledged: a later RESUME_STAGE_1 stands for the last acknowledgement (log 111). -/
def execResumeStage1 (c : ResumeCommand) (s : State) : Result :=
  match s.job? c.job with
  | none => .next s
  | some j =>
    match j.freeze with
    | none => .next s
    | some f =>
      if !s.stageDue j c.seq 1 || 1 ≤ f.shown || s.cyc < f.cyc then .next s
      else if f.stage = 0 then .next (s.mapFreeze c.job fun f => { f with stage := 1 }).releasePackets
      else if s.heldPkts.any (·.1 == c.job) then .next s
      else .next (s.stageDone j f 1)

/-- Forget the single steps granted to a job's engines and programs. -/
def State.dropGrants (s : State) (job : Nat) : State :=
  { s with grants := s.grants.filter fun g => match g with
      | .stream w => ((s.wg? w).map s.jobOf) != some job
      | .fabric n => ((s.proc? n).bind (·.job)) != some job
      | .engine _ j => j != job
      | .thread w _ => ((s.wg? w).map s.jobOf) != some job }

/-- RESUME_STAGE_2: the engines, programs and the Timetable of the job go on. -/
def execResumeStage2 (c : ResumeCommand) (s : State) : Result :=
  match s.job? c.job with
  | none => .next s
  | some j =>
    match j.freeze with
    | none => .next s
    | some f =>
      if !s.stageDue j c.seq 2 || f.shown ≠ 1 || f.stage ≠ 1 then .next s else
      let t := (s.mapFreeze c.job fun f => { f with stage := 2 }).dropGrants c.job
      let t : State := if t.tt.state == 2 && t.tt.job == c.job then { t with tt := { t.tt with state := 1 } } else t
      .next ((t.thaw s).stageDone j f 2)

/-- The groups of a job stopped by single steps under a Bell, or still stepping. -/
def State.steppedGroups (s : State) (job : Nat) : List Group :=
  s.groups.filter fun g => (g.step.isSome || (g.stop.map (·.code)) == some 3) && ((s.wg? g.wg).map s.jobOf) == some job

/-- RESUME_STAGE_3: the groups that the Bell froze go on, and store paths and dispatch with them. -/
def execResumeStage3 (c : ResumeCommand) (s : State) : Result :=
  match s.job? c.job with
  | none => .next s
  | some j =>
    match j.freeze with
    | none => .next s
    | some f =>
      if !s.stageDue j c.seq 3 || f.shown ≠ 2 || f.stage ≠ 2 then .next s else
      let t := (s.steppedGroups c.job).foldl (fun t g => ((t.countStopped g.id).continueGroup g.id).fileStepped g.id) (s.dropGrants c.job)
      let t := t.mapFreeze c.job fun f => { f with stage := 3 }
      let t := t.stageDone j f 3
      let t := (t.mapJob c.job fun j => { j with freeze := none }).thaw s
      .next (if j.bcb.isNone then t.resumed c.job else t)

/-- BELL_RESUME (R387, R396, R397): refused at another package than the root, for a timed-out roll call, and for a Bell that is not the
one in force. It waits for the roll call to be complete, then for stage 3. -/
def execBellResume (queue : Nat) (s : State) : Result :=
  match s.queues[queue]? with
  | none => .next s
  | some q =>
    match q.packet, fld q.word0 16 8 with
    | some p, 9 =>
      let job := fld q.word0 32 32
      let seq := (p.words.getD 1 0).toNat
      match s.job? job with
      | none => .next (s.completePacket queue 3 0 0)
      | some j =>
        let bad := seq ≠ j.bseq || (!p.started && j.freeze.isNone) || (j.bcb.isSome && (!j.atRoot || seq ≠ j.hseq || j.hstate == 3))
        if bad then .next (s.completePacket queue 1 0 0)
        else
          let s : State := { s with queues := s.queues.modify queue fun q => { q with packet := some { p with started := true } } }
          if j.bcb.isNone then .next (if p.started then s else { s with todo := Act.event (.resumeStage1 ⟨job, seq⟩) :: s.todo })
          else if j.hstate = 2 then .next ((s.driveStage job 1).writeHeader job)
          else .next s
    | _, _ => .next s

end Sys2Proof.Machine
end

