-- ==== Sys2Proof/Machine/CrossLane.lean ====
section
/-!
DEFINITION. The cross-lane instructions (Table 6.1, R162 to R168). All have latency F5; every source is read as it stood at
issue.
-/
namespace Sys2Proof.Machine

/-- The values at the positions of a group: position lane × E + sub-element of a present lane (R162). -/
structure Positions where
  w    : Nat
  vals : List (Nat × W64)
deriving DecidableEq, Repr

/-- The value at a position, if its lane is present. -/
def Positions.at (p : Positions) (q : Nat) : Option Nat :=
  let e := 64 / p.w
  (p.vals.find? (·.1 == q / e)).map fun x => subOf p.w x.2 (q % e)

/-- Every present position with its value, in rising order. -/
def Positions.all (p : Positions) : List (Nat × Nat) :=
  (p.vals.map fun x => (List.range (64 / p.w)).map fun i => (x.1 * (64 / p.w) + i, subOf p.w x.2 i)).flatten

/-- The group's values of an operand. -/
def State.positions (s : State) (v : View) (w : Nat) (src : Src) : Positions :=
  ⟨w, v.threads.map fun t => (t.tid % 32, s.source v t w src)⟩

/-- A cross-lane word: `compute` answers a lane's full result and the mask it is written under. -/
def crossWord (f : Form) (draws : View → List Src)
    (compute : State → View → Positions → Thread → W64 × W64) (s : State) : Result :=
  withLanes f.guard f.srcs [] f.d false s fun v s =>
    let s := s.holdTo v (State.sourcesReady v v.threads (draws v) [])
    let p := s.positions v f.w f.a
    .next (s.commit v f.d 5 (v.threads.map fun t =>
      let r := compute s v p t
      { tid := t.tid, value := r.1, mask := r.2, pred := none }))

/-- The mask of a lane's own guard. -/
def State.laneMask (s : State) (v : View) (f : Form) (t : Thread) : W64 := guardMask f.w (s.guard v f.guard t)

/-- The value a gather reads at a source position; the fill is C at the destination (R162, R164). -/
def gather (p : Positions) (fill q : Nat) : Nat := if q < 32 * (64 / p.w) then (p.at q).getD fill else fill

/-- `xsh`, `xbc` and `xrot`: the source position of each destination position is given by `index` (R164). -/
def laneGather (f : Form) (index : Nat → Nat → Nat) : State → Result :=
  crossWord f noDraw fun s v p t =>
    let b := s.operandB v t f.w f
    let c := s.source v t f.w f.c
    (perSub f.w fun i => gather p (subOf f.w c i) (index (t.tid % 32 * f.n + i) (subOf f.w b i)), s.laneMask v f t)

/-- XSH (R164). -/
def execXsh (f : F32) (s : State) : Result := laneGather (form32 .i f) (fun _ b => b) s
/-- XSH_64 (R164). -/
def execXsh64 (f : F64) (s : State) : Result := laneGather (form64 f) (fun _ b => b) s
/-- XBC (R164). -/
def execXbc (f : F64) (lane sub : Nat) (s : State) : Result :=
  let g := form64 f
  laneGather g (fun _ _ => lane * g.n + sub) s
/-- The source position of `xrot` (R164). -/
def rotated (w : Nat) (n : Int) (q : Nat) : Nat := (((q : Int) + n) % (32 * (64 / w) : Nat)).toNat
/-- XROT (R164). -/
def execXrot (f : F32) (n : Int) (s : State) : Result :=
  let g := form32 .i f
  laneGather g (fun q _ => rotated g.w n q) s
/-- XROT_64 (R164). -/
def execXrot64 (f : F64) (n : Nat) (s : State) : Result :=
  let g := form64 f
  laneGather g (fun q _ => rotated g.w n q) s

/-- The pushes of a group in rising order of source position: destination and value (R165). -/
def State.pushes (s : State) (v : View) (f : Form) : List (Nat × Nat) :=
  (v.threads.map fun t =>
    let a := s.source v t f.w f.a
    let b := s.operandB v t f.w f
    let g := s.guard v f.guard t
    ((List.range f.n).filter fun i => g.getLsbD i).map fun i => (subOf f.w b i, subOf f.w a i)).flatten

/-- `xpush` (R165): the highest source position wins; every sub-element of every present lane is written. -/
def lanePush (f : Form) : State → Result :=
  crossWord f noDraw fun s v _ t =>
    let pu := (s.pushes v f).reverse
    let c := s.source v t f.w f.c
    (perSub f.w fun i => ((pu.find? (·.1 == t.tid % 32 * f.n + i)).map (·.2)).getD (subOf f.w c i), BitVec.allOnes 64)
/-- XPUSH (R165). -/
def execXpush (f : F32) (s : State) : Result := lanePush (form32 .i f) s
/-- XPUSH_64 (R165). -/
def execXpush64 (f : F64) (s : State) : Result := lanePush (form64 f) s

/-- `xmatch` (R166). -/
def laneMatch (f : Form) : State → Result :=
  crossWord f noDraw fun s v p t =>
    let a := s.source v t f.w f.a
    (perSub f.w fun i => laneBits ((p.vals.filter fun x => subOf f.w x.2 i == subOf f.w a i).map (·.1)), s.laneMask v f t)
/-- XMATCH (R166). -/
def execXmatch (f : F32) (s : State) : Result := laneMatch (form32 .i f) s
/-- XMATCH_64 (R166). -/
def execXmatch64 (f : F64) (s : State) : Result := laneMatch (form64 f) s

/-- The result of a vote over the present positions (Table 6.2). -/
def voteWord (m : VoteMode) (p : Positions) : W64 :=
  let l := p.all
  match m with
  | .any => spread p.w (maskOf p.w (l.any fun x => x.2 != 0))
  | .all => spread p.w (maskOf p.w (l.all fun x => x.2 != 0))
  | .eq => spread p.w (maskOf p.w (l.all fun x => l.all fun y => x.2 == y.2))
  | .ballot => w64 (laneBits ((l.filter fun x => x.2 != 0).map (·.1)))

/-- `vote` (R167): a ballot is written whole under guard bit 0. -/
def laneVote (m : VoteMode) (f : Form) : State → Result :=
  crossWord f noDraw fun s v p t =>
    (voteWord m p,
      if m == .ballot then (if (s.guard v f.guard t).getLsbD 0 then BitVec.allOnes 64 else 0) else s.laneMask v f t)
/-- VOTE (R167). -/
def execVote (m : VoteMode) (f : F32) (s : State) : Result := laneVote m (form32 .i f) s
/-- VOTE_64 (R167). -/
def execVote64 (m : VoteMode) (f : F64) (s : State) : Result := laneVote m (form64 f) s

/-- The identity of an absent lane's leaf; none where it is empty (Table 6.3). -/
def RedIdentity (op : RedOp) (k : Kind) (w : Nat) : Option Nat :=
  match op with
  | .add | .or | .xor => some 0
  | .and => some (2 ^ w - 1)
  | .min => some (if k == .i then 2 ^ (w - 1) - 1 else 2 ^ w - 1)
  | .max => some (if k == .i then 2 ^ (w - 1) else 0)
  | .fadd | .fmin | .fmax => none

/-- One node of a reduction (R168): `q` is the position whose coordinate RSR takes. -/
def redNode (op : RedOp) (k : Kind) (w : Nat) (m : FpMode) (f : Option Format) (q a b : Nat) : Nat :=
  let fl := fun (o : FloatOp) => f.elim 0 fun F => o.eval m F w q a b 0
  match op with
  | .add => IntOp.add.eval k w m.sat a b 0
  | .min => IntOp.min.eval k w .off a b 0
  | .max => IntOp.max.eval k w .off a b 0
  | .and => a &&& b
  | .or => a ||| b
  | .xor => a ^^^ b
  | .fadd => fl .add
  | .fmin => fl .min
  | .fmax => fl .max

/-- The node of 2^n leaves from leaf `q` (R61); a node with one empty child takes the other unchanged. -/
def treeNode (node : Nat → Nat → Nat → Nat) (leaf : Nat → Option Nat) : Nat → Nat → Option Nat
  | 0, q => leaf q
  | n + 1, q =>
    match treeNode node leaf n q, treeNode node leaf n (q + 2 ^ n) with
    | some a, some b => some (node q a b)
    | some a, none => some a
    | none, b => b

/-- The prefix of positions 0 to `q` (R61): blocks of the tree, largest first, combined from left to right. `n` counts the
binary digits of q + 1 still to be taken, `start` and `acc` what has been. -/
def scanBlocks (node : Nat → Nat → Nat → Nat) (leaf : Nat → Option Nat) (q : Nat) : Nat → Nat → Option Nat → Option Nat
  | 0, _, acc => acc
  | n + 1, start, acc =>
    if (q + 1).testBit n then
      let b := treeNode node leaf n start
      scanBlocks node leaf q n (start + 2 ^ n) (match acc, b with
        | some x, some y => some (node q x y)
        | some x, none => some x
        | none, y => y)
    else scanBlocks node leaf q n start acc

/-- A float reduction's result as its destination takes it: a leaf that no node has rounded is saturated too (R47). -/
def redResult (op : RedOp) (m : FpMode) (f : Option Format) (c : Nat) : Nat :=
  match f, op, m.sat with
  | _, _, .off => c
  | some F, .fadd, sm => F.ofVal rne sm (F.toVal c)
  | some F, .fmin, sm | some F, .fmax, sm => match F.toVal c with
    | .inf n => F.ofInf sm n
    | _ => c
  | _, _, _ => c

/-- The settings a reduction rounds with: coordinates count positions from the block's first (R168). -/
def State.redMode (s : State) (v : View) (t : Thread) (e : Nat) : FpMode :=
  { s.fpMode v t e with coord := s.readK v 61 + w64 ((v.wg.w * v.leaf.wgsz + 32 * v.g.block) * e) }

/-- `xred` and `xscan` (R168). R168 does not say whose mode word rounds a node that several present lanes share: each destination
lane's value is formed under its own thread's mode (DESIGN CHOICE, log 106). -/
def laneReduce (scan : Bool) (op : RedOp) (f : Form) : State → Result :=
  let digits := Nat.log2 (32 * f.n)
  crossWord f rsrSources fun s v p t =>
    let node := redNode op f.kind f.w (s.redMode v t f.n) (formatOf f.shape f.kind)
    let leaf := fun q => (p.at q).or (RedIdentity op f.kind f.w)
    let out := redResult op (s.redMode v t f.n) (formatOf f.shape f.kind)
    (if scan then perSub f.w fun i =>
        let q := t.tid % 32 * f.n + i
        out ((scanBlocks node leaf q (digits + 1) 0 none).getD 0)
      else spread f.w (out ((treeNode node leaf digits 0).getD 0)), s.laneMask v f t)

/-- The default kind of a reduction's 32-bit form (R168). -/
def redKind : RedOp → Kind
  | .fadd | .fmin | .fmax => .f
  | _ => .i

/-- XRED (R168). -/
def execXred (op : RedOp) (f : F32) (s : State) : Result := laneReduce false op (form32 (redKind op) f) s
/-- XRED_64 (R168). -/
def execXred64 (op : RedOp) (f : F64) (s : State) : Result := laneReduce false op (form64 f) s
/-- XSCAN (R168). -/
def execXscan (op : RedOp) (f : F32) (s : State) : Result := laneReduce true op (form32 (redKind op) f) s
/-- XSCAN_64 (R168). -/
def execXscan64 (op : RedOp) (f : F64) (s : State) : Result := laneReduce true op (form64 f) s

end Sys2Proof.Machine
end

