-- ==== Sys2Proof/Machine/Issue.lean ====
section
/-!
DEFINITION. Issue: fetching the next word of an executor and the checks before it runs (R21, R22, R38, R63 to R79, R280, R318,
R356), and what follows it: the program counter, `%ret`, the lane-cycle counters (R18, R342).
-/
namespace Sys2Proof.Machine

/-- What an executor offers: nothing now, or an instruction, in the state with its turn; `active` are the lanes whose guard is on,
`counts` whether the word counts in `%ret`. -/
inductive Offer where
  | idle (s : State)
  | run (i : Instr) (active : List Nat) (counts : Bool) (s : State)

/-! ### Lane-cycles (R342) -/

/-- The lane-cycle range of an address on a core. -/
def State.lcRange (s : State) (core addr : Nat) : Nat :=
  match s.cores[core]? with
  | none => 15
  | some c => ((List.range 16).find? fun i =>
      decide ((c.lcbase.getD i 1).toNat ≤ addr) && decide (addr ≤ (c.lclim.getD i 0).toNat)).getD 15

/-- Count the clks from the last counted one to `clk` for a word at `addr` of a group whose lanes `active` are on. -/
def State.countWord (s : State) (g : Group) (w : Workgroup) (addr clk : Nat) (active : List Nat) : State :=
  let live := (w.liveOf g.block).length
  let p := g.lanes.length
  s.mapPart w.core g.part fun q =>
    let n := clk - q.counted
    { q.count (s.lcRange w.core addr) [n * active.length, n * (live - p), n * (p - active.length), n * (32 - live), 0] with
      counted := max q.counted clk }

/-- IDLE_LANE_CYCLES (R342): the clks of a partition in which nothing issued and no run held; none count under a freeze. -/
def execIdleLaneCycles (core part : Nat) (s : State) : Result :=
  let p := s.part core part
  let running := (p.busy.bind s.group?).any fun g => g.run.isSome && g.stop.isNone
  .next (if running || p.frozen.isSome || s.pfrz.isSome then s else s.countIdle core part s.cyc)

/-! ### Groups -/

/-- Whether another run in progress holds a group's partition (R22). -/
def State.partitionHeld (s : State) (g : Group) (w : Workgroup) : Bool :=
  match (s.part w.core g.part).busy with
  | none => false
  | some b => b != g.id && ((s.group? b).map fun q => q.run.isSome && q.stop.isNone).getD false

/-- Whether a group may issue now. -/
def State.groupIdle (s : State) (g : Group) (w : Workgroup) (clk : Nat) : Bool :=
  g.stop.isSome || w.stopped.isSome || g.filing.isSome || w.residence == .saved ||
    s.groupFrozen w g clk || s.partitionHeld g w

/-- Whether an op is long-latency in a word (Table 1.4), as far as the limit of 16 is concerned: an atomic without a destination
is not. -/
def longOp (w0 : Nat) : Bool :=
  let op := opField w0
  let dst := if isDouble w0 then fld w0 12 8 != 0xFF else fld w0 14 6 != 0x3F
  if isUniform w0 then op == 0x20 || op == 0x28 || op == 0x29 || op == 0x38 || op == 0x71 || (op == 0x22 && dst)
  else (decide (0x28 ≤ op) && decide (op ≤ 0x2F)) || op == 0x60 || op == 0x62 || op == 0x64 || op == 0x6D ||
    ((op == 0x66 || op == 0x67) && dst)

/-- The first of the conditions of R79 that an instruction of a group meets: opcode, executor, reserved field, operand. `left` is
the counted words left in the run, `full` that it holds 16 long-latency instructions. -/
noncomputable def groupCheck (left : Nat) (full : Bool) (pfx : Option (Except IllegalSub PrefixFields)) (w0 w1 : Nat) :
    Except IllegalSub Instr :=
  let words := if isDouble w0 then 2 else 1
  let opcode := left < words || isHeaderWord w0 || isTrailerWord w0 || (lastOnly (isUniform w0) (opField w0) && left != words)
  let i := decodeInstr w0 w1
  let bad := match pfx with
    | none => false
    | some (.error _) => true
    | some (.ok p) => !prefixFits p w0 w1
  if opcode then .error .opcode
  else match i with
    | .error .opcode => .error .opcode
    | _ =>
      if !mayRun .group (isUniform w0) (opField w0) then .error .executor
      else if bad || (full && longOp w0) then .error .reserved
      else i

/-- The lanes of a group whose guard is on for some sub-element of an instruction's shape (R342). -/
def State.activeLanes (s : State) (v : View) (w0 w1 : Nat) : List Nat :=
  let g := if isDouble w0 && fld w0 3 1 == 0 then guardOf w1 else none
  (v.threads.filter fun t => anyOn (subCount (shapeOf (fld w0 20 2))) (s.guard v g t)).map (·.tid % 32)

/-- Give a unit its turn at a clk. -/
def State.giveTurn (s : State) (u : UnitId) (pc words : Nat) (pfx : Option PrefixFields) (clk : Nat) : State :=
  { s with turn := some { unit := u, pc, words, pfx }, cyc := clk }

/-- What a group whose header is due offers (R21, R74). -/
noncomputable def State.offerHeader (s : State) (g : Group) (w : Workgroup) (clk : Nat) : Offer :=
  match s.fetch (s.wgAccessor w) g.pc with
  | .error e => .idle (({ s with cyc := clk }).trapGroup g.id 3 e 0 0 g.pc g.pc g.lanes false)
  | .ok (v, _, s) =>
    let s := s.giveTurn (.group g.id) g.pc 1 none clk
    if !isHeaderWord v then .idle (s.illegal .opcode)
    else match decodeHeader v with
      | .error e => .idle (s.illegal e)
      | .ok h => .run (.header h) g.lanes false s

/-- What a group whose trailer is due offers. -/
noncomputable def State.offerTrailer (s : State) (g : Group) (r : Run) (w0 clk : Nat) : Offer :=
  let s := s.giveTurn (.group g.id) r.pc 1 none clk
  if !isTrailerWord w0 then .idle (s.illegal .opcode)
  else match decodeTrailer w0 with
    | .error e => .idle (s.illegal e)
    | .ok t => .run (.trailer t) g.lanes false s

/-- The lanes of a group in which a word consumes a register with an uncorrectable error (R339): of x registers, the lanes whose guard is
on. -/
def View.upsetLanes (v : View) (active : List Nat) (u : CodeUse) : List Nat :=
  (v.threads.filter fun t => u.reads.any fun r => match r with
    | .x n => t.upsets.contains (.x n) && active.contains (t.tid % 32)
    | .p n => t.upsets.contains (.p n)
    | .k n => v.wg.upsets.contains (.k n)
    | .o _ | .l _ => false).map (·.tid % 32)

/-- What a group offers whose next word is a prefix. One with reserved fields issues as well, and the word it modifies raises the
subcause (R72). -/
noncomputable def State.offerPrefix (s : State) (g : Group) (r : Run) (w0 : Nat) (next : Except Nat Nat) (clk : Nat) : Offer :=
  let s := s.giveTurn (.group g.id) r.pc 1 none clk
  match decodePrefix w0 with
  | .ok p => .run (.prefixWord p) g.lanes false s
  | .error _ =>
    let orphan := match next with
      | .ok v => orphanBefore (isUniform w0) v
      | .error _ => false
    if r.left ≤ 1 || orphan then .idle (s.illegal .orphan)
    else .idle ((s.mapGroup g.id fun g => { g with run := g.run.map fun r =>
      { r with pfx := some (r.pc, w0), pc := r.pc + 4, left := r.left - 1 } }))

/-- What a group in the middle of its run offers. -/
noncomputable def State.offerWord (s : State) (g : Group) (w : Workgroup) (l : Region) (r : Run) (clk : Nat) : Offer :=
  match s.fetch (s.wgAccessor w) r.pc with
  | .error e => .idle (({ s with cyc := clk }).trapGroup g.id 3 e 0 0 r.pc r.pc g.lanes false)
  | .ok (w0, next, s) =>
    if r.left = 0 then s.offerTrailer g r w0 clk
    else if isPrefixWord w0 then s.offerPrefix g r w0 next clk
    else
      let words := if isDouble w0 then 2 else 1
      let clk := clk + words - 1
      match words == 2 && decide (2 ≤ r.left), next with
      | true, .error e => .idle (({ s with cyc := clk }).trapGroup g.id 3 e 0 0 (r.pc + 4) r.pc g.lanes false)
      | _, next =>
        let w1 := match next with
          | .ok v => v
          | .error _ => 0
        let pfx := r.pfx.map fun p => decodePrefix p.2
        let s := s.giveTurn (.group g.id) r.pc words (pfx.bind Except.toOption) clk
        match groupCheck r.left (decide (16 ≤ r.ordinals.length)) pfx w0 w1 with
        | .error e => .idle (s.illegal e)
        | .ok i =>
          let v : View := { g, run := r, wg := w, leaf := l, turn := ⟨.group g.id, r.pc, words, pfx.bind Except.toOption⟩ }
          let active := s.activeLanes v w0 w1
          match v.upsetLanes active (codeUse (r.pfx.map (·.2)) w0 w1) with
          | [] => .run i active true s
          | l => .idle (s.trapHere 0x0E 2 0 0 l)

/-- The clk on which a partition's next word issues: on one clk, partitions go in increasing number (R211), and before the tile sequencer
and the copies of the workgroup (R170). -/
def State.issueClk (s : State) (w : Workgroup) (part : Nat) : Nat :=
  let c := max s.cyc ((s.part w.core part).lastIssue + 1)
  let later := (List.range 4).any (fun q => decide (part < q) && (s.part w.core q).lastIssue == c) ||
    (w.stream.map (·.last)) == some c || w.copyTurn == c
  if later then c + 1 else c

/-- What a group offers. -/
noncomputable def State.offerGroup (s : State) (gid : Nat) : Offer :=
  match s.group? gid with
  | none => .idle s
  | some g =>
    match s.wg? g.wg with
    | none => .idle s
    | some w =>
      let clk := s.issueClk w g.part
      match s.leafOf w with
      | none => .idle s
      | some l =>
        if s.groupIdle g w clk then .idle s
        else match g.run with
          | none => s.offerHeader g w clk
          | some r => s.offerWord g w l r clk

/-! ### Executors without lanes -/

/-- The program counter of an executor, the clk of its last word, and its accessor; none while it does not issue. -/
def State.unitState (s : State) (u : UnitId) : Option (Nat × Nat × Accessor) :=
  match u with
  | .group _ => none
  | .stream id => do
    let w ← s.wg? id
    let x ← w.stream
    if x.stage != .running || x.stop.isSome || x.wait.isSome || w.residence != .resident || w.stopped.isSome ||
      (s.unitFrozen (s.jobOf w) && !(s.grants.contains (.stream id) && x.queue.isEmpty)) then none
    else some (x.pc, x.last, { s.wgAccessor w with core := none })
  | .fabric n => do
    let p ← s.proc? n
    let job ← p.job
    if p.stop.isSome || p.ending || p.wait.isSome || s.remotes.any (·.use == .fsend n) ||
      (s.unitFrozen job && !(s.grants.contains (.fabric n) && p.queue.isEmpty)) then none
    else some (p.pc, p.last, procAccessor n job)
  | .control n => do
    let c ← s.control? n
    if c.current.isNone || c.trapped then none else some (c.pc, c.last, controlAccessor n)

/-- Record the clk of a unit's word. -/
def State.setUnitLast (s : State) (u : UnitId) (clk : Nat) : State :=
  match u with
  | .group _ => s
  | .stream w => s.mapStream w fun x => { x with last := clk }
  | .fabric n => s.mapProc n fun x => { x with last := clk }
  | .control n => s.mapControl n fun x => { x with last := clk }

/-- The two words at an address for an executor without lanes: a control core's are at physical addresses (R318). -/
def State.unitFetch (s : State) (u : UnitId) (a : Accessor) (pc : Nat) : Except Nat (Nat × Except Nat Nat × State) :=
  match u with
  | .control _ =>
    if !(inHbm pc || inHost pc) then .error 3
    else if inHost pc then .ok (leNat (hostRead s.fresh pc 4), .ok (leNat (hostRead s.fresh (pc + 4) 4)), s)
    else
      let (b, s) := s.homeRead none pc 4
      .ok (leNat b, (if inHbm (pc + 4) then .ok (leNat (s.homeRead none (pc + 4) 4).1) else .error 3), s)
  | _ => s.fetch a pc

/-- The kind of an executor. -/
def UnitId.executor : UnitId → Executor
  | .group _ => .group
  | .stream _ => .stream
  | .fabric _ => .fabric
  | .control _ => .control

/-- The instruction of an executor without lanes, or the first condition of R79 that its words meet. -/
noncomputable def unitCheck (x : Executor) (w0 w1 : Nat) : Except IllegalSub Instr :=
  if isHeaderWord w0 then .error .opcode
  else if !isUniform w0 || isPrefixWord w0 then .error .executor
  else
    let i := decodeInstr w0 w1
    match i with
    | .error .opcode => .error .opcode
    | _ =>
      if !mayRun x true (opField w0) then .error .executor
      else match i with
        | .error .operand => if isDouble w0 && fld w0 3 1 == 0 && !noGuard w1 then .error .reserved else .error .operand
        | _ => i

/-- Whether a stream's word consumes a k register with an uncorrectable error (R339). -/
def State.unitUpset (s : State) (u : UnitId) (c : CodeUse) : Bool :=
  match u with
  | .stream w => ((s.stream? w).map fun x => c.reads.any fun r => match r with
      | .k n => x.upsets.contains n
      | _ => false).getD false
  | _ => false

/-- Take a translation fault of a unit's fetch. -/
def State.unitFetchFault (s : State) (u : UnitId) (sub addr pc : Nat) : State :=
  match u with
  | .group _ => s
  | .stream w => s.trapStream w 3 sub 0 addr pc 0
  | .fabric n => s.trapProc n 3 sub addr pc
  | .control n => s.trapControl n

/-- The clk on which a unit's next word issues: a tile sequencer's before the copies of its workgroup (R170). -/
def State.unitClk (s : State) (u : UnitId) (last : Nat) : Nat :=
  let c := max s.cyc (last + 1)
  match u with
  | .stream id => if ((s.wg? id).map (·.copyTurn)) == some c then c + 1 else c
  | _ => c

/-- What an executor without lanes offers. Its program counter already stands after the word. -/
noncomputable def State.offerUnit (s : State) (u : UnitId) : Offer :=
  match s.unitState u with
  | none => .idle s
  | some (pc, last, a) =>
    let clk := s.unitClk u last
    match s.unitFetch u a pc with
    | .error e => .idle (({ s with cyc := clk }).unitFetchFault u e pc pc)
    | .ok (w0, next, s) =>
      let words := if isDouble w0 then 2 else 1
      let clk := clk + words - 1
      match words == 2, next with
      | true, .error e => .idle (({ s with cyc := clk }).unitFetchFault u e (pc + 4) pc)
      | _, next =>
        let w1 := match next with
          | .ok v => v
          | .error _ => 0
        let s := s.giveTurn u pc words none clk
        match unitCheck u.executor w0 w1 with
        | .error e => .idle (s.illegal e)
        | .ok i =>
          if s.unitUpset u (codeUse none w0 w1) then .idle (s.trapHere 0x0E 2 0 0 [])
          else .run i [] true (s.setUnitPc u (pc + 4 * words))

/-- What the executor whose turn it is offers. -/
noncomputable def State.offer (s : State) (u : UnitId) : Offer :=
  match u with
  | .group g => s.offerGroup g
  | u => s.offerUnit u

/-! ### After the word -/

/-- Whether a group stopped at the word being performed, before it took effect. -/
def Group.haltedAt (g : Group) : Bool := match g.stop with
  | some st => st.cause != 0x0B && st.cause != 0x0C
  | none => false

/-- Move a group past the words of an instruction: its counters, prefix and watchpoint mark (R18, R71, R325). -/
def State.advance (s : State) (g : Group) (words : Nat) (counts : Bool) : State :=
  let s := s.mapGroup g.id fun g => { g with skipWatch := false, run := g.run.map fun r =>
    { r with pc := r.pc + 4 * words, left := r.left - words, pfx := if counts then none else r.pfx } }
  if counts then s.mapThreads g.wg g.tids fun t => { t with retired := t.retired + 1 } else s

/-- Whether an instruction is run control, which moves its group by itself. -/
def runControl : Instr → Bool
  | .header _ | .trailer _ => true
  | _ => false

/-- After a group's word: `b` is the state before it. A word that waits is offered again; one that was stopped is not passed. -/
def State.finishGroup (b s : State) (gid : Nat) (i : Instr) (active : List Nat) (counts : Bool) : State :=
  match b.group? gid, s.turn with
  | some g, some t =>
    if s.hold then { s with hold := false, cyc := b.cyc, parts := b.parts } else
    match b.wg? g.wg with
    | none => s
    | some w =>
      let s := s.mapPart w.core g.part fun p => { p with lastIssue := s.cyc, busy := if runControl i then p.busy else some gid }
      match i, s.group? gid with
      | .trailer _, q =>
        if (q.map fun q => q.run.isSome).getD false then s else s.countWord g w t.pc s.cyc active
      | .header _, some q =>
        if q.run.isNone then s else
        let p := s.part w.core g.part
        (if p.counted + 1 < s.cyc then s.countIdle w.core g.part (s.cyc - 1) else s).countWord g w t.pc s.cyc active
          |>.mapPart w.core g.part fun p => { p with busy := some gid }
      | _, some q =>
        if (g.stop.isNone && q.haltedAt) || (q.skipWatch && !g.skipWatch) then s
        else (s.countWord g w t.pc s.cyc active).advance g t.words counts
      | _, none => s
  | _, _ => s

/-- After a word of an executor without lanes: one that waits or was stopped is not passed. -/
def State.finishUnit (b s : State) (u : UnitId) : State :=
  match s.turn with
  | none => s
  | some t =>
    if s.hold then { s with hold := false, cyc := b.cyc }.setUnitPc u t.pc
    else
      let s := s.setUnitLast u s.cyc
      if s.unitStopped u then s.setUnitPc u t.pc else
      match u with
      | .stream w => s.stepTaken (.stream w) (s.wg? w) t.pc
      | .fabric n => s.stepTaken (.fabric n) none t.pc
      | _ => s

/-- After the word of a unit: nobody has the turn. -/
def State.finish (b s : State) (u : UnitId) (i : Instr) (active : List Nat) (counts : Bool) : State :=
  let s := match u with
    | .group g => b.finishGroup s g i active counts
    | u => b.finishUnit s u
  { s with turn := none, hold := false }

end Sys2Proof.Machine
end

