-- ==== Sys2Proof/Machine/Pod.lean ====
section
/-!
DEFINITION. Pod-scope accesses between packages (R207, R352 to R354): requests of other packages, the answers to this one's, peers that
cannot be reached; and the migration of chunks (R201, R202).
-/
namespace Sys2Proof.Machine

/-! ### Requests of other packages (R207) -/

/-- The shape of an access of some bytes. -/
def shapeOfBytes (n : Nat) : Shape := if n = 8 then .d else if n = 4 then .w else if n = 2 then .h else .b

/-- Bytes of an element of a row. -/
def rowAddBytes (a : RowAdd) : Nat := if a.fp32 then 4 else 2

/-- The physical addresses that a request touches. -/
def podTouches (r : PodRequest) : List Nat :=
  let run := fun (a n : Nat) => (List.range n).map (a + ·)
  match r.op with
  | .read n => run r.pa (if r.exr.isSome then 64 else n)
  | .write d => if r.exr.isSome then run r.pa 64 else d.map (·.1)
  | .atomic _ _ n _ => run r.pa n
  | .cell .. | .consume => run r.pa 64
  | .rowAdd a => a.elems.flatMap fun e => run e.1 (rowAddBytes a)
  | .rollCall _ d => run r.pa d.length
  | .unsupported _ => []

/-- Whether a request consumes what it touches. -/
def podConsumes (r : PodRequest) : Bool := match r.op with
  | .write .. | .rollCall .. | .unsupported _ => false
  | _ => true

/-- Whether a package is a member of this one's load-store domain (R206). -/
def State.member (s : State) (pkg : Nat) : Bool :=
  pkg == Config.pkg.toNat || s.domtab.any fun d => fld d.toNat 16 1 == 1 && fld d.toNat 0 16 == pkg

/-- The fault that a request meets at its target (R199, R207, R339), if any. -/
def State.podFault (s : State) (r : PodRequest) : Option Nat :=
  let l := podTouches r
  let foreign := fun (a : Nat) => inHbm a && ((s.chunk (chunkOf a)).owner != r.job || r.job == 0)
  if l.any foreign then some 7
  else if !s.member r.pkg || l.any (fun a => !inHbm a) then some 8
  else if r.exr.isSome && fld s.xcways.toNat 0 2 == 0 then some 9
  else if podConsumes r then (s.errors.find? fun e => l.contains e.1).map fun e => 0x0E + 0x10 * e.2
  else none

/-- `mdrain.add` on the elements of a request, each with its sender's random bits (R296). -/
def State.addRemote (s : State) (a : RowAdd) : State :=
  let m := matrixFp a.rnd a.flush 0 0 0
  let f := if a.fp32 then Format.fp32 else Format.bf16
  a.elems.foldl (fun s e =>
    let w := s.homeNat e.1 (rowAddBytes a)
    s.homeWrite ((leBytes (rowAddBytes a) (addElem m ⟨m.rnd, e.2.2⟩ f w a.alpha (BitVec.ofNat 40 e.2.1))).zipIdx.map fun b => (e.1 + b.2, b.1))) s

/-- A request in the parts that have answers of their own: each lane of an atomic (R240, R242). -/
def podParts (r : PodRequest) : List PodRequest :=
  match r.op with
  | .atomic op k n ls => ls.map fun l => { r with pa := l.pa, tag := l.tag, op := .atomic op k n [l] }
  | .cell clear ls => ls.map fun l => { r with pa := l.pa, tag := l.tag, op := .cell clear [l] }
  | _ => [r]

/-- The operand and comparand of a part. -/
def podLane : PodOp → Nat × Nat
  | .atomic _ _ _ (l :: _) | .cell _ (l :: _) => (l.b, l.c)
  | _ => (0, 0)

/-- An access of a cell: its chunk now backs cells (R200), and its first touch (R204). -/
def State.cellTouch (s : State) (pa : Nat) : State := (s.mapChunk (chunkOf pa) fun r => { r with exr := true }).touch pa

/-- Perform a part whose checks have passed: the answer's bytes, and the state. -/
def State.servePod (s : State) (r : PodRequest) : List Byte × State :=
  match r.op, r.exr with
  | .read n, some b => let t := s.cellTouch r.pa; (leBytes n (cellRead (cellFormat b) (t.cell r.pa)), t)
  | .read n, none => s.homeRead none r.pa n
  | .write d, some b => ([], (s.cellTouch r.pa).setCell r.pa (cellOf ((cellFormat b).toVal (leNat (d.map (·.2.1))))))
  | .write d, none => ([], s.homeWrite (s.homeMerge d))
  | .atomic op k n _, _ =>
    let o := s.homeRead none r.pa n
    let v := atomNew op (shapeOfBytes n) k (leNat o.1) ((podLane r.op).1 % 2 ^ (8 * n)) ((podLane r.op).2 % 2 ^ (8 * n))
    (o.1, o.2.homeWrite ((leBytes n v).zipIdx.map fun e => (r.pa + e.2, e.1)))
  | .cell clear _, b =>
    let f := cellFormat (b.getD 4)
    let t := s.cellTouch r.pa
    (leBytes (b.getD 4) (cellRead f (t.cell r.pa)), t.setCell r.pa (if clear then 0 else cellAdd (t.cell r.pa) (f.toVal (podLane r.op).1)))
  | .rowAdd a, _ => ([], s.addRemote a)
  | .consume, _ =>
    let (st, tmo, t) := s.testBarrier r.pa
    (BitVec.ofNat 8 (st.getD 1) :: leBytes 8 tmo, t)
  | .rollCall rank d, _ =>
    let w := leNat (d.take 8)
    ([], (s.homeWrite (d.zipIdx.map fun e => (r.pa + e.2, e.1))).rollEntry r.job rank (fld w 32 32) (fld w 4 4))
  | .unsupported _, _ => ([], s)

/-- Perform a part, or refuse it, and answer. -/
def State.answerPart (s : State) (r : PodRequest) : State :=
  let out := fun (d : List Byte) (f : Option Nat) => Outgoing.response r.pkg ⟨Config.pkg.toNat, r.tag, d, f, r.bulk⟩
  match s.podFault r with
  | some f => s.send (out [] (some f))
  | none => let a := s.servePod r; a.2.send (out a.1 none)

/-- Perform and answer a request: the lanes of one atomic in one step, with no other write between them (R240). -/
def State.answerPod (s : State) (r : PodRequest) : State := (podParts r).foldl State.answerPart s

/-- POD_REQUEST_ARRIVAL (R207): the roll call is never held (R391) and has no answer; a packet with an unsupported part is dropped and
counted (R352). -/
def execPodRequestArrival (r : PodRequest) (s : State) : Result :=
  match r.op with
  | .unsupported port => .next { s with ports := sset 0 s.ports (port % 64) (sget 0 s.ports (port % 64) + 1) }
  | .rollCall .. => .next (if (s.podFault r).isSome then s else (s.servePod r).2)
  | _ => .next (s.arriving r.job (.podRequestArrival r) fun s => s.answerPod r)

/-! ### Answers (R207, R354) -/

/-- Whether another access of the same use is still out. -/
def State.awaits (s : State) (p : RemoteUse → Bool) : Bool := s.remotes.any fun r => p r.use
/-- Forget the accesses that `p` selects: their answers change nothing. -/
def State.unask (s : State) (p : RemoteUse → Bool) : State := { s with remotes := s.remotes.filter fun r => !p r.use }

/-- The uses of one operation, copy, transfer or stream. -/
def RemoteUse.ofOp (id : Nat) : RemoteUse → Bool
  | .op i _ => i == id
  | _ => false
def RemoteUse.ofCopy (id : Nat) : RemoteUse → Bool
  | .copy i _ => i == id
  | _ => false
def RemoteUse.ofTransfer (n : Nat) : RemoteUse → Bool
  | .transfer m _ => m == n
  | _ => false
def RemoteUse.ofDrain (wg : Nat) : RemoteUse → Bool
  | .drain w _ => w == wg
  | _ => false

/-- Bytes had from another package, from a virtual address on. -/
def fetched (va : Nat) (l : List Byte) : Fetched := l.zipIdx.map fun e => ((va + e.2) % 2 ^ 64, e.1.setWidth 64)

/-- The fault that an answer carries, as cause and subcause (R207, R339, R354). -/
def podCause (f : Nat) : Nat × Nat := if f = 0x0E || f = 0x1E then (0x0E, f / 16) else (3, if f = 0xFF then 8 else f)

/-- Hold the bytes of a group's load in its core's L1 (R207), unless they may be older than what the core has seen since (log 107). -/
def State.holdRemote (s : State) (fill : Bool) (o : LongOp) (va : Nat) (l : List Byte) : State :=
  match o.kind, o.accessor.core, s.access o.accessor (plainRule .read) true va with
  | .load _ _ _ false, some c, .ok (p, _) =>
    if p.exr || !fill then s else
    { s with l1 := l.zipIdx.foldl (fun m e => l1Put m (l1Key c (p.home va) (p.pa va + e.2)) ⟨e.1, false, false, o.job, 0⟩) s.l1 }
  | _, _, _ => s

/-- Drop a core's copy of a location that an atomic has changed at another package, and of what is on its way (R220). -/
def State.forgetRemote (s : State) (o : LongOp) (va : Nat) : State :=
  match o.accessor.core, s.access o.accessor (plainRule .read) true va with
  | some c, .ok (p, _) =>
    let keys := (List.range 8).map fun i => l1Key c (p.home va) (p.pa va + i)
    { s with l1 := s.l1.filter fun e => !keys.contains e.1 }.noFill c
  | _, _ => s

/-- An answer for a long-latency operation: bytes of a read, or the old value of one lane of an atomic. -/
def State.answerOp (s : State) (o : LongOp) (fill : Bool) (lane : Nat) (d : List Byte) (f : Option Nat) : State :=
  let lanes := match o.kind with
    | .atom _ _ _ _ l | .atomx _ _ _ l => l
    | _ => []
  let more := s.awaits (RemoteUse.ofOp o.id)
  if f.isSome && o.ofUnit then
    (s.unask (RemoteUse.ofOp o.id)).failUnitOp o (podCause (f.getD 0)).1 (podCause (f.getD 0)).2
      (match lanes with | l :: _ => l.va | [] => lane)
  else
  let settle := fun (o : LongOp) => { o with sent := more }
  match f, lanes with
  | none, [] => (s.mapOp o.id fun o => settle { o with got := o.got ++ fetched lane d }).holdRemote fill o lane d
  | none, _ :: _ =>
    (s.mapOp o.id fun o => settle { o with got := o.got ++ [(lane, w64 (leNat d))] }).forgetRemote o
      (((lanes.find? (·.tid == lane)).map (·.va)).getD 0)
  | some f, [] => ((s.unask (RemoteUse.ofOp o.id)).endOp o).opFault o (podCause f).1 (podCause f).2 lane o.present false
  | some f, _ :: _ =>
    let va := ((lanes.find? (·.tid == lane)).map (·.va)).getD 0
    let s := s.mapOp o.id fun o => settle { o with dropped := o.dropped ++ [lane] }
    let s := if !more && o.got.isEmpty then s.endOp o else s
    s.opFault o (podCause f).1 (podCause f).2 va (if lanes.length = 1 then o.present else [lane]) (1 < lanes.length)

/-- An answer for a store of a core's store path. -/
def State.answerStore (s : State) (tag : Nat) (f : Option Nat) : State :=
  match s.path.find? fun p => p.sent && p.tag == tag with
  | none => s
  | some p =>
    let t : State := { s with path := s.path.filter (· != p) }
    match f with
    | some f => t.threadFault p.wg p.pc (podCause f).1 (podCause f).2 0 p.va p.tids true
    | none => (t.l1Update p.core p.dest p.data).noFill p.core

/-- An answer for a store of a unit without a store path. -/
def State.answerUnit (s : State) (job : Nat) (u : UnitId) (pc va : Nat) (f : Option Nat) : State :=
  match u, f with
  | .stream w, some f => s.trapStream w (podCause f).1 (podCause f).2 0 va pc 0
  | .fabric n, some f => if s.procJob n = job then s.trapProc n (podCause f).1 (podCause f).2 va pc else s
  | .fabric n, none => s.settle n
  | _, _ => s

/-- The next step of a copy's granted step, once its line is over. -/
def State.copyStepped (s : State) (c : Copy) : State :=
  match s.wg? c.wg with
  | some w => s.stepTaken (.engine (engineOf w.core) c.job) (some w) 0
  | none => s

/-- An answer for a copy: bytes of its sources, or the acknowledgement of a line. -/
def State.answerCopy (s : State) (c : Copy) (va : Nat) (d : List Byte) (f : Option Nat) : State :=
  match c.bulk?, f with
  | some _, none => s.mapCopy c.id fun c => { c with got := c.got ++ fetched va d, sent := s.awaits (RemoteUse.ofCopy c.id) }
  | some _, some f =>
    if (podCause f).1 = 0x0E then (s.dropCopy c.id).trapWorkgroup c.wg 0x0E (podCause f).2 0 va else s.copyFault c 2 (podCause f).2 va
  | none, some f => s.failOut c (((c.outLines.find? (·.1 == c.line)).map (·.2.1)).getD 0) (podCause f).2
  | none, none =>
    match s.wg? c.wg, c.outLines.find? (·.1 == c.line) with
    | some w, some (n, a, hi) =>
      let dest := match s.translate (s.copyAccessor c) outRule false a with
        | .ok (p, _) => p.home a
        | .error _ => .home
      (((s.l1Update w.core dest (whole ((c.outBytes a hi).zipIdx.map fun (e : Byte × Nat) => (va + e.2, e.1)))).noFill w.core).outDone c n).copyStepped c
    | _, _ => s

/-- An answer for the oldest transfer of a processor; an unreachable peer ends it with status 5 (R354). -/
def State.answerTransfer (s : State) (n va : Nat) (d : List Byte) (f : Option Nat) : State :=
  match (s.proc? n).bind (·.queue.head?) with
  | none => s
  | some q =>
    let more := s.awaits (RemoteUse.ofTransfer n)
    match f with
    | some f =>
      let s := s.unask (RemoteUse.ofTransfer n)
      if f = 0xFF then s.endTransfer n 5 else s.transferFault n q (podCause f).1 (podCause f).2 va
    | none =>
      if !q.writing then s.mapHead n fun q => { q with got := q.got ++ fetched va d, sent := more }
      else if more then s else (s.writeRest n q).stepTaken (.fabric n) none q.pc

/-- An answer for a signal of a processor. -/
def State.answerSignal (s : State) (n tag : Nat) (f : Option Nat) : State :=
  match (s.proc? n).bind fun p => p.signals.find? (·.tag == tag) with
  | none => s
  | some g =>
    match f with
    | none => (s.mapProc n fun p => { p with signals := p.signals.filter (·.tag != tag) }).settle n
    | some f =>
      let va := match g.work with
        | .add va _ => va
        | .post .. => 0
      (s.mapProc n fun p => { p with signals := p.signals.map fun x => if x.tag == tag then { x with sent := false } else x }).trapProc n
        (podCause f).1 (podCause f).2 va g.pc

/-- An answer for an `fwait` (R367). -/
def State.answerWait (s : State) (n : Nat) (d : List Byte) (f : Option Nat) : State :=
  match (s.proc? n).bind (·.wait) with
  | none => s
  | some w =>
    let idle := s.mapProc n fun p => { p with wait := some { w with sent := false } }
    match f, d with
    | some f, _ => idle.trapProc n (podCause f).1 (podCause f).2 w.va w.pc
    | none, st :: tmo =>
      if st = 1 then s.mapProc n fun p => { p with wait := some { w with tmo := leNat tmo, sent := false } }
      else s.mapProc n fun p => { p with wait := none, k := putK p.k w.dst (st.setWidth 64) }
    | none, [] => idle

/-- An answer for a stream's matrix instruction: bytes that it reads, a package's part of an `mdrain.add` row done, or the acknowledgement of a
stored row. -/
def State.answerDrain (s : State) (wg pkg va : Nat) (d : List Byte) (f : Option Nat) : State :=
  match s.wg? wg, (s.stream? wg).bind (·.queue.head?) with
  | some w, some q =>
    let keep := fun (l : Fetched) => s.mapStream wg fun x => { x with queue := x.queue.modify 0 fun q => { q with got := q.got ++ l } }
    let adding := match q.instr with | .drainAdd .. => !q.got.any (fun e => decide (storedKey 0 ≤ e.1)) | _ => false
    match f with
    | some f => (if adding then s else s.unask (RemoteUse.ofDrain wg)).matrixFault w q (podCause f).1 (podCause f).2 va
    | none =>
      if !d.isEmpty then keep (fetched va d)
      else if adding then keep [(doneKey pkg, 0)]
      else if s.awaits (RemoteUse.ofDrain wg) then s
      else (s.matrixDone wg).stepTaken (.stream wg) (some w) q.pc
  | _, _ => s

/-- An answer for the raise of a mapped barrier (R139, R404). -/
def State.answerCmb (s : State) (leaf : Option Nat) (f : Option Nat) : State :=
  match leaf, f with
  | none, none => if s.tt.state = 1 || s.tt.state = 2 then { s with tt := { s.tt with state := 3 } } else s
  | none, some f => s.ttError 6 (podCause f).2
  | some va, some f => s.report 0xFD (w64 va) (podCause f).2
  | some _, none => s

/-- Use an answer. -/
def State.answered (s : State) (r : Remote) (d : List Byte) (f : Option Nat) : State :=
  match r.use with
  | .op id lane => match s.op? id with
    | some o => s.answerOp o r.fill lane d f
    | none => s
  | .store tag => s.answerStore tag f
  | .unit u pc va => s.answerUnit r.job u pc va f
  | .copy id va => match s.copy? id with
    | some c => s.answerCopy c va d f
    | none => s
  | .transfer n va => s.answerTransfer n va d f
  | .signal n tag => s.answerSignal n tag f
  | .wait n => s.answerWait n d f
  | .drain wg va => s.answerDrain wg r.pkg va d f
  | .cmb leaf => s.answerCmb leaf f
  | .fsend _ | .fred _ | .own => s

/-- Take an answer: of the package that was asked, for an access that is out. -/
def State.takeAnswer (s : State) (a : PodResponse) : State :=
  match s.remotes.find? fun r => r.tag == a.tag && r.pkg == a.pkg with
  | none => s
  | some r => ({ s with remotes := s.remotes.filter (· != r) } : State).answered r a.data a.fault

/-- POD_RESPONSE_ARRIVAL (R207). -/
def execPodResponseArrival (a : PodResponse) (s : State) : Result :=
  match s.remotes.find? fun r => r.tag == a.tag && r.pkg == a.pkg with
  | none => .next s
  | some r => .next (s.arriving r.job (.podResponseArrival a) fun s => s.takeAnswer a)

/-- What becomes of a packet sent to a peer that cannot be reached (R354): a message or contribution that no acceptance has answered is lost;
a Timetable message or a packet of the Bell is, unless it had arrived before, which is a choice. -/
def State.dropPacket (s : State) (pkg : Nat) (i : Nat) (o : Outgoing) : Option State :=
  let drop := Config.choose s.fresh (32 * i + 9)
  let out := fun (k tag : Nat) => if k == pkg && s.remotes.any (fun r => r.pkg == pkg && r.tag == tag) then some s else none
  match o with
  | .message k m => out k m.tag
  | .contribution k c => out k c.tag
  | .timetable k _ => if k == pkg && drop then some { s with tt := { s.tt with drop := s.tt.drop + 1 } } else none
  | .bell k _ | .resume k _ _ _ => if k == pkg && drop then some s else none
  | _ => none

/-- Count a processor's lost message in the drop counter of the port that carried it: that of its die's flow to the peer, or, without a
route, the first of its die (R351, R354). -/
def State.countDrop (s : State) (ports : List Nat) (u : RemoteUse) : State :=
  match u with
  | .fsend n | .fred n =>
    let port := ports.getD (n / 8) (16 * (n / 8)) % 64
    { s with ports := sset 0 s.ports port (sget 0 s.ports port + 1) }
  | _ => s

/-- PEER_UNREACHABLE (R354): accesses to the peer are answered so, and packets on their way to it are lost and counted. -/
def execPeerUnreachable (peer : LostPeer) (s : State) : Result :=
  let t := s.outbox.zipIdx.foldl (fun t (e : Outgoing × Nat) => match t.dropPacket peer.pkg e.2 e.1 with
    | some u => u
    | none => { t with outbox := t.outbox ++ [e.1] }) { s with outbox := [] }
  let gone := s.remotes.filter (·.pkg == peer.pkg)
  let t := gone.foldl (fun t r => t.countDrop peer.ports r.use) t
  let lost := gone.map fun r => Act.event (.podResponseArrival ⟨peer.pkg, r.tag, [], some 0xFF, false⟩)
  .next { t with todo := lost ++ t.todo }

/-! ### Migration (R201, R202) -/

/-- Whether a chunk may move, or stand free: no PIN, DIE, EXR or MIG. -/
def ChunkRec.loose (r : ChunkRec) : Bool := !r.pin && !r.die && !r.exr && !r.mig
/-- Whether a chunk is free. -/
def ChunkRec.isFree (r : ChunkRec) : Bool := r.owner == 0 && r.loose

/-- The free chunks that a stack homes: their number, and the lowest of them. -/
def State.freeOn (s : State) (stack : Nat) : Nat × Option Nat :=
  let listed := (s.chunks.filter fun e => e.2.stack == stack && e.2.isFree).map (·.1)
  let own := (s.chunks.filter fun e => e.1 / 32768 == stack).map (·.1)
  let first := ((List.range (own.length + 1)).map (32768 * stack + ·)).find? fun c => !own.contains c && decide (c / 32768 = stack)
  (32768 - own.length + listed.length, (first.toList ++ listed).foldl (fun a c => some (min c (a.getD c))) none)

/-- The partner of a candidate that moves to a die. -/
def State.partnerOn (s : State) (die : Nat) : Option Nat :=
  ((List.range 3).foldl (fun (best : Nat × Option Nat) i =>
    let f := s.freeOn (3 * die + i)
    if best.1 < f.1 then f else best) (0, none)).2

/-- Insert a candidate behind those of higher count, and of equal count and lower number. -/
def insertCandidate (c : Nat × Nat × Nat) : List (Nat × Nat × Nat) → List (Nat × Nat × Nat)
  | [] => [c]
  | d :: r => if d.2.2 < c.2.2 || (d.2.2 == c.2.2 && decide (c.1 < d.1)) then c :: d :: r else d :: insertCandidate c r

/-- The candidates of an epoch: chunk, die, counted misses; in the order in which they migrate. -/
def State.candidates (s : State) (l : List MissCount) : List (Nat × Nat × Nat) :=
  let chunks := distinct ((l.map (·.chunk)).filter fun c => decide (c < chunkOf hbmEnd))
  let count := fun (c : Nat) (p : MissCount → Bool) => ((l.filter fun m => m.chunk == c && decide (m.die < 4) && p m).map (·.count)).sum
  (chunks.filterMap fun c =>
    let all := count c fun _ => true
    let r := s.chunk c
    match (List.range 4).find? fun d => decide (3 * all ≤ 4 * count c fun m => m.die == d) with
    | some d => if 4096 ≤ all && r.stack / 3 ≠ d && r.loose then some (c, d, all) else none
    | none => none).foldl (fun a c => insertCandidate c a) []

/-- Begin the migration of a candidate, if its die homes a free chunk and fewer than 64 of this epoch have begun: `base` counts those of
earlier epochs. -/
def State.migrate (base : Nat) (s : State) (c : Nat × Nat × Nat) : State :=
  match if (s.chunk c.1).loose && decide (s.migrations.length < base + 64) then s.partnerOn c.2.1 else none with
  | none => s
  | some p =>
    { (s.mapChunk c.1 fun r => { r with mig := true }).mapChunk p (fun r => { r with mig := true }) with
      migrations := s.migrations ++ [⟨c.1, p⟩] }

/-- MIGRATION_EPOCH_END (R201): every 2^24 clk; `misses` are the epoch's counts. -/
def execMigrationEpochEnd (misses : List MissCount) (s : State) : Result :=
  if s.cyc < (s.epoch + 1) * 2 ^ 24 then .next s else
  let t : State := { s with epoch := s.epoch + 1 }
  .next (if s.migctl.getLsbD 0 then (t.candidates misses).foldl (State.migrate t.migrations.length) t else t)

/-- MIGRATION_SWITCH (R202): the chunk and its partner exchange stack and frame in one step. -/
def execMigrationSwitch (chunk : Nat) (s : State) : Result :=
  match s.migrations.find? (·.chunk == chunk) with
  | none => .next s
  | some m =>
    let a := s.chunk m.chunk
    let b := s.chunk m.partner
    .next { (s.mapChunk m.chunk fun r => { r with stack := b.stack, frame := b.frame, mig := false }).mapChunk m.partner
              (fun r => { r with stack := a.stack, frame := a.frame, mig := false }) with
            migrations := s.migrations.filter (· != m) }

end Sys2Proof.Machine
end

