-- ==== Sys2Proof/Machine/Queues.lean ====
section
/-!
DEFINITION. The submission queues (R427 to R431): taking packets, and the packet operations of Table 18.3.
-/
namespace Sys2Proof.Machine

/-! ### The queues (R427 to R430) -/

/-- Update a queue. -/
def State.mapQueue (s : State) (n : Nat) (f : Queue → Queue) : State := { s with queues := s.queues.modify n f }

/-- Whether the host reaches the device: it is ready, and no alarm silences it (R434, R439). -/
def State.answers (s : State) : Bool := s.host.bootstat == 2

/-- Write QKICK: nothing while EN is 0; an index out of the ring leaves it unchanged (R425, R427). -/
def Queue.setKick (q : Queue) (v : Nat) : Queue := if q.en && decide (v < q.qsize.toNat) then { q with qkick := w64 v } else q
/-- Set EN: from 0, QHEAD and the expected sequence become 0 (R427). -/
def Queue.enable (q : Queue) : Queue := if q.en then q else { q with en := true, qhead := 0, done := 0, reads := 0 }
/-- Clear HALT: the packet is read afresh (R429). -/
def Queue.clearHalt (q : Queue) : Queue := if q.halt then { q with halt := false, err := 0, reads := 0 } else q

/-- QKICK_WRITE (R427). -/
def execQkickWrite (queue value : Nat) (s : State) : Result := .next (if s.answers then s.mapQueue queue (·.setKick value) else s)
/-- QUEUE_ENABLE (R427). -/
def execQueueEnable (queue : Nat) (s : State) : Result := .next (if s.answers then s.mapQueue queue (·.enable) else s)
/-- QUEUE_HALT_CLEAR (R429). -/
def execQueueHaltClear (queue : Nat) (s : State) : Result := .next (if s.answers then s.mapQueue queue (·.clearHalt) else s)

/-- Whether a queue has a packet to read. -/
def Queue.due (q : Queue) : Bool := q.en && !q.halt && q.packet.isNone && q.qkick != q.qhead

/-- The host address of the packet at QHEAD. -/
def Queue.place (q : Queue) : Nat := q.qbase.toNat + 64 * q.qhead.toNat

/-- Halt a queue with an error, and interrupt (R429). -/
def State.haltQueue (s : State) (n err : Nat) (q : Queue) : State :=
  (s.mapQueue n fun q => { q with halt := true, err, reads := 0 }).send (.msix q.qmsi.toNat)

/-- Take a packet whose SEQ matches. A reserved bit of word 0 or an unlisted OP completes it with status 2 (R428, R430, R431). -/
def State.takePacket (s : State) (n : Nat) (words : List W64) : State :=
  let w0 := (words.getD 0 0).toNat
  let s := (s.mapQueue n fun q => { q with packet := some { words, order := s.seq, started := false }, reads := 0 }).bump
  if fld w0 25 7 = 0 && 1 ≤ fld w0 16 8 && fld w0 16 8 ≤ 0x0E then s else s.completePacket n 2 0 0

/-- Read the packet at QHEAD once (R429): a host address beyond 2^54, or a read that the link does not complete, halts the queue with
error 2; the ninth stale read with error 1. -/
def State.readPacket (s : State) (n : Nat) (q : Queue) : State :=
  if 2 ^ 54 ≤ q.place + 63 || Config.choose s.fresh 20 then s.haltQueue n 2 q else
  let words := wordsOf 8 (hostRead s.fresh (0x40000000000000 + q.place) 64)
  if fld (words.getD 0 0).toNat 0 16 = q.done % 2 ^ 16 then s.takePacket n words
  else if 8 ≤ q.reads then s.haltQueue n 1 q
  else s.mapQueue n fun q => { q with reads := q.reads + 1, lastRead := s.cyc }

/-- PACKET_FETCH (R429): the first read of a packet. -/
def execPacketFetch (queue : Nat) (s : State) : Result :=
  match s.queues[queue]? with
  | some q => .next (if q.due && q.reads == 0 then s.readPacket queue q else s)
  | none => .next s

/-- PACKET_SEQ_RETRY (R429): a stale packet is read again, 250 ns after the last time at the clock as it stands. -/
def execPacketSeqRetry (queue : Nat) (s : State) : Result :=
  match s.queues[queue]? with
  | some q => .next (if q.due && decide (1 ≤ q.reads) && decide (q.lastRead + s.host.clock / 4 ≤ s.cyc) then s.readPacket queue q else s)
  | none => .next s

/-- A packet in hand, taken apart: queue, job id, operands of words 1 to 7, whether it has begun, its place in the order of arrival. -/
structure Command where
  queue   : Nat
  job     : Nat
  words   : List W64
  started : Bool
  order   : Nat

/-- An operand. -/
def Command.arg (c : Command) (i : Nat) : Nat := (c.words.getD i 0).toNat

/-- Perform the packet in hand of a queue, if it holds an operation. -/
def onPacket (queue op : Nat) (s : State) (body : Command → State) : Result :=
  match s.queues[queue]? with
  | none => .next s
  | some q =>
    match q.packet with
    | none => .next s
    | some p =>
      if fld q.word0 16 8 = op then .next (body ⟨queue, fld q.word0 32 32, p.words, p.started, p.order⟩) else .next s

/-- Complete a packet with a status. -/
def State.done (s : State) (c : Command) (status : Nat) : State := s.completePacket c.queue status 0 0

/-- Mark a packet as begun. -/
def State.begun (s : State) (c : Command) : State :=
  s.mapQueue c.queue fun q => { q with packet := q.packet.map fun p => { p with started := true } }

/-! ### Jobs (R386, R430, R441) -/

/-- Whether the 32 words of a Bell control block hold no reserved value (Table 16.1). -/
def bcbSound (l : List W64) : Bool :=
  let f := rcbField l
  f 0 0 8 == 1 && decide (f 0 8 8 ≤ 64) && decide (1 ≤ f 0 32 32) && decide (f 0 32 32 ≤ 65536) && decide (f 0 16 16 < f 0 32 32) &&
  f 1 0 6 == 0 && f 2 48 16 == 0 && f 3 0 64 == 0 && (List.range 12).all fun i => f (20 + i) 0 64 == 0

/-- The words of a job's BCB: none where it is refused; an address of 0 names none. -/
def State.readBcb (s : State) (job va : Nat) : Option (Option (List W64) × State) :=
  if va = 0 then some (none, s)
  else if va % 64 ≠ 0 then none
  else match s.ownWords job va 32 with
    | .ok (l, s) => if bcbSound l then some (some l, s) else none
    | .error _ => none

/-- Whether a job's RCB passes FORMAT and RANGE (R138, R430). -/
def jobRcbSound (job : Nat) (l : List W64) : Bool :=
  rcbFormat 1 l && rcbInherit l && rcbField l 0 0 32 == job && rcbField l 1 0 64 == 0

/-- CREATE_JOB (R386, R430). A job id in use, or 0, is refused. -/
def execCreateJob (queue : Nat) (s : State) : Result :=
  onPacket queue 1 s fun c =>
    if c.arg 2 / 2 ^ 16 ≠ 0 || c.arg 1 % 2 ^ 16 ≠ 0 then s.done c 2
    else if c.job = 0 || (s.job? c.job).isSome then s.done c 1 else
    let j : Job := { id := c.job, asid := c.arg 2, root := c.arg 1, region := s.seq, bcb := none, bseq := 0, freeze := none, hstate := 0
                     hseq := 0, roll := [], headed := true }
    let t : State := { s with jobs := s.jobs ++ [j] }
    match t.readRcb c.job (c.arg 3) with
    | none => s.done c 1
    | some (l, t) =>
      if !jobRcbSound c.job l then s.done c 1 else
      match t.readBcb c.job (c.arg 4) with
      | none => s.done c 1
      | some (b, t) =>
        let r := { t.newRegion c.job (c.arg 3) l none with id := s.seq, live := true }
        ((({ t with regions := t.regions ++ [r] }.mapJob c.job fun j => { j with bcb := b }).bump).done c 0)

/-- The live job or inner node of a job at an address; for a RELEASE that has begun, the node it names. -/
def State.nodeAt (s : State) (job va : Nat) (begun : Bool) : Option Region :=
  s.regions.find? fun r => r.job == job && r.va == va && r.field 0 56 8 != 3 && r.state != 5 && (r.live || begun)

/-- Whether every leaf of a subtree has ended. -/
def State.subtreeOver (s : State) (node : Nat) : Bool :=
  !(s.regions.any fun r => s.under node r && r.field 0 56 8 == 3 && decide (1 ≤ r.state) && decide (r.state ≤ 3))

/-- Forget a node and its subtree: its pins are discarded (R303), and with the job's own node the job is gone. -/
def State.dropSubtree (s : State) (job : Nat) (r : Region) : State :=
  let ids := (s.regions.filter fun q => s.under r.id q).map (·.id)
  { s with
    regions := s.regions.filter fun q => !ids.contains q.id, pins := s.pins.filter fun p => !ids.contains p.node
    requests := s.requests.filter fun q => !ids.contains q.region
    jobs := if r.parent.isNone then s.jobs.filter (·.id != job) else s.jobs }

/-- RELEASE (R430): from its start no launch may name a node of the subtree as parent. -/
def execRelease (queue : Nat) (s : State) : Result :=
  onPacket queue 2 s fun c =>
    match s.job? c.job, s.nodeAt c.job (c.arg 1) c.started with
    | none, _ => s.done c 3
    | _, none => s.done c 1
    | _, some r =>
      let s : State := if c.started then s else
        ({ s with regions := s.regions.map fun q => if s.under r.id q then { q with live := false } else q } : State).begun c
      if s.subtreeOver r.id then (s.dropSubtree c.job r).done c 0 else s

/-- LAUNCH (R138, R430): the packet waits for LAUNCH_ACCEPTANCE. -/
def execLaunchPacket (queue : Nat) (s : State) : Result :=
  onPacket queue 3 s fun c =>
    if c.started then s
    else if (s.job? c.job).isNone then s.done c 3
    else
      let p : PendingLaunch := { source := .queue queue, job := c.job, va := c.arg 1, held := false, core := 0 }
      ({ s with launches := s.launches ++ [p] } : State).begun c

/-! ### Memory and cores -/

/-- Whether an access to a chunk that has been issued has not completed (R204). -/
def State.chunkBusy (s : State) (c : Nat) : Bool :=
  let here := fun (p : PathStore) => match p.dest with
    | .package _ | .host => false
    | _ => p.bytes.any fun b => chunkOf b.pa == c
  s.path.any here || s.ops.any fun o => o.held.isNone && (s.reachesOf o).any fun r =>
    match s.access o.accessor (plainRule .read) true r.1 with
    | .ok (p, _) => inHbm (p.pa r.1) && decide (chunkOf (p.pa r.1) ≤ c) && decide (c ≤ chunkOf (p.pa r.1 + r.2 - 1)) && match p.home r.1 with
      | .package _ => false
      | _ => true
    | .error _ => false

/-- Give a chunk to an owner: VERSION + 1, every FRESH bit set; what backed pages and cells of the old owner no longer does, and no L1
holds a byte of it (R204). -/
def State.grantChunk (s : State) (owner c : Nat) : State :=
  { s.mapChunk c fun r => { r with owner, version := r.version + 1, fresh := BitVec.allOnes 64, exr := false, die := false } with
    l1 := s.l1.filter fun e => !((l1Pa e.1).any fun a => chunkOf a == c) }

/-- GRANT (R204): it waits for accesses to the chunks, and for migrations that name one of them as partner; it is refused whole where
the job's quota lacks room. -/
def execGrant (queue : Nat) (s : State) : Result :=
  onPacket queue 4 s fun c =>
    let first := c.arg 1
    let count := c.arg 2
    let owner := c.arg 3
    if chunkOf hbmEnd < first + count || 2 ^ 32 ≤ owner then s.done c 2 else
    let chunks := (List.range count).map (first + ·)
    let more := (chunks.filter fun n => (s.chunk n).owner != owner).length
    let room := match (s.job? owner).bind fun j => s.region? j.region with
      | some r => s.quotaRoom r (more * 0x200000)
      | none => true
    if owner ≠ 0 && !room then s.done c 1
    else if chunks.any (fun n => s.chunkBusy n || s.migrations.any (·.partner == n)) then s
    else (chunks.foldl (State.grantChunk · owner) s).done c 0

/-- CTXSTORE (R337, R430). -/
def execCtxstore (queue : Nat) (s : State) : Result :=
  onPacket queue 0x0D s fun c =>
    if c.arg 1 % 0x200000 ≠ 0 then s.done c 2
    else if 0x200000000 < c.arg 1 || c.arg 1 < s.savedBytes then s.done c 1
    else ({ s with ctxsize := c.arg 1 } : State).done c 0

/-- The region of a job at an address: the leaf that runs there, or a node. -/
def State.regionAt (s : State) (job va : Nat) : Option Region :=
  s.regions.find? fun r => r.job == job && r.va == va && r.state != 5

/-- PREEMPT (R336): the request is entered. -/
def execPreempt (queue : Nat) (s : State) : Result :=
  onPacket queue 7 s fun c =>
    match s.job? c.job, s.regionAt c.job (c.arg 1) with
    | none, _ => s.done c 3
    | _, none => s.done c 1
    | _, some r => (({ s with requests := s.requests ++ [{ region := r.id, asker := none, cores := c.arg 2, chosen := [] }] } : State).serveRequests).done c 0

/-- KILL (R330): as `gkill`. -/
def execKill (queue : Nat) (s : State) : Result :=
  onPacket queue 0x0A s fun c =>
    if 2 ^ 16 ≤ c.arg 2 || 1 < c.arg 3 then s.done c 2 else
    match s.job? c.job, s.regionAt c.job (c.arg 1) with
    | none, _ => s.done c 3
    | _, none => s.done c 1
    | _, some r => (s.killRegion r.id (c.arg 2) (c.arg 3 == 1)).done c 0

/-! ### Fabric programs and the Timetable -/

/-- Start a fabric program (R355): refused for a busy processor, an entry that cannot be fetched, a parameter block that cannot be
read. -/
def State.startProgram (s : State) (n job entry param size : Nat) : Option State :=
  let u := procAccessor n job
  let ok := entry % 4 == 0 && match s.translate u fetchRule false entry with
    | .ok _ => true
    | .error _ => false
  if !ok || ((s.proc? n).bind (·.job)).isSome then none else
  let vas := (List.range size).map (param + ·)
  let far := vas.any fun va => match s.translate u copyRule false va with
    | .ok (p, _) => (match p.home va with | .package _ => true | _ => false) && (Config.farFault s.fresh va).isSome
    | .error _ => false
  if far then none else
  match s.gather none job u copyRule (vas.map fun va => (va, (Config.farByte s.fresh va).setWidth 64)) (.transfer n) vas [] [] with
  | .bytes l s => some (s.mapProc n fun _ => { FabricProc.reset with
      job := some job, pc := entry, last := s.cyc, k := (wordsOf (size / 8) l).zipIdx.foldl (fun k e => sset 0 k e.2 e.1) [] })
  | _ => none

/-- FABRIC_START (R355). -/
def execFabricStart (queue : Nat) (s : State) : Result :=
  onPacket queue 5 s fun c =>
    if 32 ≤ c.arg 1 || 512 < c.arg 4 || c.arg 4 % 8 ≠ 0 then s.done c 2
    else if (s.job? c.job).isNone then s.done c 3
    else match s.startProgram (c.arg 1) c.job (c.arg 2) (c.arg 3) (c.arg 4) with
      | some s => s.done c 0
      | none => s.done c 1

/-- Whether a TCB holds no reserved value (Table 16.8). -/
def tcbSound (l : List W64) : Bool :=
  let f := rcbField l
  f 0 48 16 == 0 && f 0 10 6 == 0 && decide (f 0 32 8 ≤ 64) && decide (1 ≤ f 0 16 16) && decide (1 ≤ f 0 0 10) && decide (f 0 0 10 ≤ 512) &&
  f 1 0 4 == 0 && (List.range 4).all fun i => f (4 + i) 0 64 == 0

/-- Start the engine with a TCB: held messages of its job are applied, the others discarded and counted (R399, R406). -/
def State.startTimetable (s : State) (job tcb : Nat) : State :=
  let fresh : Timetable := { Timetable.reset with epoch := s.tt.epoch + 1, job, drop := (s.tt.held.filter (·.job != job)).length }
  let failed := fun (s : State) (code sub : Nat) => { s with tt := { fresh with state := 4, code, sub, drop := s.tt.held.length } }
  if tcb % 64 ≠ 0 then failed s 1 0 else
  match s.ownWords job tcb 8 with
  | .error e => failed s 6 e
  | .ok (l, s) =>
    if !tcbSound l then failed s 1 0 else
    let f := rcbField l
    let t := { fresh with state := if ((s.job? job).bind (·.freeze)).any fun f => decide (f.stage < 2) then 2 else 1, tcb := l, since := s.cyc + 1, counted := s.cyc + 1
                          crf := f 2 48 16, crb := f 2 32 16 }
    { s with tt := (s.tt.held.filter (·.job == job)).foldl Timetable.take t }

/-- TT_START (R399). -/
def execTtStart (queue : Nat) (s : State) : Result :=
  onPacket queue 6 s fun c =>
    if (s.job? c.job).isNone then s.done c 3
    else if s.tt.state == 1 || s.tt.state == 2 then s.done c 1
    else (s.startTimetable c.job (c.arg 1)).done c 0

/-! ### The Bell, attestation, domain, fence -/

/-- BELL_RAISE (R384). -/
def execBellRaise (queue : Nat) (s : State) : Result :=
  onPacket queue 8 s fun c =>
    if 2 ^ 16 ≤ c.arg 1 then s.done c 2
    else if (s.job? c.job).isNone then s.done c 3
    else (s.raiseBell c.job { cause := 5, unit := 4, handle := 0, code := c.arg 1, addr := 0 }).done c 0

/-- A report (R437): nonce, MEAS0 to MEAS7, serial number, rollback counter, and the signature over them. -/
def State.attestation (s : State) (nonce : List Byte) : List Byte :=
  let body := nonce ++ s.host.meas.flatMap (leBytes 64) ++ leBytes 16 Config.serial ++ leBytes 8 Config.rollback
  body ++ leBytes 132 (Config.signature s.fresh body)

/-- ATTEST (R437). -/
def execAttest (queue : Nat) (s : State) : Result :=
  onPacket queue 0x0B s fun c =>
    if 2 ^ 54 ≤ c.arg 1 + 63 || 2 ^ 54 ≤ c.arg 2 + 0x2DB then s.done c 2 else
    (s.hostWrite (0x40000000000000 + c.arg 2) (s.attestation (hostRead s.fresh (0x40000000000000 + c.arg 1) 64))).done c 0

/-- DOMAIN (R206). -/
def execDomain (queue : Nat) (s : State) : Result :=
  onPacket queue 0x0C s fun c =>
    if 64 ≤ c.arg 1 || 2 ^ 17 ≤ c.arg 2 then s.done c 2
    else ({ s with domtab := s.domtab.set (c.arg 1) (w64 (c.arg 2)) } : State).done c 0

/-- FENCE (R430): no packet of any queue that arrived earlier is still in hand. -/
def execFence (queue : Nat) (s : State) : Result :=
  onPacket queue 0x0E s fun c =>
    if s.queues.any fun q => q.packet.any fun p => decide (p.order < c.order) then s else s.done c 0

end Sys2Proof.Machine
end

