-- ==== Sys2Proof/Machine/Reset.lean ====
section
/-!
DEFINITION. The three resets, training and secure boot, the security alarm (R432 to R439), power windows (R440), and the host's registers
and memory window (R424 to R426).
-/
namespace Sys2Proof.Machine

/-! ### Resets (R432, R433) -/

/-- The package after a cold reset (Table 18.4). What has left the package, and the counters of the model, stand. -/
def State.coldReset (s : State) : State :=
  { State.reset with fresh := s.fresh, seq := s.seq, outbox := s.outbox, hold := s.hold }

/-- The package after a reset that keeps memory contents: `%cyc`, HBM4E, the size of the context store and the clock stand. -/
def State.resetKeeping (s : State) (host : HostRegs) : State :=
  { s.coldReset with cyc := s.cyc, mem := s.mem, errors := s.errors, chunks := s.chunks, versions := s.versions
                     migrations := s.migrations, epoch := s.epoch, ctxsize := s.ctxsize, host := { host with clock := s.host.clock } }

/-- A warm reset: dirty L1 lines are written back first; after an alarm it is a cold one (R439). -/
def State.warmReset (s : State) : State :=
  if s.host.alarmed then s.coldReset
  else (s.writeBack fun _ => true).resetKeeping { HostRegs.reset with linked := true }

/-- Every chunk freed, VERSION + 1 (Table 18.4). -/
def State.freeChunks (s : State) : State :=
  { s with
    versions := s.versions + 1, migrations := []
    chunks := s.chunks.foldl (fun l e => sset (chunkReset e.1) l e.1
      { e.2 with owner := 0, fresh := BitVec.allOnes 64, exr := false, die := false, mig := false }) [] }

/-- A function reset: the link, the firmware and its measurements stay. -/
def State.functionReset (s : State) : State :=
  if s.host.alarmed then s else
  (s.resetKeeping { HostRegs.reset with bootstat := s.host.bootstat, meas := s.host.meas, linked := s.host.linked }).freeChunks

/-- COLD_RESET (R432, R433). -/
def execColdReset (s : State) : Result := .next s.coldReset
/-- WARM_RESET (R432, R433): the host writes RESETCTL. -/
def execWarmReset (s : State) : Result := .next (if s.answers || s.host.alarmed then s.warmReset else s)
/-- FUNCTION_RESET (R432, R433). -/
def execFunctionReset (s : State) : Result := .next s.functionReset

/-! ### Training, boot, alarm (R434 to R439) -/

/-- LINK_TRAINING (R434). -/
def execLinkTraining (s : State) : Result :=
  .next (if s.host.bootstat = 1 then { s with host := { s.host with linked := true } } else s)

/-- The BOOTSTAT that an image leads to (R434, R435). -/
def BootImage.status (i : BootImage) : Nat :=
  if !i.readable then 5 else if !i.signed then 3 else if i.version < Config.rollback then 4 else 2

/-- SECURE_BOOT (R435): each boot stage extends MEAS0 to MEAS7 with its digest. -/
def execSecureBoot (image : BootImage) (s : State) : Result :=
  if s.host.bootstat ≠ 1 || !s.host.linked then .next s else
  let st := BootImage.status image
  let meas := if st = 2 then s.host.meas.map fun m => image.digests.foldl Config.extend m else s.host.meas
  .next { s with host := { s.host with bootstat := st, meas } }

/-- SECURITY_ALARM (R439): the keys are erased, the identity key with the zeroise fuse; the device answers only with BOOTSTAT 6. -/
def execSecurityAlarm (zeroise : Bool) (s : State) : Result :=
  let t := s.coldReset
  .next { t with cyc := s.cyc, host := { t.host with
    bootstat := 6, alarmed := true, keyed := false, identity := s.host.identity && !zeroise, clock := s.host.clock } }

/-! ### Power (R440) -/

/-- The core clock in MHz after a power window. -/
def nextClock (cap clock watts : Nat) (temp : Int) : Nat :=
  if cap < watts || 95 < temp then max 1200 (clock - 100)
  else if watts + 100 ≤ cap && temp < 90 then min 2100 (clock + 100)
  else clock

/-- POWER_WINDOW (R440). -/
def execPowerWindow (w : PowerSample) (s : State) : Result :=
  let c := nextClock s.host.powcap.toNat s.host.clock w.watts w.temp
  let m := w.watts % 2 ^ 16 + c * 2 ^ 16 + unsigned 8 w.temp * 2 ^ 32
  .next { s with host := { s.host with clock := c, powmeas := w64 m } }

/-! ### BAR2 (R424, R426) -/

/-- The physical address that a byte of the BAR2 window reaches, or none where the access is refused. -/
def State.bar2 (s : State) (o : Nat) : Option Nat :=
  let m := (sget 0 s.host.bar2map (o / 0x200000)).toNat
  let c := fld m 0 35
  let job := fld s.host.bar2ctl.toNat 32 32
  if fld s.host.bar2ctl.toNat 0 1 = 0 || fld m 63 1 = 0 || chunkOf hbmEnd ≤ c || job = 0 || (s.chunk c).owner ≠ job then none
  else some (c * 0x200000 + o % 0x200000)

/-- BAR2_ACCESS (R426): a refused read gives all ones, a refused write is dropped; while the device does not answer, both without
being counted (R434, R439). -/
def execBar2Access (acc : Bar2Access) (s : State) : Result :=
  let n := match acc.data with
    | some d => d.length
    | none => acc.bytes
  let pas := (List.range n).map fun i => s.bar2 (acc.offset + i)
  let ok := pas.all Option.isSome
  let ones := List.replicate n (0xFF : Byte)
  let s : State := if s.answers && !ok then { s with host := { s.host with bar2err := s.host.bar2err + 1 } } else s
  match acc.data with
  | some d => .next (if s.answers && ok then s.homeWrite ((pas.filterMap id).zip d) else s)
  | none =>
    if !(s.answers && ok) then .next (s.send (.readback ones)) else
    let r := (pas.filterMap id).foldl (fun (a : List Byte × State) pa => let b := a.2.homeRead none pa 1; (a.1 ++ b.1, b.2)) ([], s)
    .next (r.2.send (.readback r.1))

/-! ### BAR0 (R425, R427) -/

/-- A power of two from 64 to 65,536. -/
def packetRing (v : Nat) : Bool := (List.range 11).any fun i => v == 64 * 2 ^ i

/-- A write to a register of a queue (Table 18.2): a reserved or out-of-range value leaves it unchanged. -/
def Queue.write (q : Queue) (r v : Nat) : Queue :=
  match r with
  | 0 => if v % 4096 = 0 then { q with qbase := w64 v } else q
  | 1 => if packetRing v then { q with qsize := w64 v } else q
  | 2 => q.setKick v
  | 4 =>
    if v / 2 ^ 8 ≠ 0 || fld v 2 2 ≠ 0 then q else
    let q := if fld v 0 1 = 1 then q.enable else { q with en := false }
    if fld v 1 1 = 1 then q.clearHalt else q
  | 5 => if v % 4096 = 0 then { q with qcbase := w64 v } else q
  | 6 => if v < 64 then { q with qmsi := w64 v } else q
  | _ => q

/-- A write to a host register (Table 18.5). -/
def HostRegs.write (h : HostRegs) (o v : Nat) : HostRegs :=
  if o = 0x10 then (if fld v 1 31 = 0 then { h with bar2ctl := w64 v } else h)
  else if o = 0x18 then (if 1200 ≤ v && v ≤ 2600 then { h with powcap := w64 v } else h)
  else if 0x400 ≤ o && o < 0x40400 && o % 8 = 0 then
    (if fld v 35 28 = 0 then { h with bar2map := sset 0 h.bar2map ((o - 0x400) / 8) (w64 v) } else h)
  else h

/-- REGISTER_WRITE (R425, R427): a 64-bit write to BAR0. -/
def execRegisterWrite (offset value : Nat) (s : State) : Result :=
  let v := value % 2 ^ 64
  if !s.answers then .next s
  else if offset = 0 then .next (if v = 0x5752 then s.warmReset else s)
  else if 0x100000 ≤ offset && offset < 0x101000 && offset % 8 = 0 then
    .next (s.mapQueue ((offset - 0x100000) / 0x40) fun q => q.write (offset % 0x40 / 8) v)
  else .next { s with host := s.host.write offset v }

/-- A queue register as the host reads it (Table 18.2). -/
def Queue.read (q : Queue) (r : Nat) : W64 :=
  match r with
  | 0 => q.qbase
  | 1 => q.qsize
  | 2 => q.qkick
  | 3 => q.qhead
  | 4 => w64 ((if q.en then 1 else 0) + (if q.halt then 2 else 0) + q.err * 2 ^ 4)
  | 5 => q.qcbase
  | 6 => q.qmsi
  | _ => 0

/-- What a 64-bit read of BAR0 returns (R425, R427, R434, R439); where the tables overlap from 0x400 on, a BAR2MAP entry. -/
def State.bar0 (s : State) (o : Nat) : W64 :=
  if !s.answers then (if o = 8 then w64 s.host.bootstat else BitVec.allOnes 64)
  else if o % 8 ≠ 0 then 0
  else if o = 8 then w64 s.host.bootstat
  else if o = 0x10 then s.host.bar2ctl
  else if o = 0x18 then s.host.powcap
  else if o = 0x20 then s.host.powmeas
  else if o = 0x28 then s.host.bar2err
  else if 0x100 ≤ o && o < 0x400 then (if o < 0x280 then (s.ttCount s.cyc).tt.reg ((o - 0x100) / 8) else BitVec.allOnes 64)
  else if 0x400 ≤ o && o < 0x40400 then sget 0 s.host.bar2map ((o - 0x400) / 8)
  else if 0x100000 ≤ o && o < 0x101000 then ((s.queues[(o - 0x100000) / 0x40]?).map fun q => q.read (o % 0x40 / 8)).getD 0
  else 0

end Sys2Proof.Machine
end

