-- ==== Sys2Proof/Machine/Dispatch.lean ====
section
/-!
DEFINITION. What each instruction does: one arm per constructor of Instr, in the table's order.
-/
namespace Sys2Proof.Machine

def exec (i : Instr) (s : State) : Host.Outcome State Fault Refusal :=
  match i with
  | .header h => Sys2Proof.Machine.execHeader h s
  | .trailer t => Sys2Proof.Machine.execTrailer t s
  | .prefixWord p => Sys2Proof.Machine.execPrefixWord p s
  | .longLatencyComplete op => Sys2Proof.Machine.execLongLatencyComplete op s
  | .binFullDraw core part bin => Sys2Proof.Machine.execBinFullDraw core part bin s
  | .binAgedDraw core part bin => Sys2Proof.Machine.execBinAgedDraw core part bin s
  | .candidateLift group => Sys2Proof.Machine.execCandidateLift group s
  | .waitvReread wg tid => Sys2Proof.Machine.execWaitvReread wg tid s
  | .waitvTimeout wg tid => Sys2Proof.Machine.execWaitvTimeout wg tid s
  | .cinchComplete line => Sys2Proof.Machine.execCinchComplete line s
  | .launchAcceptance index => Sys2Proof.Machine.execLaunchAcceptance index s
  | .leafComplete region => Sys2Proof.Machine.execLeafComplete region s
  | .workgroupDispatch => Sys2Proof.Machine.execWorkgroupDispatch s
  | .contextSave wg => Sys2Proof.Machine.execContextSave wg s
  | .eventEnter index => Sys2Proof.Machine.execEventEnter index s
  | .eventHandlerStart cluster => Sys2Proof.Machine.execEventHandlerStart cluster s
  | .watchdogExpiry cluster => Sys2Proof.Machine.execWatchdogExpiry cluster s
  | .scrubError pa => Sys2Proof.Machine.execScrubError pa s
  | .storeDrain core index => Sys2Proof.Machine.execStoreDrain core index s
  | .publishBoundaryComplete id => Sys2Proof.Machine.execPublishBoundaryComplete id s
  | .migrationEpochEnd misses => Sys2Proof.Machine.execMigrationEpochEnd misses s
  | .migrationSwitch chunk => Sys2Proof.Machine.execMigrationSwitch chunk s
  | .podRequestArrival req => Sys2Proof.Machine.execPodRequestArrival req s
  | .podResponseArrival resp => Sys2Proof.Machine.execPodResponseArrival resp s
  | .peerUnreachable peer => Sys2Proof.Machine.execPeerUnreachable peer s
  | .bulkCopyStart copy => Sys2Proof.Machine.execBulkCopyStart copy s
  | .copyLine engine => Sys2Proof.Machine.execCopyLine engine s
  | .matrixStep wg => Sys2Proof.Machine.execMatrixStep wg s
  | .peerContributionArrival sender => Sys2Proof.Machine.execPeerContributionArrival sender s
  | .peerContributionReoffer sender => Sys2Proof.Machine.execPeerContributionReoffer sender s
  | .transferStep proc => Sys2Proof.Machine.execTransferStep proc s
  | .fwaitRecheck proc => Sys2Proof.Machine.execFwaitRecheck proc s
  | .fwaitTimeout proc => Sys2Proof.Machine.execFwaitTimeout proc s
  | .messageArrival msg => Sys2Proof.Machine.execMessageArrival msg s
  | .fredArrival c => Sys2Proof.Machine.execFredArrival c s
  | .fslotTimeout proc slot => Sys2Proof.Machine.execFslotTimeout proc slot s
  | .bellReceive b => Sys2Proof.Machine.execBellReceive b s
  | .rollCallEntryWrite job => Sys2Proof.Machine.execRollCallEntryWrite job s
  | .rollCallTimeout job => Sys2Proof.Machine.execRollCallTimeout job s
  | .resumeStage1 command => Sys2Proof.Machine.execResumeStage1 command s
  | .resumeStage2 command => Sys2Proof.Machine.execResumeStage2 command s
  | .resumeStage3 command => Sys2Proof.Machine.execResumeStage3 command s
  | .ttHeadIssue => Sys2Proof.Machine.execTtHeadIssue s
  | .ttMessageArrival m => Sys2Proof.Machine.execTtMessageArrival m s
  | .ttDone => Sys2Proof.Machine.execTtDone s
  | .qkickWrite queue value => Sys2Proof.Machine.execQkickWrite queue value s
  | .queueEnable queue => Sys2Proof.Machine.execQueueEnable queue s
  | .queueHaltClear queue => Sys2Proof.Machine.execQueueHaltClear queue s
  | .packetFetch queue => Sys2Proof.Machine.execPacketFetch queue s
  | .packetSeqRetry queue => Sys2Proof.Machine.execPacketSeqRetry queue s
  | .createJob queue => Sys2Proof.Machine.execCreateJob queue s
  | .release queue => Sys2Proof.Machine.execRelease queue s
  | .launchPacket queue => Sys2Proof.Machine.execLaunchPacket queue s
  | .grant queue => Sys2Proof.Machine.execGrant queue s
  | .fabricStart queue => Sys2Proof.Machine.execFabricStart queue s
  | .ttStart queue => Sys2Proof.Machine.execTtStart queue s
  | .preempt queue => Sys2Proof.Machine.execPreempt queue s
  | .bellRaise queue => Sys2Proof.Machine.execBellRaise queue s
  | .bellResume queue => Sys2Proof.Machine.execBellResume queue s
  | .kill queue => Sys2Proof.Machine.execKill queue s
  | .attest queue => Sys2Proof.Machine.execAttest queue s
  | .domain queue => Sys2Proof.Machine.execDomain queue s
  | .ctxstore queue => Sys2Proof.Machine.execCtxstore queue s
  | .fence queue => Sys2Proof.Machine.execFence queue s
  | .bar2Access acc => Sys2Proof.Machine.execBar2Access acc s
  | .registerWrite offset value => Sys2Proof.Machine.execRegisterWrite offset value s
  | .pfrzWrite value => Sys2Proof.Machine.execPfrzWrite value s
  | .lcclrWrite core value => Sys2Proof.Machine.execLcclrWrite core value s
  | .xcwaysWrite value => Sys2Proof.Machine.execXcwaysWrite value s
  | .coldReset => Sys2Proof.Machine.execColdReset s
  | .warmReset => Sys2Proof.Machine.execWarmReset s
  | .functionReset => Sys2Proof.Machine.execFunctionReset s
  | .linkTraining => Sys2Proof.Machine.execLinkTraining s
  | .secureBoot image => Sys2Proof.Machine.execSecureBoot image s
  | .securityAlarm zeroise => Sys2Proof.Machine.execSecurityAlarm zeroise s
  | .powerWindow sample => Sys2Proof.Machine.execPowerWindow sample s
  | .add f => Sys2Proof.Machine.execAdd f s
  | .add64 f => Sys2Proof.Machine.execAdd64 f s
  | .add64i f => Sys2Proof.Machine.execAdd64i f s
  | .sub f => Sys2Proof.Machine.execSub f s
  | .sub64 f => Sys2Proof.Machine.execSub64 f s
  | .sub64i f => Sys2Proof.Machine.execSub64i f s
  | .mul f => Sys2Proof.Machine.execMul f s
  | .mul64 f => Sys2Proof.Machine.execMul64 f s
  | .mul64i f => Sys2Proof.Machine.execMul64i f s
  | .mulh f => Sys2Proof.Machine.execMulh f s
  | .mulh64 f => Sys2Proof.Machine.execMulh64 f s
  | .mulh64i f => Sys2Proof.Machine.execMulh64i f s
  | .mad f => Sys2Proof.Machine.execMad f s
  | .min f => Sys2Proof.Machine.execMin f s
  | .min64 f => Sys2Proof.Machine.execMin64 f s
  | .min64i f => Sys2Proof.Machine.execMin64i f s
  | .max f => Sys2Proof.Machine.execMax f s
  | .max64 f => Sys2Proof.Machine.execMax64 f s
  | .max64i f => Sys2Proof.Machine.execMax64i f s
  | .abs f => Sys2Proof.Machine.execAbs f s
  | .abs64 f => Sys2Proof.Machine.execAbs64 f s
  | .and f => Sys2Proof.Machine.execAnd f s
  | .and64 f => Sys2Proof.Machine.execAnd64 f s
  | .and64i f => Sys2Proof.Machine.execAnd64i f s
  | .or f => Sys2Proof.Machine.execOr f s
  | .or64 f => Sys2Proof.Machine.execOr64 f s
  | .or64i f => Sys2Proof.Machine.execOr64i f s
  | .xor f => Sys2Proof.Machine.execXor f s
  | .xor64 f => Sys2Proof.Machine.execXor64 f s
  | .xor64i f => Sys2Proof.Machine.execXor64i f s
  | .andn f => Sys2Proof.Machine.execAndn f s
  | .andn64 f => Sys2Proof.Machine.execAndn64 f s
  | .andn64i f => Sys2Proof.Machine.execAndn64i f s
  | .shl f => Sys2Proof.Machine.execShl f s
  | .shl64 f => Sys2Proof.Machine.execShl64 f s
  | .shl64i f => Sys2Proof.Machine.execShl64i f s
  | .shr f => Sys2Proof.Machine.execShr f s
  | .shr64 f => Sys2Proof.Machine.execShr64 f s
  | .shr64i f => Sys2Proof.Machine.execShr64i f s
  | .sar f => Sys2Proof.Machine.execSar f s
  | .sar64 f => Sys2Proof.Machine.execSar64 f s
  | .sar64i f => Sys2Proof.Machine.execSar64i f s
  | .rot f => Sys2Proof.Machine.execRot f s
  | .rot64 f => Sys2Proof.Machine.execRot64 f s
  | .rot64i f => Sys2Proof.Machine.execRot64i f s
  | .clz f => Sys2Proof.Machine.execClz f s
  | .clz64 f => Sys2Proof.Machine.execClz64 f s
  | .popc f => Sys2Proof.Machine.execPopc f s
  | .popc64 f => Sys2Proof.Machine.execPopc64 f s
  | .bfx f start len => Sys2Proof.Machine.execBfx f start len s
  | .bfi f start len => Sys2Proof.Machine.execBfi f start len s
  | .sel f q neg => Sys2Proof.Machine.execSel f q neg s
  | .cmp c q f => Sys2Proof.Machine.execCmp c q f s
  | .cmp64 c q f => Sys2Proof.Machine.execCmp64 c q f s
  | .cmp64i c q f => Sys2Proof.Machine.execCmp64i c q f s
  | .addc f cin cout => Sys2Proof.Machine.execAddc f cin cout s
  | .subb f cin cout => Sys2Proof.Machine.execSubb f cin cout s
  | .mov f => Sys2Proof.Machine.execMov f s
  | .mov64 f => Sys2Proof.Machine.execMov64 f s
  | .mov64i f => Sys2Proof.Machine.execMov64i f s
  | .lea f => Sys2Proof.Machine.execLea f s
  | .lea64 f shift => Sys2Proof.Machine.execLea64 f shift s
  | .lea64i f => Sys2Proof.Machine.execLea64i f s
  | .dot4 f => Sys2Proof.Machine.execDot4 f s
  | .dot464 f => Sys2Proof.Machine.execDot464 f s
  | .sad f => Sys2Proof.Machine.execSad f s
  | .sad64 f => Sys2Proof.Machine.execSad64 f s
  | .fadd f => Sys2Proof.Machine.execFadd f s
  | .fadd64 f => Sys2Proof.Machine.execFadd64 f s
  | .fadd64i f => Sys2Proof.Machine.execFadd64i f s
  | .fsub f => Sys2Proof.Machine.execFsub f s
  | .fsub64 f => Sys2Proof.Machine.execFsub64 f s
  | .fsub64i f => Sys2Proof.Machine.execFsub64i f s
  | .fmul f => Sys2Proof.Machine.execFmul f s
  | .fmul64 f => Sys2Proof.Machine.execFmul64 f s
  | .fmul64i f => Sys2Proof.Machine.execFmul64i f s
  | .fma f => Sys2Proof.Machine.execFma f s
  | .fmin f => Sys2Proof.Machine.execFmin f s
  | .fmin64 f => Sys2Proof.Machine.execFmin64 f s
  | .fmin64i f => Sys2Proof.Machine.execFmin64i f s
  | .fmax f => Sys2Proof.Machine.execFmax f s
  | .fmax64 f => Sys2Proof.Machine.execFmax64 f s
  | .fmax64i f => Sys2Proof.Machine.execFmax64i f s
  | .fcmp c q f => Sys2Proof.Machine.execFcmp c q f s
  | .fcmp64 c q f => Sys2Proof.Machine.execFcmp64 c q f s
  | .fcmp64i c q f => Sys2Proof.Machine.execFcmp64i c q f s
  | .fclass f => Sys2Proof.Machine.execFclass f s
  | .fclass64 f => Sys2Proof.Machine.execFclass64 f s
  | .fdiv f => Sys2Proof.Machine.execFdiv f s
  | .fdiv64 f => Sys2Proof.Machine.execFdiv64 f s
  | .fdiv64i f => Sys2Proof.Machine.execFdiv64i f s
  | .fsqrt f => Sys2Proof.Machine.execFsqrt f s
  | .fsqrt64 f => Sys2Proof.Machine.execFsqrt64 f s
  | .rcp f => Sys2Proof.Machine.execRcp f s
  | .rcp64 f => Sys2Proof.Machine.execRcp64 f s
  | .rsq f => Sys2Proof.Machine.execRsq f s
  | .rsq64 f => Sys2Proof.Machine.execRsq64 f s
  | .ex2 f => Sys2Proof.Machine.execEx2 f s
  | .ex264 f => Sys2Proof.Machine.execEx264 f s
  | .lg2 f => Sys2Proof.Machine.execLg2 f s
  | .lg264 f => Sys2Proof.Machine.execLg264 f s
  | .sin f => Sys2Proof.Machine.execSin f s
  | .sin64 f => Sys2Proof.Machine.execSin64 f s
  | .cos f => Sys2Proof.Machine.execCos f s
  | .cos64 f => Sys2Proof.Machine.execCos64 f s
  | .frnd f => Sys2Proof.Machine.execFrnd f s
  | .frnd64 f => Sys2Proof.Machine.execFrnd64 f s
  | .fscl f => Sys2Proof.Machine.execFscl f s
  | .fscl64 f => Sys2Proof.Machine.execFscl64 f s
  | .fscl64i f => Sys2Proof.Machine.execFscl64i f s
  | .fexp f => Sys2Proof.Machine.execFexp f s
  | .fexp64 f => Sys2Proof.Machine.execFexp64 f s
  | .fdot2 f => Sys2Proof.Machine.execFdot2 f s
  | .fdot264 f => Sys2Proof.Machine.execFdot264 f s
  | .cvt f m => Sys2Proof.Machine.execCvt f m s
  | .pk f => Sys2Proof.Machine.execPk f s
  | .pk64 f => Sys2Proof.Machine.execPk64 f s
  | .upk f half => Sys2Proof.Machine.execUpk f half s
  | .upk64 f half => Sys2Proof.Machine.execUpk64 f half s
  | .swz f => Sys2Proof.Machine.execSwz f s
  | .swz64 f => Sys2Proof.Machine.execSwz64 f s
  | .bcs f => Sys2Proof.Machine.execBcs f s
  | .bcs64 f deposit => Sys2Proof.Machine.execBcs64 f deposit s
  | .rng f => Sys2Proof.Machine.execRng f s
  | .rng64 f => Sys2Proof.Machine.execRng64 f s
  | .qnt f m scale => Sys2Proof.Machine.execQnt f m scale s
  | .dqn f m band => Sys2Proof.Machine.execDqn f m band s
  | .xsh f => Sys2Proof.Machine.execXsh f s
  | .xsh64 f => Sys2Proof.Machine.execXsh64 f s
  | .xpush f => Sys2Proof.Machine.execXpush f s
  | .xpush64 f => Sys2Proof.Machine.execXpush64 f s
  | .xbc f lane sub => Sys2Proof.Machine.execXbc f lane sub s
  | .xrot f n => Sys2Proof.Machine.execXrot f n s
  | .xrot64 f n => Sys2Proof.Machine.execXrot64 f n s
  | .vote m f => Sys2Proof.Machine.execVote m f s
  | .vote64 m f => Sys2Proof.Machine.execVote64 m f s
  | .xred op f => Sys2Proof.Machine.execXred op f s
  | .xred64 op f => Sys2Proof.Machine.execXred64 op f s
  | .xscan op f => Sys2Proof.Machine.execXscan op f s
  | .xscan64 op f => Sys2Proof.Machine.execXscan64 op f s
  | .xmatch f => Sys2Proof.Machine.execXmatch f s
  | .xmatch64 f => Sys2Proof.Machine.execXmatch64 f s
  | .ld f off => Sys2Proof.Machine.execLd f off s
  | .ld64 f m => Sys2Proof.Machine.execLd64 f m s
  | .ld64i f => Sys2Proof.Machine.execLd64i f s
  | .st f off => Sys2Proof.Machine.execSt f off s
  | .st64 f m => Sys2Proof.Machine.execSt64 f m s
  | .st64i f => Sys2Proof.Machine.execSt64i f s
  | .lds f off => Sys2Proof.Machine.execLds f off s
  | .lds64 f shift => Sys2Proof.Machine.execLds64 f shift s
  | .lds64i f => Sys2Proof.Machine.execLds64i f s
  | .sts f off => Sys2Proof.Machine.execSts f off s
  | .sts64 f shift => Sys2Proof.Machine.execSts64 f shift s
  | .sts64i f => Sys2Proof.Machine.execSts64i f s
  | .ldx f => Sys2Proof.Machine.execLdx f s
  | .ldx64i f => Sys2Proof.Machine.execLdx64i f s
  | .stx f wscale => Sys2Proof.Machine.execStx f wscale s
  | .stx64i f => Sys2Proof.Machine.execStx64i f s
  | .atom f op fl off => Sys2Proof.Machine.execAtom f op fl off s
  | .atomx f rdclr fl off => Sys2Proof.Machine.execAtomx f rdclr fl off s
  | .stash f => Sys2Proof.Machine.execStash f s
  | .pref f off => Sys2Proof.Machine.execPref f off s
  | .pref64 f shift target => Sys2Proof.Machine.execPref64 f shift target s
  | .pref64i f => Sys2Proof.Machine.execPref64i f s
  | .cpout f => Sys2Proof.Machine.execCpout f s
  | .cseal n => Sys2Proof.Machine.execCseal n s
  | .cwait n => Sys2Proof.Machine.execCwait n s
  | .waitv f c => Sys2Proof.Machine.execWaitv f c s
  | .phasePub => Sys2Proof.Machine.execPhasePub s
  | .phaseAcq => Sys2Proof.Machine.execPhaseAcq s
  | .phaseAr => Sys2Proof.Machine.execPhaseAr s
  | .fenceLd => Sys2Proof.Machine.execFenceLd s
  | .fenceIo => Sys2Proof.Machine.execFenceIo s
  | .fenceSp => Sys2Proof.Machine.execFenceSp s
  | .br off => Sys2Proof.Machine.execBr off s
  | .br64i off => Sys2Proof.Machine.execBr64i off s
  | .brx a => Sys2Proof.Machine.execBrx a s
  | .brx64 a guard => Sys2Proof.Machine.execBrx64 a guard s
  | .call link off => Sys2Proof.Machine.execCall link off s
  | .ret a => Sys2Proof.Machine.execRet a s
  | .ret64 a guard => Sys2Proof.Machine.execRet64 a guard s
  | .reform => Sys2Proof.Machine.execReform s
  | .reformAll => Sys2Proof.Machine.execReformAll s
  | .exit => Sys2Proof.Machine.execExit s
  | .exit64 guard => Sys2Proof.Machine.execExit64 guard s
  | .brk n => Sys2Proof.Machine.execBrk n s
  | .trap b => Sys2Proof.Machine.execTrap b s
  | .trap64i code => Sys2Proof.Machine.execTrap64i code s
  | .nop => Sys2Proof.Machine.execNop s
  | .pmark b => Sys2Proof.Machine.execPmark b s
  | .pmark64i code => Sys2Proof.Machine.execPmark64i code s
  | .kadd f => Sys2Proof.Machine.execKadd f s
  | .kadd64 f => Sys2Proof.Machine.execKadd64 f s
  | .kadd64i f => Sys2Proof.Machine.execKadd64i f s
  | .ksub f => Sys2Proof.Machine.execKsub f s
  | .ksub64 f => Sys2Proof.Machine.execKsub64 f s
  | .ksub64i f => Sys2Proof.Machine.execKsub64i f s
  | .kmul f => Sys2Proof.Machine.execKmul f s
  | .kmul64 f => Sys2Proof.Machine.execKmul64 f s
  | .kmul64i f => Sys2Proof.Machine.execKmul64i f s
  | .kmad f => Sys2Proof.Machine.execKmad f s
  | .kdiv f => Sys2Proof.Machine.execKdiv f s
  | .kdiv64 f => Sys2Proof.Machine.execKdiv64 f s
  | .kdiv64i f => Sys2Proof.Machine.execKdiv64i f s
  | .kmin f => Sys2Proof.Machine.execKmin f s
  | .kmin64 f => Sys2Proof.Machine.execKmin64 f s
  | .kmin64i f => Sys2Proof.Machine.execKmin64i f s
  | .kmax f => Sys2Proof.Machine.execKmax f s
  | .kmax64 f => Sys2Proof.Machine.execKmax64 f s
  | .kmax64i f => Sys2Proof.Machine.execKmax64i f s
  | .kand f => Sys2Proof.Machine.execKand f s
  | .kand64 f => Sys2Proof.Machine.execKand64 f s
  | .kand64i f => Sys2Proof.Machine.execKand64i f s
  | .kor f => Sys2Proof.Machine.execKor f s
  | .kor64 f => Sys2Proof.Machine.execKor64 f s
  | .kor64i f => Sys2Proof.Machine.execKor64i f s
  | .kxor f => Sys2Proof.Machine.execKxor f s
  | .kxor64 f => Sys2Proof.Machine.execKxor64 f s
  | .kxor64i f => Sys2Proof.Machine.execKxor64i f s
  | .kshl f => Sys2Proof.Machine.execKshl f s
  | .kshl64 f => Sys2Proof.Machine.execKshl64 f s
  | .kshl64i f => Sys2Proof.Machine.execKshl64i f s
  | .kshr f => Sys2Proof.Machine.execKshr f s
  | .kshr64 f => Sys2Proof.Machine.execKshr64 f s
  | .kshr64i f => Sys2Proof.Machine.execKshr64i f s
  | .ksar f => Sys2Proof.Machine.execKsar f s
  | .ksar64 f => Sys2Proof.Machine.execKsar64 f s
  | .ksar64i f => Sys2Proof.Machine.execKsar64i f s
  | .kcmp f c => Sys2Proof.Machine.execKcmp f c s
  | .ksel f => Sys2Proof.Machine.execKsel f s
  | .kmov f => Sys2Proof.Machine.execKmov f s
  | .kmov64 f => Sys2Proof.Machine.execKmov64 f s
  | .kmov64i f => Sys2Proof.Machine.execKmov64i f s
  | .kclz f => Sys2Proof.Machine.execKclz f s
  | .kclz64 f => Sys2Proof.Machine.execKclz64 f s
  | .kpopc f => Sys2Proof.Machine.execKpopc f s
  | .kpopc64 f => Sys2Proof.Machine.execKpopc64 f s
  | .kbfx f start len => Sys2Proof.Machine.execKbfx f start len s
  | .kbfi f start len => Sys2Proof.Machine.execKbfi f start len s
  | .klea f => Sys2Proof.Machine.execKlea f s
  | .klea64 f shift => Sys2Proof.Machine.execKlea64 f shift s
  | .klea64i f => Sys2Proof.Machine.execKlea64i f s
  | .kld f off => Sys2Proof.Machine.execKld f off s
  | .kld64 f m => Sys2Proof.Machine.execKld64 f m s
  | .kld64i f => Sys2Proof.Machine.execKld64i f s
  | .kst f off => Sys2Proof.Machine.execKst f off s
  | .kst64 f m => Sys2Proof.Machine.execKst64 f m s
  | .kst64i f => Sys2Proof.Machine.execKst64i f s
  | .katom f op fl off => Sys2Proof.Machine.execKatom f op fl off s
  | .ubr off => Sys2Proof.Machine.execUbr off s
  | .ubr64i sense a off => Sys2Proof.Machine.execUbr64i sense a off s
  | .ubrx a => Sys2Proof.Machine.execUbrx a s
  | .ubrx64 a => Sys2Proof.Machine.execUbrx64 a s
  | .ucall link off => Sys2Proof.Machine.execUcall link off s
  | .uret a => Sys2Proof.Machine.execUret a s
  | .uret64 a => Sys2Proof.Machine.execUret64 a s
  | .uexit => Sys2Proof.Machine.execUexit s
  | .uexit64 => Sys2Proof.Machine.execUexit64 s
  | .launch d a held guard => Sys2Proof.Machine.execLaunch d a held guard s
  | .rcbrd d a word guard => Sys2Proof.Machine.execRcbrd d a word guard s
  | .barinit members n => Sys2Proof.Machine.execBarinit members n s
  | .barinit64 members bytes n guard => Sys2Proof.Machine.execBarinit64 members bytes n guard s
  | .barrive d bytes n => Sys2Proof.Machine.execBarrive d bytes n s
  | .barrive64 d bytes n pub guard => Sys2Proof.Machine.execBarrive64 d bytes n pub guard s
  | .barwait token n => Sys2Proof.Machine.execBarwait token n s
  | .bartest d n => Sys2Proof.Machine.execBartest d n s
  | .cinch line => Sys2Proof.Machine.execCinch line s
  | .cinchcfg d mask t line guard => Sys2Proof.Machine.execCinchcfg d mask t line guard s
  | .cinchcfgUnbind d line guard => Sys2Proof.Machine.execCinchcfgUnbind d line guard s
  | .cpslice tlr origin off bar slice count => Sys2Proof.Machine.execCpslice tlr origin off bar slice count s
  | .binct set bin guard => Sys2Proof.Machine.execBinct set bin guard s
  | .binpatch d target bin mult field index guard => Sys2Proof.Machine.execBinpatch d target bin mult field index guard s
  | .binrel target guard => Sys2Proof.Machine.execBinrel target guard s
  | .binrelClear set guard => Sys2Proof.Machine.execBinrelClear set guard s
  | .mstart d => Sys2Proof.Machine.execMstart d s
  | .bload desc cim => Sys2Proof.Machine.execBload desc cim s
  | .mma desc kb nb cim tile => Sys2Proof.Machine.execMma desc kb nb cim tile s
  | .mzero tile count => Sys2Proof.Machine.execMzero tile count s
  | .mdrainSt desc tile => Sys2Proof.Machine.execMdrainSt desc tile s
  | .mdrainAdd desc alpha tile => Sys2Proof.Machine.execMdrainAdd desc alpha tile s
  | .mdrainPeer target tile => Sys2Proof.Machine.execMdrainPeer target tile s
  | .mexpect list tile bar sources => Sys2Proof.Machine.execMexpect list tile bar sources s
  | .rowstat x block tile bar => Sys2Proof.Machine.execRowstat x block tile bar s
  | .rowexp desc scale tile => Sys2Proof.Machine.execRowexp desc scale tile s
  | .mpin d key tile => Sys2Proof.Machine.execMpin d key tile s
  | .munpin tile => Sys2Proof.Machine.execMunpin tile s
  | .mrefill addr tile count => Sys2Proof.Machine.execMrefill addr tile count s
  | .mspill addr tile count => Sys2Proof.Machine.execMspill addr tile count s
  | .mmode rnd flush => Sys2Proof.Machine.execMmode rnd flush s
  | .fput d dst src count => Sys2Proof.Machine.execFput d dst src count s
  | .fget d dst src count => Sys2Proof.Machine.execFget d dst src count s
  | .fsend msg endpoint => Sys2Proof.Machine.execFsend msg endpoint s
  | .frecv msg channel => Sys2Proof.Machine.execFrecv msg channel s
  | .fcomp d ctl src dst => Sys2Proof.Machine.execFcomp d ctl src dst s
  | .fdecomp d ctl src dst => Sys2Proof.Machine.execFdecomp d ctl src dst s
  | .fdar d ctl src dst => Sys2Proof.Machine.execFdar d ctl src dst s
  | .fdarLast d ctl src dst => Sys2Proof.Machine.execFdarLast d ctl src dst s
  | .fwait d bar => Sys2Proof.Machine.execFwait d bar s
  | .fsig bar amount => Sys2Proof.Machine.execFsig bar amount s
  | .fslot res config timeout bitmap => Sys2Proof.Machine.execFslot res config timeout bitmap s
  | .fred value root index => Sys2Proof.Machine.execFred value root index s
  | .fckpt d cld area hop => Sys2Proof.Machine.execFckpt d cld area hop s
  | .frest d cld area => Sys2Proof.Machine.execFrest d cld area s
  | .ttpost mb count free prev guard => Sys2Proof.Machine.execTtpost mb count free prev guard s
  | .ttwaitRdy d cond threshold timeout guard => Sys2Proof.Machine.execTtwaitRdy d cond threshold timeout guard s
  | .ttwaitCr d cond threshold timeout guard => Sys2Proof.Machine.execTtwaitCr d cond threshold timeout guard s
  | .ttwaitDone d cond timeout guard => Sys2Proof.Machine.execTtwaitDone d cond timeout guard s
  | .ttwaitRd d index guard => Sys2Proof.Machine.execTtwaitRd d index guard s
  | .bell a => Sys2Proof.Machine.execBell a s
  | .lcrbin d range cls guard => Sys2Proof.Machine.execLcrbin d range cls guard s
  | .dwrd d handle index space => Sys2Proof.Machine.execDwrd d handle index space s
  | .dwwr handle index value space => Sys2Proof.Machine.execDwwr handle index value space s
  | .gresumeCont handle level => Sys2Proof.Machine.execGresumeCont handle level s
  | .gresumeReexec handle level => Sys2Proof.Machine.execGresumeReexec handle level s
  | .gresumeStep handle level => Sys2Proof.Machine.execGresumeStep handle level s
  | .gkill handle code faulted => Sys2Proof.Machine.execGkill handle code faulted s
  | .tlbi mode va asid count => Sys2Proof.Machine.execTlbi mode va asid count s
  | .csrrd d addr => Sys2Proof.Machine.execCsrrd d addr s
  | .csrwr value addr => Sys2Proof.Machine.execCsrwr value addr s
  | .eret => Sys2Proof.Machine.execEret s
  | .ttwaitTimeout op => Sys2Proof.Machine.execTtwaitTimeout op s
  | .idleLaneCycles core part => Sys2Proof.Machine.execIdleLaneCycles core part s

end Sys2Proof.Machine
end

