-- ==== Sys2Proof/Machine/Timers.lean ====
section
/-!
DEFINITION. The device's own steps whose clk the spec fixes: the draw of a bin (R150, R151), the lift of a candidate (R154), the reads and
the timeout of a parked `waitv` (R174), the test of the Timetable's head (R400, R402). Each is the first thing on its clk; a word that
would issue later than one of them, or than the freeze of its unit, waits.
-/
namespace Sys2Proof.Machine

/-- The state at a clk. -/
def State.atClk (s : State) (clk : Nat) : State := { s with cyc := clk }

/-- The draw of a bin that is due (R150): when it is full, or has aged, and not on its last-filing clk. -/
def State.drawDue (s : State) (b : Bin) : Option (Nat × Instr) :=
  match s.wg? b.wg with
  | none => none
  | some w => match s.leafOf w with
    | none => none
    | some r =>
      let c := max s.cyc (b.last + 1)
      let a := max c (b.filed + r.age + b.held)
      let may := fun (clk : Nat) => (s.atClk clk).drawable b && !w.diverged.contains b.block
      if b.full w && may c then some (c, .binFullDraw b.core b.part b.index)
      else if (s.atClk a).aged w r b && may a then some (a, .binAgedDraw b.core b.part b.index) else none

/-- The lift of a candidate by some clk (R154). -/
def State.liftDue (s : State) (limit : Nat) (g : Group) : Option (Nat × Instr) :=
  match (s.atClk limit).waitingSince g with
  | none => none
  | some c =>
    let clk := max s.cyc (c + g.held + 4097)
    if (s.atClk clk).liftable g then some (clk, .candidateLift g.id) else none

/-- The next read of a parked thread (R174): the first at once, one when the location no longer holds the value of the last read, one 1,024
clk after the last read. -/
def State.rereadDue (s : State) (w : Workgroup) (tid : Nat) (p : WaitvPark) : Option (Nat × Instr) :=
  match s.op? p.op with
  | none => none
  | some o =>
    if w.residence != .resident || s.threadFrozen w.id tid || o.sent || !s.clear o.after then none else
    let u := s.wgAccessor w
    let later := some ((if p.lastRead.isNone then s.cyc else max s.cyc (p.read + 1024)), Instr.waitvReread w.id tid)
    match checkAccess s u (loadRule p.width) o.checked p.va p.width with
    | .error _ => later
    | .ok t =>
      match (t.refresh w.core).loadAt u (o.reader false) true p.va p.width with
      | .bytes l _ =>
        if o.got.isEmpty && p.lastRead == some (extendLoad p.signed p.width (leNat l)) then later else some (s.cyc, .waitvReread w.id tid)
      | .remote .. => later
      | .wait | .fault .. => none

/-- The timeout of a parked thread (R174). -/
def State.timeoutDue (s : State) (w : Workgroup) (tid : Nat) (p : WaitvPark) : Option (Nat × Instr) :=
  if w.residence != .resident || s.threadFrozen w.id tid || s.debugStopped w.id || p.timeout = 0 || p.lastRead.isNone || (s.op? p.op).isNone
  then none else some (max s.cyc (p.since + p.timeout), .waitvTimeout w.id tid)

/-- What is due of a thread. -/
def State.parkDue (s : State) (w : Workgroup) (t : Thread) : List (Nat × Instr) :=
  match t.place with
  | .waitv p => (s.rereadDue w t.tid p).toList ++ (s.timeoutDue w t.tid p).toList
  | _ => []

/-- The Timetable's head, when it is to be read or a test of it does more than wait (R400, R402). -/
def State.headDue (s : State) : List (Nat × Instr) :=
  let c := max s.cyc (max s.tt.since (if s.tt.entry.isSome then s.tt.changed + 1 else 0))
  if (s.atClk c).ttActs then [(c, .ttHeadIssue)] else []

/-- The timed steps that fall due by some clk. -/
def State.timed (s : State) (limit : Nat) : List (Nat × Instr) :=
  ((s.wgs.flatMap fun w => w.threads.flatMap (s.parkDue w)) ++ s.headDue ++ s.bins.filterMap s.drawDue ++
    s.groups.filterMap (s.liftDue limit)).filter fun e => decide (e.1 ≤ limit)

/-- The earliest of some timed steps. -/
def earliestStep : List (Nat × Instr) → Option (Nat × Instr)
  | [] => none
  | e :: r => match earliestStep r with
    | some f => some (if f.1 < e.1 then f else e)
    | none => some e

/-- The timed step that comes first, if one falls due by a clk. -/
def State.timedBy (s : State) (limit : Nat) : Option (Nat × Instr) := earliestStep (s.timed limit)

/-- An uncorrectable error arises (R339). -/
def State.strike (s : State) : Strike → State
  | .memory pa llc => if inHbm pa then { s with errors := s.errors ++ [(pa, if llc then 1 else 0)] } else s
  | .thread wg tid r => s.mapThread wg tid fun t => { t with upsets := t.upsets ++ [r] }
  | .stream wg n => s.mapStream wg fun x => { x with upsets := x.upsets ++ [n] }
  | .workgroup wg u => s.mapWg wg fun w => { w with upsets := w.upsets ++ [u] }

/-- The uncorrectable error of this step, if one arises. -/
def State.struck (s : State) : State := match Config.upset s.fresh with
  | some e => s.strike e
  | none => s

/-- The state in which what happens next is chosen: an uncorrectable error may have arisen (R339). -/
def State.awaited (s : State) : State := ({ s with fresh := s.fresh + 1 } : State).struck

/-- Whether a freeze holds a unit at a clk. -/
def State.heldAt (s : State) (u : UnitId) (clk : Nat) : Bool :=
  let job := fun (g : Grant) (j : Nat) => s.jobHeldAt j clk && !s.grants.contains g
  match u with
  | .group id => (s.group? id).any fun g => (s.wg? g.wg).any fun w => s.groupFrozen w g clk
  | .stream id => (s.wg? id).any fun w => job (.stream id) (s.jobOf w)
  | .fabric n => (s.proc? n).any fun p => p.job.any (job (.fabric n))
  | .control _ => false

/-- Whether a word of a unit that would issue at a clk, later than now, is overtaken: a timed step or a freeze comes first. -/
def State.overtaken (s : State) (u : UnitId) (clk : Nat) : Bool :=
  decide (s.cyc < clk) && (s.heldAt u clk || (s.timedBy clk).isSome)

end Sys2Proof.Machine
end

