-- ==== Sys2Proof/Machine/Step.lean ====
section
/-!
DEFINITION. One step: the next thing in `todo`, or what `Config.schedule` names, unless a timed step of the device comes first. A unit
fetches its next word, which `exec` runs; one of the device's own steps is run as it is. Also `withFetchWord`, a package in which a given instruction is the next word.
-/
namespace Sys2Proof.Machine

/-- One word of a unit: what it offers runs, between the checks before it and the bookkeeping after it. A word whose clk lies beyond a
freeze of its unit or a timed step of the device does not run yet. -/
noncomputable def runUnit (s : State) (u : UnitId) : Host.Outcome State Fault Refusal :=
  match s.offer u with
  | .idle t => .next (if s.overtaken u t.cyc then { s with turn := none, hold := false } else { t with turn := none, hold := false })
  | .run i active counts t =>
    match exec i t with
    | .next t => .next (if s.overtaken u t.cyc then { s with turn := none, hold := false } else State.finish s t u i active counts)
    | .fault f => .fault f
    | .refused r => .refused r

/-- Perform one act: a step of the device is one without an encoding. -/
noncomputable def perform (s : State) : Act → Host.Outcome State Fault Refusal
  | .unit u => runUnit s u
  | .event i => if (encode i).isSome then .next s else exec i s

/-- What happens next, and after how many clk. -/
def nextAct (s : State) : Act × State :=
  match s.todo with
  | a :: r => (a, { s with todo := r, fresh := s.fresh + 1 })
  | [] =>
    let c := Config.schedule s.fresh
    match s.awaited.timedBy (s.awaited.cyc + c.1) with
    | some e => (.event e.2, s.awaited.atClk e.1)
    | none => (c.2, s.awaited.atClk (s.awaited.cyc + c.1))

/-- One step of the package. -/
noncomputable def step (s : State) : Host.Outcome State Fault Refusal :=
  perform (nextAct s).2 (nextAct s).1

/-! ### A package about to run a given instruction -/

/-- The address at which `withFetchWord` places its instruction, virtual and physical. -/
def probeBase : Nat := 0x10000

/-- Memory with the instruction's two words, and tables that map its page for fetching (Table 7.2). -/
def probeMem (m : Sparse Byte) (w : Nat) : Sparse Byte :=
  memPut (memPut (memPut (memPut (memPut m probeBase 8 w) 0x100000 16 0x110003) 0x110000 16 0x120003) 0x120000 16 0x130003)
    0x130010 16 0x1065D

/-- A leaf of one workgroup of 32 threads with 128 registers. -/
def probeRegion : Region :=
  { id := 1, job := 1, va := 0x1000
    words := [0x0301000000000000, 0, 0, 0, 0, 0, 0, 0, w64 probeBase, w64 probeBase, 0x100000001, 1, 0x400820, 0x1010401080] ++
      List.replicate 18 0
    params := [], parent := none, state := 2, rref := 0, lref := 0, loff := 0, live := true, order := 0, nextW := 1, ended := 0
    held := false, device := false, k60 := none }

/-- Its job. -/
def probeJob : Job :=
  { id := 1, asid := 1, root := 0x100000, region := 1, bcb := none, bseq := 0, freeze := none, hstate := 0, hseq := 0, roll := [], headed := true }

/-- A stream at an address. -/
def Stream.at (pc : Nat) : Stream :=
  { stage := .running, pc, last := 0, k := [], rnd := 0, flush := 0, queue := [], stop := none, wait := none, outbound := none
    lists := [], buffered := [], assist := none, upsets := [] }

/-- Its workgroup, with a stream at the instruction. -/
def probeWg : Workgroup :=
  { id := 1, region := 1, w := 0, core := 0, slot := 0, order := 0, residence := .resident
    threads := (List.range 32).map fun i => Thread.start i probeBase 0 (.group 1)
    k := [], ksettling := [], scr := [], acc := [], macros := List.replicate 4 CimMacro.reset
    bars := List.replicate 16 ⟨false, 0, 0, 0, 0⟩, stream := some (Stream.at probeBase), stopped := none, diverged := []
    copyTurn := 0, upsets := [] }

/-- Its group: at a header, or in a run whose only remaining words are the instruction's. -/
def probeGroup (run : Option Run) : Group :=
  { id := 1, wg := 1, block := 0, lanes := List.range 32, pc := probeBase, run, since := 0, parked := false, lifted := false
    stop := none, step := none, skipWatch := false, filing := none, held := 0, parkFault := false, go := false }

/-- The run of the probe's group with some counted words left. -/
def probeRun (left : Nat) : Run :=
  { header := probeBase - 4, clk := 0, pc := probeBase, left, pfx := none, ordinals := [], tail := .fall }

/-- The event that the probe's control core handles. -/
def probeEvent : EventRec := { words := [0, 0, 0, 0, 0, 0, 0, 1], core := 0, part := 0, clk := 0 }

/-- The unit that the probe's instruction runs on, by its set and op (Table 1.6). -/
def probeUnit (w0 : Nat) : UnitId :=
  let op := opField w0
  if !isUniform w0 || isHeaderWord w0 || isPrefixWord w0 then .group 1
  else if 0x40 ≤ op && op < 0x60 then .stream 1
  else if 0x60 ≤ op && op < 0x70 then .fabric 0
  else if 0x78 ≤ op then .control 0
  else .group 1

/-- The probe's group, as the instruction's first word needs it: a header is due, a trailer is due, a prefix stands before one
more word, an instruction is last in its run. -/
def probeGroupFor (w0 : Nat) : Group :=
  probeGroup (if isHeaderWord w0 then none
    else if isTrailerWord w0 then some (probeRun 0)
    else if isPrefixWord w0 then some (probeRun 2)
    else some (probeRun (if isDouble w0 then 2 else 1)))

/-- `s` with an instruction as the very next word: a leaf that runs it stands loaded and dispatched (its page mapped, its
segments zero-filled, its job, region, workgroup and group in place), its unit has the next turn, and no timed step comes first. -/
def State.withFetchWord (s : State) (nbits w : Nat) : State :=
  let v := w % 2 ^ nbits
  { s with
    todo := [.unit (probeUnit (v % 2 ^ 32))], turn := none, hold := false
    mem := probeMem s.mem v, l1 := [], tlb := [], errors := []
    chunks := [(0, { chunkReset 0 with fresh := 0, owner := 1 })]
    jobs := [probeJob], regions := [probeRegion], wgs := [probeWg], groups := [probeGroupFor (v % 2 ^ 32)], bins := []
    parts := [], pfrz := none, ops := [], boundaries := [], path := [], tt := Timetable.reset
    procs := s.procs.set 0 { FabricProc.reset with job := some 1, pc := probeBase }
    controls := s.controls.modify 0 fun c => { c with pc := probeBase, last := 0, current := some probeEvent, trapped := false }
    seq := max s.seq 2 }

end Sys2Proof.Machine
end

