-- ==== Sys2Proof/Safety.lean ====
section
/-!
DEFINITION. What a safe run keeps, and the terms that claims use: when a word of a run can execute, what a fixed-latency word
leaves, what a word of a unit sees.
-/
namespace Sys2Proof.Machine

/-- Memory in canonical form: equal memories are equal data. -/
def State.MemoryCanonical (s : State) : Prop := Memory.wf s.mem = true

end Sys2Proof.Machine

namespace Sys2Proof.Spec
open Sys2Proof.Machine

/-- A word of a group's run is being performed, and `v` is what it sees (R21, R71). -/
structure InRun (s : State) (v : View) : Prop where
  turn  : s.turn = some v.turn
  unit  : v.turn.unit = .group v.g.id
  group : s.group? v.g.id = some v.g
  wg    : s.wg? v.g.wg = some v.wg
  leaf  : s.leafOf v.wg = some v.leaf
  run   : v.g.run = some v.run

/-- The registers a word names exist (R14), and its sources have values in every present lane (R24). -/
structure Usable (v : View) (srcs : List Src) (dst : Dst) : Prop where
  sources : srcs.all (srcAllowed v.leaf.regs) = true
  target  : dstAllowed v.leaf.regs dst = true
  values  : ∀ t ∈ v.threads, srcs.all (hasValue t) = true

/-- The state at the clk at which a word's sources are ready (R23): `draws` are the k registers its random bits come from. -/
def atReady (s : State) (v : View) (guard : Option Guard) (srcs draws : List Src) (preds : List Nat) : State :=
  (s.holdTo v (State.sourcesReady v v.threads srcs (preds ++ guardPreds v guard))).holdTo v (State.sourcesReady v v.threads draws [])

/-- Thread `a` became `b` by taking a fixed-latency result (R23 to R25): the destination's x or o register and predicate under
their masks, l0, and nothing else but the record of what settles and of registers in error, which no write adds to. -/
structure Took (dst : Dst) (ready : Nat) (r : LaneOut) (a b : Thread) : Prop where
  x      : ∀ n, sget 0 b.x n = if dst = .x n then merge r.mask (sget 0 a.x n) r.value else sget 0 a.x n
  p      : ∀ q, sget 0 b.p q = match r.pred with
    | some w => if w.q = q then mergeBits w.n w.mask (sget 0 a.p q) w.bits else sget 0 a.p q
    | none => sget 0 a.p q
  own    : ∀ n, dst = .o n → if r.mask = 0 then b.o.find? (·.1 == n) = a.o.find? (·.1 == n) else
    ∃ e, b.o.find? (·.1 == n) = some (n, e) ∧ e.ready = ready ∧
      e.val &&& r.mask = r.value &&& r.mask ∧ ∀ old, a.o.find? (·.1 == n) = some (n, old) → e.val = merge r.mask old.val r.value
  others : ∀ n, dst ≠ .o n → b.o.find? (·.1 == n) = a.o.find? (·.1 == n)
  l      : b.l.head? = some ⟨r.value, ready⟩
  usable : ∀ n, dst = .x n → r.mask ≠ 0 → (b.settling.find? (·.reg == .x n)).map (·.ready) = some ready
  upsets : ∀ r ∈ b.upsets, r ∈ a.upsets
  rest   : { b with x := a.x, p := a.p, o := a.o, l := a.l, settling := a.settling, stale := a.stale, upsets := a.upsets } = a

/-- `t` is `s` after a fixed-latency lane-set word: every present lane took its result, and nothing else of the package changed
(but that a pending long-latency result may have lost its destination, R29). -/
structure LaneEffect (s t : State) (v : View) (dst : Dst) (ready : Nat) (out : Thread → LaneOut) : Prop where
  lanes   : ∀ a ∈ v.threads, ∃ b, t.thread? v.wg.id a.tid = some b ∧ Took dst ready (out a) a b
  absent  : ∀ tid, (∀ a ∈ v.threads, a.tid ≠ tid) → t.thread? v.wg.id tid = s.thread? v.wg.id tid
  wg      : (t.wg? v.wg.id).map (fun w => { w with threads := [] }) = some { v.wg with threads := [] }
  wgs     : ∀ id, id ≠ v.wg.id → t.wg? id = s.wg? id
  ops     : t.ops.map (fun o => { o with dropped := [] }) = s.ops.map fun o => { o with dropped := [] }
  frame   : { t with wgs := s.wgs, ops := s.ops } = s

/-- What a fixed-latency lane-set word gives lane `t`, its operands read in state `s` (R92). -/
def laneOut (s : State) (v : View) (f : Form) (wa wb wc wg : Nat)
    (compute : State → View → Thread → W64 → W64 → W64 → W64 × Option PredWrite) (t : Thread) : LaneOut :=
  let r := compute s v t (s.source v t wa f.a) (s.operandB v t wb f) (s.source v t wc f.c)
  { tid := t.tid, value := r.1, mask := guardMask wg (s.guard v f.guard t), pred := r.2.map fun p => { p with mask := s.guard v f.guard t } }

/-- What a cross-lane word gives lane `t`, the group's values read in state `s` (R162). -/
def crossOut (s : State) (v : View) (f : Form) (compute : State → View → Positions → Thread → W64 × W64) (t : Thread) : LaneOut :=
  { tid := t.tid, value := (compute s v (s.positions v f.w f.a) t).1, mask := (compute s v (s.positions v f.w f.a) t).2, pred := none }

/-- The executor `u` can run a uniform word in state `s` (R36 to R38), and does so in state `s1`, at the clk at which its sources are
ready: on a group, some lane is on for one of the word's `n` sub-elements; elsewhere no operand names a lane's register, no
guard, and no k register that a result is still owed to. -/
def UniReady (s : State) (u : Uni) (guard : Option Guard) (n : Nat) (srcs : List Src) (dst : Dst) (long : Bool) (s1 : State) : Prop :=
  match u with
  | .lane v src on =>
    let s0 := s.holdTo v (State.sourcesReady v v.threads [] (guardPreds v guard))
    InRun s v ∧ (long = true → v.run.ordinals.length < 16) ∧ srcs.all (srcAllowed v.leaf.regs) = true ∧
      dstAllowed v.leaf.regs dst = true ∧ on = (v.threads.filter fun t => anyOn n (s0.guard v guard t)) ∧ on.head? = some src ∧
      srcs.all (hasValue src) = true ∧ s1 = s0.holdTo v (State.sourcesReady v [src] srcs [])
  | .unit i =>
    (∃ t, s.turn = some t ∧ t.unit = i) ∧ (∀ g, i ≠ .group g) ∧ guard = none ∧ srcs.all unitSrc = true ∧ unitDst dst = true ∧
      (∀ r, .k r ∈ srcs → s.kBusy i r = false) ∧ s1 = s

/-- Whether an executor without lanes exists. -/
def holds (s : State) : UnitId → Bool
  | .group _ => false
  | .stream w => (s.stream? w).isSome
  | .fabric n => (s.proc? n).isSome
  | .control n => (s.control? n).isSome

/-- What a uniform word writes in a lane: everywhere, or nowhere where its guard is off. -/
def uniOut (on : List Thread) (x : W64) (t : Thread) : LaneOut :=
  { tid := t.tid, value := x, mask := if on.any (·.tid == t.tid) then BitVec.allOnes 64 else 0, pred := none }

/-- A queued matrix instruction without the register its result goes to. -/
def unaimed : MatrixWork → MatrixWork
  | .pin _ key t => .pin .none key t
  | w => w

/-- A pending operation without its destination, which a later write may take (R29). -/
def undirected (o : LongOp) : LongOp := { o with dst := .none, dropped := [] }

/-- Whether an error is in a k register. -/
def inK : Upset → Bool
  | .k _ => true
  | _ => false

/-- A workgroup without its threads and without its k registers, their settling and errors in them. -/
def besidesLanes (w : Workgroup) : Workgroup :=
  { w with threads := [], k := [], ksettling := [], upsets := w.upsets.filter fun u => !inK u }

/-- The package without the k registers of executors without lanes, errors in them, and the destinations of pending results. -/
def besidesK (s : State) : State :=
  { s with
    wgs := s.wgs.map fun w => { w with stream := w.stream.map fun x =>
      { x with k := [], queue := x.queue.map (fun q => { q with instr := unaimed q.instr }), upsets := [] } }
    ops := s.ops.map undirected
    procs := s.procs.map fun p =>
      { p with k := [], queue := p.queue.map fun q => { q with dst := .none }
               slots := p.slots.map fun x => { x with active := x.active.map fun a => { a with res := .none, stat := .none } } }
    controls := s.controls.map fun c => { c with k := [] } }

/-- `t` is `s` after a fixed-latency uniform word with the result `x` (R36): on a group every present lane took it, and a k
destination reads it unless a higher partition wrote that register on the same clk (R15); elsewhere the k destination reads it. -/
def UniEffect (s t : State) (u : Uni) (dst : Dst) (lat : Nat) (x : W64) : Prop :=
  match u with
  | .lane v _ on =>
    (∀ a ∈ v.threads, ∃ b, t.thread? v.wg.id a.tid = some b ∧ Took dst (s.cyc + lat) (uniOut on x a) a b) ∧
    (∀ tid, (∀ a ∈ v.threads, a.tid ≠ tid) → t.thread? v.wg.id tid = s.thread? v.wg.id tid) ∧
    (∃ w, t.wg? v.wg.id = some w ∧ besidesLanes w = besidesLanes v.wg ∧
      ∀ n, sget 0 w.k n =
        if dst = .k n ∧ (v.wg.ksettling.any fun e => e.k == n && e.clk == s.cyc && decide (v.g.part < e.part)) = false then x
        else sget 0 v.wg.k n) ∧
    (∀ id, id ≠ v.wg.id → t.wg? id = s.wg? id) ∧ t.ops.map undirected = s.ops.map undirected ∧ { t with wgs := s.wgs, ops := s.ops } = s
  | .unit i =>
    (∀ n, t.unitK i n = if dst = .k n ∧ holds s i then x else s.unitK i n) ∧
    (∀ j, j ≠ i → ∀ n, t.unitK j n = s.unitK j n) ∧
    besidesK t = besidesK s

end Sys2Proof.Spec
end

