-- ==== Sys2Proof/WellFormed.lean ====
section
/-!
DEFINITION. Well-formed instructions: those that some word encodes. Each arm is the field ranges of the instruction's
own encoding table; the device's own steps carry no encoded field and are well-formed.
-/
namespace Sys2Proof

/-- An operand field that a rule does not use is the zero operand. -/
def wfSrc7 (used : Bool) (s : Src) : Bool := if used then src7Ok s else s == .zero
/-- As `wfSrc7`, in eight bits. -/
def wfSrc8 (used : Bool) (s : Src) : Bool := if used then src8Ok s else s == .zero

/-- Operands of a 32-bit instruction under its rule. -/
def wf32 (r : OpRule) (f : F32) : Bool :=
  r.ok f.shape r.dflt && dst6Ok f.d && longDst r.long f.d && wfSrc7 r.a f.a && wfSrc7 (r.b && true) f.b
/-- Operands of a 32-bit compare. -/
def wf32C (r : OpRule) (f : F32) : Bool := r.ok f.shape r.dflt && f.d == .none && src7Ok f.a && src7Ok f.b
/-- Operands of a 32-bit load with its offset. -/
def wf32M (r : OpRule) (f : F32) (n : Int) : Bool :=
  r.ok f.shape r.dflt && dst6Ok f.d && longDst r.long f.d && src7Ok f.a && f.b == .zero && -16 ≤ n && n ≤ 15
/-- Operands of a 32-bit store with its offset. -/
def wf32S (f : F32) (n : Int) : Bool :=
  rMem.ok f.shape rMem.dflt && dst6Ok f.d && f.d != .none && src7Ok f.a && f.b == .zero && -16 ≤ n && n ≤ 15
/-- Operands of a 64-bit instruction with X = 0. -/
def wf64 (uni : Bool) (r : OpRule) (f : F64) : Bool :=
  r.ok f.shape f.kind && dst8Ok uni f.d && longDst r.long f.d && wfSrc8 r.a f.a && wfSrc8 r.b f.b && wfSrc8 r.c f.c
  && guardWf f.guard
/-- The same without a register destination. -/
def wf64N (r : OpRule) (f : F64) : Bool :=
  r.ok f.shape f.kind && f.d == .none && wfSrc8 r.a f.a && wfSrc8 r.b f.b && wfSrc8 r.c f.c && guardWf f.guard
/-- The same with D8 a data source. -/
def wf64S (r : OpRule) (f : F64S) : Bool :=
  r.ok f.shape f.kind && src8Ok f.data && wfSrc8 r.a f.a && wfSrc8 r.b f.b && wfSrc8 r.c f.c && guardWf f.guard
/-- Operands of a 64-bit instruction with X = 1. -/
def wf64I (uni : Bool) (r : OpRule) (f : F64I) : Bool :=
  r.ok f.shape f.kind && dst8Ok uni f.d && longDst r.long f.d && wfSrc8 r.a f.a && f.imm < 2 ^ 32 && immOk f.shape f.kind f.imm
/-- The same without a register destination. -/
def wf64IN (r : OpRule) (f : F64I) : Bool :=
  r.ok f.shape f.kind && f.d == .none && wfSrc8 r.a f.a && f.imm < 2 ^ 32 && immOk f.shape f.kind f.imm
/-- A memory instruction with X = 1. -/
def wf64IM (uni : Bool) (r : OpRule) (f : F64I) : Bool :=
  r.ok f.shape f.kind && dst8Ok uni f.d && longDst r.long f.d && src8Ok f.a && f.imm < 2 ^ 32
/-- The same with D8 a data source. -/
def wf64IS (r : OpRule) (f : F64IS) : Bool := r.ok f.shape f.kind && src8Ok f.data && src8Ok f.a && f.imm < 2 ^ 32
/-- Operands of `cvt` (R110 to R112). -/
def wfCvt (f : F64) (m : CvtMod) : Bool :=
  wf64 false (cvtRule (elemCount f.shape f.kind) m) f && cvtPair m.shape m.kind
  && partOk (elemCount m.shape m.kind) (elemCount f.shape f.kind) m.part && m.part < 8
/-- Operands of `qnt` (R117). -/
def wfQnt (f : F64) (m : CvtMod) (scale : Bool) : Bool :=
  wf64 false (rQnt scale) f && qntPair m.shape m.kind && partOk (elemCount m.shape m.kind) (qntEd scale f.kind) m.part
  && m.part < 8
/-- Operands of `dqn` (R118). -/
def wfDqn (f : F64) (m : CvtMod) (band : Bool) : Bool :=
  wf64 false (rDqn band) f && dqnPair m.shape m.kind && partOk (elemCount m.shape m.kind) (subCount f.shape) m.part
  && m.part < 8
/-- The 32-bit `pref` (R246). -/
def wfPref (f : F32) : Bool := rPref.ok f.shape rPref.dflt && f.d == .none && src7Ok f.a && f.b == .zero

/-- An instruction that some word encodes. -/
def WellFormed : Instr → Bool
  | .header h => headerWf h
  | .trailer t => trailerWf t
  | .prefixWord p => prefixWf p
  | .longLatencyComplete .. => true
  | .binFullDraw .. => true
  | .binAgedDraw .. => true
  | .candidateLift .. => true
  | .waitvReread .. => true
  | .waitvTimeout .. => true
  | .cinchComplete .. => true
  | .launchAcceptance .. => true
  | .leafComplete .. => true
  | .workgroupDispatch => true
  | .contextSave .. => true
  | .eventEnter .. => true
  | .eventHandlerStart .. => true
  | .watchdogExpiry .. => true
  | .scrubError .. => true
  | .storeDrain .. => true
  | .publishBoundaryComplete .. => true
  | .migrationEpochEnd .. => true
  | .migrationSwitch .. => true
  | .podRequestArrival .. => true
  | .podResponseArrival .. => true
  | .peerUnreachable .. => true
  | .bulkCopyStart .. => true
  | .copyLine .. => true
  | .matrixStep .. => true
  | .peerContributionArrival .. => true
  | .peerContributionReoffer .. => true
  | .transferStep .. => true
  | .fwaitRecheck .. => true
  | .fwaitTimeout .. => true
  | .messageArrival .. => true
  | .fredArrival .. => true
  | .fslotTimeout .. => true
  | .bellReceive .. => true
  | .rollCallEntryWrite .. => true
  | .rollCallTimeout .. => true
  | .resumeStage1 .. => true
  | .resumeStage2 .. => true
  | .resumeStage3 .. => true
  | .ttHeadIssue => true
  | .ttMessageArrival .. => true
  | .ttDone => true
  | .qkickWrite .. => true
  | .queueEnable .. => true
  | .queueHaltClear .. => true
  | .packetFetch .. => true
  | .packetSeqRetry .. => true
  | .createJob .. => true
  | .release .. => true
  | .launchPacket .. => true
  | .grant .. => true
  | .fabricStart .. => true
  | .ttStart .. => true
  | .preempt .. => true
  | .bellRaise .. => true
  | .bellResume .. => true
  | .kill .. => true
  | .attest .. => true
  | .domain .. => true
  | .ctxstore .. => true
  | .fence .. => true
  | .bar2Access .. => true
  | .registerWrite .. => true
  | .pfrzWrite .. => true
  | .lcclrWrite .. => true
  | .xcwaysWrite .. => true
  | .coldReset => true
  | .warmReset => true
  | .functionReset => true
  | .linkTraining => true
  | .secureBoot .. => true
  | .securityAlarm .. => true
  | .powerWindow .. => true
  | .add f => wf32 rInt f
  | .add64 f => wf64 false rInt f
  | .add64i f => wf64I false rInt f
  | .sub f => wf32 rInt f
  | .sub64 f => wf64 false rInt f
  | .sub64i f => wf64I false rInt f
  | .mul f => wf32 rInt f
  | .mul64 f => wf64 false rInt f
  | .mul64i f => wf64I false rInt f
  | .mulh f => wf32 rInt f
  | .mulh64 f => wf64 false rInt f
  | .mulh64i f => wf64I false rInt f
  | .mad f => wf64 false rInt3 f
  | .min f => wf32 rInt f
  | .min64 f => wf64 false rInt f
  | .min64i f => wf64I false rInt f
  | .max f => wf32 rInt f
  | .max64 f => wf64 false rInt f
  | .max64i f => wf64I false rInt f
  | .abs f => wf32 rAbs f
  | .abs64 f => wf64 false rAbs f
  | .and f => wf32 rInt f
  | .and64 f => wf64 false rInt f
  | .and64i f => wf64I false rInt f
  | .or f => wf32 rInt f
  | .or64 f => wf64 false rInt f
  | .or64i f => wf64I false rInt f
  | .xor f => wf32 rInt f
  | .xor64 f => wf64 false rInt f
  | .xor64i f => wf64I false rInt f
  | .andn f => wf32 rInt f
  | .andn64 f => wf64 false rInt f
  | .andn64i f => wf64I false rInt f
  | .shl f => wf32 rInt f
  | .shl64 f => wf64 false rInt f
  | .shl64i f => wf64I false rInt f
  | .shr f => wf32 rInt f
  | .shr64 f => wf64 false rInt f
  | .shr64i f => wf64I false rInt f
  | .sar f => wf32 rInt f
  | .sar64 f => wf64 false rInt f
  | .sar64i f => wf64I false rInt f
  | .rot f => wf32 rInt f
  | .rot64 f => wf64 false rInt f
  | .rot64i f => wf64I false rInt f
  | .clz f => wf32 rIntA f
  | .clz64 f => wf64 false rIntA f
  | .popc f => wf32 rIntA f
  | .popc64 f => wf64 false rIntA f
  | .bfx f p n => wf64 false rIntA f && 1 ≤ n && p + n ≤ shapeBits f.shape
  | .bfi f p n => wf64 false rInt f && 1 ≤ n && p + n ≤ shapeBits f.shape
  | .sel f q _ => wf64 false rInt f && q < 8
  | .cmp _ q f => wf32C rInt f && q < 8
  | .cmp64 _ q f => wf64N rInt f && q < 8
  | .cmp64i _ q f => wf64IN rInt f && q < 8
  | .addc f i o => wf64 false rInt f && i.p < 8 && o.p < 8
  | .subb f i o => wf64 false rInt f && i.p < 8 && o.p < 8
  | .mov f => wf32 rIntB f
  | .mov64 f => wf64 false rIntB f
  | .mov64i f => wf64I false rIntB f
  | .lea f => wf32 rLea f
  | .lea64 f n => wf64 false rLea f && n < 8
  | .lea64i f => wf64I false rLea f
  | .dot4 f => wf32 rDot2 f
  | .dot464 f => wf64 false rDot f
  | .sad f => wf32 rDot2 f
  | .sad64 f => wf64 false rDot f
  | .fadd f => wf32 rF f
  | .fadd64 f => wf64 false rF f
  | .fadd64i f => wf64I false rF f
  | .fsub f => wf32 rF f
  | .fsub64 f => wf64 false rF f
  | .fsub64i f => wf64I false rF f
  | .fmul f => wf32 rF f
  | .fmul64 f => wf64 false rF f
  | .fmul64i f => wf64I false rF f
  | .fma f => wf64 false rF3 f
  | .fmin f => wf32 rF f
  | .fmin64 f => wf64 false rF f
  | .fmin64i f => wf64I false rF f
  | .fmax f => wf32 rF f
  | .fmax64 f => wf64 false rF f
  | .fmax64i f => wf64I false rF f
  | .fcmp _ q f => wf32C rF f && q < 8
  | .fcmp64 _ q f => wf64N rF f && q < 8
  | .fcmp64i _ q f => wf64IN rF f && q < 8
  | .fclass f => wf32 rF1 f
  | .fclass64 f => wf64 false rF1 f
  | .fdiv f => wf32 rFdiv f
  | .fdiv64 f => wf64 false rFdiv f
  | .fdiv64i f => wf64I false rFdiv f
  | .fsqrt f => wf32 rFsqrt f
  | .fsqrt64 f => wf64 false rFsqrt f
  | .rcp f => wf32 rRcp f
  | .rcp64 f => wf64 false rRcp f
  | .rsq f => wf32 rRcp f
  | .rsq64 f => wf64 false rRcp f
  | .ex2 f => wf32 rFun f
  | .ex264 f => wf64 false rFun f
  | .lg2 f => wf32 rFun f
  | .lg264 f => wf64 false rFun f
  | .sin f => wf32 rFun f
  | .sin64 f => wf64 false rFun f
  | .cos f => wf32 rFun f
  | .cos64 f => wf64 false rFun f
  | .frnd f => wf32 rF1 f
  | .frnd64 f => wf64 false rF1 f
  | .fscl f => wf32 rFscl f
  | .fscl64 f => wf64 false rFscl f
  | .fscl64i f => wf64I false rFscl f
  | .fexp f => wf32 rF1 f
  | .fexp64 f => wf64 false rF1 f
  | .fdot2 f => wf32 rFdot2 f
  | .fdot264 f => wf64 false rFdot f
  | .cvt f m => wfCvt f m
  | .pk f => wf32 rPk f
  | .pk64 f => wf64 false rPk f
  | .upk f h => wf32 rUpk f && h < 2
  | .upk64 f h => wf64 false rUpk f && h < 2
  | .swz f => wf32 rSwz2 f
  | .swz64 f => wf64 false rSwz f
  | .bcs f => wf32 rInt f
  | .bcs64 f _ => wf64 false rInt f
  | .rng f => wf32 rRng f
  | .rng64 f => wf64 false rRng f
  | .qnt f m s => wfQnt f m s
  | .dqn f m s => wfDqn f m s
  | .xsh f => wf32 rInt f
  | .xsh64 f => wf64 false rInt3 f
  | .xpush f => wf32 rInt f
  | .xpush64 f => wf64 false rInt3 f
  | .xbc f l s => wf64 false rXbc f && l < 32 && s < subCount f.shape
  | .xrot f n => wf32 rIntA f && -16 ≤ n && n ≤ 15
  | .xrot64 f n => wf64 false rXbc f && n < 32 * subCount f.shape
  | .vote m f => wf32 (rVote m) f
  | .vote64 m f => wf64 false (rVote m) f
  | .xred o f => wf32 (rRed o) f
  | .xred64 o f => wf64 false (rRed o) f
  | .xscan o f => wf32 (rRed o) f
  | .xscan64 o f => wf64 false (rRed o) f
  | .xmatch f => wf32 rXmatch f
  | .xmatch64 f => wf64 false rXmatch f
  | .ld f n => wf32M rMem f n
  | .ld64 f m => wf64 false rMem f && m.shift < 8
  | .ld64i f => wf64IM false rMem f
  | .st f n => wf32S f n
  | .st64 f m => wf64S rMem f && m.shift < 8
  | .st64i f => wf64IS rMem f
  | .lds f n => wf32M rMem f n
  | .lds64 f n => wf64 false rMem f && n < 8
  | .lds64i f => wf64IM false rMem f
  | .sts f n => wf32S f n
  | .sts64 f n => wf64S rMem f && n < 8
  | .sts64i f => wf64IS rMem f
  | .ldx f => wf64 false rLdx f
  | .ldx64i f => wf64IM false rLdx f
  | .stx f _ => wf64S rStx f
  | .stx64i f => wf64IS rStx f
  | .atom f o _ n => wf64 false (rAtom o (f.d != .none)) f && -32 ≤ n && n ≤ 31
  | .atomx f r _ n => wf64 false (rAtomx r (f.d != .none)) f && -32 ≤ n && n ≤ 31
  | .stash f => wf64S rStash f
  | .pref f n => wfPref f && -16 ≤ n && n ≤ 15
  | .pref64 f n _ => wf64N rPref f && n < 8
  | .pref64i f => wf64IM false rPref f && f.d == .none
  | .cpout f => wf64N rCpout f
  | .cseal n => n < 8
  | .cwait n => n ≤ 8
  | .waitv f _ => wf64 false rWaitv f && f.d != .none
  | .phasePub => true
  | .phaseAcq => true
  | .phaseAr => true
  | .fenceLd => true
  | .fenceIo => true
  | .fenceSp => true
  | .br n => -2 ^ 19 ≤ n && n < 2 ^ 19
  | .br64i n => -2 ^ 31 ≤ n && n < 2 ^ 31
  | .brx a => src7Ok a
  | .brx64 a g => src8Ok a && guardWf g
  | .call d n => -2 ^ 31 ≤ n && n < 2 ^ 31 && dst8Ok false d && linkOk false d
  | .ret a => src7Ok a
  | .ret64 a g => src8Ok a && guardWf g
  | .reform => true
  | .reformAll => true
  | .exit => true
  | .exit64 g => guardWf g
  | .brk n => n < 16
  | .trap b => src7Ok b
  | .trap64i n => n < 2 ^ 16
  | .nop => true
  | .pmark b => src7Ok b
  | .pmark64i n => n < 2 ^ 16
  | .kadd f => wf32 rInt f
  | .kadd64 f => wf64 true rInt f
  | .kadd64i f => wf64I true rInt f
  | .ksub f => wf32 rInt f
  | .ksub64 f => wf64 true rInt f
  | .ksub64i f => wf64I true rInt f
  | .kmul f => wf32 rInt f
  | .kmul64 f => wf64 true rInt f
  | .kmul64i f => wf64I true rInt f
  | .kmad f => wf64 true rInt3 f
  | .kdiv f => wf32 rInt f
  | .kdiv64 f => wf64 true rInt f
  | .kdiv64i f => wf64I true rInt f
  | .kmin f => wf32 rInt f
  | .kmin64 f => wf64 true rInt f
  | .kmin64i f => wf64I true rInt f
  | .kmax f => wf32 rInt f
  | .kmax64 f => wf64 true rInt f
  | .kmax64i f => wf64I true rInt f
  | .kand f => wf32 rInt f
  | .kand64 f => wf64 true rInt f
  | .kand64i f => wf64I true rInt f
  | .kor f => wf32 rInt f
  | .kor64 f => wf64 true rInt f
  | .kor64i f => wf64I true rInt f
  | .kxor f => wf32 rInt f
  | .kxor64 f => wf64 true rInt f
  | .kxor64i f => wf64I true rInt f
  | .kshl f => wf32 rInt f
  | .kshl64 f => wf64 true rInt f
  | .kshl64i f => wf64I true rInt f
  | .kshr f => wf32 rInt f
  | .kshr64 f => wf64 true rInt f
  | .kshr64i f => wf64I true rInt f
  | .ksar f => wf32 rInt f
  | .ksar64 f => wf64 true rInt f
  | .ksar64i f => wf64I true rInt f
  | .kcmp f _ => wf64 true rInt f
  | .ksel f => wf64 true rInt3 f
  | .kmov f => wf32 rIntB f
  | .kmov64 f => wf64 true rIntB f
  | .kmov64i f => wf64I true rIntB f
  | .kclz f => wf32 rIntA f
  | .kclz64 f => wf64 true rIntA f
  | .kpopc f => wf32 rIntA f
  | .kpopc64 f => wf64 true rIntA f
  | .kbfx f p n => wf64 true rIntA f && 1 ≤ n && p + n ≤ shapeBits f.shape
  | .kbfi f p n => wf64 true rInt f && 1 ≤ n && p + n ≤ shapeBits f.shape
  | .klea f => wf32 rLea f
  | .klea64 f n => wf64 true rLea f && n < 8
  | .klea64i f => wf64I true rLea f
  | .kld f n => wf32M rMem f n
  | .kld64 f m => wf64 true rMem f && m.shift < 8
  | .kld64i f => wf64IM true rMem f
  | .kst f n => wf32S f n
  | .kst64 f m => wf64S rMem f && m.shift < 8
  | .kst64i f => wf64IS rMem f
  | .katom f o _ n => wf64 true (rAtom o (f.d != .none)) f && -32 ≤ n && n ≤ 31
  | .ubr n => -2 ^ 19 ≤ n && n < 2 ^ 19
  | .ubr64i b a n => -2 ^ 31 ≤ n && n < 2 ^ 31 && src8Ok a && (b != .always || a == .zero)
  | .ubrx a => src7Ok a
  | .ubrx64 a => src8Ok a
  | .ucall d n => -2 ^ 31 ≤ n && n < 2 ^ 31 && dst8Ok true d && linkOk true d
  | .uret a => src7Ok a
  | .uret64 a => src8Ok a
  | .uexit => true
  | .uexit64 => true
  | .launch d a _ g => xknOk d && src8Ok a && guardWf g
  | .rcbrd d a n g => xknOk d && src8Ok a && n < 32 && guardWf g
  | .barinit a n => src7Ok a && n < 16
  | .barinit64 a b n g => src8Ok a && src8Ok b && n < 16 && guardWf g
  | .barrive d a n => dst6Ok d && src7Ok a && n < 16
  | .barrive64 d a n _ g => dst8Ok true d && src8Ok a && n < 16 && guardWf g
  | .barwait a n => src7Ok a && n < 16
  | .bartest d n => dst6Ok d && n < 16
  | .cinch n => n < 8
  | .cinchcfg d k t n g => dst8Ok true d && (match k with | none => true | some j => j < 64 && j % 4 == 0) && src8Ok t && n < 8 && guardWf g
  | .cinchcfgUnbind d n g => dst8Ok true d && n < 8 && guardWf g
  | .cpslice a j c n i m => src8Ok a && j ≤ 61 && src8Ok c && n < 16 && i < m && m ≤ 16
  | .binct a b g => src8Ok a && src8Ok b && guardWf g
  | .binpatch d a b c _ i g => xkOk d && src8Ok a && src8Ok b && src8Ok c && i < 64 && guardWf g
  | .binrel a g => src8Ok a && guardWf g
  | .binrelClear a g => src8Ok a && guardWf g
  | .mstart d => dst6Ok d
  | .bload j m => j ≤ 62 && j % 2 == 0 && m < 32
  | .mma j kb nb m t => j ≤ 62 && j % 2 == 0 && 1 ≤ kb && kb ≤ 32 && 1 ≤ nb && nb ≤ 32 && m < 32 && t < 32
  | .mzero t n => t < 32 && 1 ≤ n && n ≤ 32
  | .mdrainSt j t => j ≤ 62 && j % 2 == 0 && t < 32
  | .mdrainAdd j a t => j ≤ 62 && j % 2 == 0 && a < 64 && t < 32
  | .mdrainPeer a t => a < 64 && t < 32
  | .mexpect j t b n => j ≤ 60 && j % 4 == 0 && t < 32 && b < 16 && 1 ≤ n && n ≤ 8
  | .rowstat x k t b => x ≤ 125 && k < 32 && t < 32 && b < 16
  | .rowexp j k t => j ≤ 62 && j % 2 == 0 && k < 64 && t < 32
  | .mpin d k t => kDstOk d && k < 64 && t < 32
  | .munpin t => t < 32
  | .mrefill k t n => k < 64 && t < 32 && 1 ≤ n && n ≤ 32
  | .mspill k t n => k < 64 && t < 32 && 1 ≤ n && n ≤ 32
  | .mmode r f => r < 6 && f < 256
  | .fput d a b c => kDstOk d && a < 64 && b < 64 && c < 64
  | .fget d a b c => kDstOk d && a < 64 && b < 64 && c < 64
  | .fsend j b => j ≤ 56 && j % 8 == 0 && b < 64
  | .frecv j c => j ≤ 56 && j % 8 == 0 && c < 16
  | .fcomp d a b c => kDstOk d && a ≤ 62 && b < 64 && c < 64
  | .fdecomp d a b c => kDstOk d && a < 64 && b < 64 && c < 64
  | .fdar d a b c => kDstOk d && a ≤ 61 && b < 64 && c < 64
  | .fdarLast d a b c => kDstOk d && a ≤ 61 && b < 64 && c < 64
  | .fwait d a => kDstOk d && a < 64
  | .fsig a b => a < 64 && sigOk b
  | .fslot j a b c => j ≤ 62 && j % 2 == 0 && a < 64 && b < 64 && kOptOk c
  | .fred a b c => a < 64 && b < 64 && c < 64
  | .fckpt d a b c => kDstOk d && a < 64 && b < 64 && c < 64
  | .frest d a b => kDstOk d && a < 64 && b < 64
  | .ttpost a b _ _ g => src8Ok a && src8Ok b && guardWf g
  | .ttwaitRdy d a b c g => xkOk d && src8Ok a && src8Ok b && src8Ok c && guardWf g
  | .ttwaitCr d a b c g => xkOk d && src8Ok a && src8Ok b && src8Ok c && guardWf g
  | .ttwaitDone d a c g => xkOk d && src8Ok a && src8Ok c && guardWf g
  | .ttwaitRd d a g => xkOk d && src8Ok a && guardWf g
  | .bell a => src7Ok a
  | .lcrbin d r c g => xkOk d && r < 16 && c < 5 && guardWf g
  | .dwrd d h i s => d < 64 && h < 64 && dwIndexOk i && s < 12
  | .dwwr h i v s => h < 64 && dwIndexOk i && v < 64 && s < 12
  | .gresumeCont h _ => h < 64
  | .gresumeReexec h _ => h < 64
  | .gresumeStep h _ => h < 64
  | .gkill h k _ => h < 64 && k < 64
  | .tlbi _ a b c => a < 64 && b < 64 && c < 64
  | .csrrd d n => d < 64 && n < 2 ^ 16
  | .csrwr a n => a < 64 && n < 2 ^ 16
  | .eret => true
  | .ttwaitTimeout .. => true
  | .idleLaneCycles .. => true

end Sys2Proof
end

