-- ==== Sys2Proof/Certificates/Slice0/Obligations.lean ====
section
/-!
DEFINITION. The statements for the provers, with the tables and functions they speak in. Those functions are written from the spec's
rules, not from the model's meanings, wherever the rule is short enough to say again.
-/
namespace Sys2Proof.Spec
open Sys2Proof.Machine

/-! ### Lane-set words of fixed latency -/

/-- A row of a table of lane-set words: the operands, the latency, the k registers random bits come from, the predicates read, and what
the word gives each present lane, its operands read in the state at which they are ready. -/
structure LaneRow where
  f     : Form
  lat   : Nat
  draws : View → List Src
  preds : List Nat
  out   : State → View → Thread → LaneOut

/-- An instruction does what its row says, wherever its operands are usable: it answers a next state in which every present lane has
taken its result and nothing else has changed. -/
def RunsLanes (i : Instr) (r : LaneRow) : Prop :=
  ∀ s v, InRun s v → Usable v r.f.srcs r.f.d →
    ∃ t, exec i s = .next t ∧
      LaneEffect (atReady s v r.f.guard r.f.srcs (r.draws v) r.preds) t v r.f.d
        ((atReady s v r.f.guard r.f.srcs (r.draws v) r.preds).cyc + r.lat)
        (r.out (atReady s v r.f.guard r.f.srcs (r.draws v) r.preds) v)

/-- A function of sub-elements: kind, width, saturation, and the sub-elements of A, B and C. -/
abbrev SubOp := Kind → Nat → Sat → Nat → Nat → Nat → Nat

/-- A row that computes each sub-element from sub-elements (R92), written under the guard (R25). -/
def subRow (f : Form) (lat : Nat) (op : SubOp) : LaneRow :=
  { f, lat, draws := noDraw, preds := []
    out := fun s v t =>
      { tid := t.tid
        value := perSub f.w fun j => op f.kind f.w v.pfx.sat (subOf f.w (s.source v t f.w f.a) j) (subOf f.w (s.operandB v t f.w f) j)
          (subOf f.w (s.source v t f.w f.c) j)
        mask := guardMask f.w (s.guard v f.guard t), pred := none } }

/-- A row that computes the whole register. -/
def wholeRow (f : Form) (lat w : Nat) (op : View → W64 → W64 → W64 → W64) : LaneRow :=
  { f, lat, draws := noDraw, preds := []
    out := fun s v t =>
      { tid := t.tid, value := op v (s.source v t w f.a) (s.operandB v t w f) (s.source v t w f.c)
        mask := guardMask w (s.guard v f.guard t), pred := none } }

/-! ### Integer arithmetic, from R39, R94 to R101, R129 -/

/-- The integer of a code: two's complement for kind `i`, unsigned otherwise (R39). -/
def intOf (k : Kind) (w n : Nat) : Int := if k = .i then (BitVec.ofNat w n).toInt else n

/-- Fit (R39): the exact result clamped to the kind's range under code 01, reduced modulo 2^w otherwise. -/
def fitted (k : Kind) (w : Nat) (sm : Sat) (x : Int) : Nat :=
  (BitVec.ofInt w (match sm, k with
    | .sat, .i => max (-(2 : Int) ^ (w - 1)) (min ((2 : Int) ^ (w - 1) - 1) x)
    | .sat, _ => max 0 (min ((2 : Int) ^ w - 1) x)
    | _, _ => x)).toNat

/-- Leading zeros: the width less the place of the highest 1. -/
def leadingZeros (w a : Nat) : Nat := if a = 0 then w else w - 1 - Nat.log2 a

/-- The bits of a value that are 1. -/
def onesOf (w a : Nat) : List Nat := (List.range w).filter fun i => a.testBit i

def addOp : SubOp := fun k w sm a b _ => fitted k w sm (intOf k w a + intOf k w b)
def subOp : SubOp := fun k w sm a b _ => fitted k w sm (intOf k w a - intOf k w b)
def mulOp : SubOp := fun k w sm a b _ => fitted k w sm (intOf k w a * intOf k w b)
def mulhOp : SubOp := fun k w _ a b _ => (BitVec.ofInt w (Int.fdiv (intOf k w a * intOf k w b) (2 ^ w))).toNat
def madOp : SubOp := fun k w sm a b c => fitted k w sm (intOf k w a * intOf k w b + intOf k w c)
def minOp : SubOp := fun k w _ a b _ => if intOf k w b < intOf k w a then b else a
def maxOp : SubOp := fun k w _ a b _ => if intOf k w a < intOf k w b then b else a
def absOp : SubOp := fun k w sm a _ _ => fitted k w sm (intOf k w a).natAbs
def andOp : SubOp := fun _ w _ a b _ => (BitVec.ofNat w a &&& BitVec.ofNat w b).toNat
def orOp : SubOp := fun _ w _ a b _ => (BitVec.ofNat w a ||| BitVec.ofNat w b).toNat
def xorOp : SubOp := fun _ w _ a b _ => (BitVec.ofNat w a ^^^ BitVec.ofNat w b).toNat
def andnOp : SubOp := fun _ w _ a b _ => (BitVec.ofNat w a &&& ~~~BitVec.ofNat w b).toNat
def clzOp : SubOp := fun _ w _ a _ _ => leadingZeros w a
def popcOp : SubOp := fun _ w _ a _ _ => (onesOf w a).length
def movOp : SubOp := fun _ _ _ _ b _ => b

def shlOp : SubOp := fun _ w _ a b _ => (BitVec.ofNat w a <<< b).toNat
def shrOp : SubOp := fun _ w _ a b _ => (BitVec.ofNat w a >>> b).toNat
def sarOp : SubOp := fun _ w _ a b _ => ((BitVec.ofNat w a).sshiftRight b).toNat
def rotOp : SubOp := fun _ w _ a b _ => ((BitVec.ofNat w a).rotateLeft b).toNat

/-- Bits [p+m−1 : p] of a (R96). -/
def bfxOp (p m : Nat) : SubOp := fun k w _ a _ _ =>
  let x := (BitVec.ofNat w a).extractLsb' p m
  if k = .i then (x.signExtend w).toNat else x.toNat
/-- a with bits [p+m−1 : p] replaced by b[m−1 : 0] (R96), bit by bit. -/
def bfiOp (p m : Nat) : SubOp := fun _ w _ a b _ =>
  ((List.range w).map fun i => if (if p ≤ i ∧ i < p + m then b.testBit (i - p) else a.testBit i) then 2 ^ i else 0).sum

/-- The quotient (R129): towards zero for kind `i`, floor otherwise; all ones for a zero divisor. -/
def divOp : SubOp := fun k w sm a b _ =>
  if intOf k w b = 0 then 2 ^ w - 1
  else if k = .i then fitted .i w sm ((intOf k w a).tdiv (intOf k w b)) else fitted k w sm ((intOf k w a).fdiv (intOf k w b))

/-- Rows of Table 4.1 that work on sub-elements, shifts apart. -/
def intRow : Instr → Option LaneRow
  | .add f => some (subRow (form32 .i f) 1 addOp) | .add64 f => some (subRow (form64 f) 1 addOp)
  | .add64i f => some (subRow (form64I f) 1 addOp)
  | .sub f => some (subRow (form32 .i f) 1 subOp) | .sub64 f => some (subRow (form64 f) 1 subOp)
  | .sub64i f => some (subRow (form64I f) 1 subOp)
  | .mul f => some (subRow (form32 .i f) 2 mulOp) | .mul64 f => some (subRow (form64 f) 2 mulOp)
  | .mul64i f => some (subRow (form64I f) 2 mulOp)
  | .mulh f => some (subRow (form32 .i f) 2 mulhOp) | .mulh64 f => some (subRow (form64 f) 2 mulhOp)
  | .mulh64i f => some (subRow (form64I f) 2 mulhOp)
  | .mad f => some (subRow (form64 f) 2 madOp)
  | .min f => some (subRow (form32 .i f) 1 minOp) | .min64 f => some (subRow (form64 f) 1 minOp)
  | .min64i f => some (subRow (form64I f) 1 minOp)
  | .max f => some (subRow (form32 .i f) 1 maxOp) | .max64 f => some (subRow (form64 f) 1 maxOp)
  | .max64i f => some (subRow (form64I f) 1 maxOp)
  | .abs f => some (subRow (form32 .i f) 1 absOp) | .abs64 f => some (subRow (form64 f) 1 absOp)
  | .and f => some (subRow (form32 .i f) 1 andOp) | .and64 f => some (subRow (form64 f) 1 andOp)
  | .and64i f => some (subRow (form64I f) 1 andOp)
  | .or f => some (subRow (form32 .i f) 1 orOp) | .or64 f => some (subRow (form64 f) 1 orOp)
  | .or64i f => some (subRow (form64I f) 1 orOp)
  | .xor f => some (subRow (form32 .i f) 1 xorOp) | .xor64 f => some (subRow (form64 f) 1 xorOp)
  | .xor64i f => some (subRow (form64I f) 1 xorOp)
  | .andn f => some (subRow (form32 .i f) 1 andnOp) | .andn64 f => some (subRow (form64 f) 1 andnOp)
  | .andn64i f => some (subRow (form64I f) 1 andnOp)
  | .clz f => some (subRow (form32 .i f) 1 clzOp) | .clz64 f => some (subRow (form64 f) 1 clzOp)
  | .popc f => some (subRow (form32 .i f) 1 popcOp) | .popc64 f => some (subRow (form64 f) 1 popcOp)
  | .mov f => some (subRow (form32 .i f) 1 movOp) | .mov64 f => some (subRow (form64 f) 1 movOp)
  | .mov64i f => some (subRow (form64I f) 1 movOp)
  | _ => none

/-- The shifts. -/
def shiftRow : Instr → Option LaneRow
  | .shl f => some (subRow (form32 .i f) 1 shlOp) | .shl64 f => some (subRow (form64 f) 1 shlOp)
  | .shl64i f => some (subRow (form64I f) 1 shlOp)
  | .shr f => some (subRow (form32 .i f) 1 shrOp) | .shr64 f => some (subRow (form64 f) 1 shrOp)
  | .shr64i f => some (subRow (form64I f) 1 shrOp)
  | .sar f => some (subRow (form32 .i f) 1 sarOp) | .sar64 f => some (subRow (form64 f) 1 sarOp)
  | .sar64i f => some (subRow (form64I f) 1 sarOp)
  | .rot f => some (subRow (form32 .i f) 1 rotOp) | .rot64 f => some (subRow (form64 f) 1 rotOp)
  | .rot64i f => some (subRow (form64I f) 1 rotOp)
  | _ => none

/-- `bfx` and `bfi`, where the field lies inside a sub-element. -/
def fieldRow : Instr → Option LaneRow
  | .bfx f p m => if 1 ≤ m ∧ p + m ≤ (form64 f).w then some (subRow (form64 f) 1 (bfxOp p m)) else none
  | .bfi f p m => if 1 ≤ m ∧ p + m ≤ (form64 f).w then some (subRow (form64 f) 1 (bfiOp p m)) else none
  | _ => none

/-- `sel` (R97): a where the predicate's bit, inverted under the negate bit, is 1, and b elsewhere. -/
def selRow : Instr → Option LaneRow
  | .sel f q neg => some
    { f := form64 f, lat := 1, draws := noDraw, preds := [q]
      out := fun s v t =>
        { tid := t.tid
          value := perSub (form64 f).w fun j =>
            if (s.readP t q).getLsbD j = !neg then subOf (form64 f).w (s.source v t (form64 f).w f.a) j
            else subOf (form64 f).w (s.operandB v t (form64 f).w (form64 f)) j
          mask := guardMask (form64 f).w (s.guard v f.guard t), pred := none } }
  | _ => none

/-- The truth of a condition (R98). -/
def condOf (c : Cond) (a b : Int) : Prop :=
  match c with
  | .eq => a = b | .ne => a ≠ b | .lt => a < b | .le => a ≤ b | .gt => b < a | .ge => b ≤ a

open Classical in
/-- A comparison of sub-elements: bit s of the predicate takes the truth, under the guard; l0 takes the masks (R98). -/
noncomputable def cmpOf (c : Cond) (q : Nat) (f : Form) : LaneRow :=
  { f, lat := 1, draws := noDraw, preds := []
    out := fun s v t =>
      let on := fun j => condOf c (intOf f.kind f.w (subOf f.w (s.source v t f.w f.a) j)) (intOf f.kind f.w (subOf f.w (s.operandB v t f.w f) j))
      { tid := t.tid, value := perSub f.w fun j => if on j then 2 ^ f.w - 1 else 0, mask := guardMask f.w (s.guard v f.guard t)
        pred := some ⟨q, f.n, s.guard v f.guard t, bitsOf f.n fun j => decide (on j)⟩ } }

/-- `cmp`. -/
noncomputable def cmpRow : Instr → Option LaneRow
  | .cmp c q f => some (cmpOf c q (form32 .i f))
  | .cmp64 c q f => some (cmpOf c q (form64 f))
  | .cmp64i c q f => some (cmpOf c q (form64I f))
  | _ => none

/-- Bit j of an enabled carry-in predicate (R99). -/
def carryOf (s : State) (t : Thread) (c : CarrySel) (j : Nat) : Nat := if c.en ∧ (s.readP t c.p).getLsbD j then 1 else 0

/-- `addc` and `subb` (R99): sum or difference modulo 2^w, and the carry or borrow out where it is enabled. -/
def carryRow : Instr → Option LaneRow
  | .addc f cin cout => some (row f cin cout (fun w a b c => (a + b + c) % 2 ^ w) fun w a b c => decide (2 ^ w ≤ a + b + c))
  | .subb f cin cout => some (row f cin cout (fun w a b c => (a + 2 ^ w + 2 ^ w - b - c) % 2 ^ w) fun _ a b c => decide (a < b + c))
  | _ => none
where
  row (f : F64) (cin cout : CarrySel) (sum : Nat → Nat → Nat → Nat → Nat) (out : Nat → Nat → Nat → Nat → Bool) : LaneRow :=
    { f := form64 f, lat := 1, draws := noDraw, preds := if cin.en then [cin.p] else []
      out := fun s v t =>
        let w := (form64 f).w
        let at_ := fun {α : Type} (g : Nat → Nat → Nat → Nat → α) (j : Nat) =>
          g w (subOf w (s.source v t w f.a) j) (subOf w (s.operandB v t w (form64 f)) j) (carryOf s t cin j)
        { tid := t.tid, value := perSub w (at_ sum), mask := guardMask w (s.guard v f.guard t)
          pred := if cout.en then some ⟨cout.p, 64 / w, s.guard v f.guard t, bitsOf (64 / w) (at_ out)⟩ else none } }

/-- `lea` (R100): a + b, a + b × 2^shift, a + IMM sign-extended, modulo 2^64; operands are read whole. -/
def leaRow : Instr → Option LaneRow
  | .lea f => some (wholeRow (form32 .i f) 1 64 fun _ a b _ => a + b)
  | .lea64 f k => some (wholeRow (form64 f) 1 64 fun _ a b _ => a + b * BitVec.ofNat 64 (2 ^ k))
  | .lea64i f => some (wholeRow { form64IS f with imm := some ((BitVec.ofNat 32 f.imm).signExtend 64) } 1 64 fun _ a b _ => a + b)
  | _ => none

/-- Byte i of a 32-bit sub-element, as the kind's integer (R101). -/
def byteOf (k : Kind) (a i : Nat) : Int := intOf k 8 (a / 2 ^ (8 * i) % 2 ^ 8)
def dot4Op : SubOp := fun k _ sm a b c =>
  fitted k 32 sm (byteOf k a 0 * byteOf k b 0 + byteOf k a 1 * byteOf k b 1 + byteOf k a 2 * byteOf k b 2 + byteOf k a 3 * byteOf k b 3 + intOf k 32 c)
def sadOp : SubOp := fun k _ sm a b c =>
  fitted k 32 sm ((byteOf k a 0 - byteOf k b 0).natAbs + (byteOf k a 1 - byteOf k b 1).natAbs + (byteOf k a 2 - byteOf k b 2).natAbs +
    (byteOf k a 3 - byteOf k b 3).natAbs + intOf k 32 c)

/-- `dot4` and `sad` on their shape, `.w`; the 32-bit form has no addend. -/
def byteRow : Instr → Option LaneRow
  | .dot4 f => if f.shape = .w then some (subRow (form32 .i f) 2 dot4Op) else none
  | .dot464 f => if f.shape = .w then some (subRow (form64 f) 2 dot4Op) else none
  | .sad f => if f.shape = .w then some (subRow (form32 .i f) 2 sadOp) else none
  | .sad64 f => if f.shape = .w then some (subRow (form64 f) 2 sadOp) else none
  | _ => none

/-! ### Floating point -/

/-- What a float row computes: the settings a thread's word samples, the format, sub-element number, and the codes of A, B, C. -/
abbrev FloatSub := FpMode → Format → Nat → Nat → Nat → Nat → Nat

/-- A row of Table 4.2 of latency F4 whose result has the operands' format; `draws` where it rounds. -/
def floatRowOf (f : Form) (draws : View → List Src) (op : FloatSub) : LaneRow :=
  { f, lat := 4, draws, preds := []
    out := fun s v t =>
      { tid := t.tid
        value := match formatOf f.shape f.kind with
          | none => 0
          | some F => perSub f.w fun j => op (s.fpMode v t f.n) F j (subOf f.w (s.source v t f.w f.a) j) (subOf f.w (s.operandB v t f.w f) j)
              (subOf f.w (s.source v t f.w f.c) j)
        mask := guardMask f.w (s.guard v f.guard t), pred := none } }

/-- The order of R103: input flush, the exact result, one rounding with saturation, result flush. -/
def inOrder (exact : FpMode → FVal → FVal → FVal → FVal) : FloatSub := fun m F j a b c =>
  F.flush (m.flushOut F) (F.ofVal (m.rounding j) m.sat (exact m (F.toVal (F.flush (m.flushIn F) a)) (F.toVal (F.flush (m.flushIn F) b))
    (F.toVal (F.flush (m.flushIn F) c))))

/-- A rounding float row. -/
def roundRow (f : Form) (exact : FpMode → FVal → FVal → FVal → FVal) : LaneRow := floatRowOf f rsrSources (inOrder exact)

/-- fadd, fsub, fmul and fma: the exact values of R103 under R43. -/
def arithRow : Instr → Option LaneRow
  | .fadd f => some (roundRow (form32 .f f) plus) | .fadd64 f => some (roundRow (form64 f) plus)
  | .fadd64i f => some (roundRow (form64I f) plus)
  | .fsub f => some (roundRow (form32 .f f) less) | .fsub64 f => some (roundRow (form64 f) less)
  | .fsub64i f => some (roundRow (form64I f) less)
  | .fmul f => some (roundRow (form32 .f f) fun _ a b _ => a.mul b) | .fmul64 f => some (roundRow (form64 f) fun _ a b _ => a.mul b)
  | .fmul64i f => some (roundRow (form64I f) fun _ a b _ => a.mul b)
  | .fma f => some (roundRow (form64 f) fun m a b c => sumVals m.rdn [a.mul b, c])
  | _ => none
where
  plus (m : FpMode) (a b _ : FVal) : FVal := sumVals m.rdn [a, b]
  less (m : FpMode) (a b _ : FVal) : FVal := sumVals m.rdn [a, b.neg]

/-- The other rows of latency F4 that give a float: fmin, fmax, frnd, fscl (R104, R107). -/
def otherFloatRow : Instr → Option LaneRow
  | .fmin f => some (floatRowOf (form32 .f f) rsrSources (pick false)) | .fmin64 f => some (floatRowOf (form64 f) rsrSources (pick false))
  | .fmin64i f => some (floatRowOf (form64I f) rsrSources (pick false))
  | .fmax f => some (floatRowOf (form32 .f f) rsrSources (pick true)) | .fmax64 f => some (floatRowOf (form64 f) rsrSources (pick true))
  | .fmax64i f => some (floatRowOf (form64I f) rsrSources (pick true))
  | .frnd f => some (floatRowOf (form32 .f f) rsrSources whole) | .frnd64 f => some (floatRowOf (form64 f) rsrSources whole)
  | .fscl f => some (floatRowOf (form32 .f f) rsrSources (FloatOp.eval .fscl · · (form32 .f f).w))
  | .fscl64 f => some (floatRowOf (form64 f) rsrSources (FloatOp.eval .fscl · · (form64 f).w))
  | .fscl64i f => some (floatRowOf (form64I f) rsrSources (FloatOp.eval .fscl · · (form64I f).w))
  | _ => none
where
  pick (larger : Bool) : FloatSub := fun m F _ a b _ =>
    F.flush (m.flushOut F) (minMax F larger m.sat (F.flush (m.flushIn F) a) (F.flush (m.flushIn F) b))
  whole : FloatSub := fun m F j a _ _ => m.result F j ((m.operand F a).integral (m.rounding j))

/-- `fclass`, `fexp` and `fcmp`, which do not round (R105 to R107). -/
noncomputable def classRow : Instr → Option LaneRow
  | .fclass f => some (floatRowOf (form32 .f f) noDraw fun _ F _ a _ _ => classOf F a)
  | .fclass64 f => some (floatRowOf (form64 f) noDraw fun _ F _ a _ _ => classOf F a)
  | .fexp f => some (floatRowOf (form32 .f f) noDraw fun m F _ a _ _ => exponentOf (form32 .f f).w (m.operand F a))
  | .fexp64 f => some (floatRowOf (form64 f) noDraw fun m F _ a _ _ => exponentOf (form64 f).w (m.operand F a))
  | .fcmp c q f => some (fcmpOf c q (form32 .f f))
  | .fcmp64 c q f => some (fcmpOf c q (form64 f))
  | .fcmp64i c q f => some (fcmpOf c q (form64I f))
  | _ => none
where
  fcmpOf (c : FCond) (q : Nat) (f : Form) : LaneRow :=
    { f, lat := 4, draws := noDraw, preds := []
      out := fun s v t =>
        let on := fun j => match formatOf f.shape f.kind with
          | none => false
          | some F => fcondHolds c ((s.fpMode v t f.n).operand F (subOf f.w (s.source v t f.w f.a) j))
              ((s.fpMode v t f.n).operand F (subOf f.w (s.operandB v t f.w f) j))
        { tid := t.tid, value := perSub f.w fun j => if on j then 2 ^ f.w - 1 else 0, mask := guardMask f.w (s.guard v f.guard t)
          pred := some ⟨q, f.n, s.guard v f.guard t, bitsOf f.n on⟩ } }

/-- `fdot2` (R103): the two products, and C in the 64-bit form, summed exactly and rounded once. -/
def dotRow : Instr → Option LaneRow
  | .fdot2 f => some (row (form32 .f f) false)
  | .fdot264 f => some (row (form64 f) true)
  | _ => none
where
  row (f : Form) (addend : Bool) : LaneRow :=
    let wd := 2 * f.w
    let G := if f.shape = .h then Format.fp32 else .fp64
    { f, lat := 4, draws := rsrSources, preds := []
      out := fun s v t =>
        let m := s.fpMode v t (64 / wd)
        { tid := t.tid
          value := match formatOf f.shape f.kind with
            | none => 0
            | some F => perSub wd fun j =>
              let x := fun i => m.operand F (subOf f.w (s.source v t f.w f.a) i)
              let y := fun i => m.operand F (subOf f.w (s.operandB v t f.w f) i)
              let c := if addend then [m.operand G (subOf wd (s.source v t wd f.c) j)] else []
              m.result G j (sumVals m.rdn ((x (2 * j)).mul (y (2 * j)) :: (x (2 * j + 1)).mul (y (2 * j + 1)) :: c))
          mask := guardMask wd (s.guard v f.guard t), pred := none } }

/-! ### Conversion and packing -/

/-- The byte that a selector picks (R114). -/
def swzOp (a b c : W64) : W64 := perSub 8 fun j =>
  let sel := subOf 8 b j
  if 128 ≤ sel then 0 else if sel % 16 ≤ 7 then subOf 8 a (sel % 16) else subOf 8 c (sel % 16 - 8)

/-- The bits of a at the ones of b, packed (R115). -/
def compressOp : SubOp := fun _ w _ a b _ => ((onesOf w b).zipIdx.map fun e => if a.testBit e.1 then 2 ^ e.2 else 0).sum
/-- The low bits of a placed at the ones of b (R115). -/
def depositOp : SubOp := fun _ w _ a b _ => ((onesOf w b).zipIdx.map fun e => if a.testBit e.2 then 2 ^ e.1 else 0).sum

def swzRow : Instr → Option LaneRow
  | .swz f => some (wholeRow (form32 .i f) 2 8 fun _ a b c => swzOp a b c)
  | .swz64 f => some (wholeRow (form64 f) 2 8 fun _ a b c => swzOp a b c)
  | _ => none

def bcsRow : Instr → Option LaneRow
  | .bcs f => some (subRow (form32 .i f) 2 compressOp)
  | .bcs64 f deposit => some (subRow (form64 f) 2 (if deposit then depositOp else compressOp))
  | _ => none

/-- `pk` and `upk` (R113). -/
def packRow : Instr → Option LaneRow
  | .pk f => some (pk (form32 .i f)) | .pk64 f => some (pk (form64 f))
  | .upk f h => some (upk h (form32 .i f)) | .upk64 f h => some (upk h (form64 f))
  | _ => none
where
  pk (f : Form) : LaneRow :=
    { f, lat := 2, draws := noDraw, preds := []
      out := fun s v t =>
        { tid := t.tid
          value := perSub (f.w / 2) fun j => fitted f.kind (f.w / 2) v.pfx.sat (intOf f.kind f.w (
            if j < f.n then subOf f.w (s.source v t f.w f.a) j else subOf f.w (s.operandB v t f.w f) (j - f.n)))
          mask := guardMask (f.w / 2) (s.guard v f.guard t), pred := none } }
  upk (h : Nat) (f : Form) : LaneRow :=
    { f, lat := 2, draws := noDraw, preds := []
      out := fun s v t =>
        { tid := t.tid
          value := perSub f.w fun j => (BitVec.ofInt f.w (intOf f.kind (f.w / 2) (subOf (f.w / 2) (s.source v t f.w f.a) (h * f.n + j)))).toNat
          mask := guardMask f.w (s.guard v f.guard t), pred := none } }

/-- The coordinate and draw of `rng` (R116). -/
def rngRow : Instr → Option LaneRow
  | .rng f => some (row (form32 .i f)) | .rng64 f => some (row (form64 f))
  | _ => none
where
  row (f : Form) : LaneRow :=
    { f, lat := 2, draws := fun _ => [.k 61, .k 62, .k 63], preds := []
      out := fun s v t =>
        { tid := t.tid
          value := perSub f.w fun j => rngCode f.shape f.kind (ch64 (s.readK v 62) ((s.operandB v t 64 f).setWidth 32)
            (s.readK v 61 + s.source v t 64 f.a + w64 ((v.wg.w * v.leaf.wgsz + t.tid) * f.n) + w64 j)).toNat
          mask := guardMask f.w (s.guard v f.guard t), pred := none } }

/-- The placement of R111 by part `h`: `conv` takes the destination's sub-element number and a source code. -/
def byPart (ws wd h : Nat) (conv : Nat → Nat → Nat) (a c : W64) : W64 := perSub wd fun j =>
  if 64 / ws ≤ 64 / wd then
    if j / (64 / ws) = h then conv j (subOf ws a (j % (64 / ws))) else subOf wd c j
  else conv j (subOf ws a (h * (64 / wd) + j))

/-- `cvt`, `qnt` and `dqn` (R111, R112, R117, R118): the two halves of a byte share a guard bit (R110). -/
def convertRow : Instr → Option LaneRow
  | .cvt f m => some
    { f := form64 f, lat := 2, draws := rsrSources, preds := []
      out := fun s v t =>
        let wd := elemBits f.shape f.kind
        { tid := t.tid
          value := byPart (elemBits m.shape m.kind) wd m.part (convertCode (s.fpMode v t (64 / wd)) m.shape m.kind f.shape f.kind)
            (s.source v t (elemBits m.shape m.kind) f.a) (s.source v t wd f.c)
          mask := guardMask (max 8 wd) (s.guard v f.guard t), pred := none } }
  | .qnt f m scale => some
    { f := form64 f, lat := 2, draws := if scale then noDraw else rsrSources, preds := []
      out := fun s v t =>
        let wd := if scale then 8 else elemBits f.shape f.kind
        let fp := s.fpMode v t (64 / wd)
        { tid := t.tid
          value := match formatOf m.shape m.kind, formatOf f.shape f.kind with
            | some F, some G => byPart (elemBits m.shape m.kind) wd m.part (fun j x =>
                if scale then scaleOf fp f.kind (fp.operand F x) else quantised fp G j (subOf 8 (s.operandB v t 64 (form64 f)) 0) (fp.operand F x))
                (s.source v t (elemBits m.shape m.kind) f.a) (s.source v t wd f.c)
            | _, _ => 0
          mask := guardMask 8 (s.guard v f.guard t), pred := none } }
  | .dqn f m band => some
    { f := form64 f, lat := 2, draws := rsrSources, preds := []
      out := fun s v t =>
        let w := (form64 f).w
        let fp := s.fpMode v t (form64 f).n
        { tid := t.tid
          value := match formatOf m.shape m.kind, formatOf f.shape f.kind with
            | some F, some G => byPart (elemBits m.shape m.kind) w m.part (fun j x =>
                fp.result G j (scaledVal fp F x (subOf 8 (s.operandB v t 64 (form64 f)) 0)
                  (if band then some (subOf 16 (s.source v t 64 f.c) 0) else none))) (s.source v t (elemBits m.shape m.kind) f.a) 0
            | _, _ => 0
          mask := guardMask w (s.guard v f.guard t), pred := none } }
  | _ => none

/-! ### Cross-lane words -/

/-- The value at a position of the group's operand: that of a present lane, whatever its guard (R162). -/
def atPosition (s : State) (v : View) (w : Nat) (a : Src) (q : Nat) : Option Nat :=
  (v.threads.find? fun t => t.tid % 32 == q / (64 / w)).map fun t => subOf w (s.source v t w a) (q % (64 / w))

/-- A cross-lane row (R162): latency F5, written under the lane's own guard. -/
def crossRow (f : Form) (value : State → View → Thread → Nat → Nat) : LaneRow :=
  { f, lat := 5, draws := noDraw, preds := []
    out := fun s v t => { tid := t.tid, value := perSub f.w (value s v t), mask := guardMask f.w (s.guard v f.guard t), pred := none } }

/-- A gather (R164): the value at the source position, or the fill where there is none. -/
def gatherRow (f : Form) (index : Nat → Nat → Nat) : LaneRow := crossRow f fun s v t j =>
  let e := 64 / f.w
  let q := index (t.tid % 32 * e + j) (subOf f.w (s.operandB v t f.w f) j)
  if q < 32 * e then (atPosition s v f.w f.a q).getD (subOf f.w (s.source v t f.w f.c) j) else subOf f.w (s.source v t f.w f.c) j

/-- `xsh`, `xbc` and `xrot` (R164). -/
def shuffleRow : Instr → Option LaneRow
  | .xsh f => some (gatherRow (form32 .i f) fun _ b => b)
  | .xsh64 f => some (gatherRow (form64 f) fun _ b => b)
  | .xbc f lane sub => some (gatherRow (form64 f) fun _ _ => lane * (64 / (form64 f).w) + sub)
  | .xrot f n => some (gatherRow (form32 .i f) fun q _ => ((q + n) % (32 * (64 / (form32 .i f).w) : Nat)).toNat)
  | .xrot64 f n => some (gatherRow (form64 f) fun q _ => (q + n) % (32 * (64 / (form64 f).w)))
  | _ => none

/-- `xpush` (R165): of the positions whose guard is on and that push to a place, the highest wins; every sub-element is written. -/
def pushRow : Instr → Option LaneRow
  | .xpush f => some (row (form32 .i f)) | .xpush64 f => some (row (form64 f))
  | _ => none
where
  row (f : Form) : LaneRow :=
    { f, lat := 5, draws := noDraw, preds := []
      out := fun s v t =>
        let e := 64 / f.w
        let pushed := fun q => v.threads.flatMap fun u => ((List.range e).filter fun i =>
          (s.guard v f.guard u).getLsbD i && subOf f.w (s.operandB v u f.w f) i == q).map fun i => subOf f.w (s.source v u f.w f.a) i
        { tid := t.tid
          value := perSub f.w fun j => ((pushed (t.tid % 32 * e + j)).getLast?).getD (subOf f.w (s.source v t f.w f.c) j)
          mask := BitVec.allOnes 64, pred := none } }

/-- `xmatch` (R166): the lanes whose sub-element holds the same bits. -/
def matchRow : Instr → Option LaneRow
  | .xmatch f => some (row (form32 .i f)) | .xmatch64 f => some (row (form64 f))
  | _ => none
where
  row (f : Form) : LaneRow := crossRow f fun s v t j =>
    laneBits ((v.threads.filter fun u => subOf f.w (s.source v u f.w f.a) j == subOf f.w (s.source v t f.w f.a) j).map (·.tid % 32))

/-- `vote` (R167): every present position contributes; a ballot is written whole under guard bit 0. -/
def voteRow : Instr → Option LaneRow
  | .vote m f => some (row m (form32 .i f)) | .vote64 m f => some (row m (form64 f))
  | _ => none
where
  row (m : VoteMode) (f : Form) : LaneRow :=
    { f, lat := 5, draws := noDraw, preds := []
      out := fun s v t =>
        let e := 64 / f.w
        let all := v.threads.flatMap fun u => (List.range e).map fun i => (u.tid % 32 * e + i, subOf f.w (s.source v u f.w f.a) i)
        let ones := fun (b : Bool) => perSub f.w fun _ => if b then 2 ^ f.w - 1 else 0
        { tid := t.tid
          value := match m with
            | .any => ones (all.any fun x => x.2 != 0)
            | .all => ones (all.all fun x => x.2 != 0)
            | .eq => ones (all.all fun x => all.all fun y => x.2 == y.2)
            | .ballot => w64 (laneBits ((all.filter fun x => x.2 != 0).map (·.1)))
          mask := match m with
            | .ballot => if (s.guard v f.guard t).getLsbD 0 then BitVec.allOnes 64 else 0
            | _ => guardMask f.w (s.guard v f.guard t)
          pred := none } }

/-- `xred` and `xscan` (R168): the tree and the prefixes of R61 over the positions' values, an absent one the identity or empty. -/
def reduceRow : Instr → Option LaneRow
  | .xred op f => some (row false op (form32 (redKind op) f)) | .xred64 op f => some (row false op (form64 f))
  | .xscan op f => some (row true op (form32 (redKind op) f)) | .xscan64 op f => some (row true op (form64 f))
  | _ => none
where
  row (scan : Bool) (op : RedOp) (f : Form) : LaneRow :=
    { crossRow f (fun s v t j =>
        let e := 64 / f.w
        let node := redNode op f.kind f.w (s.redMode v t e) (formatOf f.shape f.kind)
        let leaf := fun q => (atPosition s v f.w f.a q).or (RedIdentity op f.kind f.w)
        redResult op (s.redMode v t e) (formatOf f.shape f.kind)
          (((if scan then scanBlocks node leaf (t.tid % 32 * e + j) (Nat.log2 (32 * e) + 1) 0 none
            else treeNode node leaf (Nat.log2 (32 * e)) 0)).getD 0)) with draws := rsrSources }

end Sys2Proof.Spec

section
open Sys2Proof Sys2Proof.Machine Sys2Proof.Spec

/-- Integer rows of Table 4.1 on sub-elements: each present lane takes the value of the row, fitted under R39. -/
def Obligations.IntegerWords : Prop := ∀ i r, intRow i = some r → RunsLanes i r

/-- R95: shifts and rotation. -/
def Obligations.ShiftWords : Prop := ∀ i r, shiftRow i = some r → RunsLanes i r

/-- R96 where the field lies inside the sub-element, and R97: bit fields and selection. -/
def Obligations.FieldAndSelectWords : Prop :=
  (∀ i r, fieldRow i = some r → RunsLanes i r) ∧ ∀ i r, selRow i = some r → RunsLanes i r

/-- R98: a comparison writes its predicate under the guard and pushes the masks. -/
def Obligations.CompareWords : Prop := ∀ i r, cmpRow i = some r → RunsLanes i r

/-- R99 and R100: carries, and addresses modulo 2^64. -/
def Obligations.CarryAndAddressWords : Prop :=
  (∀ i r, carryRow i = some r → RunsLanes i r) ∧ ∀ i r, leaRow i = some r → RunsLanes i r

/-- R101: sums over bytes. -/
def Obligations.ByteSumWords : Prop := ∀ i r, byteRow i = some r → RunsLanes i r

/-- Float words of latency F4 (R103 to R107): each present lane takes the row's value. -/
def Obligations.FloatWords : Prop :=
  (∀ i r, arithRow i = some r → RunsLanes i r) ∧ (∀ i r, otherFloatRow i = some r → RunsLanes i r) ∧
    (∀ i r, classRow i = some r → RunsLanes i r) ∧ ∀ i r, dotRow i = some r → RunsLanes i r

/-- R114 and R115: bytes picked by selectors, bits compressed and deposited. -/
def Obligations.SwizzleAndBitWords : Prop :=
  (∀ i r, swzRow i = some r → RunsLanes i r) ∧ ∀ i r, bcsRow i = some r → RunsLanes i r

/-- Conversions, packing and random bits (R111 to R113, R116 to R118). -/
def Obligations.ConvertWords : Prop :=
  (∀ i r, packRow i = some r → RunsLanes i r) ∧ (∀ i r, rngRow i = some r → RunsLanes i r) ∧
    ∀ i r, convertRow i = some r → RunsLanes i r

/-- R165 and R166: `xpush` sends, and the highest source position wins; `xmatch` finds the lanes that hold the same bits. -/
def Obligations.PushAndMatchWords : Prop :=
  (∀ i r, pushRow i = some r → RunsLanes i r) ∧ ∀ i r, matchRow i = some r → RunsLanes i r

/-- The other cross-lane words (R164, R167, R168). -/
def Obligations.CrossLaneWords : Prop :=
  (∀ i r, shuffleRow i = some r → RunsLanes i r) ∧ (∀ i r, voteRow i = some r → RunsLanes i r) ∧
    ∀ i r, reduceRow i = some r → RunsLanes i r

end

namespace Sys2Proof.Spec
open Sys2Proof.Machine

/-! ### Long-latency words -/

/-- An operation without the threads that a later write took its destination from. -/
def undropped (o : LongOp) : LongOp := { o with dropped := [] }

/-- What a long-latency word asks for: the operation's kind, the threads it serves, and the boundaries it waits for. -/
structure Asked where
  kind  : LongKind
  tids  : List Nat
  after : List Nat

/-- `t` is `s` after a long-latency word of a group: one operation for each of `asked`, in order, the next ordinal of the run holding
them all (R28, R30), the run's end `tail`, and nothing else changed: no register, no memory, no l push (R24). -/
def Issued (s t : State) (v : View) (dst : Dst) (tail : Tail) (asked : List Asked) : Prop :=
  ∃ new : List LongOp,
    t.ops.map undropped = (s.ops ++ new).map undropped ∧
    new.map undropped = asked.zipIdx.map (fun e =>
      { newOp s (.group v.g.id) v.wg.id v.wg.core v.leaf.job v.turn.pc e.1.kind dst with
        id := s.seq + e.2, seq := s.seq + e.2, tids := e.1.tids, present := e.1.tids, after := e.1.after }) ∧
    t.group? v.g.id = some { v.g with run := some { v.run with ordinals := v.run.ordinals ++ [new.map (·.id)], tail } } ∧
    (∀ id, id ≠ v.g.id → t.group? id = s.group? id) ∧
    { t with ops := s.ops, groups := s.groups, seq := s.seq } = s

/-- A row of long-latency lane-set words: operands, what each present lane asks for, if anything, and whether an earlier `cwait` holds the
word itself. -/
structure LongRow where
  f     : Form
  srcs  : List Src
  draws : View → List Src
  ask   : State → View → Thread → Option Asked
  waits : Bool := false

/-- No earlier `cwait` of the word's threads is pending, which holds their later memory instructions (R251). -/
def NoCwait (s : State) (v : View) : Prop :=
  ∀ o ∈ s.ops, ∀ ids, o.kind = .cwait ids → o.wg = v.wg.id → ∀ t ∈ v.threads, t.tid ∉ o.present

/-- No watchpoint can match an access of a word: it was checked before, or none is set for any kind of access (R325). -/
def Unwatched (s : State) (v : View) : Prop :=
  v.g.skipWatch = true ∨ ∀ w ∈ s.wpts, ∀ k < 3, w.ctl.getLsbD (3 + k) = false

/-- An instruction does what its row says, wherever its operands are usable and the run holds fewer than 16 ordinals (R30). -/
def RunsLong (i : Instr) (r : LongRow) : Prop :=
  ∀ s v, InRun s v → Usable v r.srcs r.f.d → v.run.ordinals.length < 16 → Unwatched s v → (r.waits = true → NoCwait s v) →
    ∃ t, exec i s = .next t ∧
      Issued (atReady s v r.f.guard r.srcs (r.draws v) []) t v r.f.d v.run.tail
        (v.threads.filterMap (r.ask (atReady s v r.f.guard r.srcs (r.draws v) []) v))

/-- A long-latency float row (R108, R109): the value formed at issue, for each lane with a guard bit on. -/
def longFloatRow (f : Form) (op : FpMode → Format → Nat → Nat → Nat → Nat) : LongRow :=
  { f, srcs := f.srcs, draws := rsrSources
    ask := fun s v t =>
      let g := s.guard v f.guard t
      if anyOn f.n g then some
        { kind := .value (match formatOf f.shape f.kind with
            | none => 0
            | some F => perSub f.w fun j => op (s.fpMode v t f.n) F j (subOf f.w (s.source v t f.w f.a) j) (subOf f.w (s.operandB v t f.w f) j)) g f.shape
          tids := [t.tid], after := [] }
      else none }

/-- fdiv, fsqrt and rcp round once (R103, R108); the special functions round as Table 4.3 says (R109). -/
def longFloatRows : Instr → Option LongRow
  | .fdiv f => some (longFloatRow (form32 .f f) quot) | .fdiv64 f => some (longFloatRow (form64 f) quot)
  | .fdiv64i f => some (longFloatRow (form64I f) quot)
  | .fsqrt f => some (longFloatRow (form32 .f f) root) | .fsqrt64 f => some (longFloatRow (form64 f) root)
  | .rcp f => some (longFloatRow (form32 .f f) recip) | .rcp64 f => some (longFloatRow (form64 f) recip)
  | .rsq f => some (longFloatRow (form32 .f f) (special .rsq)) | .rsq64 f => some (longFloatRow (form64 f) (special .rsq))
  | .ex2 f => some (longFloatRow (form32 .f f) (special .ex2)) | .ex264 f => some (longFloatRow (form64 f) (special .ex2))
  | .lg2 f => some (longFloatRow (form32 .f f) (special .lg2)) | .lg264 f => some (longFloatRow (form64 f) (special .lg2))
  | .sin f => some (longFloatRow (form32 .f f) (special .sin)) | .sin64 f => some (longFloatRow (form64 f) (special .sin))
  | .cos f => some (longFloatRow (form32 .f f) (special .cos)) | .cos64 f => some (longFloatRow (form64 f) (special .cos))
  | _ => none
where
  quot (m : FpMode) (F : Format) (j a b : Nat) : Nat := F.flush (m.flushOut F) (F.divOf (m.rounding j) m.sat (m.operand F a) (m.operand F b))
  root (m : FpMode) (F : Format) (j a _ : Nat) : Nat := F.flush (m.flushOut F) (F.sqrtOf (m.rounding j) m.sat (m.operand F a))
  recip (m : FpMode) (F : Format) (j a _ : Nat) : Nat := F.flush (m.flushOut F) (F.divOf (m.rounding j) m.sat (.fin false 1 0) (m.operand F a))
  special (fn : SpecialFn) (m : FpMode) (F : Format) (_ a _ : Nat) : Nat :=
    F.flush (m.flushOut F) (fn.eval F m.sat (m.flushIn F) (F.flush (m.flushIn F) a))

/-! ### Addresses and loads (R119, R120) -/

/-- The three address forms (R119): base + offset × width, base + index × 2^shift, base + IMM sign-extended, modulo 2^64. -/
inductive Form119 where
  | offset (off : Int) | index (shift : Nat) | imm (imm : Nat)

/-- A lane's address. -/
def addressOf (s : State) (v : View) (f : Form) (m : Form119) (t : Thread) : Nat :=
  let base := s.source v t 64 f.a
  (match m with
    | .offset off => base + BitVec.ofInt 64 (off * (shapeBits f.shape / 8 : Nat))
    | .index k => base + s.operandB v t 64 f * BitVec.ofNat 64 (2 ^ k)
    | .imm n => base + (BitVec.ofNat 32 n).signExtend 64).toNat

/-- Guard bit 0, which decides whether a lane makes its access (R229). -/
def bit0 (s : State) (v : View) (g : Option Guard) (t : Thread) : Bool := (s.guard v g t).getLsbD 0

/-- A load row: each lane with guard bit 0 on asks for its bytes, after what its thread's loads wait for (Tables 8.1, 8.4). -/
def loadRow (f : Form) (m : Form119) (nol1 : Bool) : LongRow :=
  { f, srcs := [f.a, f.b], draws := noDraw
    ask := fun s v t => if bit0 s v f.guard t then some
      ⟨.load (addressOf s v f m t) (shapeBits f.shape / 8) (f.kind == .i) nol1, [t.tid], t.gates ++ t.waits⟩ else none }

/-- The value that an `lds` takes: its bytes as they stand at its place in local order (R235). -/
def ldsRow (f : Form) (m : Form119) : LongRow :=
  { f, srcs := [f.a, f.b], draws := noDraw, waits := true
    ask := fun s v t =>
      let off := addressOf s v f m t
      let n := shapeBits f.shape / 8
      if bit0 s v f.guard t then some
        ⟨.lds off n (f.kind == .i) (if off + n ≤ v.leaf.scratch then leNat (sgetAll 0 v.wg.scr off n) else 0), [t.tid], []⟩ else none }

/-- `ldx` (R237): each lane with a guard bit on, with its array's address, index and sampled settings. -/
def ldxRow (f : Form) : LongRow :=
  { f, srcs := [f.a, f.b], draws := rsrSources
    ask := fun s v t =>
      let g := s.guard v f.guard t
      if anyOn f.n g then some
        ⟨.ldx (s.source v t 64 f.a).toNat (s.operandB v t 64 f) f.shape f.kind (s.fpMode v t f.n) g, [t.tid], t.gates ++ t.waits⟩ else none }

def loads : Instr → Option LongRow
  | .ld f off => some (loadRow (form32 .i f) (.offset off) false)
  | .ld64 f m => some (loadRow (form64 f) (.index m.shift) (m.l1h == .nol1))
  | .ld64i f => some (loadRow (form64IS f) (.imm f.imm) false)
  | .lds f off => some (ldsRow (form32 .i f) (.offset off))
  | .lds64 f k => some (ldsRow (form64 f) (.index k))
  | .lds64i f => some (ldsRow (form64IS f) (.imm f.imm))
  | .ldx f => some (ldxRow (form64 f))
  | .ldx64i f => some (ldxRow (formZ f.shape f.kind f.d f.a f.imm))
  | _ => none

/-! ### Stores -/

/-- Bit `i` that some pieces, in lane order, leave at an address of a destination: that of the last which writes it (R216, R234). -/
def bitLeft (pieces : List Piece) (d : PathDest) (pa i : Nat) : Option Bool :=
  ((pieces.filter fun e => e.dest == d && e.pa == pa && e.mask.getLsbD i).getLast?).map (·.val.getLsbD i)

/-- The pieces of a store land in the core's path and nowhere else: one entry for each 32-byte sector, which holds exactly the bits that the
pieces write there, the last value of each standing (R216, R234), and waits for `after`. -/
def Stored (s t : State) (v : View) (after : List Nat) (pieces : List Piece) : Prop :=
  ∃ new : List PathStore,
    t = { s with path := s.path ++ new, seq := s.seq + 1 } ∧
    (∀ p ∈ new, p.core = v.wg.core ∧ p.wg = v.wg.id ∧ p.seq = s.seq ∧ p.after = after ∧ p.sent = false ∧
      ∀ b ∈ p.bytes, (∀ c ∈ p.bytes, c.pa / 32 = b.pa / 32) ∧
        ∀ i < 8, bitLeft pieces p.dest b.pa i = if b.mask.getLsbD i then some (b.val.getLsbD i) else none) ∧
    (new.Pairwise fun p q => p.dest = q.dest → ∀ b ∈ p.bytes, ∀ c ∈ q.bytes, b.pa / 32 ≠ c.pa / 32) ∧
    ∀ e ∈ pieces, ∃ p ∈ new, p.dest = e.dest ∧ ∃ b ∈ p.bytes, b.pa = e.pa

/-- A row of stores: operands, the lanes that store, and each lane's pieces or fault. -/
structure StoreRow where
  f     : Form
  srcs  : List Src
  draws : View → List Src
  lane  : State → View → Thread → Bool
  one   : State → View → State → Thread → Checked (List Piece)

/-- A store of every lane that makes its access, where every one of them passes its checks: only the core's store path has changed
besides what those checks leave (A and D bits, held translations, zero fill), `s2`. -/
def RunsStore (i : Instr) (r : StoreRow) : Prop :=
  ∀ s v ok s2, InRun s v → Usable v r.srcs .none → Unwatched s v →
    checkLanes (atReady s v r.f.guard r.srcs (r.draws v) []) v.wg (r.one (atReady s v r.f.guard r.srcs (r.draws v) []) v)
      (v.threads.filter (r.lane (atReady s v r.f.guard r.srcs (r.draws v) []) v)) = (ok, [], s2) →
    ∃ t, exec i s = .next t ∧ Stored s2 t v (ok.flatMap (·.1.gates)) (ok.flatMap (·.2))

/-- `st` (R120, R230). -/
def stRow (f : Form) (data : Src) (m : Form119) : StoreRow :=
  { f, srcs := [f.a, f.b, data], draws := noDraw, lane := fun s v => bit0 s v f.guard
    one := fun s v u t => u.storeAt (u.wgAccessor v.wg) (addressOf s v f m t) (shapeBits f.shape / 8) (s.source v t f.w data).toNat }

def stores : Instr → Option StoreRow
  | .st f off => some (stRow (form32 .i f) (dataSrc f.d) (.offset off))
  | .st64 f m => some (stRow (formS f) f.data (.index m.shift))
  | .st64i f => some (stRow (formIS f) f.data (.imm f.imm))
  | _ => none

/-- The scratchpad after some lanes' `sts`, in lane order: the highest lane's value stands (R234, R235). -/
def scratchAfter (s : State) (v : View) (f : Form) (data : Src) (m : Form119) : Sparse Byte :=
  ssetEach 0 v.wg.scr ((v.threads.filter (bit0 s v f.guard)).flatMap fun t =>
    (leBytes (shapeBits f.shape / 8) (s.source v t f.w data).toNat).zipIdx.map fun b => (addressOf s v f m t + b.2, b.1))

/-- No copy that an earlier `fence.sp` of the word's threads names has source bytes to read, which would hold their `sts` (R248). -/
def NotFenced (s : State) (v : View) : Prop := ∀ t ∈ v.threads, ∀ c ∈ s.copies, c.id ∈ t.spFence → c.unread = false

/-- `t` is `s` with the scratchpad of the view's workgroup changed to `scr`: an error in a byte may be gone, and a copy out of that
scratchpad may have read sectors of its source, as they stood before (R250). -/
def ScratchSet (s t : State) (v : View) (scr : Sparse Byte) : Prop :=
  (∃ w, t.wg? v.wg.id = some w ∧ { w with upsets := [] } = { v.wg with scr, upsets := [] } ∧ ∀ u ∈ w.upsets, u ∈ v.wg.upsets) ∧
  (∀ id, id ≠ v.wg.id → t.wg? id = s.wg? id) ∧ t.copies.length = s.copies.length ∧
  (∀ (n : Nat) (a b : Copy), s.copies[n]? = some a → t.copies[n]? = some b →
    b = a ∨ (a.wg = v.wg.id ∧ ∃ p, b = a.readSource v.wg.scr p)) ∧
  { t with wgs := s.wgs, copies := s.copies } = s

/-- `sts` where every lane's bytes are aligned and lie in its workgroup's share (R235, R236), and no `cwait` or `fence.sp` holds it: the
scratchpad takes them, every other byte of it and everything else stands. -/
def RunsScratchStore (i : Instr) (f : Form) (data : Src) (m : Form119) : Prop :=
  ∀ s v, InRun s v → Usable v [f.a, f.b, data] .none → NoCwait s v → NotFenced s v →
    (∀ t ∈ v.threads, bit0 (atReady s v f.guard [f.a, f.b, data] [] []) v f.guard t = true →
      addressOf (atReady s v f.guard [f.a, f.b, data] [] []) v f m t % (shapeBits f.shape / 8) = 0 ∧
      addressOf (atReady s v f.guard [f.a, f.b, data] [] []) v f m t + shapeBits f.shape / 8 ≤ v.leaf.scratch) →
    (∃ t, exec i s = .next t ∧ ScratchSet (atReady s v f.guard [f.a, f.b, data] [] []) t v
      (scratchAfter (atReady s v f.guard [f.a, f.b, data] [] []) v f data m)) ∧
    ∀ b, (∀ t ∈ v.threads, bit0 (atReady s v f.guard [f.a, f.b, data] [] []) v f.guard t = true →
        b < addressOf (atReady s v f.guard [f.a, f.b, data] [] []) v f m t ∨
          addressOf (atReady s v f.guard [f.a, f.b, data] [] []) v f m t + shapeBits f.shape / 8 ≤ b) →
      sget 0 (scratchAfter (atReady s v f.guard [f.a, f.b, data] [] []) v f data m) b = sget 0 v.wg.scr b

/-- The cells of a `stash` (R245): the local vector at A, and the table at B with stride C, each sub-element whose guard is on. -/
def stashCells (s : State) (v : View) (f : F64S) (t : Thread) : List (Nat × Nat) :=
  let g := formS f
  let n := shapeBits f.shape / 8
  let on := (List.range g.n).filter fun i => (s.guard v f.guard t).getLsbD i
  let x := fun i => subOf g.w (s.source v t g.w f.data) i
  (on.map fun i => ((s.source v t 64 f.a).toNat + i * n, x i)) ++
    on.map fun i => ((s.source v t 64 f.b + BitVec.ofNat 64 i * s.source v t 64 f.c).toNat, x i)

/-- Where its addresses are aligned, a lane's `stash` writes its cells one after another. -/
def stashRow (f : F64S) : StoreRow :=
  { f := formS f, srcs := [f.a, f.b, f.c, f.data], draws := noDraw
    lane := fun s v t => anyOn (formS f).n (s.guard v f.guard t)
    one := fun s v u t =>
      let n := shapeBits f.shape / 8
      let a := (s.source v t 64 f.a).toNat
      let b := (s.source v t 64 f.b).toNat
      if a % 8 ≠ 0 then .error (2, 0, a) else if b % n ≠ 0 || (s.source v t 64 f.c).toNat % n ≠ 0 then .error (2, 0, b) else
      (stashCells s v f t).foldl (fun acc e => match acc with
        | .error x => .error x
        | .ok (l, u) => match u.access (u.wgAccessor v.wg) { plainRule .write with format := fun p => !p.exr } false e.1 with
          | .error x => .error (3, x, e.1)
          | .ok (p, u) => .ok (l ++ p.pieces e.1 n e.2, u)) (.ok ([], u)) }

/-- `stx` (R238) where every lane's elements are writable, and where the word gives scales its pages have them: one store of each
element's code and scales, half bytes under their half. -/
def RunsStx (i : Instr) (f : Form) (data : Src) (scale : Bool) : Prop :=
  ∀ s v ok s2, InRun s v → Usable v [f.a, f.b, f.c, data] .none → Unwatched s v →
    let s0 := s.holdTo v (State.sourcesReady v v.threads [f.a] (guardPreds v f.guard))
    (f.c ≠ .zero ∨ scale = true → ∀ t ∈ v.threads, anyOn f.n (s0.guard v f.guard t) = true → ∀ p u,
      s0.access (s0.wgAccessor v.wg) (formatRule .write) false (s0.source v t 64 f.a).toNat = .ok (p, u) → blockSize p.efmt ≠ 0) →
    checkLanes (atReady s v f.guard [f.a, f.b, f.c, data] (rsrSources v) []) v.wg (fun u t => u.stxLane v f data scale t)
      (v.threads.filter fun t => anyOn f.n ((atReady s v f.guard [f.a, f.b, f.c, data] (rsrSources v) []).guard v f.guard t)) = (ok, [], s2) →
    ∃ t, exec i s = .next t ∧ Stored s2 t v (ok.flatMap (·.1.gates)) (ok.flatMap (·.2))

/-! ### Atomics, prefetch, copies, waits -/

/-- The accesses of an atomic's lanes (R239). -/
def atomLanes (s : State) (v : View) (f : Form) (off : Int) : List AtomLane :=
  (v.threads.filter (bit0 s v f.guard)).map fun t =>
    ⟨t.tid, addressOf s v f (.offset off) t, s.source v t f.w f.b, s.source v t f.w f.c⟩

/-- An atomic (R239, R244): one operation for the word's lanes, after their gates and, when it releases, after a boundary of its own
(Table 8.4); one that returns is the run's next ordinal. With no lane on it does nothing more than that. -/
def RunsAtomic (i : Instr) (f : Form) (off : Int) (fl : Flavour) (kind : State → View → List AtomLane → LongKind) : Prop :=
  ∀ s v, InRun s v → Usable v [f.a, f.b, f.c] f.d → (f.d ≠ .none → v.run.ordinals.length < 16) → Unwatched s v →
    exec i s = .next (
      let s1 := atReady s v f.guard [f.a, f.b, f.c] [] []
      let s2 := if f.d ≠ .none then s1.beginOrdinal v.g.id else s1
      let ls := atomLanes s1 v f off
      if ls = [] then s2
      else s2.issueAtomic v fl f.d (ls.map (·.tid)) (v.threads.filter (bit0 s1 v f.guard)) (kind s1 v ls) (f.d != .none))

/-- `pref` where every lane passes the checks of a load (R246): registers, operations and the store path stand as those checks
left them, and nothing leaves the package. -/
def RunsPrefetch (i : Instr) (f : Form) (m : Form119) : Prop :=
  ∀ s v ok s2, InRun s v → Usable v [f.a, f.b] .none →
    checkLanes (atReady s v f.guard [f.a, f.b] [] []) v.wg (fun u t =>
      let va := addressOf u v f m t
      if va % (shapeBits f.shape / 8) ≠ 0 then .error (2, 0, va) else
      match u.access (u.wgAccessor v.wg) { plainRule .read with format := fun p => !p.exr || p.cellBytes == shapeBits f.shape / 8 } false va with
      | .error e => .error (3, e, va)
      | .ok (p, u) => .ok ((p, va), u)) (v.threads.filter (bit0 (atReady s v f.guard [f.a, f.b] [] []) v f.guard)) = (ok, [], s2) →
    ∃ t, exec i s = .next t ∧ t.wgs = s2.wgs ∧ t.groups = s2.groups ∧ t.ops = s2.ops ∧ t.path = s2.path ∧ t.cyc = s2.cyc ∧
      t.outbox = s2.outbox

/-- A `cpout` of one thread: its copy, waiting and not sealed (R249). -/
def newCopyOut (s : State) (v : View) (t : Thread) (dest off n : Nat) : Copy :=
  { id := s.seq, wg := v.wg.id, region := v.leaf.id, job := v.leaf.job
    kind := .out t.tid dest off n none (List.replicate n none) [] none, line := 0, seq := s.seq, after := t.gates, sent := false, got := [] }

/-- One thread's `cpout` begins its copy; one of no bytes begins none (R249). -/
def beginCopyOut (s1 : State) (v : View) (f : F64) (s : State) (t : Thread) : State :=
  let n := (s1.source v t 64 f.c).toNat
  if n = 0 then s else
  ({ s with copies := s.copies ++ [newCopyOut s v t (s1.source v t 64 f.a).toNat (s1.source v t 64 f.b).toNat n] }.mapThread v.wg.id t.tid
    fun u => { u with unsealed := u.unsealed ++ [s.seq] }).bump

/-- `cpout` where every lane with guard bit 0 on copies aligned bytes of its share, at most 65,536 (R249). -/
def RunsCopyOut (f : F64) : Prop :=
  ∀ s v, InRun s v → Usable v [f.a, f.b, f.c] .none →
    (∀ t ∈ v.threads, bit0 (atReady s v f.guard [f.a, f.b, f.c] [] []) v f.guard t = true →
      let s1 := atReady s v f.guard [f.a, f.b, f.c] [] []
      (s1.source v t 64 f.a).toNat % 4 = 0 ∧ (s1.source v t 64 f.b).toNat % 4 = 0 ∧ (s1.source v t 64 f.c).toNat % 4 = 0 ∧
        (s1.source v t 64 f.c).toNat ≤ 65536 ∧ (s1.source v t 64 f.b).toNat + (s1.source v t 64 f.c).toNat ≤ v.leaf.scratch) →
    let s1 := atReady s v f.guard [f.a, f.b, f.c] [] []
    exec (.cpout f) s = .next ((v.threads.filter (bit0 s1 v f.guard)).foldl (beginCopyOut s1 v f) s1)

/-- One thread's `cwait` (R251): its named batches empty at once where their copies are over; else its later memory instructions wait for an
operation that names them. -/
def batchesWaited (v : View) (n : Nat) (s : State) (t : Thread) : State :=
  let named := fun (b : Nat × Nat) => n == 8 || b.2 == n
  let ids := (t.batches.filter named).map (·.1)
  if s.copies.any fun c => ids.contains c.id then
    let o : LongOp := { newOp s (.group v.g.id) v.wg.id v.wg.core v.leaf.job v.turn.pc (.cwait ids) .none with present := [t.tid] }
    (({ s with ops := s.ops ++ [o] } : State).bump).mapThreads v.wg.id [t.tid] fun u => { u with gates := u.gates.filter (fun g =>
      s.boundaries.any (·.id == g) || (s.ops ++ [o]).any (·.id == g)) ++ [s.seq] }
  else s.mapThread v.wg.id t.tid fun u => { u with batches := u.batches.filter fun b => !named b }

end Sys2Proof.Spec

section
open Sys2Proof Sys2Proof.Machine Sys2Proof.Spec

/-- Long-latency float words (R108, R109): one operation per lane with a guard bit on, its value formed at issue. -/
def Obligations.LongFloatWords : Prop := ∀ i r, longFloatRows i = some r → RunsLong i r

/-- Loads (R119, R120, R229, R230, R235, R237): one operation per lane that makes its access, at the address of the form. -/
def Obligations.LoadWords : Prop := ∀ i r, loads i = some r → RunsLong i r

/-- Stores to memory (R120, R216, R230, R234, R245): the bytes enter the core's store path, each where its page's home is. -/
def Obligations.StoreWords : Prop :=
  (∀ i r, stores i = some r → RunsStore i r) ∧ ∀ f, RunsStore (.stash f) (stashRow f)

/-- Scratchpad stores (R234 to R236). -/
def Obligations.ScratchpadStores : Prop :=
  (∀ f off, RunsScratchStore (.sts f off) (form32 .i f) (dataSrc f.d) (.offset off)) ∧
    (∀ f k, RunsScratchStore (.sts64 f k) (formS f) f.data (.index k)) ∧
    ∀ f, RunsScratchStore (.sts64i f) (formIS f) f.data (.imm f.imm)

/-- Formatted stores (R238). -/
def Obligations.FormattedStores : Prop :=
  (∀ f scale, RunsStx (.stx f scale) (formS f) f.data scale) ∧ ∀ f, RunsStx (.stx64i f) (formZ f.shape f.kind .none f.a f.imm) f.data false

/-- Atomics of a group (R239, R244, Table 8.4). -/
def Obligations.AtomicWords : Prop :=
  (∀ f op fl off, RunsAtomic (.atom f op fl off) (form64 f) off fl fun _ _ ls => .atom op f.shape f.kind fl ls) ∧
    ∀ f clr fl off, RunsAtomic (.atomx f clr fl off) (form64 f) off fl fun s v ls =>
      .atomx clr f.shape fl (ls.map (s.flushContribution v (form64 f)))

/-- Prefetches (R246) change no register, begin no operation and store nothing. -/
def Obligations.PrefetchWords : Prop :=
  (∀ f off, RunsPrefetch (.pref f off) (form32 .i f) (.offset off)) ∧ (∀ f k tg, RunsPrefetch (.pref64 f k tg) (form64 f) (.index k)) ∧
    ∀ f, RunsPrefetch (.pref64i f) (form64IS f) (.imm f.imm)

/-- Copies out of the scratchpad (R249 to R251): issued, sealed into a batch, waited for. -/
def Obligations.CopyWords : Prop :=
  (∀ f, RunsCopyOut f) ∧
  (∀ n s v, InRun s v → exec (.cseal n) s = .next (
    ({ s with copies := s.copies.map fun c => if (v.threads.flatMap (·.unsealed)).contains c.id then c.seal n else c } : State).mapThreads
      v.wg.id v.tids fun t => { t with batches := t.batches ++ t.unsealed.map (·, n), unsealed := [] })) ∧
  ∀ n s v, InRun s v → (∀ c ∈ s.batchCopies v n, c.outFault = none) → exec (.cwait n) s = .next (v.threads.foldl (batchesWaited v n) s)

/-- `waitv` (R174): one operation per lane whose guard bit 0 is on, and those threads park at the trailer with what they wait for. -/
def Obligations.WaitvWords : Prop :=
  ∀ f c s v n, InRun s v → Usable v [f.a, f.b, f.c] f.d → f.d = .x n → v.run.ordinals.length < 16 → Unwatched s v →
    let s1 := atReady s v f.guard [f.a, f.b, f.c] [] []
    let ts := v.threads.filter (bit0 s1 v f.guard)
    ∃ t, exec (.waitv f c) s = .next t ∧
      Issued s1 t v f.d
        (.waitv (ts.zipIdx.map fun e => (e.1.tid,
          { va := (s1.source v e.1 64 f.a).toNat, width := shapeBits f.shape / 8, signed := f.kind == .i, cond := c
            operand := s1.operandB v e.1 (shapeBits f.shape) (form64 f), timeout := (s1.source v e.1 64 f.c).toNat, since := 0
            read := 0, lastRead := none, dst := n, op := s1.seq + e.2 })))
        (ts.map fun t => ⟨.waitv, [t.tid], t.gates ++ t.waits⟩)

/-- Phases and fences (Tables 8.1, 8.2, R214, R215, R218 to R221, R247, R248): a publishing one begins a boundary that gates the threads'
later accesses; an acquiring one a boundary without stores, at the refresh of which their later loads wait; `fence.ld` passes once nothing
is pending; `fence.io` and `fence.sp` leave in each thread what its later host accesses and `sts` wait for. -/
def Obligations.PhaseWords : Prop :=
  (∀ s v, InRun s v → exec .phasePub s = .next ((s.boundary v.wg.core v.wg.id v.tids .nothing).gateThreads v.wg.id v.tids s.seq false)) ∧
  (∀ s v, InRun s v → exec .phaseAr s = .next ((s.boundary v.wg.core v.wg.id v.tids .refresh).gateThreads v.wg.id v.tids s.seq false)) ∧
  (∀ s v, InRun s v → exec .phaseAcq s = .next ((s.boundaryAt 0 v.wg.core v.wg.id v.tids .refresh).gateThreads v.wg.id v.tids s.seq true)) ∧
  (∀ s v, InRun s v → s.loadsPending v.wg.id v.tids true s.seq = false → exec .fenceLd s = .next s) ∧
  (∀ s v, InRun s v → exec .fenceIo s = .next ((s.mapThreads v.wg.id v.tids fun t =>
    { t with fences := t.fences.filter (fun f => s.path.any fun p => p.wg == v.wg.id && p.tids.contains t.tid && decide (p.seq < f) && p.dest == .host) ++
        [s.seq] }).bump)) ∧
  ∀ s v, InRun s v → exec .fenceSp s = .next (s.mapThreads v.wg.id v.tids fun t =>
    { t with spFence := (s.copies.filter fun c => c.wg == v.wg.id && c.unread && match c.kind with
        | .out u .. => u == t.tid
        | .bulk .. => false).map (·.id) })

end

namespace Sys2Proof.Spec
open Sys2Proof.Machine

/-! ### Uniform words (R36 to R38, R128 to R131) -/

/-- A row of uniform words of fixed latency: its operands, latency and the value it forms from them. -/
structure UniRow where
  f     : Form
  lat   : Nat
  value : State → Uni → W64

/-- An instruction does what its row says on every executor that can run it. -/
def RunsUni (i : Instr) (r : UniRow) : Prop :=
  ∀ s u s1, UniReady s u r.f.guard r.f.n r.f.srcs r.f.d false s1 →
    ∃ t, exec i s = .next t ∧ UniEffect s1 t u r.f.d r.lat (r.value s1 u)

/-- A uniform row on sub-elements. -/
def uniSub (f : Form) (lat : Nat) (op : SubOp) : UniRow :=
  { f, lat
    value := fun s u => perSub f.w fun j => op f.kind f.w u.sat (subOf f.w (s.uniSource u f.w f.a) j)
      (subOf f.w (s.uniOperandB u f.w f) j) (subOf f.w (s.uniSource u f.w f.c) j) }

/-- A uniform row on whole registers. -/
def uniWhole (f : Form) (op : W64 → W64 → W64) : UniRow :=
  { f, lat := 1, value := fun s u => op (s.uniSource u 64 f.a) (s.uniOperandB u 64 f) }

/-- Sums and products (R128). -/
def uniSumRow : Instr → Option UniRow
  | .kadd f => some (uniSub (form32 .i f) 1 addOp) | .kadd64 f => some (uniSub (form64 f) 1 addOp)
  | .kadd64i f => some (uniSub (form64I f) 1 addOp)
  | .ksub f => some (uniSub (form32 .i f) 1 subOp) | .ksub64 f => some (uniSub (form64 f) 1 subOp)
  | .ksub64i f => some (uniSub (form64I f) 1 subOp)
  | .kmul f => some (uniSub (form32 .i f) 2 mulOp) | .kmul64 f => some (uniSub (form64 f) 2 mulOp)
  | .kmul64i f => some (uniSub (form64I f) 2 mulOp)
  | .kmad f => some (uniSub (form64 f) 2 madOp)
  | .kmin f => some (uniSub (form32 .i f) 1 minOp) | .kmin64 f => some (uniSub (form64 f) 1 minOp)
  | .kmin64i f => some (uniSub (form64I f) 1 minOp)
  | .kmax f => some (uniSub (form32 .i f) 1 maxOp) | .kmax64 f => some (uniSub (form64 f) 1 maxOp)
  | .kmax64i f => some (uniSub (form64I f) 1 maxOp)
  | _ => none

/-- Division (R129). -/
def uniDivRow : Instr → Option UniRow
  | .kdiv f => some (uniSub (form32 .i f) 5 divOp) | .kdiv64 f => some (uniSub (form64 f) 5 divOp)
  | .kdiv64i f => some (uniSub (form64I f) 5 divOp)
  | _ => none

/-- Bits, shifts, moves and counts (R128). -/
def uniBitRow : Instr → Option UniRow
  | .kand f => some (uniSub (form32 .i f) 1 andOp) | .kand64 f => some (uniSub (form64 f) 1 andOp)
  | .kand64i f => some (uniSub (form64I f) 1 andOp)
  | .kor f => some (uniSub (form32 .i f) 1 orOp) | .kor64 f => some (uniSub (form64 f) 1 orOp)
  | .kor64i f => some (uniSub (form64I f) 1 orOp)
  | .kxor f => some (uniSub (form32 .i f) 1 xorOp) | .kxor64 f => some (uniSub (form64 f) 1 xorOp)
  | .kxor64i f => some (uniSub (form64I f) 1 xorOp)
  | .kshl f => some (uniSub (form32 .i f) 1 shlOp) | .kshl64 f => some (uniSub (form64 f) 1 shlOp)
  | .kshl64i f => some (uniSub (form64I f) 1 shlOp)
  | .kshr f => some (uniSub (form32 .i f) 1 shrOp) | .kshr64 f => some (uniSub (form64 f) 1 shrOp)
  | .kshr64i f => some (uniSub (form64I f) 1 shrOp)
  | .ksar f => some (uniSub (form32 .i f) 1 sarOp) | .ksar64 f => some (uniSub (form64 f) 1 sarOp)
  | .ksar64i f => some (uniSub (form64I f) 1 sarOp)
  | .kmov f => some (uniSub (form32 .i f) 1 movOp) | .kmov64 f => some (uniSub (form64 f) 1 movOp)
  | .kmov64i f => some (uniSub (form64I f) 1 movOp)
  | .kclz f => some (uniSub (form32 .i f) 1 clzOp) | .kclz64 f => some (uniSub (form64 f) 1 clzOp)
  | .kpopc f => some (uniSub (form32 .i f) 1 popcOp) | .kpopc64 f => some (uniSub (form64 f) 1 popcOp)
  | .kbfx f p m => if 1 ≤ m ∧ p + m ≤ (form64 f).w then some (uniSub (form64 f) 1 (bfxOp p m)) else none
  | .kbfi f p m => if 1 ≤ m ∧ p + m ≤ (form64 f).w then some (uniSub (form64 f) 1 (bfiOp p m)) else none
  | _ => none

open Classical in
/-- Comparisons, which give all ones where they hold, and the selection by them (R130); addresses (R128). -/
noncomputable def uniPickRow : Instr → Option UniRow
  | .kcmp f c => some (uniSub (form64 f) 1 fun k w _ a b _ => if condOf c (intOf k w a) (intOf k w b) then 2 ^ w - 1 else 0)
  | .ksel f => some (uniSub (form64 f) 1 fun _ _ _ a b c => if c = 0 then b else a)
  | .klea f => some (uniWhole (form32 .i f) fun a b => a + b)
  | .klea64 f k => some (uniWhole (form64 f) fun a b => a + b * BitVec.ofNat 64 (2 ^ k))
  | .klea64i f => some (uniWhole { form64IS f with imm := some ((BitVec.ofNat 32 f.imm).signExtend 64) } fun a b => a + b)
  | _ => none

/-- The uniform rows of fixed latency. -/
noncomputable def uniRow (i : Instr) : Option UniRow := (((uniSumRow i).or (uniDivRow i)).or (uniBitRow i)).or (uniPickRow i)

/-! ### Uniform words of long latency -/

/-- `t` is `s` after a uniform long-latency word: on a group, one operation for the threads that are on, which takes a k destination from
every earlier one of its workgroup that had it (R15, R29); elsewhere one operation of
the executor, which takes the destination of every earlier one that had it (R29, R280). Nothing else changed. -/
def IssuedUni (s t : State) (u : Uni) (dst : Dst) (kind : LongKind) : Prop :=
  match u with
  | .lane v _ on => Issued (s.supersedeDst v.wg.id dst) t v dst v.run.tail [⟨kind, on.map (·.tid), on.flatMap fun l => l.gates ++ l.waits⟩]
  | .unit i =>
    let h := s.unitHome i
    t.ops.getLast? = some (newOp s i h.1 h.2.1 h.2.2 s.turnPc kind dst) ∧
    t.ops.dropLast.map undirected = s.ops.map undirected ∧
    (∀ o ∈ t.ops.dropLast, o.issuer = i → dst ≠ .none → o.dst ≠ dst) ∧
    { t with ops := s.ops, seq := s.seq } = s

/-- The access of a uniform word passes what is checked before it begins: on a group no watchpoint, elsewhere every check of the operation
(R243, R309, R325, R357). -/
def UniPasses (s : State) (u : Uni) (kind : LongKind) (dst : Dst) : Prop :=
  match u with
  | .lane v _ _ => Unwatched s v
  | .unit i => ∃ t, s.opCheck (newOp s i (s.unitHome i).1 (s.unitHome i).2.1 (s.unitHome i).2.2 s.turnPc kind dst) = .ok t

/-- The address of a uniform access (R119, R131). -/
def uniAddressOf (s : State) (u : Uni) (f : Form) (m : Form119) : Nat :=
  let base := s.uniSource u 64 f.a
  (match m with
    | .offset off => base + BitVec.ofInt 64 (off * (shapeBits f.shape / 8 : Nat))
    | .index k => base + s.uniOperandB u 64 f * BitVec.ofNat 64 (2 ^ k)
    | .imm n => base + (BitVec.ofNat 32 n).signExtend 64).toNat

/-- `kld` (R131): one operation, whose value every destination takes. -/
def RunsUniLoad (i : Instr) (f : Form) (m : Form119) (nol1 : Bool) : Prop :=
  ∀ s u s1, UniReady s u f.guard 1 [f.a, f.b] f.d true s1 →
    let kind : LongKind := .load (uniAddressOf s1 u f m) (shapeBits f.shape / 8) (f.kind == .i) nol1
    UniPasses s1 u kind f.d → ∃ t, exec i s = .next t ∧ IssuedUni s1 t u f.d kind

/-- `kst` (R131, R234): one store, of the group's core path or performed at its home. -/
def RunsUniStore (i : Instr) (f : Form) (data : Src) (m : Form119) : Prop :=
  ∀ s u s1 l s2, UniReady s u f.guard 1 [f.a, f.b, data] .none false s1 →
    (match u with | .lane v _ _ => Unwatched s1 v | .unit _ => True) →
    s1.storeAt (s1.uniAccessor u) (uniAddressOf s1 u f m) (shapeBits f.shape / 8) (s1.uniSource u f.w data).toNat = .ok (l, s2) →
    ∃ t, exec i s = .next t ∧ match u with
      | .lane v _ on => Stored s2 t v (on.flatMap (·.gates)) l
      | .unit i => t = s2.storeNow (match i with | .stream w => some ((s2.unitHome i).2.1, w) | _ => none) (s2.unitHome i).2.2
          (.unit i s2.turnPc (uniAddressOf s1 u f m)) l

/-- The single access of a `katom`. -/
def katomKind (s : State) (u : Uni) (f : F64) (op : AtomOp) (fl : Flavour) (off : Int) : LongKind :=
  .atom op f.shape f.kind fl [⟨match u with | .lane _ t _ => t.tid | .unit _ => 0, uniAddressOf s u (form64 f) (.offset off),
    s.uniSource u (form64 f).w f.b, s.uniSource u (form64 f).w f.c⟩]

/-- `katom` (R243): on a group as `atom` of one access; elsewhere one operation, after a boundary of the core where a stream's releases. -/
def RunsUniAtomic (f : F64) (op : AtomOp) (fl : Flavour) (off : Int) : Prop :=
  ∀ s u s1, UniReady s u f.guard 1 [f.a, f.b, f.c] f.d (f.d != .none) s1 →
    UniPasses s1 u (katomKind s1 u f op fl off) f.d →
    match u with
    | .lane v _ on => exec (.katom f op fl off) s = .next
        (((if f.d ≠ .none then s1.beginOrdinal v.g.id else s1).supersedeDst v.wg.id f.d).issueAtomic v fl f.d (on.map (·.tid)) on (katomKind s1 u f op fl off) (f.d != .none))
    | .unit i => ∃ t, exec (.katom f op fl off) s = .next t ∧
        let rel := (fl = .rel ∨ fl = .ar) ∧ ∃ w, i = .stream w
        ∃ o, t.ops.getLast? = some o ∧ o.kind = katomKind s1 u f op fl off ∧ o.issuer = i ∧ o.dst = f.d ∧ o.pc = s1.turnPc ∧
          t.ops.dropLast.map undirected = s1.ops.map undirected ∧
          (rel → ∃ b, t.boundaries = s1.boundaries ++ [b] ∧ b.core = (s1.unitHome i).2.1 ∧ b.limit = s1.seq ∧ o.after = [b.id]) ∧
          (¬rel → t.boundaries = s1.boundaries ∧ o.after = []) ∧
          { t with ops := s1.ops, boundaries := s1.boundaries, seq := s1.seq } = s1

/-! ### Ends of runs (R123 to R125, R132, R160) -/

/-- `t` is `s`, but that the run of the view's group ends as `tail` says. -/
def EndsWith (s t : State) (v : View) (tail : Tail) : Prop :=
  t.group? v.g.id = some { v.g with run := some { v.run with tail } } ∧
    (∀ id, id ≠ v.g.id → t.group? id = s.group? id) ∧ { t with groups := s.groups } = s

/-- The address of a direct branch: the branch's own, and a signed number of words (R123). -/
def targetOf (pc : Nat) (off : Int) : Nat := (((pc : Int) + 4 * off) % 2 ^ 64).toNat

/-- The next header of each lane when those with guard bit 0 on go to `target`, and the others to the header after the trailer. -/
def nextHeaders (s : State) (v : View) (g : Option Guard) (target : Thread → Nat) : List (Nat × Nat) :=
  v.g.lanes.map fun l => (l, match v.threads.find? fun t => t.tid % 32 == l && bit0 s v g t with
    | some t => target t
    | none => v.nextHeader)

/-- A direct branch (R124). -/
def RunsBranch (i : Instr) (off : Int) : Prop :=
  ∀ s v, InRun s v → ∃ t, exec i s = .next t ∧
    EndsWith (atReady s v none [] [] []) t v (.branch (nextHeaders (atReady s v none [] [] []) v none fun _ => targetOf v.turn.pc off))

/-- A branch through a register (R81, R123, R124): each lane to its own target, which is a multiple of 4 and, unless the branch is a return,
holds no header with R = 0. -/
def RunsIndirect (i : Instr) (ret : Bool) (a : Src) (g : Option Guard) : Prop :=
  ∀ s v, InRun s v → Usable v [a] .none →
    (∀ t ∈ v.threads, bit0 (atReady s v g [a] [] []) v g t = true →
      ((atReady s v g [a] [] []).source v t 64 a).toNat % 4 = 0 ∧
      (ret = false → (atReady s v g [a] [] []).plainHeaderAt v.wg ((atReady s v g [a] [] []).source v t 64 a).toNat = false)) →
    ∃ t, exec i s = .next t ∧
      EndsWith (atReady s v g [a] [] []) t v
        (.branch (nextHeaders (atReady s v g [a] [] []) v g fun l => ((atReady s v g [a] [] []).source v l 64 a).toNat))

/-- `exit` (R125): the lanes with guard bit 0 on exit at the trailer; no copy of theirs has failed. -/
def RunsExit (i : Instr) (g : Option Guard) : Prop :=
  ∀ s v, InRun s v → (∀ c ∈ s.copies, c.outFault = none) → ∃ t, exec i s = .next t ∧
    EndsWith (atReady s v g [] [] []) t v (.exit ((v.threads.filter (bit0 (atReady s v g [] [] []) v g)).map (·.tid % 32)))

/-- What a uniform branch does (R132): every lane of a group to one header, an executor without lanes to one word. -/
def Branches (s t : State) (u : Uni) (target : Nat) : Prop :=
  match u with
  | .lane v _ _ => EndsWith s t v (.branch (v.g.lanes.map (·, target)))
  | .unit i => t = s.setUnitPc i target

/-- A uniform branch through a register. -/
def RunsUniIndirect (i : Instr) (ret : Bool) (a : Src) : Prop :=
  ∀ s u s1, UniReady s u none 1 [a] .none false s1 → (s1.uniSource u 64 a).toNat % 4 = 0 →
    (match u with
      | .lane v _ _ => ret = false → s1.plainHeaderAt v.wg (s1.uniSource u 64 a).toNat = false
      | .unit _ => True) →
    ∃ t, exec i s = .next t ∧ Branches s1 t u (s1.uniSource u 64 a).toNat

/-- `uexit` (R132, R282, R355): on a group every lane exits; a stream ends; a fabric program is ending, and ends at once with nothing
pending; a control core goes on. -/
def RunsUniExit (i : Instr) : Prop :=
  (∀ s v src on s1, UniReady s (.lane v src on) none 1 [] .none false s1 → (∀ c ∈ s.copies, c.outFault = none) →
    ∃ t, exec i s = .next t ∧ EndsWith s1 t v (.exit v.g.lanes)) ∧
  (∀ s w s1, UniReady s (.unit (.stream w)) none 1 [] .none false s1 →
    exec i s = .next (s1.mapStream w fun x => { x with stage := .ended })) ∧
  (∀ s n s1, UniReady s (.unit (.control n)) none 1 [] .none false s1 → exec i s = .next s1) ∧
  ∀ s n s1, UniReady s (.unit (.fabric n)) none 1 [] .none false s1 → ∃ t, exec i s = .next t ∧
    (∀ p, s1.proc? n = some p → ∃ q, t.proc? n = some q ∧ (q = { p with ending := true } ∨ q = FabricProc.reset)) ∧
    (∀ m, m ≠ n → t.proc? m = s1.proc? m) ∧ { t with procs := s1.procs } = s1

/-! ### Debug stops (R126, R127, R324) -/

/-- `t` is `s`, but that a group that ran has stopped with a cause, a detail and the word's address, continue and re-execute open, and
the event that reports it waits to be entered (R316, R323). -/
def StopsAt (s t : State) (v : View) (cause detail : Nat) (lanes : List Nat) : Prop :=
  (∃ st, t.group? v.g.id = some { v.g with stop := some st, step := none } ∧ st.cause = cause ∧ st.detail = detail ∧ st.code = 0 ∧
    st.pc = v.turn.pc ∧ st.lanes = lanes ∧ st.cont = true ∧ st.reexec = true) ∧
  (∀ id, id ≠ v.g.id → t.group? id = s.group? id) ∧
  (∃ e, t.events = s.events ++ [e] ∧ e.unit = some (.group v.g.id) ∧ e.control = v.wg.core / 4 ∧ e.event.core = v.wg.core ∧
    (e.event.words.getD 0 0).toNat % 256 = cause ∧ (e.event.words.getD 1 0).toNat = v.turn.pc % 2 ^ 64) ∧
  { t with groups := s.groups, events := s.events } = s

/-- A software trap (R126): cause 0x0C with the code, raised by the lanes that are on. -/
def RunsTrap (i : Instr) (code : Src) : Prop :=
  ∀ s v l r, InRun s v → Usable v [code] .none → v.g.stop = none →
    v.threads.filter (bit0 (atReady s v none [code] [] []) v none) = l :: r →
    ∃ t, exec i s = .next t ∧ StopsAt (atReady s v none [code] [] []) t v 0x0C
      (match code with
        | .imm n => (n % 2 ^ 16).toNat
        | a => ((atReady s v none [code] [] []).source v l 64 a).toNat % 2 ^ 16)
      ((l :: r).map (·.tid % 32))

/-- A marker (R127, R344): nothing changes but, where the core traces and has room, its ring and what lies there. -/
def RunsMark (i : Instr) (marker : Src) : Prop :=
  ∀ s v, InRun s v → Usable v [marker] .none → ∃ t, exec i s = .next t ∧
    t.wgs = s.wgs ∧ t.groups = s.groups ∧ t.ops = s.ops ∧ t.path = s.path ∧ t.events = s.events ∧
    ((∀ c, s.cores[v.wg.core]? = some c → c.trctl.getLsbD 0 = false) → t = atReady s v none [marker] [] [])

end Sys2Proof.Spec

section
open Sys2Proof Sys2Proof.Machine Sys2Proof.Spec

/-- R128 to R130: uniform integer words, on a group's source lane and on executors without lanes. -/
def Obligations.UniformWords : Prop := ∀ i r, uniRow i = some r → RunsUni i r

/-- R36: with no lane on, a uniform word of a group does nothing; one of long latency is an ordinal all the same (R30). -/
def Obligations.UniformWithoutLanes : Prop :=
  (∀ i r, uniRow i = some r → ∀ s v, InRun s v → r.f.srcs.all (srcAllowed v.leaf.regs) = true → dstAllowed v.leaf.regs r.f.d = true →
    (∀ t ∈ v.threads, anyOn r.f.n ((s.holdTo v (State.sourcesReady v v.threads [] (guardPreds v r.f.guard))).guard v r.f.guard t) = false) →
    exec i s = .next (s.holdTo v (State.sourcesReady v v.threads [] (guardPreds v r.f.guard)))) ∧
  ∀ f m s v, InRun s v → v.run.ordinals.length < 16 → [(form64 f).a, (form64 f).b].all (srcAllowed v.leaf.regs) = true →
    dstAllowed v.leaf.regs f.d = true →
    (∀ t ∈ v.threads, anyOn 1 ((s.holdTo v (State.sourcesReady v v.threads [] (guardPreds v f.guard))).guard v f.guard t) = false) →
    exec (.kld64 f m) s = .next ((s.holdTo v (State.sourcesReady v v.threads [] (guardPreds v f.guard))).beginOrdinal v.g.id)

/-- R131, R243: uniform loads, stores and atomics. -/
def Obligations.UniformMemoryWords : Prop :=
  (∀ f off, RunsUniLoad (.kld f off) (form32 .i f) (.offset off) false) ∧
  (∀ f m, RunsUniLoad (.kld64 f m) (form64 f) (.index m.shift) (m.l1h == .nol1)) ∧
  (∀ f, RunsUniLoad (.kld64i f) (form64IS f) (.imm f.imm) false) ∧
  (∀ f off, RunsUniStore (.kst f off) (form32 .i f) (dataSrc f.d) (.offset off)) ∧
  (∀ f m, RunsUniStore (.kst64 f m) (formS f) f.data (.index m.shift)) ∧
  (∀ f, RunsUniStore (.kst64i f) (formIS f) f.data (.imm f.imm)) ∧
  ∀ f op fl off, RunsUniAtomic f op fl off

/-- R124, R125, R160: what the words that end a run leave for the trailer; `call` also writes its link in the lanes that branch. -/
def Obligations.LaneBranchWords : Prop :=
  (∀ off, RunsBranch (.br off) off) ∧ (∀ off, RunsBranch (.br64i off) off) ∧
  (∀ a, RunsIndirect (.brx a) false a none) ∧ (∀ a g, RunsIndirect (.brx64 a g) false a g) ∧
  (∀ a, RunsIndirect (.ret a) true a none) ∧ (∀ a g, RunsIndirect (.ret64 a g) true a g) ∧
  (∀ link off s v, InRun s v → link ≠ .none → Usable v [] link →
    let s1 := atReady s v none [] [] []
    ∃ m t, exec (.call link off) s = .next t ∧
      EndsWith s1 m v (.branch (nextHeaders s1 v none fun _ => targetOf v.turn.pc off)) ∧
      LaneEffect m t v link (m.cyc + 1) fun l =>
        { tid := l.tid, value := BitVec.ofNat 64 v.nextHeader, mask := if bit0 s1 v none l then BitVec.allOnes 64 else 0, pred := none }) ∧
  (∀ s v, InRun s v → ∃ t, exec .reform s = .next t ∧ EndsWith s t v (.reform false)) ∧
  (∀ s v, InRun s v → ∃ t, exec .reformAll s = .next t ∧ EndsWith s t v (.reform true)) ∧
  RunsExit .exit none ∧ ∀ g, RunsExit (.exit64 g) g

/-- R132: uniform branches on every executor. -/
def Obligations.UniformBranchWords : Prop :=
  (∀ off s u s1, UniReady s u none 1 [] .none false s1 → (∀ i, u = .unit i → targetOf s1.turnPc off % 4 = 0) →
    ∃ t, exec (.ubr off) s = .next t ∧ Branches s1 t u (targetOf s1.turnPc off)) ∧
  (∀ sense a off s u s1, UniReady s u none 1 [a] .none false s1 → (∀ i, u = .unit i → targetOf s1.turnPc off % 4 = 0) →
    let go := sense = .always ∨ (sense = .nz ∧ s1.uniSource u 64 a ≠ 0) ∨ (sense = .z ∧ s1.uniSource u 64 a = 0)
    ∃ t, exec (.ubr64i sense a off) s = .next t ∧ (go → Branches s1 t u (targetOf s1.turnPc off)) ∧
      (¬go → match u with
        | .lane v _ _ => EndsWith s1 t v (.branch (v.g.lanes.map (·, v.nextHeader)))
        | .unit _ => t = s1)) ∧
  (∀ a, RunsUniIndirect (.ubrx a) false a) ∧ (∀ a, RunsUniIndirect (.ubrx64 a) false a) ∧
  (∀ a, RunsUniIndirect (.uret a) true a) ∧ (∀ a, RunsUniIndirect (.uret64 a) true a) ∧
  (∀ link off s u s1, UniReady s u none 1 [] link false s1 → (∀ i, u = .unit i → targetOf s1.turnPc off % 4 = 0) →
    ∃ m t, exec (.ucall link off) s = .next t ∧ Branches s1 m u (targetOf s1.turnPc off) ∧
      UniEffect m t u link 1 (BitVec.ofNat 64 (match u with | .lane v _ _ => v.nextHeader | .unit _ => s1.turnPc + 8))) ∧
  RunsUniExit .uexit ∧ RunsUniExit .uexit64

/-- R126, R127, R324: `brk` counts, or stops its group; `trap` stops it; `nop` and a marker that nobody traces do nothing. -/
def Obligations.DebugWords : Prop :=
  (∀ n s v, InRun s v → v.g.stop = none →
    let s1 := atReady s v none [] [] []
    let on := (v.threads.filter (bit0 s1 v none)).map (·.tid % 32)
    let r := (s.bpact.getD n 1).toNat
    let mine := r / 2 ^ 3 % 2 = 1 ∧ r / 2 ^ 32 % 2 ^ 32 = v.leaf.job
    ∃ t, exec (.brk n) s = .next t ∧
      (on = [] → t = s1) ∧
      (on ≠ [] → mine → r % 8 = 0 → t = { s1 with bpcnt := s1.bpcnt.modify n (· + 1) }) ∧
      (on ≠ [] → (¬mine ∨ r % 8 = 1) → StopsAt s1 t v 0x0B n on)) ∧
  (∀ b, RunsTrap (.trap b) b) ∧ (∀ c, RunsTrap (.trap64i c) (.imm c)) ∧
  (∀ s v, InRun s v → exec .nop s = .next (atReady s v none [] [] [])) ∧
  (∀ b, RunsMark (.pmark b) b) ∧ ∀ c, RunsMark (.pmark64i c) (.imm c)

end

namespace Sys2Proof.Spec
open Sys2Proof.Machine

/-! ### Launching and the binning engine (R175, R176, R270 to R275) -/

/-- An operation of an executor without lanes passes its checks at issue; that of a group is checked later. -/
def UnitPasses (s : State) (u : Uni) (kind : LongKind) (dst : Dst) : Prop :=
  match u with
  | .lane .. => True
  | .unit i => ∃ t, s.opCheck (newOp s i (s.unitHome i).1 (s.unitHome i).2.1 (s.unitHome i).2.2 s.turnPc kind dst) = .ok t

/-- A control core that handles no event has no job (Table 5.3). -/
def Jobless (s : State) (u : Uni) : Prop := ∃ n, u = .unit (.control n) ∧ (s.control? n).bind (·.current) = none

/-- `t` is `s` after `binct` counted `items` in bin set `n` of a job (R271): counters and DROP saturate at 2^32 − 1. -/
def Counted (s t : State) (job n : Nat) (items : List Nat) : Prop :=
  let old := sget freeSet s.binsets n
  let new := sget freeSet t.binsets n
  let plus := fun (x k : Nat) => if k = 0 then x else min (2 ^ 32 - 1) (x + k)
  new.owner = job ∧ (∀ b < 256, sget 0 new.counts b = plus (sget 0 old.counts b) (items.count b)) ∧
    new.drop = plus old.drop (items.filter fun v => decide (256 ≤ v)).length ∧ t.bound n = true ∧
    (∀ m, m ≠ n → sget freeSet t.binsets m = sget freeSet s.binsets m ∧ t.bound m = s.bound m) ∧ { t with binsets := s.binsets } = s

/-- A bin set is free or the job's own (R270). -/
def OwnSet (s : State) (job n : Nat) : Prop := n < 256 ∧ (s.bound n = true → (sget freeSet s.binsets n).owner = job)

/-! ### Barrier registers and cinch lines (R155, R156, R169 to R173) -/

/-- The executor's workgroup and one of its barrier registers. -/
def HasBar (s : State) (u : Uni) (n : Nat) (w : Workgroup) (b : Barrier) : Prop := u.wgOf s = some w ∧ w.bars[n]? = some b

/-- `t` is `s` with a barrier register of a workgroup set. -/
def BarSet (s t : State) (w : Workgroup) (n : Nat) (b : Barrier) : Prop :=
  t.wg? w.id = some { w with bars := w.bars.set n b } ∧ (∀ id, id ≠ w.id → t.wg? id = s.wg? id) ∧ { t with wgs := s.wgs } = s

/-- A group's view with its workgroup as it stands in another state. -/
def View.seen (v : View) (m : State) : View := { v with wg := (m.wg? v.wg.id).getD v.wg }

/-- A uniform word's executor, seen in another state. -/
def Uni.seen (m : State) : Uni → Uni
  | .lane v src on => .lane (View.seen v m) src on
  | .unit i => .unit i

/-- What `bartest` returns (Table 6.4). -/
def barWord (b : Barrier) : W64 :=
  BitVec.ofNat 64 ((if b.gen then 2 ^ 63 else 0) + b.exp * 2 ^ 51 + b.arr * 2 ^ 40 + b.expb * 2 ^ 20 + b.arrb)

/-- `barinit` (R171): 1 to 2047 members and at most 1048575 bytes, on a register without arrivals. -/
def RunsBarInit (i : Instr) (members bytes : Src) (n : Nat) (g : Option Guard) : Prop :=
  ∀ s u s1 w b, UniReady s u g 1 [members, bytes] .none false s1 → HasBar s1 u n w b → b.arr = 0 → b.arrb = 0 →
    1 ≤ (s1.uniSource u 64 members).toNat → (s1.uniSource u 64 members).toNat ≤ 2047 → (s1.uniSource u 64 bytes).toNat ≤ 1048575 →
    ∃ t, exec i s = .next t ∧
      BarSet s1 t w n { b with exp := (s1.uniSource u 64 members).toNat, expb := (s1.uniSource u 64 bytes).toNat }

/-- An arrival that need not wait for a stream's drains (R281), and does not itself wait for a boundary (R171, R215). -/
def ArrivesNow (s : State) (u : Uni) (w : Workgroup) (pub : Bool) : Prop :=
  match u with
  | .lane .. => pub = false
  | .unit _ => s.streamDraining w.id pub = false

/-- The workgroup of a barrier with its stream no longer waiting for a phase (R281). -/
def phaseOver (w : Workgroup) (n : Nat) (gen : Bool) : Workgroup :=
  { w with stream := w.stream.map fun x => if x.wait = some (.bar n gen) then { x with wait := none } else x }

/-- `barrive` (R170, R171): members and bytes are added, the token is the generation before; the arrival that completes the phase
turns the generation, clears both counts and ends the wait of a stream. A group's arrival with the publish bit begins a boundary, at which it
arrives; its token is the generation at issue. -/
def RunsArrive (i : Instr) (d : Dst) (bytes : Src) (n : Nat) (pub : Bool) (g : Option Guard) : Prop :=
  (∀ s u s1 w b, UniReady s u g 1 [bytes] d false s1 → HasBar s1 u n w b → ArrivesNow s1 u w pub →
    let members := match u with | .lane _ _ on => on.length | .unit _ => 1
    let y := (s1.uniSource u 64 bytes).toNat
    b.exp ≠ 0 → b.arr + members ≤ b.exp → b.arrb + y ≤ b.expb →
    let full := b.arr + members = b.exp ∧ b.arrb + y = b.expb
    (∀ t ∈ w.threads, t.place ≠ .barwait n b.gen) →
    ∃ m t, exec i s = .next t ∧ UniEffect m t (Uni.seen m u) d 1 (if b.gen then 1 else 0) ∧
      (full → BarSet s1 m (phaseOver w n b.gen) n { b with gen := !b.gen, arr := 0, arrb := 0 }) ∧
      (¬full → BarSet s1 m w n { b with arr := b.arr + members, arrb := b.arrb + y })) ∧
  ∀ s v src on s1 w b, pub = true → UniReady s (.lane v src on) g 1 [bytes] d false s1 → HasBar s1 (.lane v src on) n w b →
    let m := s1.boundary v.wg.core w.id (on.map (·.tid)) (.arrive n on.length (s1.uniSource (.lane v src on) 64 bytes).toNat)
    ∃ t, exec i s = .next t ∧ UniEffect m t (.lane v src on) d 1 (if b.gen then 1 else 0)

/-- Whether an access to another package is on its way for an operation of a core. -/
def onWay (s : State) (core : Nat) : RemoteUse → Bool
  | .op id _ => s.ops.any fun o => o.id == id && o.core == core
  | _ => false

/-- `t` is `s` after a refresh by a core: its L1 keeps core-scope bytes only, and answers of other packages still on their way to the core
will not fill it (R219). -/
def Refreshed (s t : State) (core : Nat) : Prop :=
  t = { s with l1 := s.l1.filter fun e => l1Core e.1 != core || e.2.coreScope
               remotes := s.remotes.map fun r => if onWay s core r.use then { r with fill := false } else r }

/-- A thread or stream of a workgroup may arrive at a line (R173). -/
def MayArrive (l : CinchLine) (w : Workgroup) : Prop :=
  ∀ r, l.region = some r → r = w.region ∧ ∀ m, l.mask = some m → w.core ∈ m

/-- The status of `cinchcfg` (Table 6.6): bound to another region, arrivals pending, a bad count or an unheld mask, done. -/
def cinchStatusOf (s : State) (l : CinchLine) (region : Nat) (mask : Option (List Nat)) (t : Nat) : Nat :=
  if l.region.isSome ∧ l.region ≠ some region then 1 else if l.arrived ≠ [] then 2
  else if t = 0 ∨ 262144 < t then 3
  else match mask with
    | none => 0
    | some m => if m.any fun c => (s.coresOf region).contains c then 0 else 3

/-- The cores of a mask in four k registers (R172). -/
def maskOf4 (s : State) (u : Uni) (j : Nat) : List Nat :=
  (List.range 256).filter fun c => (s.uniSource u 64 (.k (j + c / 64))).getLsbD (c % 64)

/-! ### Matrix words at issue (R279, R280, R290, R307) -/

/-- A row of matrix words: what is queued, the k registers read, a destination, and whether it rounds. -/
structure MatrixRow where
  work  : MatrixWork
  ks    : List Nat
  dst   : Dst
  draws : Bool

/-- The matrix words of Table 11.3. -/
def matrixRow : Instr → Option MatrixRow
  | .bload d m => some ⟨.bload d m, [d, d + 1], .none, false⟩
  | .mma d kb nb m t => some ⟨.mma d kb nb m t, [d, d + 1], .none, false⟩
  | .mzero t n => some ⟨.mzero t n, [], .none, false⟩
  | .mdrainSt d t => some ⟨.drainSt d t, [d, d + 1], .none, true⟩
  | .mdrainAdd d a t => some ⟨.drainAdd d a t, [d, d + 1, a], .none, true⟩
  | .mdrainPeer k t => some ⟨.drainPeer k t, [k], .none, false⟩
  | .mexpect l t b n => some ⟨.expect l t b n, [l, l + 1, l + 2, l + 3], .none, false⟩
  | .rowstat x b t r => some ⟨.rowstat x b t r, [], .none, false⟩
  | .rowexp d x t => some ⟨.rowexp d x t, [d, d + 1, x], .none, true⟩
  | .mpin d k t => some ⟨.pin d k t, [k], d, false⟩
  | .munpin t => some ⟨.unpin t, [], .none, false⟩
  | .mrefill a t n => some ⟨.refill a t n, [a], .none, false⟩
  | .mspill a t n => some ⟨.spill a t n, [a], .none, false⟩
  | .mmode r f => some ⟨.mode r f, [], .none, false⟩
  | _ => none

/-- The modes of a stream after a matrix word has issued: `mmode` sets them for the words after it (R52, R290). -/
def modesAfter (x : Stream) : MatrixWork → Nat × Nat
  | .mode r f => (r, f)
  | _ => (x.rnd, x.flush)

/-- A matrix word on a stream with fewer than eight queued: it is queued with the k registers it read and the modes as they stand, and
nothing else changes. -/
def RunsMatrix (i : Instr) (r : MatrixRow) : Prop :=
  ∀ s w g x, s.wg? w = some g → g.stream = some x → x.queue.length < 8 →
    UniReady s (.unit (.stream w)) none 1 (r.ks.map Src.k ++ if r.draws ∧ x.rnd = 5 then [.k 61, .k 62, .k 63] else []) r.dst false s →
    let q : MatrixOp := { instr := r.work, pc := s.turnPc, regs := (r.ks ++ [61, 62, 63]).map (s.unitK (.stream w)), rnd := x.rnd
                          flush := x.flush, step := 0, got := [] }
    ∃ t, exec i s = .next t ∧
      t.wg? w = some { g with stream := some { x with queue := x.queue ++ [q], rnd := (modesAfter x r.work).1, flush := (modesAfter x r.work).2 } } ∧
      (∀ id, id ≠ w → t.wg? id = s.wg? id) ∧ { t with wgs := s.wgs } = s

/-! ### Fabric words (R355 to R367, R380, R381) -/

/-- A row of transfers: what is queued, its status register, the k registers read. -/
structure TransferRow where
  work : TransferWork
  d    : Dst
  ks   : List Nat

/-- The transfers of Tables 15.3 and 15.9. -/
def transferRow : Instr → Option TransferRow
  | .fput d a b c => some ⟨.put, d, [a, b, c]⟩
  | .fget d a b c => some ⟨.get, d, [a, b, c]⟩
  | .fcomp d c a b => some ⟨.comp, d, [c, c + 1, a, b]⟩
  | .fdecomp d c a b => some ⟨.decomp, d, [c, c, a, b]⟩
  | .fdar d c a b => some ⟨.dar false, d, [c, c + 1, a, b, c + 2]⟩
  | .fdarLast d c a b => some ⟨.dar true, d, [c, c + 1, a, b, c + 2]⟩
  | .fckpt d c a h => some ⟨.ckpt, d, [c, a, h]⟩
  | .frest d c a => some ⟨.rest, d, [c, a]⟩
  | _ => none

/-- A processor without its k registers and the destinations of its pending results. -/
def plainProc (p : FabricProc) : FabricProc :=
  { p with k := [], queue := p.queue.map fun q => { q with dst := .none }
           slots := p.slots.map fun x => { x with active := x.active.map fun a => { a with res := .none, stat := .none } } }

/-- `t` is `s`, but for one processor and the destinations of pending operations. -/
def OnlyProc (s t : State) (n : Nat) : Prop :=
  (∀ m, m ≠ n → t.proc? m = s.proc? m) ∧ t.ops.map undirected = s.ops.map undirected ∧ { t with procs := s.procs, ops := s.ops } = s

/-- A transfer on a processor with fewer than sixteen queued (R359): it is queued with the k registers it read. -/
def RunsTransfer (i : Instr) (r : TransferRow) : Prop :=
  ∀ s n p, s.proc? n = some p → p.queue.length < 16 → UniReady s (.unit (.fabric n)) none 1 (r.ks.map Src.k) r.d false s →
    let q : Transfer := { instr := r.work, pc := s.turnPc, regs := r.ks.map (s.unitK (.fabric n)), dst := r.d, step := 0, begun := false
                          cld := [], zeroRes := false, plan := [], sent := false, writing := false, got := [], due := [] }
    ∃ t p', exec i s = .next t ∧ t.proc? n = some p' ∧ p'.queue.getLast? = some q ∧ p'.queue.length = p.queue.length + 1 ∧
      plainProc { p' with queue := p'.queue.dropLast } = plainProc p ∧
      (∀ k, t.unitK (.fabric n) k = s.unitK (.fabric n) k) ∧ OnlyProc s t n

/-- A word of a fabric program is being performed. -/
def OnProc (s : State) (n : Nat) (p : FabricProc) (srcs : List Nat) (d : Dst) : Prop :=
  s.proc? n = some p ∧ UniReady s (.unit (.fabric n)) none 1 (srcs.map Src.k) d false s

/-- A k register of a processor. -/
def procK (s : State) (n r : Nat) : Nat := (s.unitK (.fabric n) r).toNat

/-- A destination's pending results are superseded, and it keeps its value (R29). -/
def keeping (s : State) (n : Nat) : Dst → State
  | .k r => s.setUnitK (.fabric n) r (s.unitK (.fabric n) r)
  | _ => s

/-- The message that `fsend` forms (R363). -/
def messageOf (s : State) (n : Nat) (p : FabricProc) (msg endpoint : Nat) : FabricMessage :=
  { src := Config.pkg.toNat, tag := s.seq, job := p.job.getD 0, proc := procK s n endpoint / 2 ^ 16 % 2 ^ 5, channel := procK s n endpoint / 2 ^ 24 % 2 ^ 4
    words := (List.range 8).map fun i => s.unitK (.fabric n) (msg + i) }

/-- The contribution that `fred` forms (R381). -/
def contributionOf (s : State) (n : Nat) (p : FabricProc) (value root index : Nat) : RootContribution :=
  { src := Config.pkg.toNat, tag := s.seq, job := p.job.getD 0, proc := procK s n root / 2 ^ 16 % 2 ^ 5, slot := procK s n root / 2 ^ 24 % 2 ^ 4, epoch := procK s n root / 2 ^ 32 % 2 ^ 16
    index := procK s n index % 2 ^ 16, value := s.unitK (.fabric n) value }

end Sys2Proof.Spec

section
open Sys2Proof Sys2Proof.Machine Sys2Proof.Spec

/-- `launch`, `rcbrd` and the binning engine's words (R175, R176, R270 to R275). -/
def Obligations.PlacementWords : Prop :=
  (∀ d a held g s u s1, UniReady s u g 1 [a] d true s1 → ¬Jobless s1 u →
    let p : PendingLaunch := { source := .instruction s1.seq, job := u.job s1, va := (s1.uniSource u 64 a).toNat, held, core := u.core s1 }
    ∃ t, exec (.launch d a held g) s = .next t ∧
      IssuedUni { s1 with launches := s1.launches ++ [p] } t u d (.launch (s1.uniSource u 64 a).toNat)) ∧
  (∀ d a held g s u s1, UniReady s u g 1 [a] d true s1 → Jobless s1 u →
    ∃ t, exec (.launch d a held g) s = .next t ∧ UniEffect s1 t u d 1 (BitVec.allOnes 64)) ∧
  (∀ d a word g s u s1, UniReady s u g 1 [a] d true s1 → ¬Jobless s1 u → UnitPasses s1 u (.rcbrd (s1.uniSource u 64 a).toNat word) d →
    ∃ t, exec (.rcbrd d a word g) s = .next t ∧ IssuedUni s1 t u d (.rcbrd (s1.uniSource u 64 a).toNat word)) ∧
  (∀ set bin g s u s1, UniReady s u g 1 [set, bin] .none false s1 → OwnSet s1 (u.job s1) (s1.uniSource u 64 set).toNat →
    (∀ v src on, u = .lane v src on → ∀ t ∈ on, hasValue t bin = true) → (∀ i, u = .unit i → ∃ r, bin = .k r) →
    ∃ m t, exec (.binct set bin g) s = .next t ∧ (m = s1 ∨ ∃ v c, m = s1.holdTo v c) ∧
      Counted m t (u.job s1) (s1.uniSource u 64 set).toNat (match u with
        | .lane v _ on => on.map fun t => (m.source v t 64 bin).toNat
        | .unit _ => [(m.uniSource u 64 bin).toNat])) ∧
  (∀ d target bin mult field index g s u s1, UniReady s u g 1 [target, bin, mult] d true s1 →
    (2 ^ 16 ≤ (s1.uniSource u 64 bin).toNat ∨ (s1.bound ((s1.uniSource u 64 bin).toNat / 2 ^ 8 % 2 ^ 8) = true ∧
      (sget freeSet s1.binsets ((s1.uniSource u 64 bin).toNat / 2 ^ 8 % 2 ^ 8)).owner = u.job s1)) →
    ∃ t, exec (.binpatch d target bin mult field index g) s = .next t ∧
      IssuedUni s1 t u d (.binpatch (s1.uniSource u 64 target).toNat (s1.uniSource u 64 bin) (s1.uniSource u 64 mult) field index)) ∧
  (∀ target g s u s1, UniReady s u g 1 [target] .none false s1 →
    let va := (s1.uniSource u 64 target).toNat
    let mine := fun (r : Region) => r.job == u.job s1 && r.held && r.va == va
    ∃ t, exec (.binrel target g) s = .next t ∧ t.wgs = s1.wgs ∧ t.groups = s1.groups ∧ t.ops = s1.ops ∧ t.path = s1.path ∧
      t.binsets = s1.binsets ∧
      (∀ r, s1.regions.find? mine = some r → (t.region? r.id).map (·.held) = some false) ∧
      (∀ c ∈ t.copies, ∀ bar n arr org off ws ra, c.kind = .bulk bar n arr va org off ws .held ra → c.job ≠ u.job s1) ∧
      (s1.regions.find? mine = none → t.regions = s1.regions ∧ t.mem = s1.mem)) ∧
  ∀ set g s u s1, UniReady s u g 1 [set] .none false s1 → OwnSet s1 (u.job s1) (s1.uniSource u 64 set).toNat →
    exec (.binrelClear set g) s = .next { s1 with binsets := s1.binsets.filter (·.1 != (s1.uniSource u 64 set).toNat) }

/-- Barrier registers (R155, R170, R171, R281): initialised, arrived at, waited on, read. -/
def Obligations.BarrierWords : Prop :=
  (∀ m n, RunsBarInit (.barinit m n) m .zero n none) ∧ (∀ m b n g, RunsBarInit (.barinit64 m b n g) m b n g) ∧
  (∀ d b n, RunsArrive (.barrive d b n) d b n false none) ∧ (∀ d b n pub g, RunsArrive (.barrive64 d b n pub g) d b n pub g) ∧
  (∀ d n s u s1 w b, UniReady s u none 1 [] d false s1 → HasBar s1 u n w b →
    ∃ t, exec (.bartest d n) s = .next t ∧ UniEffect s1 t u d 1 (barWord b)) ∧
  ∀ token n s u s1 w b, UniReady s u none 1 [token] .none false s1 → HasBar s1 u n w b →
    ∃ t, exec (.barwait token n) s = .next t ∧
      ((s1.uniSource u 64 token).getLsbD 0 = b.gen → match u with
        | .lane v _ _ => EndsWith s1 t v (.barwait n b.gen)
        | .unit _ => t = s1.mapStream w.id fun x => { x with wait := some (.bar n b.gen) }) ∧
      ((s1.uniSource u 64 token).getLsbD 0 ≠ b.gen → match u with
        | .lane _ _ _ => Refreshed s1 t w.core
        | .unit _ => t = s1)

/-- Cinch lines and slices of bulk copies (R156, R172, R173, R262, R263, R281). -/
def Obligations.CinchWords : Prop :=
  (∀ line s u s1 w l, UniReady s u none 1 [] .none false s1 → u.wgOf s1 = some w → s1.cinch[line]? = some l → MayArrive l w →
    ∃ t, exec (.cinch line) s = .next t ∧ match u with
      | .lane v _ _ => EndsWith s1 t v (.cinch line)
      | .unit _ =>
        (∀ x, w.stream = some x → t.wg? w.id = some { w with stream := some { x with wait := some (.cinch line) } }) ∧
        (∀ id, id ≠ w.id → t.wg? id = s1.wg? id) ∧ { t with wgs := s1.wgs, cinch := s1.cinch } = s1 ∧
        (l.region = none → t.cinch = s1.cinch) ∧
        (l.region ≠ none → (w.id, 1024) ∉ l.arrived → ∃ k, t.cinch = s1.cinch.set line k ∧ k.arrived = l.arrived ++ [(w.id, 1024)] ∧
          k.region = l.region ∧ k.mask = l.mask ∧ k.expect = l.expect ∧
          k.full = if l.arrived.length + 1 = l.expect then some s1.cyc else l.full)) ∧
  (∀ d mask t0 line g s u s1 w l,
    UniReady s u g 1 (t0 :: (mask.map fun j => [Src.k j, .k (j + 1), .k (j + 2), .k (j + 3)]).getD []) d false s1 →
    u.wgOf s1 = some w → s1.cinch[line]? = some l →
    let m := mask.map (maskOf4 s1 u)
    let n := (s1.uniSource u 64 t0).toNat
    let st := cinchStatusOf s1 l w.region m n
    ∃ t, exec (.cinchcfg d mask t0 line g) s = .next t ∧
      (st ≠ 0 → UniEffect s1 t u d 1 (BitVec.ofNat 64 st)) ∧
      (st = 0 → s1.waitingAt w.region line = [] → UniEffect { s1 with
        cinch := s1.cinch.set line { region := some w.region, mask := m, expect := n, arrived := [], full := none } } t u d 1 0)) ∧
  (∀ d line g s u s1 w l, UniReady s u g 1 [] d false s1 → u.wgOf s1 = some w → s1.cinch[line]? = some l →
    let st := if l.region.isSome ∧ l.region ≠ some w.region then 1 else if l.arrived ≠ [] then 2 else 0
    ∃ t, exec (.cinchcfgUnbind d line g) s = .next t ∧
      UniEffect (if st = 0 then { s1 with cinch := s1.cinch.set line CinchLine.reset } else s1) t u d 1 (BitVec.ofNat 64 st)) ∧
  ∀ tlr origin off bar slice count s u s1 w b,
    UniReady s u none 1 [tlr, off, .k origin, .k (origin + 1), .k (origin + 2)] .none false s1 → HasBar s1 u bar w b →
    (s1.uniSource u 64 tlr).toNat % 128 = 0 →
    let org := (List.range 6).map fun d => ((s1.uniSource u 64 (.k (origin + d / 2))).extractLsb' (32 * (d % 2)) 32).toInt
    (s1.copies.find? (·.lacks w.id bar slice) = none → (s1.copies.filter fun c => c.wg == w.id && c.isOpen).length < 8 →
      ∃ c by_, exec (.cpslice tlr origin off bar slice count) s = .next { s1 with copies := s1.copies ++ [c], seq := s1.seq + 1 } ∧
        c.id = s1.seq ∧ c.wg = w.id ∧ c.line = 0 ∧
        c.kind = .bulk bar count [slice] (s1.uniSource u 64 tlr).toNat org (s1.uniSource u 64 off).toNat [] (if count = 1 then .ready else .filling) by_) ∧
    ∀ c, s1.copies.find? (·.lacks w.id bar slice) = some c →
      c.agrees (s1.uniSource u 64 tlr).toNat org (s1.uniSource u 64 off).toNat count = true →
      ∃ t, exec (.cpslice tlr origin off bar slice count) s = .next t ∧ { t with copies := s1.copies } = s1 ∧
        t.copies.length = s1.copies.length

/-- Matrix words at issue (R279, R280, R290): `mstart` starts the stream; the others are queued. -/
def Obligations.MatrixWords : Prop :=
  (∀ d s v src on s1, UniReady s (.lane v src on) none 1 [] d false s1 →
    ∃ m t, exec (.mstart d) s = .next t ∧
      UniEffect m t (.lane (View.seen v m) src on) d 1 (match v.wg.stream with
        | none => 4
        | some x => if x.stop.isSome then 3 else if x.stage = .ended then 2 else 1) ∧
      (∀ x, v.wg.stream = some x → x.stage = .idle →
        m.wg? v.wg.id = some { v.wg with stream := some { x with stage := .running } } ∧ (∀ id, id ≠ v.wg.id → m.wg? id = s1.wg? id) ∧
        { m with wgs := s1.wgs } = s1) ∧
      ((∀ x, v.wg.stream = some x → x.stage ≠ .idle) → m = s1)) ∧
  ∀ i r, matrixRow i = some r → RunsMatrix i r

/-- Transfers at issue (R359, R362, R372 to R378). -/
def Obligations.TransferWords : Prop := ∀ i r, transferRow i = some r → RunsTransfer i r

/-- Messages, mapped barriers and root slots of fabric programs (R363 to R367, R380, R381). That an `fwait` behind a queued checkpoint is
recorded untested is the model's reading (log entry 54). -/
def Obligations.FabricWords : Prop :=
  (∀ msg endpoint s n p, OnProc s n p (endpoint :: (List.range 8).map (msg + ·)) .none →
    procK s n endpoint / 2 ^ 21 % 2 ^ 3 = 0 → procK s n endpoint / 2 ^ 28 = 0 →
    let m := messageOf s n p msg endpoint
    (procK s n endpoint % 2 ^ 16 ≠ Config.pkg.toNat →
      exec (.fsend msg endpoint) s = .next { s with
        outbox := s.outbox ++ [.message (procK s n endpoint % 2 ^ 16) m], seq := s.seq + 1
        remotes := s.remotes ++ [⟨s.seq, procK s n endpoint % 2 ^ 16, m.job, .fsend n, true⟩] }) ∧
    (procK s n endpoint % 2 ^ 16 = Config.pkg.toNat → ∀ q, s.proc? m.proc = some q → q.job = some m.job →
      s.waiting = [] → (sget [] q.channels m.channel).length < 8 →
      ∃ t, exec (.fsend msg endpoint) s = .next t ∧
        t.proc? m.proc = some { q with channels := sset [] q.channels m.channel (sget [] q.channels m.channel ++ [m.words]) } ∧
        OnlyProc s t m.proc)) ∧
  (∀ msg channel s n p w r, OnProc s n p [] .none → sget [] p.channels channel = w :: r → s.waiting = [] → w.length = 8 →
    ∃ t p', exec (.frecv msg channel) s = .next t ∧ t.proc? n = some p' ∧
      (∀ i x, w[i]? = some x → t.unitK (.fabric n) (msg + i) = x) ∧
      (∀ k, (∀ i, i < 8 → k ≠ msg + i) → t.unitK (.fabric n) k = s.unitK (.fabric n) k) ∧
      sget [] p'.channels channel = r ∧ plainProc { p' with channels := p.channels } = plainProc p ∧ OnlyProc s t n) ∧
  (∀ bar amount s n p s2 pg, s.proc? n = some p → UniReady s (.unit (.fabric n)) none 1 [.k bar, amount] .none false s →
    procK s n bar % 64 = 0 → s.translate (s.procAcc n) { barrierRule with physical := fun _ => true } false (procK s n bar) = .ok (pg, s2) →
    p.queue ≠ [] →
    ∃ t, exec (.fsig bar amount) s = .next t ∧
      t.proc? n = some { p with signals := p.signals ++ [⟨.add (procK s n bar) (s.uniSource (.unit (.fabric n)) 64 amount), s.turnPc, p.queue.length, s2.seq, false⟩] } ∧
      t.seq = s2.seq + 1 ∧ { t with procs := s2.procs, seq := s2.seq } = s2) ∧
  (∀ d bar s n p, OnProc s n p [bar] d → procK s n bar % 64 = 0 → ∃ t, exec (.fwait d bar) s = .next t ∧
    (∀ k, d ≠ .k k → t.unitK (.fabric n) k = s.unitK (.fabric n) k) ∧
    ((∃ q ∈ p.queue, q.instr = .ckpt) → ((t.proc? n).bind (·.wait)) =
      some { dst := d, va := procK s n bar, pc := s.turnPc, since := s.cyc, tmo := 0, sent := false }) ∧
    ((∀ q ∈ p.queue, q.instr ≠ .ckpt) → ∀ pg s2, (keeping s n d).translate (s.procAcc n) barrierRule false (procK s n bar) = .ok (pg, s2) →
      s2.errorIn pg (procK s n bar) 64 = none → pg.home (procK s n bar) = .home →
      let word := fun i => leNat (((s2.homeRead none (pg.pa (procK s n bar)) 64).1.drop (8 * i)).take 8)
      let bad := word 4 ≠ 0 ∨ word 5 ≠ 0 ∨ word 6 ≠ 0 ∨ word 7 ≠ 0
      (bad → ∀ k, d = .k k → t.unitK (.fabric n) k = 2) ∧
      (¬bad → word 1 ≤ word 0 → ∀ k, d = .k k → t.unitK (.fabric n) k = 0) ∧
      (¬bad → word 0 < word 1 → ((t.proc? n).bind (·.wait)) =
        some { dst := d, va := procK s n bar, pc := s.turnPc, since := s.cyc, tmo := word 3, sent := false }))) ∧
  (∀ res config timeout bitmap s n p, OnProc s n p (config :: timeout :: bitmap.toList) .none →
    let c := procK s n config
    ∀ x, p.slots[c / 2 ^ 16 % 2 ^ 4]? = some x → x.active = none →
    c % 2 ^ 16 ≠ 0 → c / 2 ^ 20 % 2 ^ 4 < 8 → c / 2 ^ 40 = 0 → p.pool = [] → s.waiting = [] →
    ∃ t p', exec (.fslot res config timeout bitmap) s = .next t ∧ t.proc? n = some p' ∧
      p'.slots[c / 2 ^ 16 % 2 ^ 4]? = some { x with active := some {
          n := c % 2 ^ 16, op := c / 2 ^ 20 % 2 ^ 4, epoch := c / 2 ^ 24 % 2 ^ 16, applied := [], value := slotIdentity (c / 2 ^ 20 % 2 ^ 4)
          limit := procK s n timeout, since := s.cyc, res := .k res, stat := .k (res + 1), bitmap := bitmap.map (procK s n), pc := s.turnPc } } ∧
      (∀ k, t.unitK (.fabric n) k = s.unitK (.fabric n) k) ∧ OnlyProc s t n) ∧
  ∀ value root index s n p, OnProc s n p [value, root, index] .none →
    procK s n root / 2 ^ 21 % 2 ^ 3 = 0 → procK s n root / 2 ^ 28 % 2 ^ 4 = 0 → procK s n root / 2 ^ 48 = 0 → procK s n index / 2 ^ 16 = 0 →
    s.waiting = [] → (∀ r ∈ s.remotes, r.use ≠ .fred n) →
    let c := contributionOf s n p value root index
    (procK s n root % 2 ^ 16 ≠ Config.pkg.toNat →
      exec (.fred value root index) s = .next { s with
        outbox := s.outbox ++ [.contribution (procK s n root % 2 ^ 16) c], seq := s.seq + 1
        remotes := s.remotes ++ [⟨s.seq, procK s n root % 2 ^ 16, c.job, .fred n, true⟩] }) ∧
    (procK s n root % 2 ^ 16 = Config.pkg.toNat → ∀ q x a, s.proc? c.proc = some q → q.job = some c.job → q.slots[c.slot]? = some x →
      x.active = some a → a.epoch = c.epoch → c.index < a.n → c.index ∉ a.applied → a.applied.length + 1 < a.n →
      ∃ t q', exec (.fred value root index) s = .next t ∧ t.proc? c.proc = some q' ∧
        q'.slots[c.slot]? = some { x with active := some { a with applied := a.applied ++ [c.index], value := slotCombine a.op a.value c.value } } ∧
        OnlyProc s t c.proc)

end

namespace Sys2Proof.Spec
open Sys2Proof.Machine

/-! ### The Timetable's words (R407 to R409) -/

/-- `ttwait` (R409): one operation, which keeps where a cancelled wait goes back to (R410). -/
def RunsTtwait (i : Instr) (sel : Nat) (d : Dst) (cond thr timeout : Src) (g : Option Guard) : Prop :=
  ∀ s u s1, ((∃ n, d = .x n) ∨ ∃ n, d = .k n) → UniReady s u g 1 [cond, thr, timeout] d true s1 →
    ∃ t, exec i s = .next t ∧ IssuedUni s1 t u d (.ttwait sel (s1.uniSource u 64 cond) (s1.uniSource u 64 thr)
      (s1.uniSource u 64 timeout).toNat (match u with
        | .lane v _ _ => v.threads.map fun a => (a.tid, a.lastR, a.regionsR, a.retiredR)
        | .unit _ => []))

/-- The engine runs for a job, and has a neighbour on a side. -/
def Neighbour (s : State) (job : Nat) (prev : Bool) (k : Nat) : Prop :=
  (s.tt.state = 1 ∨ s.tt.state = 2) ∧ s.tt.job = job ∧ k ≠ 0xFFFF ∧
    k = ((s.tt.tcb.getD 2 0).toNat / 2 ^ (if prev then 0 else 16)) % 2 ^ 16

/-- A message of `ttpost` leaves for a neighbour, or counts in DROP where the engine does not run for the job, has no such neighbour, or
the count is 0 (R408). -/
def Posted (s t : State) (job : Nat) (free prev : Bool) (mb count : Nat) : Prop :=
  (∀ k, count ≠ 0 → Neighbour s job prev k → t = { s with outbox := s.outbox ++ [.timetable k ⟨job, free, prev, mb, count⟩] }) ∧
  ((count = 0 ∨ ∀ k, ¬Neighbour s job prev k) → t = { s with tt := { s.tt with drop := s.tt.drop + 1 } })

/-- Whether an operation is a `cwait`. -/
def isCwait : LongKind → Bool
  | .cwait _ => true
  | _ => false

/-! ### The Bell (R384 to R390) -/

/-- `t` is `s` after a raise of a Bell for a job: a job that stands unfrozen freezes under the next number, on the next clk, and the
Bell goes to its fan-out, and the root begins its roll call; a raise under a Bell whose resume has not begun stage 2 merges into it (R384,
R388, R390, R392). -/
def BellRaised (s t : State) (job : Nat) (r : RaiseRec) : Prop :=
  (s.job? job = none → t = s) ∧
  (∀ j, s.job? job = some j → j.freeze = none → ∃ j' f, t.job? job = some j' ∧ j'.freeze = some f ∧ j'.bseq = (j.bseq + 1) % 2 ^ 32 ∧
    f.seq = j'.bseq ∧ f.raise = some r ∧ f.nraise = 1 ∧ f.cyc = s.cyc + 1 ∧ f.since = s.cyc + 1 ∧ f.stage = 0 ∧ f.entry = [] ∧
    t.todo = s.todo ++ (if j.atRoot then [Act.event (.rollCallEntryWrite job)] else []) ∧
    t.outbox = s.outbox ++ j.fan.map fun p => .bell p ⟨job, j'.bseq, Config.pkg.toNat, r.cause⟩) ∧
  (∀ j f, s.job? job = some j → j.freeze = some f → f.stage < 2 →
    t.job? job = some { j with freeze := some { f with raise := f.raise.or (some r), nraise := min 255 (f.nraise + 1) } } ∧
    t.outbox = s.outbox ∧ t.tt = s.tt ∧ t.todo = s.todo) ∧
  (∀ id, id ≠ job → t.job? id = s.job? id) ∧ { t with jobs := s.jobs, tt := s.tt, outbox := s.outbox, todo := s.todo } = s

/-! ### The control cores (R318 to R333) -/

/-- A word of a control core is being performed. -/
def OnControl (s : State) (n : Nat) (c : Control) (srcs : List Src) (d : Dst) : Prop :=
  s.control? n = some c ∧ UniReady s (.unit (.control n)) none 1 srcs d false s

/-- A k register of a control core. -/
def ctlK (s : State) (n r : Nat) : W64 := s.unitK (.control n) r

/-- Some control registers by address (Table 13.8): the event's words, the queue, the handler's address, the window's status, the assists,
the watchdog, breakpoints, XCWAYS, MIGCTL, the chunk selector, the package freeze. -/
def csrOf (s : State) (c : Control) (a : Nat) : Option W64 :=
  if a < 8 then some (match c.current with | some e => e.words.getD a 0 | none => 0)
  else if a = 8 then some (BitVec.ofNat 64 c.queue.length)
  else if a = 9 then some c.ccvec else if a = 0x0A then some c.dwstat else if a = 0x0B then some c.assistcnt else if a = 0x0C then some c.ccwdog
  else if 0x2000 ≤ a ∧ a < 0x2010 then some (s.bpact.getD (a - 0x2000) 0)
  else if 0x2010 ≤ a ∧ a < 0x2020 then some (s.bpcnt.getD (a - 0x2010) 0)
  else if a = 0x2060 then some s.xcways else if a = 0x2061 then some s.migctl else if a = 0x2062 then some s.chsel
  else if a = 0x2066 then some (if s.pfrz.isSome then 1 else 0) else none

/-- `t` is `s`, but that a control core's window status is `status` (R327). -/
def WithStatus (s t : State) (n status : Nat) : Prop :=
  (t.control? n) = (s.control? n).map (fun c => { c with dwstat := BitVec.ofNat 64 status }) ∧
    (∀ m, m ≠ n → t.control? m = s.control? m) ∧ { t with controls := s.controls } = s

/-- The index of the window: a k register, or a number. -/
def PlainIndex (a : Src) : Prop := (∃ r, a = .k r) ∨ ∃ v : Nat, v < 2 ^ 64 ∧ a = .imm v

/-- A single step, continue or re-execute as `gresume` names it. -/
def resumeOf (i : Instr) : Option (ResumeMode × Nat × StopLevel) := match i with
  | .gresumeCont h l => some (.cont, h, l)
  | .gresumeReexec h l => some (.reexec, h, l)
  | .gresumeStep h l => some (.step, h, l)
  | _ => none

/-! ### Run control (R21, R27, R30 to R34, R71 to R75) -/

/-- A header's conditions hold in a thread on a clk (R27, R31): every flag it waits for is set, since before the clk, and the distance
from the last trailer has passed. -/
def Due (t : Thread) (h : HeaderWord) (clk : Nat) : Prop :=
  (∀ f < 12, h.wait.testBit f = true → sget 0 t.flags f = 0 ∧ (sget 0 t.setAt f = 0 ∨ sget 0 t.setAt f < clk)) ∧
    (t.trailer = 0 ∨ t.trailer + 1 + h.dist ≤ clk)

/-- A candidate group whose turn it is, alone ready on its partition, unfrozen and resident, on a clk at which it may issue. -/
structure Candidate (s : State) (g : Group) (w : Workgroup) (tn : Turn) : Prop where
  turn     : s.turn = some tn
  unit     : tn.unit = .group g.id
  group    : s.group? g.id = some g
  wg       : s.wg? g.wg = some w
  idle     : g.run = none
  resident : w.residence = .resident
  since    : g.parked = true ∨ g.since ≤ s.cyc
  alone    : ∀ q ∈ s.groups, q.id ≠ g.id → q.part = g.part → (s.wg? q.wg).map (·.core) = some w.core → s.readyKeys q = none

/-- How many operations an entry's flag takes on for a thread (R30). -/
def entryCount (s : State) (r : Run) (tr : TrailerWord) (f tid : Nat) : Nat :=
  ((trailerEntries tr).map fun e => if e.flag = f then
    ((r.ordinals.getD e.ordinal []).filter fun id => (s.op? id).any fun o => o.present.contains tid).length else 0).sum

end Sys2Proof.Spec

section
open Sys2Proof Sys2Proof.Machine Sys2Proof.Spec

/-- `ttpost` and `ttwait` (R407 to R409). -/
def Obligations.TimetableWords : Prop :=
  (∀ mb count free prev g s u s1, UniReady s u g 1 [mb, count] .none false s1 →
    let m := (s1.uniSource u 64 mb).toNat % 16
    let n := min 65535 (s1.uniSource u 64 count).toNat
    (∀ v src on, u = .lane v src on →
      let tids := v.threads.map (·.tid)
      let mine := (s1.boundaries.filter fun b => b.wg == v.wg.id && b.tids.any tids.contains).map (·.id) ++
        (s1.ops.filter fun o => o.wg == v.wg.id && o.present.any tids.contains && isCwait o.kind).map (·.id)
      ∃ t, exec (.ttpost mb count free prev g) s = .next t ∧
        (mine = [] → Posted s1 t v.leaf.job free prev m n) ∧
        (mine ≠ [] → t = { s1 with posts := s1.posts ++ [⟨v.wg.id, v.leaf.job, mine, free, prev, m, n⟩] })) ∧
    ∀ k p, u = .unit (.fabric k) → s1.proc? k = some p → p.queue ≠ [] →
      ∃ t, exec (.ttpost mb count free prev g) s = .next t ∧
        t.proc? k = some { p with signals := p.signals ++ [⟨.post free prev m n, s1.turnPc, p.queue.length, s1.seq, false⟩] } ∧
        t.seq = s1.seq + 1 ∧ { t with procs := s1.procs, seq := s1.seq } = s1) ∧
  (∀ d c thr lim g, RunsTtwait (.ttwaitRdy d c thr lim g) 0 d c thr lim g) ∧ (∀ d c thr lim g, RunsTtwait (.ttwaitCr d c thr lim g) 1 d c thr lim g) ∧
  (∀ d c lim g, RunsTtwait (.ttwaitDone d c lim g) 2 d c .zero lim g) ∧ ∀ d c g, RunsTtwait (.ttwaitRd d c g) 3 d c .zero .zero g

/-- `bell` on every executor (R385), and `lcrbin` (R343). -/
def Obligations.BellAndCounterWords : Prop :=
  (∀ a s v src on s1, UniReady s (.lane v src on) none 1 [a] .none false s1 → ∃ t, exec (.bell a) s = .next t ∧
    BellRaised s1 t v.leaf.job { cause := 3, unit := 0, handle := v.wg.core + v.wg.slot * 2 ^ 8 + src.tid * 2 ^ 13
                                 code := (s1.uniSource (.lane v src on) 64 a).toNat % 2 ^ 16, addr := s1.turnPc }) ∧
  (∀ a s w g, s.wg? w = some g → UniReady s (.unit (.stream w)) none 1 [a] .none false s → ∃ t, exec (.bell a) s = .next t ∧
    BellRaised s t (s.jobOf g) { cause := 3, unit := 1, handle := g.core + g.slot * 2 ^ 8 + 2 ^ 23
                                 code := (s.uniSource (.unit (.stream w)) 64 a).toNat % 2 ^ 16, addr := s.turnPc }) ∧
  (∀ a s n p, s.proc? n = some p → UniReady s (.unit (.fabric n)) none 1 [a] .none false s → ∃ t, exec (.bell a) s = .next t ∧
    BellRaised s t (p.job.getD 0) { cause := 3, unit := 2, handle := 0xFFE000 + n
                                    code := (s.uniSource (.unit (.fabric n)) 64 a).toNat % 2 ^ 16, addr := s.turnPc }) ∧
  (∀ a s n, UniReady s (.unit (.control n)) none 1 [a] .none false s → ∃ t, exec (.bell a) s = .next t ∧
    let x := (s.uniSource (.unit (.control n)) 64 a).toNat
    BellRaised s t (x / 2 ^ 16 % 2 ^ 32) { cause := 4, unit := 3, handle := 0, code := x % 2 ^ 16, addr := 0 }) ∧
  ∀ d range cls g s v src on s1, UniReady s (.lane v src on) g 1 [] d false s1 →
    ∃ t, exec (.lcrbin d range cls g) s = .next t ∧
      UniEffect s1 t (.lane v src on) d 1 (sget 0 (s1.part v.wg.core v.g.part).lcc (range * 5 + cls))

/-- Control registers and the debug window (R327, R328, R332). -/
def Obligations.ControlRegisterWords : Prop :=
  (∀ d addr s n c x, OnControl s n c [] (.k d) → csrOf s c addr = some x →
    ∃ t, exec (.csrrd d addr) s = .next t ∧ UniEffect s t (.unit (.control n)) (.k d) 1 x) ∧
  (∀ value addr s n c, OnControl s n c [.k value] .none → (s.csrRead n c addr).isSome → ∃ t, exec (.csrwr value addr) s = .next t ∧
    (addr < 8 ∨ addr = 8 ∨ addr = 0x0A ∨ addr = 0x0B → t = s) ∧
    (addr = 9 → (ctlK s n value).toNat % 4 = 0 → t = { s with controls := s.controls.set n { c with ccvec := ctlK s n value } }) ∧
    (addr = 9 → (ctlK s n value).toNat % 4 ≠ 0 → t = s) ∧
    (addr = 0x0C → 2 ^ 16 ≤ (ctlK s n value).toNat → (ctlK s n value).toNat < 2 ^ 32 →
      t = { s with controls := s.controls.set n { c with ccwdog := ctlK s n value } }) ∧
    (addr = 0x2062 → (ctlK s n value).toNat < 393216 → t = { s with chsel := ctlK s n value }) ∧
    (addr = 0x2066 → ctlK s n value = 1 → t = { s with pfrz := s.pfrz.or (some s.cyc) }) ∧
    (0x2000 ≤ addr → addr < 0x2010 → (ctlK s n value).toNat % 8 < 5 →
      t = { s with bpact := s.bpact.set (addr - 0x2000) (ctlK s n value &&& 0xFFFFFFFF0000000F) })) ∧
  (∀ d handle index space s n c, OnControl s n c [.k handle, index] (.k d) → ∃ m t, exec (.dwrd d handle index space) s = .next t ∧
    let i := (s.uniSource (.unit (.control n)) 64 index).toNat
    PlainIndex index →
      (∀ it, s.item (ctlK s n handle) space i = .ok it → UniEffect s m (.unit (.control n)) (.k d) 1 it.value ∧ WithStatus m t n 0) ∧
      ∀ e, s.item (ctlK s n handle) space i = .error e → UniEffect s m (.unit (.control n)) (.k d) 1 0 ∧ WithStatus m t n e) ∧
  (∀ handle index value space s n c, OnControl s n c [.k handle, index, .k value] .none →
    ∃ t, exec (.dwwr handle index value space) s = .next t ∧
    let i := (s.uniSource (.unit (.control n)) 64 index).toNat
    PlainIndex index →
      (∀ e, s.item (ctlK s n handle) space i = .error e → WithStatus s t n e) ∧
      (∀ it, s.item (ctlK s n handle) space i = .ok it → it.write = none → WithStatus s t n 4) ∧
      ∀ it f, s.item (ctlK s n handle) space i = .ok it → it.write = some f → WithStatus (f (ctlK s n value)) t n 0) ∧
  ∀ (s : State) (h : W64) (w : Workgroup) (a : Thread) (i : Nat), s.target h = some (.thread w a) → s.wg? w.id = some w → w.thread? a.tid = some a → s.threadStopped w a = true →
    (∀ l, s.leafOf w = some l → i < l.regs) → (s.leafOf w).isSome →
    ∃ it f, s.item h 0 i = .ok it ∧ it.value = sget 0 a.x i ∧ it.write = some f ∧
      ∀ x, ∃ b, (f x).thread? w.id a.tid = some b ∧ (∀ n, sget 0 b.x n = if n = i then x else sget 0 a.x n) ∧
        { b with x := a.x, settling := a.settling, stale := a.stale, upsets := a.upsets } = a

/-- Resuming, killing, invalidating, and the end of handling (R329, R330, R331, R333). -/
def Obligations.ControlWords : Prop :=
  (∀ i mode handle level, resumeOf i = some (mode, handle, level) → ∀ s n c, OnControl s n c [.k handle] .none →
    ∃ t, exec i s = .next t ∧
      (s.target (ctlK s n handle) = none → WithStatus s t n 2) ∧
      (∀ e, s.resume mode level c.reexec (ctlK s n handle) = .error e → WithStatus s t n e) ∧
      ∀ m, s.resume mode level c.reexec (ctlK s n handle) = .ok m → WithStatus m t n 0) ∧
  (∀ handle code faulted s n c, OnControl s n c [.k handle, .k code] .none → ∃ t, exec (.gkill handle code faulted) s = .next t ∧
    (s.target (ctlK s n handle) = none → WithStatus s t n 2) ∧
    (∀ w r, (∃ a, s.target (ctlK s n handle) = some (.thread w a)) ∨ (∃ x, s.target (ctlK s n handle) = some (.stream w x)) →
      faulted = false → s.region? w.region = some r → r.killable = true →
      (∀ x ∈ t.wgs, x.region ≠ w.region) ∧ (t.region? w.region).map (·.state) = some 7) ∧
    ∀ p q, s.target (ctlK s n handle) = some (.fabric p q) → t.proc? p = some FabricProc.reset ∧
      (∀ o ∈ t.ops, o.issuer ≠ .fabric p) ∧ t.wgs = s.wgs ∧ t.groups = s.groups ∧ t.mem = s.mem) ∧
  (∀ mode va asid count s n c, OnControl s n c [.k va, .k asid, .k count] .none → s.ops = [] → s.path = [] →
    let k := fun (r : Nat) => (ctlK s n r).toNat
    (mode = .range → k va % 0x10000 = 0 ∧ 1 ≤ k count ∧ k count ≤ 2 ^ 20) →
    ∃ t, exec (.tlbi mode va asid count) s = .next t ∧
      (∀ e, e ∈ t.tlb ↔ e ∈ s.tlb ∧ ¬(match mode with
        | .all => True
        | .asid => e.asid = k asid % 2 ^ 16 ∧ e.entry / 2 ^ 8 % 2 = 0
        | .range => (e.asid = k asid % 2 ^ 16 ∨ e.entry / 2 ^ 8 % 2 = 1) ∧
            let size := e.members * (if e.block then 0x8000000 else 0x10000)
            e.vpn / e.members * size < k va + k count * 0x10000 ∧ k va < e.vpn / e.members * size + size)) ∧
      { t with tlb := s.tlb, l1 := s.l1, mem := s.mem } = s) ∧
  ∀ s n c, OnControl s n c [] .none → ∃ t, exec .eret s = .next t ∧ { t with controls := s.controls } = s ∧
    (∀ m, m ≠ n → t.control? m = s.control? m) ∧
    (c.queue = [] → t.control? n = some { c with current := none }) ∧
    ∀ e r, c.queue = e :: r →
      t.control? n = some { c with current := some e, queue := r, pc := c.ccvec.toNat, watch := s.cyc, retried := false }

/-- Run control: a header starts a run (R21, R31, R34), a prefix waits for its word (R71, R73), a trailer ends the run (R27, R30, R33). -/
def Obligations.RunControlWords : Prop :=
  (∀ h s g w tn, Candidate s g w tn → (∀ a ∈ g.tids.filterMap w.thread?, Due a h s.cyc) →
    (h.r = true → ∀ o ∈ s.ops, o.wg = g.wg → (∃ a ∈ g.tids, a ∈ o.present) → o.checked = true ∧ o.sent = false) →
    ∃ t, exec (.header h) s = .next t ∧
      t.group? g.id = some { g with
        parked := false, lifted := false, skipWatch := false, run := some { header := g.pc, clk := s.cyc, pc := g.pc + 4, left := h.len + 1, pfx := none, ordinals := [], tail := .fall } } ∧
      (∀ id, id ≠ g.id → t.group? id = s.group? id) ∧
      (∀ a ∈ g.tids.filterMap w.thread?, ∃ b, t.thread? w.id a.tid = some b ∧ b.o = [] ∧ b.l = [] ∧ b.next = g.pc ∧
        b.regions = a.regions + (if h.r then 1 else 0) ∧ b.lastR = (if h.r then g.pc else a.lastR) ∧ b.x = a.x ∧ b.p = a.p ∧ b.flags = a.flags) ∧
      { t with wgs := s.wgs, groups := s.groups, ops := s.ops } = s) ∧
  (∀ p s v, InRun s v → 2 ≤ v.run.left → (∀ x, s.wordAfter v.wg v.turn.pc = some x → orphanBefore p.uniform x = false) →
    ∃ t, exec (.prefixWord p) s = .next t ∧
      t.group? v.g.id = some { v.g with run := some { v.run with pfx := some (v.turn.pc, encodePrefix p) } } ∧
      (∀ id, id ≠ v.g.id → t.group? id = s.group? id) ∧ { t with groups := s.groups } = s) ∧
  ∀ tr s v, InRun s v → v.run.left = 0 → (∀ e ∈ trailerEntries tr, e.ordinal < v.run.ordinals.length) → v.run.tail = .fall →
    v.g.step = none → (∀ b ∈ s.bins, b.wg = v.wg.id → b.block ≠ v.g.block) →
    ∃ t, exec (.trailer tr) s = .next t ∧
      t.group? v.g.id = some { v.g with
        run := none, pc := v.turn.pc + 4, since := s.cyc + 1, parked := tr.park, lifted := false, skipWatch := false, step := none, held := 0, filing := none } ∧
      (∀ id, id ≠ v.g.id → t.group? id = s.group? id) ∧
      (∀ a ∈ v.threads, ∃ b, t.thread? v.wg.id a.tid = some b ∧ b.o = [] ∧ b.l = [] ∧ b.next = v.turn.pc + 4 ∧ b.trailer = s.cyc ∧
        b.settling = [] ∧ b.x = a.x ∧ b.p = a.p ∧ b.regions = a.regions ∧ b.place = a.place ∧
        ∀ f, sget 0 b.flags f = sget 0 a.flags f + entryCount s v.run tr f a.tid) ∧
      t.mem = s.mem ∧ t.path = s.path ∧ t.bins = s.bins ∧ t.events = s.events

end

namespace Sys2Proof.Spec
open Sys2Proof.Machine

/-! ### Completions (R28 to R30, R120, R174, R409) -/

/-- Whether a unit is an issue group. -/
def isGroup : UnitId → Bool
  | .group _ => true
  | _ => false

/-- `t` is `s` after operation `o` completed with the value `x` (R29, R30): it is gone, its destination has the value unless a later
write took it, and each thread that counted it in a flag counts one less. -/
structure Landed (s t : State) (o : LongOp) (x : W64) : Prop where
  gone  : t.ops = s.ops.filter (·.id != o.id)
  lanes : ∀ tid a, s.thread? o.wg tid = some a → ∃ b, t.thread? o.wg tid = some b ∧
    (∀ n, sget 0 b.x n = if o.dst = .x n ∧ isGroup o.issuer = true ∧ tid ∈ o.tids ∧ tid ∉ o.dropped
      then merge o.mask (sget 0 a.x n) x else sget 0 a.x n) ∧
    (∀ f, sget 0 b.flags f = sget 0 a.flags f - (if tid ∈ o.present then o.flags.count f else 0)) ∧
    { b with x := a.x, flags := a.flags, setAt := a.setAt, settling := a.settling, stale := a.stale, upsets := a.upsets } = a
  groupK : ∀ g n w, o.issuer = .group g → o.dst = .k n → s.wg? o.wg = some w → ∃ w', t.wg? o.wg = some w' ∧
    sget 0 w'.k n = if o.dropped = [] then x else sget 0 w.k n
  unitK : ∀ n, o.dst = .k n → (∀ g, o.issuer ≠ .group g) → holds s o.issuer = true →
    t.unitK o.issuer n = if o.dropped = [] then x else s.unitK o.issuer n
  frame : { t with ops := s.ops, wgs := s.wgs, procs := s.procs, controls := s.controls } = s

/-- An operation that may complete: pending, not out at another package, its results not held, everything before it done. -/
def MayComplete (s : State) (o : LongOp) : Prop :=
  s.op? o.id = some o ∧ o.sent = false ∧ o.held = none ∧ s.clear o.after = true

/-- A block's threads can be filed: no `reform.all` bin stands, so a bin can be had (R148), and the block has not taken the
divergent-reform trap. -/
def MayFile (s : State) (g : Workgroup) (block : Nat) : Prop := (∀ b ∈ s.bins, b.all = false) ∧ block ∉ g.diverged

/-- A thread parked by `waitv` whose timer runs: its workgroup stands on a core and nothing freezes it. -/
def Parked (s : State) (wg tid : Nat) (g : Workgroup) (w : WaitvPark) (o : LongOp) : Prop :=
  s.wg? wg = some g ∧ s.parkOf wg tid = some w ∧ s.op? w.op = some o ∧ g.residence = .resident ∧ s.threadFrozen wg tid = false ∧
    o.kind = .waitv ∧ o.wg = wg

/-- A thread left its `waitv` with the value `x` (R174): it is filed under its next header, its destination has the value. -/
def LeftPark (t : State) (wg tid : Nat) (w : WaitvPark) (o : LongOp) (x : W64) : Prop :=
  t.op? w.op = none ∧ ∃ b, t.thread? wg tid = some b ∧ b.place = .bin ∧
    ∀ n g, o.dst = .x n → o.issuer = .group g → tid ∈ o.tids → tid ∉ o.dropped → sget 0 b.x n = x

/-- The counter that `ttwait` selects (R409): ready counters of a micro-batch, free-slot counters of a side. -/
def ttCounter (t : Timetable) (sel : Nat) (a : W64) : Nat :=
  match sel with
  | 0 => if a.getLsbD 4 then sget 0 t.brdy (a.toNat % 16) else sget 0 t.frdy (a.toNat % 16)
  | 1 => if a.getLsbD 0 then t.crb else t.crf
  | _ => 0

/-- A value of `n` bytes as `ld` writes it (R120): extended by its sign or with zeros. -/
def loaded (sg : Bool) (n v : Nat) : W64 := if sg then (BitVec.ofNat (8 * n) v).signExtend 64 else BitVec.ofNat 64 v

/-! ### Bins, groups and boundaries (R148 to R154, R173, R213 to R216, R342) -/

/-- `t` is `s` after a bin was drawn (R150): it is free, and its lanes form a candidate group at its header. -/
structure Drawn (s t : State) (b : Bin) : Prop where
  bins  : t.bins = s.bins.filter (· != b)
  group : ∃ g ∈ t.groups, g.id = s.seq ∧ g.wg = b.wg ∧ g.block = b.block ∧ g.lanes = b.lanes ∧ g.pc = b.pc ∧ g.run = none ∧
    g.stop = none ∧ g.since = s.cyc
  lanes : ∀ l ∈ b.lanes, ∀ a, s.thread? b.wg (32 * b.block + l) = some a →
    t.thread? b.wg (32 * b.block + l) = some { a with place := .group s.seq, next := b.pc }
  frame : { t with bins := s.bins, groups := s.groups, wgs := s.wgs, grants := s.grants, seq := s.seq } = s

/-- A bin that may be drawn: not on its last-filing clk, of a resident workgroup that nothing stopped, of a block that has not taken the
divergent-reform trap (R148, R150). -/
def Drawable (s : State) (core part n : Nat) (b : Bin) (w : Workgroup) (r : Region) : Prop :=
  s.bin? core part n = some b ∧ s.wg? b.wg = some w ∧ s.leafOf w = some r ∧ b.last < s.cyc ∧ w.residence = .resident ∧ w.stopped = none ∧
    b.block ∉ w.diverged

/-- The clk count after which a bin is aged (R150): AGE × 8, 64 where AGE is 0. -/
def ageOf (r : Region) : Nat := let a := r.word 12 / 2 ^ 40 % 2 ^ 8; if a = 0 then 64 else 8 * a

end Sys2Proof.Spec

section
open Sys2Proof Sys2Proof.Machine Sys2Proof.Spec

/-- Long-latency results, `waitv` and the timeouts (R28 to R30, R120, R174, R409). -/
def Obligations.CompletionEvents : Prop :=
  (∀ s o v m sh, MayComplete s o → o.kind = .value v m sh → s.opFrozen o = false →
    ∃ t, exec (.longLatencyComplete o.id) s = .next t ∧ Landed s t o v) ∧
  (∀ s o va n sg nol1 m l u, MayComplete s o → o.kind = .load va n sg nol1 → s.opCheck o = .ok m →
    m.loadBehind o = false → m.loadAt o.accessor (o.reader nol1) true va n = .bytes l u → u.opFrozen o = false →
    ∃ t, exec (.longLatencyComplete o.id) s = .next t ∧ Landed u t o (loaded sg n (leNat l))) ∧
  (∀ s o, MayComplete s o → (∀ m, s.opCheck o ≠ .ok m) → o.ofUnit = false →
    ∃ t, exec (.longLatencyComplete o.id) s = .next t ∧ t.op? o.id = none ∧ t.mem = s.mem) ∧
  (∀ s wg tid g w o m l u, Parked s wg tid g w o → o.sent = false → s.clear o.after = true →
    checkAccess s (s.wgAccessor g) (loadRule w.width) o.checked w.va w.width = .ok m →
    (m.refresh g.core).loadAt (s.wgAccessor g) (o.reader false) true w.va w.width = .bytes l u →
    ∃ t, exec (.waitvReread wg tid) s = .next t ∧
      (w.holds (leNat l) = false → (t.op? w.op).isSome ∧
        t.parkOf wg tid = some { w with read := s.cyc, lastRead := some (loaded w.signed w.width (leNat l)) }) ∧
      (w.holds (leNat l) = true → MayFile s g (tid / 32) → LeftPark t wg tid w o (loaded w.signed w.width (leNat l)))) ∧
  (∀ s wg tid g w o x, Parked s wg tid g w o → s.debugStopped wg = false → w.timeout ≠ 0 → w.since + w.timeout ≤ s.cyc → w.lastRead = some x →
    MayFile s g (tid / 32) → ∃ t, exec (.waitvTimeout wg tid) s = .next t ∧ LeftPark t wg tid w o x) ∧
  ∀ s o sel a thr timeout back, s.op? o.id = some o → o.held = none → s.clear o.after = true → s.opFrozen o = false →
    o.kind = .ttwait sel a thr timeout back → timeout ≠ 0 → o.issued + timeout ≤ s.cyc →
    ∃ t, exec (.ttwaitTimeout o.id) s = .next t ∧ Landed s t o (BitVec.ofNat 64 (ttCounter s.tt sel a + 2 ^ 63))

/-- Bins that are drawn, candidates that are lifted, clks that are idle (R150, R154, R342). -/
def Obligations.DrawEvents : Prop :=
  (∀ s core part n b w r, Drawable s core part n b w r → b.lanes.length = (w.liveOf b.block).length →
    ∃ t, exec (.binFullDraw core part n) s = .next t ∧ Drawn s t b) ∧
  (∀ s core part n b w r, Drawable s core part n b w r → b.all = false → b.filed + ageOf r + b.held ≤ s.cyc →
    s.frozenAt w b.part s.cyc = false → ∃ t, exec (.binAgedDraw core part n) s = .next t ∧ Drawn s t b) ∧
  (∀ s core part n b, s.bin? core part n = some b → b.all = true → exec (.binAgedDraw core part n) s = .next s) ∧
  (∀ s g w, s.group? g.id = some g → s.wg? g.wg = some w → g.lifted = false → g.run = none → g.stop = none → g.filing = none →
    g.parked = false → g.since + g.held + 4096 < s.cyc → s.debugStopped g.wg = false → s.frozenAt w g.part s.cyc = false → ∃ t, exec (.candidateLift g.id) s = .next t ∧
      t.group? g.id = some { g with lifted := true } ∧ (∀ id, id ≠ g.id → t.group? id = s.group? id) ∧ { t with groups := s.groups } = s) ∧
  ∀ s core part, (s.part core part).busy = none → (s.part core part).frozen = none → s.pfrz = none →
    ∃ t, exec (.idleLaneCycles core part) s = .next t ∧
      (∀ k, sget 0 (t.part core part).lcc k = sget 0 (s.part core part).lcc k +
        if k = 15 * 5 + 4 then BitVec.ofNat 64 (32 * (s.cyc - (s.part core part).counted)) else 0) ∧
      { t.part core part with lcc := (s.part core part).lcc } = { s.part core part with counted := max (s.part core part).counted s.cyc } ∧
      (∀ c p, c * 4 + p ≠ core * 4 + part → t.part c p = s.part c p) ∧ { t with parts := s.parts } = s

/-- Stores that land, boundaries that complete, cinch lines whose 48 clk have passed (R173, R213 to R216, Table 8.1). -/
def Obligations.DrainEvents : Prop :=
  (∀ s core i p, (s.path.filter (·.core == core))[i]? = some p → s.mayDrain p = true →
    (p.bytes.map (·.pa)).Nodup → (∀ e ∈ p.bytes, s.touch e.pa = s) → ∃ t, exec (.storeDrain core i) s = .next t ∧
      (p.dest = .home → t.path = s.path.filter (· != p) ∧
        (∀ e ∈ p.bytes, ∀ i < 8, (memByte t.mem e.pa).getLsbD i = if e.mask.getLsbD i then e.val.getLsbD i else (memByte s.mem e.pa).getLsbD i) ∧
        ∀ a, a ∉ p.bytes.map (·.pa) → memByte t.mem a = memByte s.mem a) ∧
      (p.dest = .host → t.path = (s.path.map fun q => if q = p then { q with sent := true } else q) ∧ t.mem = s.mem ∧
        t.outbox = s.outbox ++ [.hostWrite (p.bytes.map fun b => (b.pa, b.val))]) ∧
      ∀ k, p.dest = .package k → p ∉ t.path ∧ t.mem = s.mem ∧
        ∃ r, t.outbox = s.outbox ++ [.request k r] ∧ r.op = .write (p.bytes.map fun b => (b.pa, b.val, b.mask)) ∧ r.job = p.job) ∧
  (∀ s core i p, (s.path.filter (·.core == core))[i]? = some p → p.dest = .host → p.sent = true →
    exec (.storeDrain core i) s = .next { s with path := s.path.filter (· != p) }) ∧
  (∀ s b, s.boundaries.find? (·.id == b.id) = some b → s.clear b.after = true →
    (∀ p ∈ s.path, p.core = b.core → p.seq < b.limit → (p.dest = .host ∧ p.sent = true) ∨ (p.dest = .core ∧ (b.next = .save → p.wg ≠ b.wg))) →
    (b.next = .refresh → s.loadsUntaken b.wg b.tids b.id = false) →
    ∃ t, exec (.publishBoundaryComplete b.id) s = .next t ∧ (∀ q ∈ t.boundaries, q.id ≠ b.id) ∧ t.mem = s.mem ∧
      (b.next = .refresh → t.l1 = s.l1.filter fun e => l1Core e.1 != b.core || e.2.coreScope) ∧
      (b.next = .nothing ∨ b.next = .exit ∨ b.next = .save → t.l1 = s.l1 ∧ t.wgs = s.wgs) ∧
      (∀ n m y w r, b.next = .arrive n m y → s.wg? b.wg = some w → w.bars[n]? = some r → r.exp ≠ 0 → r.arr + m ≤ r.exp → r.arrb + y ≤ r.expb →
        (∀ a ∈ w.threads, a.place ≠ .barwait n r.gen) → ∃ w', t.wg? b.wg = some w' ∧ w'.bars[n]? = some (
          if r.arr + m = r.exp ∧ r.arrb + y = r.expb then { r with gen := !r.gen, arr := 0, arrb := 0 }
          else { r with arr := r.arr + m, arrb := r.arrb + y })) ∧
      ∀ line l w a tid, b.next = .cinch line → b.tids = [tid] → s.wg? b.wg = some w → s.cinch[line]? = some l → l.region = some w.region →
        (∀ m, l.mask = some m → w.core ∈ m) → s.thread? b.wg tid = some a → a.place = .cinch line false b.id → (b.wg, tid) ∉ l.arrived →
        t.cinch[line]? = some { l with arrived := l.arrived ++ [(b.wg, tid)]
                                       full := if l.arrived.length + 1 = l.expect then some s.cyc else l.full }) ∧
  (∀ s b p, s.boundaries.find? (·.id == b.id) = some b → p ∈ s.path → p.core = b.core → p.seq < b.limit → p.dest ≠ .core →
    (p.dest = .host → p.sent = false) → exec (.publishBoundaryComplete b.id) s = .next s) ∧
  ∀ s line l c, s.cinch[line]? = some l → l.full = some c →
    (s.cyc < c + 48 → exec (.cinchComplete line) s = .next s) ∧
    (c + 48 ≤ s.cyc → ∃ t, exec (.cinchComplete line) s = .next t ∧ t.cinch[line]? = some { l with arrived := [], full := none } ∧
      (∀ n, n ≠ line → t.cinch[n]? = s.cinch[n]?) ∧
      ((∀ b ∈ s.bins, b.all = false) → (∀ w ∈ s.wgs, w.diverged = []) →
        ∀ wg i w a tid, (wg, i) ∈ l.arrived → s.wg? wg = some w → w.thread? tid = some a →
        a.place = .cinch line true 0 → ∃ b, t.thread? wg tid = some b ∧ b.place ≠ .cinch line true 0))

end

namespace Sys2Proof.Spec
open Sys2Proof.Machine

/-! ### Accesses between packages, migration (R201, R202, R207, R352, R354) -/

/-- The answer to a request (R207): the bytes, or the subcause. -/
def answerTo (r : PodRequest) (bytes : List Byte) (fault : Option Nat) : Outgoing :=
  .response r.pkg ⟨Config.pkg.toNat, r.tag, bytes, fault, r.bulk⟩

/-- `t` is `s` with bytes stored at physical addresses and one packet sent. -/
def StoredAndSent (s t : State) (d : List (Nat × Byte)) (o : Outgoing) : Prop :=
  (∀ e ∈ d, memByte t.mem e.1 = e.2) ∧ (∀ a, a ∉ d.map (·.1) → memByte t.mem a = memByte s.mem a) ∧ t.outbox = s.outbox ++ [o] ∧
    { t with mem := s.mem, errors := s.errors, outbox := s.outbox } = s

/-- What a peer that cannot be reached may lose on its way to it (R354). -/
def lossy (pkg : Nat) : Outgoing → Bool
  | .message k _ | .contribution k _ | .timetable k _ | .bell k _ | .resume k _ _ _ => k == pkg
  | _ => false

/-- The port whose drop counter counts a message or contribution of a fabric processor that is lost: that of its die's flow to the peer, or,
where the host has configured none, the first of its die (R351, R354). -/
def lostAt (ports : List Nat) : RemoteUse → Option Nat
  | .fsend n | .fred n => some (ports.getD (n / 8) (16 * (n / 8)) % 64)
  | _ => none

/-! ### Regions and workgroups (R137 to R145, R336, R337) -/

/-- No workgroup is over. -/
def NoneDone (s : State) : Prop := ∀ w ∈ s.wgs, s.wgDone w = false

/-- A workgroup of a leaf as it starts (R13, R141, R403): its threads at the kernel entry with registers 0, its k registers the parameters,
K60 the word of the Timetable's entry for a leaf that the Timetable launched. -/
structure Started (s : State) (w : Workgroup) (r : Region) (core : Nat) : Prop where
  place   : w.region = r.id ∧ w.w = r.nextW ∧ w.core = core ∧ w.residence = .resident ∧ w.stopped = none
  threads : w.threads.map (·.tid) = List.range r.wgsz
  each    : ∀ a ∈ w.threads, a.x = [] ∧ a.p = [] ∧ a.flags = [] ∧ a.regions = 0 ∧ a.retired = 0 ∧ a.next = r.kentry ∧
    a.mode = BitVec.ofNat 32 (s.effective r).mode
  k       : ∀ n, sget 0 w.k n = if n = 60 ∧ r.k60.isSome then r.k60.getD 0 else r.params.getD n 0
  empty   : w.scr = [] ∧ w.acc = [] ∧ w.macros = List.replicate r.macros CimMacro.reset ∧ w.bars = List.replicate r.bars ⟨false, 0, 0, 0, 0⟩

/-! ### Control cores (R318 to R320, R338, R340) -/

/-- `t` is `s`, but that control core `n` is `c`. -/
def ControlSet (s t : State) (n : Nat) (c : Control) : Prop :=
  t.control? n = some c ∧ (∀ m, m ≠ n → t.control? m = s.control? m)

end Sys2Proof.Spec

section
open Sys2Proof Sys2Proof.Machine Sys2Proof.Spec

/-- Requests of other packages, their answers, unreachable peers (R207, R352, R354). -/
def Obligations.PodEvents : Prop :=
  (∀ s r, (∀ p, r.op ≠ .unsupported p) → (∀ k d, r.op ≠ .rollCall k d) → s.packetsHeld r.job = true →
    exec (.podRequestArrival r) s = .next { s with heldPkts := s.heldPkts ++ [(r.job, .podRequestArrival r)] }) ∧
  (∀ s r n, r.op = .read n → 0 < n → r.exr = none → s.packetsHeld r.job = false → r.pa < 0xC000000000 →
    (s.chunk (r.pa / 0x200000)).owner ≠ r.job → ∃ t, exec (.podRequestArrival r) s = .next t ∧ t = { s with outbox := s.outbox ++ [answerTo r [] (some 7)] }) ∧
  (∀ s r n, r.op = .read n → r.exr = none → s.packetsHeld r.job = false → s.podFault r = none → s.touch r.pa = s →
    (∀ e ∈ s.l1, e.2.dirty = false) → ∃ t, exec (.podRequestArrival r) s = .next t ∧
      t = { s with outbox := s.outbox ++ [answerTo r (sgetAll 0 s.mem r.pa n) none] }) ∧
  (∀ s r d, r.op = .write (d.map fun e => (e.1, e.2, 0xFF)) → r.exr = none → s.packetsHeld r.job = false → s.podFault r = none → (d.map (·.1)).Nodup →
    (∀ e ∈ d, s.touch e.1 = s) → ∃ t, exec (.podRequestArrival r) s = .next t ∧ StoredAndSent s t d (answerTo r [] none)) ∧
  (∀ s r p, r.op = .unsupported p → ∃ t, exec (.podRequestArrival r) s = .next t ∧
    (∀ q, sget 0 t.ports q = sget 0 s.ports q + if q = p % 64 then 1 else 0) ∧ { t with ports := s.ports } = s) ∧
  (∀ s a r o va n sg nol1, s.remotes.find? (fun r => r.tag == a.tag && r.pkg == a.pkg) = some r → s.packetsHeld r.job = false →
    r.use = .op o.id va → s.op? o.id = some o → o.kind = .load va n sg nol1 → a.fault = none →
    ∃ t, exec (.podResponseArrival a) s = .next t ∧ r ∉ t.remotes ∧
      ∃ o', t.op? o.id = some o' ∧ { o' with sent := o.sent } = { o with
        got := o.got ++ a.data.zipIdx.map fun e => ((va + e.2) % 2 ^ 64, e.1.setWidth 64) }) ∧
  ∀ s pkg ports, ∃ t, exec (.peerUnreachable ⟨pkg, ports⟩) s = .next t ∧
    (∀ q, sget 0 t.ports q = sget 0 s.ports q + ((s.remotes.filter (·.pkg == pkg)).filter fun r => lostAt ports r.use == some q).length) ∧
    t.todo = ((s.remotes.filter (·.pkg == pkg)).map fun r => Act.event (.podResponseArrival ⟨pkg, r.tag, [], some 0xFF, false⟩)) ++ s.todo ∧
    t.outbox.Sublist s.outbox ∧ (∀ o ∈ s.outbox, lossy pkg o = false → o ∈ t.outbox) ∧
    { t with todo := s.todo, outbox := s.outbox, ports := s.ports, tt := { t.tt with drop := s.tt.drop } } = s

/-- Migration of chunks (R201, R202). -/
def Obligations.MigrationEvents : Prop :=
  (∀ s l, s.cyc < (s.epoch + 1) * 2 ^ 24 → exec (.migrationEpochEnd l) s = .next s) ∧
  (∀ s l, (s.epoch + 1) * 2 ^ 24 ≤ s.cyc → s.migctl.getLsbD 0 = false →
    exec (.migrationEpochEnd l) s = .next { s with epoch := s.epoch + 1 }) ∧
  (∀ s c die n p, (s.epoch + 1) * 2 ^ 24 ≤ s.cyc → s.migctl.getLsbD 0 = true → c < 393216 → die < 4 → 4096 ≤ n →
    (s.chunk c).stack / 3 ≠ die → (s.chunk c).loose = true → s.partnerOn die = some p →
    ∃ t, exec (.migrationEpochEnd [⟨c, die, n⟩]) s = .next t ∧ t.epoch = s.epoch + 1 ∧ t.migrations = s.migrations ++ [⟨c, p⟩] ∧
      (∀ x, (t.chunk x).mig = ((s.chunk x).mig || x == c || x == p)) ∧ { t with epoch := s.epoch, migrations := s.migrations, chunks := s.chunks } = s) ∧
  ∀ s m, s.migrations.find? (·.chunk == m.chunk) = some m → m.chunk ≠ m.partner → ∃ t, exec (.migrationSwitch m.chunk) s = .next t ∧
    t.chunk m.chunk = { s.chunk m.chunk with stack := (s.chunk m.partner).stack, frame := (s.chunk m.partner).frame, mig := false } ∧
    t.chunk m.partner = { s.chunk m.partner with stack := (s.chunk m.chunk).stack, frame := (s.chunk m.chunk).frame, mig := false } ∧
    (∀ c, c ≠ m.chunk → c ≠ m.partner → t.chunk c = s.chunk c) ∧ t.migrations = s.migrations.filter (· != m) ∧
    { t with chunks := s.chunks, migrations := s.migrations } = s

/-- Launches accepted and leaves completed, workgroups placed and saved (R137 to R145, R337). -/
def Obligations.PlacementEvents : Prop :=
  (∀ s n p, s.launches[n]? = some p → s.launchWaits p = true → exec (.launchAcceptance n) s = .next s) ∧
  (∀ s n p, s.launches[n]? = some p → s.launchWaits p = false → ∃ t, exec (.launchAcceptance n) s = .next t ∧
    let m : State := { s with launches := s.launches.eraseIdx n }
    (m.rcbReachable p.job p.va = false → ∀ q, p.source = .queue q → t = m.completePacket q 1 0 (BitVec.ofNat 64 (5 + 6 * 2 ^ 8))) ∧
    (m.rcbReachable p.job p.va = true → ∀ l x a u, (m.forget p.job p.va).ownWords p.job p.va 32 = .ok (l, x) →
      (m.forget p.job p.va).judgeLeaf p.job p.va l = .ok (a, u) →
      ∃ r ∈ t.regions, r.job = p.job ∧ r.va = p.va ∧ r.words = a.words ∧ r.params = a.params ∧ r.parent = some a.parent ∧ r.state = 1 ∧
        r.held = p.held ∧ r.nextW = 0 ∧ r.ended = 0)) ∧
  (∀ s r, NoneDone s → s.region? r.id = some r → r.field 0 56 8 = 3 → 1 ≤ r.state → r.state ≤ 3 → r.held = false → r.nextW = r.total →
    r.ended = r.total → (∀ w ∈ s.wgs, w.region ≠ r.id) → ∃ t, exec (.leafComplete r.id) s = .next t ∧
      (t.region? r.id).map (·.state) = some 4 ∧
      t.cinch = s.cinch.map fun l => if l.region = some r.id then CinchLine.reset else l) ∧
  (∀ s r, NoneDone s → s.region? r.id = some r → r.ended < r.total → exec (.leafComplete r.id) s = .next s) ∧
  (∀ s r c, NoneDone s → s.requests = [] → s.queue.head? = some r → s.region? r.id = some r → s.nextWg r = some (none, r.nextW) →
    (∀ q ∈ s.queue, s.unplaced q = false) → s.coreFor r r.nextW (s.fits r) = some c → ∃ t, exec .workgroupDispatch s = .next t ∧
      (∃ w ∈ t.wgs, Started s w r c ∧ ∀ b < r.blocks, ∃ g ∈ t.groups, g.wg = w.id ∧ g.block = b ∧ g.pc = r.kentry ∧ g.run = none ∧
        g.lanes = (List.range 32).filter fun l => decide (32 * b + l < r.wgsz)) ∧
      (t.region? r.id).map (fun q => (q.nextW, q.state)) = some (r.nextW + 1, 2)) ∧
  (∀ s w b, s.wg? w.id = some w → w.residence = .saving b → s.pending b = false → s.unitFrozen (s.jobOf w) = false →
    s.savedBytes + Config.contextBytes w.id ≤ s.ctxsize → ∃ t, exec (.contextSave w.id) s = .next t ∧
      t.wg? w.id = some { w with residence := .saved } ∧ ∀ e ∈ t.l1, l1Core e.1 = w.core → e.2.wg = w.id → e.2.dirty = false) ∧
  ∀ s w, s.wg? w.id = some w → w.residence = .leaving → s.stoppedForSave w = true → ∃ t, exec (.contextSave w.id) s = .next t ∧
    (∃ b w', t.wg? w.id = some w' ∧ w'.residence = .saving b) ∧ (∀ o ∈ t.ops, o.wg = w.id → isCwait o.kind = true) ∧
    ∀ b ∈ t.bins, b.wg ≠ w.id

/-- Events entered and handled, the watchdog, errors found by scrubbing, register writes (R199, R318, R320, R326, R332, R338, R340). -/
def Obligations.ControlEvents : Prop :=
  (∀ s n e c, s.events[n]? = some e → e.unit = none → s.control? e.control = some c → c.queue.length < 64 →
    ∃ t q, exec (.eventEnter n) s = .next t ∧ ControlSet s t e.control { c with queue := q } ∧ t.events = s.events.eraseIdx n ∧
      q.Perm ({ e.event with clk := s.cyc } :: c.queue) ∧ c.queue.Sublist q ∧
      ((∀ a ∈ c.queue, a.clk ≠ s.cyc) → q = c.queue ++ [{ e.event with clk := s.cyc }]) ∧ { t with events := s.events, controls := s.controls } = s) ∧
  (∀ s n e c, s.events[n]? = some e → e.unit = none → s.control? e.control = some c → 64 ≤ c.queue.length →
    exec (.eventEnter n) s = .next s) ∧
  (∀ s n c e r, s.control? n = some c → c.trapped = false → c.current = none → c.queue = e :: r → ∃ t, exec (.eventHandlerStart n) s = .next t ∧
    ControlSet s t n { c with current := some e, queue := r, pc := c.ccvec.toNat, watch := s.cyc, retried := false } ∧
    { t with controls := s.controls } = s) ∧
  (∀ s n c e, s.control? n = some c → c.current = some e → c.trapped = true ∨ c.watch + c.ccwdog.toNat ≤ s.cyc → c.retried = false →
    ∃ t, exec (.watchdogExpiry n) s = .next t ∧
      ControlSet s t n { Control.reset with ccvec := c.ccvec, queue := c.queue, current := some e, pc := c.ccvec.toNat, watch := s.cyc
                                            retried := true, last := s.cyc } ∧
      (∀ o ∈ t.ops, o.issuer ≠ .control n) ∧ { t with controls := s.controls, ops := s.ops } = s) ∧
  (∀ s n c e, s.control? n = some c → c.current = some e → c.trapped = true ∨ c.watch + c.ccwdog.toNat ≤ s.cyc → c.retried = true →
    c.queue = [] → ∃ t, exec (.watchdogExpiry n) s = .next t ∧ t.control? n = some { Control.reset with ccvec := c.ccvec, last := s.cyc } ∧
      let h := (e.words.getD 0 0).toNat / 2 ^ 24 % 2 ^ 24
      (0xFFE000 ≤ h → (s.proc? (h % 32)).isSome → t.proc? (h % 32) = some FabricProc.reset)) ∧
  (∀ s pa, inHbm pa = true → s.job? (s.chunk (pa / 0x200000)).owner = none → (∀ e ∈ s.errors, e.1 ≠ pa) →
    exec (.scrubError pa) s = .next { s with errors := s.errors ++ [(pa, 0)] }) ∧
  (∀ s pa j r, inHbm pa = true → s.job? (s.chunk (pa / 0x200000)).owner = some j → s.region? j.region = some r → r.parent = none →
    ∃ t, exec (.scrubError pa) s = .next t ∧ (t.region? j.region).map (·.state) = some 6 ∧
      ∃ code, t.outbox.getLast? = some (.report 0xFF (BitVec.ofNat 64 r.va) code)) ∧
  (∀ s core v, core < 256 → v.getLsbD 0 = true → ∃ t, exec (.lcclrWrite core v) s = .next t ∧
    (∀ p < 4, ∀ k, sget 0 (t.part core p).lcc k = 0) ∧ (∀ c p, c ≠ core → p < 4 → t.part c p = s.part c p) ∧ { t with parts := s.parts } = s) ∧
  (∀ s v, v.toNat ≤ 2 → (∀ c ∈ s.chunks, c.2.exr = false) → exec (.xcwaysWrite v) s = .next { s with xcways := v }) ∧
  (∀ s v c, c ∈ s.chunks → c.2.exr = true → exec (.xcwaysWrite v) s = .next s) ∧
  ∀ s v, exec (.pfrzWrite v) s = .next (if v.getLsbD 0 then { s with pfrz := s.pfrz.or (some s.cyc) } else s)

end

namespace Sys2Proof.Spec
open Sys2Proof.Machine

/-! ### The matrix engine (R294 to R309) -/

/-- A stream's engine may perform the next step of its oldest instruction (R307): `q` stands first, no open receive list has a tile of it
(R298), no bulk copy has written half of a row that it reads (R286), and it consumes no uncorrectable error (R339). -/
structure StepDue (s : State) (w : Workgroup) (x : Stream) (r : Region) (q : MatrixOp) (rest : List MatrixOp) : Prop where
  wg     : s.wg? w.id = some w
  stream : w.stream = some x
  leaf   : s.leafOf w = some r
  queue  : x.queue = q :: rest
  runs   : s.engineRuns w x = true
  open_  : ∀ l ∈ x.lists, l.tile ∉ q.instr.tiles
  whole  : s.torn w.id q.reads = false
  sound  : q.upsetCheck w = none

/-- The queue after the step: the instruction goes on, or is over. -/
def stepped (q : MatrixOp) (rest : List MatrixOp) : List MatrixOp :=
  if q.total ≤ q.step + 1 then rest else { q with step := q.step + 1, got := [] } :: rest

/-- `t` is `s`, but for the workgroups, and for a single step that was granted and is now reported (R394). -/
def OnlyWgs (s t : State) : Prop := { t with wgs := s.wgs, grants := s.grants, events := s.events } = s

/-- A contribution stands in a sender's outbound slot and its receiver is resident (R297, R299). -/
structure Offering (s : State) (w : Workgroup) (x : Stream) (c : Contribution) (d : Workgroup) (y : Stream) : Prop where
  sender   : s.wg? w.id = some w ∧ w.residence = .resident ∧ w.stopped = none ∧ w.stream = some x ∧ x.outbound = some c
  unfrozen : s.unitFrozen (s.jobOf w) = false
  receiver : s.wgs.find? (fun g => g.region == c.region && g.w == c.dst) = some d ∧ s.wg? d.id = some d ∧ d.residence = .resident ∧
    d.stream = some y
  apart    : d.id ≠ w.id

/-- The steps that offer an outbound slot. -/
def offers (n : Nat) (i : Instr) : Prop := i = .peerContributionArrival n ∨ (i = .peerContributionReoffer n ∧ n < 2 ^ 32)

/-! ### The copy engines (R250, R255 to R268) -/

/-- A copy whose slices are all there, at its engine, before its TLR is read (R263). -/
def StartDue (s : State) (c : Copy) (b : Bulk) (w : Workgroup) : Prop :=
  s.copy? c.id = some c ∧ c.bulk? = some b ∧ b.stage = .ready ∧ b.words = [] ∧ s.wg? c.wg = some w ∧ s.copyRuns c = true ∧
    c ∈ s.engineCopies (w.core / 8)

/-- The value of a half byte: the constant, or half of a byte of memory. -/
def halfValue (f : Nat → Byte) : HalfSource → Nat
  | .fill v => v
  | .mem va high => if high then (f va).toNat / 16 else (f va).toNat % 16

/-- The destination bytes of a line with the sources of their halves. -/
def lineHalves (t : Layout) (h : Nat) (b : Bulk) (n : Nat) : List (Nat × HalfSource × HalfSource) :=
  (t.line h b.off n).map fun p => (p.1, t.half h b.org (2 * p.2), t.half h b.org (2 * p.2 + 1))

/-- The addresses that a line reads. -/
def lineReads (l : List (Nat × HalfSource × HalfSource)) : List Nat :=
  distinct (l.flatMap fun d => [d.2.1, d.2.2].filterMap fun x => match x with
    | .mem va _ => some va
    | .fill _ => none)

/-- The copy that its engine serves next (R255). -/
def LineDue (s : State) (e : Nat) (c : Copy) (w : Workgroup) : Prop :=
  (s.engineCopies e).find? s.lineDue = some c ∧ s.copy? c.id = some c ∧ s.wg? c.wg = some w

/-- The destination line that a copy of a thread performs next, among those left (R250): its number, its first address and the address past
its last. -/
def OutLine (s : State) (c : Copy) (n va hi : Nat) : Prop :=
  c.outLines[Config.freeNat s.fresh (32 * c.id + 11) % max 1 c.outLines.length]? = some (n, va, hi)

/-! ### Fabric processors (R359 to R367, R380, R381) -/

/-- The oldest transfer of a processor may be performed (R359). -/
def TransferDue (s : State) (n : Nat) (p : FabricProc) (q : Transfer) (rest : List Transfer) : Prop :=
  s.proc? n = some p ∧ p.job.isSome ∧ p.stop = none ∧ p.signals = [] ∧ p.queue = q :: rest ∧ q.sent = false ∧ p.ending = false ∧
    s.unitHeld (p.job.getD 0) (.fabric n) = false

/-- A processor holds at an `fwait` that nothing stops or freezes, and no checkpoint stands before it (R367, R377). -/
def Waits (s : State) (n : Nat) (p : FabricProc) (w : FWait) : Prop :=
  s.proc? n = some p ∧ p.stop = none ∧ s.unitFrozen (p.job.getD 0) = false ∧ p.wait = some w ∧ w.sent = false ∧
    ∀ q ∈ p.queue, q.instr ≠ .ckpt

/-- `s` once the package that sent a message or contribution has been told that it was accepted; this package needs no telling (R363, R381). -/
def acked (s : State) (src tag : Nat) : State :=
  if src = Config.pkg.toNat then s else { s with outbox := s.outbox ++ [.response src ⟨Config.pkg.toNat, tag, [], none, false⟩] }

/-- `t` is `s`, but that processor `n` is `p`. -/
def ProcSet (s t : State) (n : Nat) (p : FabricProc) : Prop := t = { s with procs := s.procs.set n p }

/-- The k registers with a destination written. -/
def written (k : Sparse W64) (d : Dst) (v : W64) : Sparse W64 := match d with
  | .k n => sset 0 k n v
  | _ => k

/-- The status of a slot that times out (R380): contributions applied, the lowest index missing, bit 63. -/
def timedOut (a : OpenSlot) : Nat :=
  a.applied.length + ((List.range a.n).find? fun i => decide (i ∉ a.applied)).getD 0xFFFF * 2 ^ 32 + 2 ^ 63

/-! ### The Bell (R384, R388, R391 to R397) and the Timetable (R400 to R408) -/

/-- `seq` comes after `last` modulo 2^32 (R384). -/
def after32 (seq last : Nat) : Prop := 1 ≤ (seq + 2 ^ 32 - last) % 2 ^ 32 ∧ (seq + 2 ^ 32 - last) % 2 ^ 32 < 2 ^ 31

/-- A stage may be performed here: without a BCB while the command processor resumes the Bell, elsewhere than at the root on its command. -/
def StageMay (s : State) (j : Job) : Prop :=
  (j.bcb = none ∧ (s.resumeQueue j.id).isSome = true) ∨ (j.bcb.isSome = true ∧ j.atRoot = false)

/-- A counter raised by a message, saturating (R401). -/
def raised (x n : Nat) : Nat := min (2 ^ 32 - 1) (x + n)

end Sys2Proof.Spec

section
open Sys2Proof Sys2Proof.Machine Sys2Proof.Spec

/-- Steps of matrix instructions, contributions between workgroups (R294, R297 to R300, R303, R307, R309). -/
def Obligations.MatrixEvents : Prop :=
  (∀ s w x r q rest tile n, StepDue s w x r q rest → q.instr = .mzero tile n → (q.step = 0 → s.matrixCheck w r q = none) →
    ∃ t a u, exec (.matrixStep w.id) s = .next t ∧
      t.wg? w.id = some { w with acc := a, stream := some { x with queue := stepped q rest }, upsets := u } ∧ (∀ e ∈ u, e ∈ w.upsets) ∧
      (∀ k, sget 0 a k = if k / 64 = 64 * (tile + q.step / 64) + q.step % 64 then 0 else sget 0 w.acc k) ∧
      (∀ id, id ≠ w.id → t.wg? id = s.wg? id) ∧ OnlyWgs s t) ∧
  (∀ s w x r q rest target tile, StepDue s w x r q rest → q.instr = .drainPeer target tile → x.outbound = none →
    (q.step = 0 → s.matrixCheck w r q = none) → ∃ t c, exec (.matrixStep w.id) s = .next t ∧
      t.wg? w.id = some { w with stream := some { x with queue := stepped q rest, outbound := some c } } ∧ c.region = r.id ∧ c.src = w.w ∧
      c.dst = (q.regs.getD 0 0).toNat % 2 ^ 32 ∧ c.tile = (q.regs.getD 0 0).toNat / 2 ^ 32 % 2 ^ 5 ∧
      (∀ i < 4096, sget 0 c.vals i = sget 0 w.acc (4096 * tile + i)) ∧ (∀ id, id ≠ w.id → t.wg? id = s.wg? id) ∧ OnlyWgs s t) ∧
  (∀ s w x r q rest target tile c, StepDue s w x r q rest → q.instr = .drainPeer target tile → x.outbound = some c →
    (q.step = 0 → s.matrixCheck w r q = none) → exec (.matrixStep w.id) s = .next s) ∧
  (∀ s w x r q rest list tile bar n, StepDue s w x r q rest → q.instr = .expect list tile bar n → x.buffered = [] →
    (q.step = 0 → s.matrixCheck w r q = none) → ∃ t, exec (.matrixStep w.id) s = .next t ∧
      t.wg? w.id = some { w with stream := some { x with
        queue := stepped q rest, lists := x.lists ++ [⟨tile, q.sources n, 0, bar, q.rnd, q.flush⟩] } } ∧ OnlyWgs s t) ∧
  (∀ s w x r q rest tile, StepDue s w x r q rest → q.instr = .unpin tile → (q.step = 0 → s.matrixCheck w r q = none) →
    ∃ t, exec (.matrixStep w.id) s = .next t ∧ t.pins = s.pins.filter (fun p => p.holder != some (w.id, tile)) ∧
      t.wg? w.id = some { w with stream := some { x with queue := stepped q rest } } ∧ OnlyWgs { s with pins := t.pins } t) ∧
  (∀ s w x r q rest c e a, StepDue s w x r q rest → (q.step = 0 ∧ s.matrixCheck w r q = some (c, e, a)) ∨
    ((q.step = 0 → s.matrixCheck w r q = none) ∧ q.rowCheck r.scratch = some (c, e, a)) →
    ∃ t st, exec (.matrixStep w.id) s = .next t ∧ t.wg? w.id = some { w with stream := some { x with stop := some st } } ∧
      st.cause = c ∧ st.sub = e ∧ st.addr = a ∧ st.pc = q.pc ∧ t.events.length = s.events.length + 1 ∧ t.mem = s.mem) ∧
  (∀ s w x c d y i, Offering s w x c d y → offers w.id i → y.listFor c = none →
    (s.slotsBuffered d.core < 8 → ∃ t, exec i s = .next t ∧ t.stream? d.id = some { y with buffered := y.buffered ++ [c] } ∧
      t.stream? w.id = some { x with outbound := none } ∧ { t with wgs := s.wgs } = s) ∧
    (8 ≤ s.slotsBuffered d.core → exec i s = .next s)) ∧
  (∀ s w x c d y i l, Offering s w x c d y → offers w.id i → y.listFor c = some l → y.buffered = [] → l.pos + 1 < l.sources.length →
    ∃ t d', exec i s = .next t ∧ t.stream? w.id = some { x with outbound := none } ∧ t.wg? d.id = some d' ∧
      d'.stream = some { y with lists := y.lists.map fun k => if k.tile = l.tile then { k with pos := k.pos + 1 } else k } ∧
      (let m := matrixFp l.rnd l.flush 0 0 0
       ∀ k, sget 0 d'.acc k = if k / 4096 = c.tile then m.accAdd (sget 0 d.acc k) (m.accVal (sget 0 c.vals (k % 4096))) else sget 0 d.acc k) ∧
      { t with wgs := s.wgs } = s) ∧
  ∀ s n c d y, s.holding[n]? = some c → s.unitFrozen (((s.region? c.region).map (·.job)).getD 0) = false →
    s.wgs.find? (fun g => g.region == c.region && g.w == c.dst) = some d → s.wg? d.id = some d → d.residence = .resident → d.stream = some y →
    y.listFor c = none → s.slotsBuffered d.core < 8 → ∃ t, exec (.peerContributionReoffer (n + 2 ^ 32)) s = .next t ∧
      t.holding = s.holding.eraseIdx n ∧ t.stream? d.id = some { y with buffered := y.buffered ++ [c] }

/-- Bulk copies start, and the engines copy lines (R250, R255 to R268). -/
def Obligations.CopyEvents : Prop :=
  (∀ s c b w l m, StartDue s c b w → s.copyBytes c none ((List.range 128).map (b.tlr + ·)) = .bytes l m →
    (layoutOf (wordsOf 16 l)).plain b.org = false → ∃ t st, exec (.bulkCopyStart c.id) s = .next t ∧ t.copy? c.id = none ∧
      t.wg? c.wg = some { w with stopped := some st } ∧ st.cause = 0x0A ∧ st.sub = 0 ∧ st.addr = b.tlr) ∧
  (∀ s c b w l m words u, StartDue s c b w → s.copyBytes c none ((List.range 128).map (b.tlr + ·)) = .bytes l m →
    (layoutOf (wordsOf 16 l)).plain b.org = true → m.copyFormat c (wordsOf 16 l) = .ok (words, u) →
    let t := layoutOf words
    t.sized t.halves b.org = true → t.inRange t.halves b.off (u.share c.wg) = true → t.held = false → t.lines t.halves b.off ≠ 0 →
    ∃ t', exec (.bulkCopyStart c.id) s = .next t' ∧ (t'.copy? c.id).bind (·.bulk?) = some { b with words := words, stage := .active }) ∧
  (∀ s e c w b f v, LineDue s e c w → c.bulk? = some b →
    let t := layoutOf b.words
    let l := lineHalves t t.halves b c.line
    (s.rotate c.id (s.engineCopies e)).copyBytes c (some w.core) (lineReads l) = .bytes ((lineReads l).map f) v →
    ∃ t' w', exec (.copyLine e) s = .next t' ∧ t'.wg? c.wg = some w' ∧
      (∀ d ∈ l, sget 0 w'.scr d.1 = BitVec.ofNat 8 (halfValue f d.2.1 + 16 * halfValue f d.2.2)) ∧
      (∀ a, a ∉ l.map (·.1) → sget 0 w'.scr a = sget 0 w.scr a) ∧
      (c.line + 1 < t.lines t.halves b.off → (t'.copy? c.id).map (·.line) = some (c.line + 1))) ∧
  ∀ s e c w n va hi p u, LineDue s e c w → c.bulk? = none → c.outFault = none → OutLine s c n va hi →
    let c' := c.readFor w.scr va hi
    let m := (s.rotate c.id (s.engineCopies e)).mapCopy c.id fun _ => c'
    m.translate (m.copyAccessor c') outRule false va = .ok (p, u) → p.home va = .home →
    ∃ t, exec (.copyLine e) s = .next t ∧ ∀ i, (h : i < (c'.outBytes va hi).length) → memByte t.mem (p.pa va + i) = (c'.outBytes va hi)[i] ∧
      ∀ tid d o k q src ls fl, c.kind = .out tid d o k q src ls fl → src = List.replicate k none → (c'.outBytes va hi)[i] = sget 0 w.scr (o + (va - d) + i)

/-- Transfers, waits, messages, contributions and root slots of fabric processors (R359 to R367, R380, R381, R408). That an
`fwait` behind a queued checkpoint is not tested is the model's reading (log entry 54). -/
def Obligations.FabricEvents : Prop :=
  (∀ s n p q rest, TransferDue s n p q rest → q.begun = false → q.instr = .put ∨ q.instr = .get → q.reg 0 % 4 = 0 → q.reg 1 % 4 = 0 →
    q.reg 2 % 4 = 0 → q.reg 2 ≤ 2 ^ 30 → ∃ t, exec (.transferStep n) s = .next t ∧
      (q.reg 2 ≠ 0 → ProcSet s t n { p with
        queue := { q with begun := true, cld := [], zeroRes := false, plan := [], sent := false, got := [] } :: rest }) ∧
      (q.reg 2 = 0 → ∃ p', t.proc? n = some p' ∧ p'.queue = rest ∧ p'.k = written p.k q.dst 0 ∧ t.mem = s.mem)) ∧
  (∀ s n p q rest, TransferDue s n p q rest → q.begun = false → q.instr = .put ∨ q.instr = .get → q.reg 0 % 4 ≠ 0 →
    ∃ t p' st, exec (.transferStep n) s = .next t ∧ t.proc? n = some p' ∧ p'.stop = some st ∧ st.cause = 2 ∧ st.addr = q.reg 0 ∧ st.pc = q.pc ∧
      p'.k = p.k ∧ t.mem = s.mem) ∧
  (∀ s n p g free prev mb count, s.proc? n = some p → p.job.isSome = true → p.stop = none → p.ending = false →
    s.unitHeld (p.job.getD 0) (.fabric n) = false → p.signals.find? (s.signalDue n) = some g → g.work = .post free prev mb count →
    ∃ m t, exec (.transferStep n) s = .next t ∧ Posted s m (p.job.getD 0) free prev mb count ∧
      ProcSet m t n { p with signals := p.signals.filter (·.tag != g.tag) }) ∧
  (∀ s n p w, Waits s n p w → w.tmo ≠ 0 → w.since + w.tmo ≤ s.cyc → ∃ t, exec (.fwaitTimeout n) s = .next t ∧
    ProcSet s t n { p with wait := none, k := written p.k w.dst 1 }) ∧
  (∀ s n p w g m, Waits s n p w → s.translate (procAccessor n (p.job.getD 0)) barrierRule false w.va = .ok (g, m) →
    m.errorIn g w.va 64 = none → g.home w.va = .home → g.pa w.va % 64 = 0 → m.touch (g.pa w.va) = m → (∀ e ∈ m.l1, e.2.dirty = false) →
    let word := fun i => memNat m.mem (g.pa w.va + 8 * i) 8
    word 4 = 0 → word 5 = 0 → word 6 = 0 → word 7 = 0 → ∃ t, exec (.fwaitRecheck n) s = .next t ∧
      (word 1 ≤ word 0 → t.proc? n = some { p with wait := none, k := written p.k w.dst 0 } ∧
        memNat t.mem (g.pa w.va) 8 = word 0 - word 1 ∧ memNat t.mem (g.pa w.va + 16) 8 = (word 2 + 1) % 2 ^ 64 ∧
        ∀ a, ¬(g.pa w.va ≤ a ∧ a < g.pa w.va + 8) → ¬(g.pa w.va + 16 ≤ a ∧ a < g.pa w.va + 24) → memByte t.mem a = memByte m.mem a) ∧
      (word 0 < word 1 → t.proc? n = some { p with wait := some { w with tmo := word 3, sent := false } } ∧ t.mem = m.mem)) ∧
  (∀ s n p, s.proc? n = some p → (∃ q ∈ p.queue, q.instr = .ckpt) → exec (.fwaitRecheck n) s = .next s) ∧
  (∀ s m, s.packetsHeld m.job = true → exec (.messageArrival m) s =
    .next { s with heldPkts := s.heldPkts ++ [(m.job, .messageArrival m)] }) ∧
  (∀ s m p, s.packetsHeld m.job = false → s.channelWaits m = false → s.proc? m.proc = some p → ∃ t, exec (.messageArrival m) s = .next t ∧
    (p.job ≠ some m.job → t = acked s m.src m.tag) ∧
    (p.job = some m.job → (sget [] p.channels m.channel).length < 8 →
      ProcSet (acked s m.src m.tag) t m.proc { p with channels := sset [] p.channels m.channel (sget [] p.channels m.channel ++ [m.words]) }) ∧
    (p.job = some m.job → 8 ≤ (sget [] p.channels m.channel).length → t = { s with waiting := s.waiting ++ [.message m] })) ∧
  (∀ s c p r, s.packetsHeld c.job = false → s.waiting = [] → s.proc? c.proc = some p → p.slots[c.slot]? = some r →
    ∃ t, exec (.fredArrival c) s = .next t ∧
    let m := acked s c.src c.tag
    (p.job ≠ some c.job → t = m) ∧
    (p.job = some c.job → r.active = none → r.closed = none → p.pool.length < 1024 → ProcSet m t c.proc { p with pool := p.pool ++ [c] }) ∧
    (p.job = some c.job → ∀ a, r.active = some a → a.epoch = c.epoch → c.index < a.n → c.index ∉ a.applied → a.applied.length + 1 < a.n →
      ProcSet m t c.proc { p with slots := p.slots.set c.slot { r with
        active := some { a with applied := a.applied ++ [c.index], value := slotCombine a.op a.value c.value } } }) ∧
    (p.job = some c.job → ∀ a, r.active = some a → a.epoch = c.epoch → c.index ∈ a.applied → a.applied.length < a.n → t.proc? c.proc = some p)) ∧
  ∀ s n slot p r a, s.proc? n = some p → p.slots[slot]? = some r → r.active = some a → a.limit ≠ 0 → a.since + a.limit ≤ s.cyc →
    s.unitFrozen (p.job.getD 0) = false → a.bitmap = none → s.waiting = [] → ∃ t, exec (.fslotTimeout n slot) s = .next t ∧
      ∃ p', ProcSet s t n p' ∧ p'.slots = p.slots.set slot { active := none, closed := some a.epoch } ∧
        p'.k = written (written p.k a.res a.value) a.stat (BitVec.ofNat 64 (timedOut a)) ∧
        { p' with slots := p.slots, k := p.k, pool := p.pool } = p

/-- A Bell received, its roll call, and the stages of its resume (R384, R388, R391 to R397). -/
def Obligations.BellEvents : Prop :=
  (∀ s b, s.job? b.job = none → exec (.bellReceive b) s = .next s) ∧
  (∀ s b j, s.job? b.job = some j → ¬after32 b.seq j.bseq → exec (.bellReceive b) s = .next s) ∧
  (∀ s b j, s.job? b.job = some j → after32 b.seq j.bseq → j.freeze = none → ∃ t j' f, exec (.bellReceive b) s = .next t ∧
    t.job? b.job = some j' ∧ j'.bseq = b.seq ∧ j'.freeze = some f ∧ f.seq = b.seq ∧ f.raise = none ∧ f.nraise = 0 ∧ f.cyc = s.cyc + 1 ∧
    f.stage = 0 ∧ t.outbox = s.outbox ++ j.fan.map (fun p => .bell p ⟨b.job, b.seq, b.origin, b.cause⟩) ∧
    t.todo = s.todo ++ (if j.atRoot then [Act.event (.rollCallEntryWrite b.job)] else []) ∧
    (∀ id, id ≠ b.job → t.job? id = s.job? id) ∧ { t with jobs := s.jobs, tt := s.tt, outbox := s.outbox, todo := s.todo } = s) ∧
  (∀ s job j f, s.job? job = some j → j.bcb.isSome = true → j.freeze = some f → j.atRoot = true → j.headed = false →
    ∃ t, exec (.rollCallEntryWrite job) s = .next t ∧ t.job? job = some { j with headed := true }) ∧
  (∀ s job j f, s.job? job = some j → j.bcb.isSome = true → j.freeze = some f → (j.atRoot = true → j.headed = true) → f.entry = [] →
    f.cyc ≤ s.cyc → ∃ t j' f', exec (.rollCallEntryWrite job) s = .next t ∧ t.job? job = some j' ∧ j'.freeze = some f' ∧ f'.entry.length = 4 ∧
      f'.entry[0]? = some (BitVec.ofNat 64 f.cyc) ∧
      (let n := s.frozenCounts job
       f'.entry[2]? = some (BitVec.ofNat 64 (n.1 * 2 ^ 48 + n.2.1 * 2 ^ 32 + n.2.2.1 * 2 ^ 16 + n.2.2.2))) ∧ { f' with entry := [] } = f) ∧
  (∀ s job j f, s.job? job = some j → j.atRoot = true → j.freeze = some f → j.hstate = 1 → f.seq = j.hseq →
    let limit := ((j.bcb.getD []).getD 2 0).toNat % 2 ^ 32
    limit ≠ 0 → f.cyc + limit * s.host.clock ≤ s.cyc →
    ∃ t, exec (.rollCallTimeout job) s = .next t ∧ t.job? job = some { j with hstate := 3, headed := true } ∧ t.wgs = s.wgs ∧ t.groups = s.groups) ∧
  (∀ s job j f, s.job? job = some j → j.freeze = some f → StageMay s j → f.shown = 0 → f.cyc ≤ s.cyc → f.stage = 0 →
    ∃ t, exec (.resumeStage1 ⟨job, j.bseq⟩) s = .next t ∧ t.job? job = some { j with freeze := some { f with stage := 1 } } ∧
      (s.pfrz = none → (∀ e ∈ t.heldPkts, e.1 ≠ job) ∧ ∀ e ∈ s.heldPkts, e.1 = job → Act.event e.2 ∈ t.todo)) ∧
  (∀ s job j f, s.job? job = some j → j.freeze = some f → StageMay s j → f.shown = 0 → f.cyc ≤ s.cyc → f.stage = 1 → s.heldPkts = [] →
    ∃ t j', exec (.resumeStage1 ⟨job, j.bseq⟩) s = .next t ∧ t.job? job = some j' ∧ j'.freeze = some { f with shown := 1 } ∧
      ∀ p ∈ j.fan, .resume p job f.seq 1 ∈ t.outbox) ∧
  (∀ s job j f, s.job? job = some j → j.freeze = some f → StageMay s j → f.shown = 1 → f.stage = 1 →
    ∃ t j', exec (.resumeStage2 ⟨job, j.bseq⟩) s = .next t ∧ t.job? job = some j' ∧ j'.freeze = some { f with stage := 2, shown := 2 } ∧
      (s.tt.state = 2 → s.tt.job = job → t.tt.state = 1) ∧ (∀ g ∈ t.grants, ∀ e, g ≠ .engine e job) ∧
      ∀ p ∈ j.fan, .resume p job f.seq 2 ∈ t.outbox) ∧
  (∀ s job j seq, s.job? job = some j → seq ≠ j.bseq → exec (.resumeStage1 ⟨job, seq⟩) s = .next s ∧ exec (.resumeStage2 ⟨job, seq⟩) s = .next s ∧
    exec (.resumeStage3 ⟨job, seq⟩) s = .next s) ∧
  ∀ s job j f, s.job? job = some j → j.freeze = some f → StageMay s j → f.shown = 2 → f.stage = 2 →
    ∃ t j', exec (.resumeStage3 ⟨job, j.bseq⟩) s = .next t ∧ t.job? job = some j' ∧ j'.freeze = none ∧ ∀ p ∈ j.fan, .resume p job f.seq 3 ∈ t.outbox

/-- The Timetable's head, messages and end (R400 to R404, R406 to R408). -/
def Obligations.TimetableEvents : Prop :=
  (∀ s w, s.tt.state = 1 → s.pfrz = none → s.tt.pass < s.tt.reps → s.tt.since ≤ s.cyc → s.tt.entry = some w →
    s.tt.changed < s.cyc → ∃ t, exec .ttHeadIssue s = .next t ∧
    let e := ttEntry w
    let next := if s.tt.head + 1 = s.tt.tlen then (0, s.tt.pass + 1) else (s.tt.head + 1, s.tt.pass)
    (e.sound = false → t.tt.state = 4 ∧ t.tt.code = 1 ∧ t.launches = s.launches) ∧
    (e.sound = true → e.stage ≠ s.tt.stg → t.tt.state = 4 ∧ t.tt.code = 2 ∧ t.launches = s.launches) ∧
    (e.sound = true → e.stage = s.tt.stg → e.kind = 0 → (t.tt.head, t.tt.pass) = next ∧ t.tt.entry = none ∧ t.tt.state = 1 ∧
      t.launches = s.launches) ∧
    (e.sound = true → e.stage = s.tt.stg → e.kind ≠ 0 → s.ttWaits e = (false, false, false) → s.tt.stashError e false = false →
      (t.tt.head, t.tt.pass) = next ∧ t.tt.entry = none ∧ t.tt.state = 1 ∧
      (let run := sget (0, 0) t.tt.runs e.mb
       let k60 := s.tt.pass * 2 ^ 48 + run.2 * 2 ^ 40 + (if run.2 = 0 then 0 else run.1) * 2 ^ 32 + s.tt.head * 2 ^ 12 + e.mb
       t.launches = s.launches ++
        [{ source := .timetable s.tt.epoch (BitVec.ofNat 64 k60), job := s.tt.job, va := e.leaf, held := false, core := 0 }]) ∧
      (e.kind = 1 → sget 0 t.tt.frdy e.mb = sget 0 s.tt.frdy e.mb - e.upn ∧ t.tt.crf = s.tt.crf - e.dnn ∧ t.tt.crb = s.tt.crb) ∧
      (e.kind = 2 → sget 0 t.tt.brdy e.mb = sget 0 s.tt.brdy e.mb - e.upn ∧ t.tt.crb = s.tt.crb - e.dnn ∧ t.tt.crf = s.tt.crf))) ∧
  (∀ s, s.tt.entry.isSome = true → s.tt.changed = s.cyc → exec .ttHeadIssue s = .next s) ∧
  (∀ s m, s.packetsHeld m.job = false → ∃ t, exec (.ttMessageArrival m) s = .next t ∧
    ((s.tt.state = 1 ∨ s.tt.state = 2) → s.tt.job = m.job →
      t.tt.crf = (if m.free ∧ m.prev then raised s.tt.crf m.count else s.tt.crf) ∧
      t.tt.crb = (if m.free ∧ ¬m.prev then raised s.tt.crb m.count else s.tt.crb) ∧
      (∀ b, sget 0 t.tt.brdy b = if ¬m.free ∧ m.prev ∧ b = m.mb then raised (sget 0 s.tt.brdy b) m.count else sget 0 s.tt.brdy b) ∧
      (∀ b, sget 0 t.tt.frdy b = if ¬m.free ∧ ¬m.prev ∧ b = m.mb then raised (sget 0 s.tt.frdy b) m.count else sget 0 s.tt.frdy b) ∧
      t.tt.drop = s.tt.drop) ∧
    (s.tt.state = 0 → s.tt.held.length < 1024 → t = { s with tt := { s.tt with held := s.tt.held ++ [m] } }) ∧
    (s.tt.state = 3 ∨ s.tt.state = 4 → t = { s with tt := { s.tt with drop := s.tt.drop + 1 } })) ∧
  (∀ s, s.tt.state = 1 → s.pfrz = none → s.tt.reps ≤ s.tt.pass → s.tt.tasks = [] → (∀ r ∈ s.remotes, r.use ≠ .cmb none) →
    s.tt.tcb.getD 3 0 = 0 → exec .ttDone s = .next { s with tt := { s.tt with state := 3 } }) ∧
  ∀ s, s.tt.tasks ≠ [] → exec .ttDone s = .next s

end

namespace Sys2Proof.Spec
open Sys2Proof.Machine

/-! ### The submission queues (R427 to R431) -/

/-- A packet with an operation is in hand of a queue (R428). -/
def InHand (s : State) (n : Nat) (q : Queue) (p : QPacket) (op job : Nat) : Prop :=
  s.queues[n]? = some q ∧ q.packet = some p ∧ (p.words[0]?).isSome ∧ (p.words.getD 0 0).toNat / 2 ^ 16 % 2 ^ 8 = op ∧
    (p.words.getD 0 0).toNat / 2 ^ 32 % 2 ^ 32 = job

/-- An operand of a packet. -/
def opnd (p : QPacket) (i : Nat) : Nat := (p.words.getD i 0).toNat

/-- A queue past the packet that was in its hand. -/
def Queue.past (q : Queue) : Queue :=
  { q with packet := none, done := q.done + 1, qhead := BitVec.ofNat 64 ((q.qhead.toNat + 1) % max 1 q.qsize.toNat) }

/-- Bytes written to host memory from an address on. -/
def bytesAt (a : Nat) (l : List Byte) : Outgoing := .hostWrite (l.zipIdx.map fun e => (a + e.2, e.1))

/-- What other packages hold of `n` bytes, as far as this package is told when it reads for itself: free values (log entry 110). -/
def farBytes (s : State) (va n : Nat) : List (Nat × W64) := (List.range n).map fun i => (va + i, (Config.farByte s.fresh (va + i)).setWidth 64)

/-- `t` is `m` after the packet in hand of queue `n` completed with a status (R431): its entry, its interrupt, and the queue moves on. -/
def Done (m t : State) (n : Nat) (q : Queue) (p : QPacket) (status : Nat) : Prop :=
  let w := (p.words.getD 0 0).toNat
  t = { m with
    queues := m.queues.set n (Queue.past q)
    outbox := m.outbox ++ [bytesAt (0x40000000000000 + q.qcbase.toNat + 16 * q.qhead.toNat)
      (leBytes 8 (w % 2 ^ 24 + status * 2 ^ 24) ++ leBytes 8 0)] ++ if w / 2 ^ 24 % 2 = 1 then [.msix q.qmsi.toNat] else [] }

/-- `t` is `s` with the packet in hand of queue `n` begun. -/
def Begun (s t : State) (n : Nat) (q : Queue) (p : QPacket) : Prop :=
  t = { s with queues := s.queues.set n { q with packet := some { p with started := true } } }

/-- The eight words that a read of the packet at QHEAD returns: host memory holds them. -/
def readAt (s : State) (q : Queue) : List W64 := wordsOf 8 (hostRead s.fresh (0x40000000000000 + q.place) 64)

/-- A queue reads the packet at QHEAD now (R429). -/
def Reads (s : State) (n : Nat) (q : Queue) (first : Bool) : Prop :=
  s.queues[n]? = some q ∧ q.due = true ∧ q.place + 63 < 2 ^ 54 ∧
    if first then q.reads = 0 else 1 ≤ q.reads ∧ q.lastRead + s.host.clock / 4 ≤ s.cyc

/-- The steps that read a packet. -/
def readStep (n : Nat) : Bool → Instr
  | true => .packetFetch n
  | false => .packetSeqRetry n

/-- A job with a given node stands live, and is not frozen. -/
def NodeHere (s : State) (job va : Nat) (r : Region) : Prop :=
  (s.job? job).isSome ∧ s.regionAt job va = some r ∧ s.region? r.id = some r

/-! ### Resets and boot (R424 to R440) -/

/-- Nothing runs or waits in the package (R433). -/
def Quiet (t : State) : Prop :=
  t.todo = [] ∧ t.turn = none ∧ t.wgs = [] ∧ t.groups = [] ∧ t.bins = [] ∧ t.regions = [] ∧ t.jobs = [] ∧ t.ops = [] ∧ t.path = [] ∧
    t.boundaries = [] ∧ t.copies = [] ∧ t.launches = [] ∧ t.remotes = [] ∧ t.l1 = [] ∧ t.tlb = [] ∧ t.events = [] ∧ t.pfrz = none ∧
    t.controls = List.replicate 64 Control.reset ∧ t.procs = List.replicate 32 FabricProc.reset ∧ t.queues = List.replicate 64 Queue.reset ∧
    t.tt = Timetable.reset ∧ t.cinch = List.replicate 8 CinchLine.reset

end Sys2Proof.Spec

section
open Sys2Proof Sys2Proof.Machine Sys2Proof.Spec

/-- Queue registers, and the reading of packets (R425, R427 to R429). Whether the host link serves a read (`Config.choose`) and what host
memory holds are free values of the model (DESIGN CHOICE: the spec does not fix them). -/
def Obligations.QueueEvents : Prop :=
  (∀ s n q v, s.answers = true → s.queues[n]? = some q → ∃ t, exec (.qkickWrite n v) s = .next t ∧ { t with queues := s.queues } = s ∧
    t.queues = s.queues.set n (if q.en = true ∧ v < q.qsize.toNat then { q with qkick := BitVec.ofNat 64 v } else q)) ∧
  (∀ s n q, s.answers = true → s.queues[n]? = some q → ∃ t, exec (.queueEnable n) s = .next t ∧ { t with queues := s.queues } = s ∧
    t.queues = s.queues.set n (if q.en then q else { q with en := true, qhead := 0, done := 0, reads := 0 })) ∧
  (∀ s n q, s.answers = true → s.queues[n]? = some q → ∃ t, exec (.queueHaltClear n) s = .next t ∧ { t with queues := s.queues } = s ∧
    t.queues = s.queues.set n (if q.halt then { q with halt := false, err := 0, reads := 0 } else q)) ∧
  (∀ s n v, s.answers = false → exec (.qkickWrite n v) s = .next s ∧ exec (.queueEnable n) s = .next s ∧ exec (.queueHaltClear n) s = .next s) ∧
  (∀ s n q first, Reads s n q first → ∃ t, exec (readStep n first) s = .next t ∧
    (Config.choose s.fresh 20 = true →
      t = { s with queues := s.queues.set n { q with halt := true, err := 2, reads := 0 }, outbox := s.outbox ++ [.msix q.qmsi.toNat] }) ∧
    (Config.choose s.fresh 20 = false →
      let l := readAt s q
      let w := (l.getD 0 0).toNat
      (w % 2 ^ 16 = q.done % 2 ^ 16 → w / 2 ^ 25 % 2 ^ 7 = 0 → 1 ≤ w / 2 ^ 16 % 2 ^ 8 → w / 2 ^ 16 % 2 ^ 8 ≤ 14 →
        t = { s with queues := s.queues.set n { q with packet := some ⟨l, s.seq, false⟩, reads := 0 }, seq := s.seq + 1 }) ∧
      (w % 2 ^ 16 ≠ q.done % 2 ^ 16 → q.reads < 8 → t = { s with queues := s.queues.set n { q with reads := q.reads + 1, lastRead := s.cyc } }) ∧
      (w % 2 ^ 16 ≠ q.done % 2 ^ 16 → 8 ≤ q.reads →
        t = { s with queues := s.queues.set n { q with halt := true, err := 1, reads := 0 }, outbox := s.outbox ++ [.msix q.qmsi.toNat] }))) ∧
  ∀ s n q, s.queues[n]? = some q → q.due = true → q.reads = 0 → 2 ^ 54 ≤ q.place + 63 → exec (.packetFetch n) s =
    .next { s with queues := s.queues.set n { q with halt := true, err := 2, reads := 0 }, outbox := s.outbox ++ [.msix q.qmsi.toNat] }

/-- The packet operations of Table 18.3 (R204, R206, R330, R336, R337, R355, R384, R386, R399, R430, R437). -/
def Obligations.PacketEvents : Prop :=
  (∀ s n q p job l m, InHand s n q p 1 job → opnd p 2 < 2 ^ 16 → opnd p 1 % 2 ^ 16 = 0 → job ≠ 0 → s.job? job = none → opnd p 4 = 0 →
    let j : Job := { id := job, asid := opnd p 2, root := opnd p 1, region := s.seq, bcb := none, bseq := 0, freeze := none, hstate := 0
                     hseq := 0, roll := [], headed := true }
    State.readRcb { s with jobs := s.jobs ++ [j] } job (opnd p 3) = some (l, m) → jobRcbSound job l = true →
    ∃ u t, exec (.createJob n) s = .next t ∧ Done u t n q p 0 ∧ u.job? job = some j ∧
      ∃ r ∈ u.regions, r.id = s.seq ∧ r.job = job ∧ r.va = opnd p 3 ∧ r.words = l ∧ r.parent = none ∧ r.live = true) ∧
  (∀ s n q p job, InHand s n q p 1 job → opnd p 2 < 2 ^ 16 → opnd p 1 % 2 ^ 16 = 0 → (s.job? job).isSome →
    ∃ t, exec (.createJob n) s = .next t ∧ Done s t n q p 1) ∧
  (∀ s n q p job r, InHand s n q p 2 job → (s.job? job).isSome → s.nodeAt job (opnd p 1) p.started = some r → ∃ t, exec (.release n) s = .next t ∧
    (s.subtreeOver r.id = true → (∀ x ∈ s.regions, s.under r.id x = true → ∀ y ∈ t.regions, y.id ≠ x.id) ∧
      (r.parent = none → t.job? job = none) ∧ t.queues[n]? = some (Queue.past { q with packet := some { p with started := true } })) ∧
    (s.subtreeOver r.id = false → p.started = false → (∀ x ∈ t.regions, t.under r.id x = true → x.live = false) ∧
      t.queues[n]? = some { q with packet := some { p with started := true } })) ∧
  (∀ s n q p job, InHand s n q p 3 job → (s.job? job).isSome → p.started = false → ∃ t, exec (.launchPacket n) s = .next t ∧
    Begun { s with launches := s.launches ++ [{ source := .queue n, job, va := opnd p 1, held := false, core := 0 }] } t n q p) ∧
  (∀ s n q p job, InHand s n q p 4 job → opnd p 1 + opnd p 2 ≤ 393216 → opnd p 3 < 2 ^ 32 → s.job? (opnd p 3) = none →
    (∀ c, opnd p 1 ≤ c → c < opnd p 1 + opnd p 2 → s.chunkBusy c = false ∧ ∀ m ∈ s.migrations, m.partner ≠ c) →
    ∃ u t, exec (.grant n) s = .next t ∧ Done u t n q p 0 ∧
      (∀ c, u.chunk c = if opnd p 1 ≤ c ∧ c < opnd p 1 + opnd p 2 then
        { s.chunk c with owner := opnd p 3, version := (s.chunk c).version + 1, fresh := BitVec.allOnes 64, exr := false, die := false }
        else s.chunk c) ∧ { u with chunks := s.chunks, l1 := s.l1 } = s) ∧
  (∀ s n q p job f l m e, InHand s n q p 5 job → (s.job? job).isSome → opnd p 1 < 32 → opnd p 4 ≤ 512 → opnd p 4 % 8 = 0 →
    s.proc? (opnd p 1) = some f → f.job = none → opnd p 2 % 4 = 0 →
    s.translate (procAccessor (opnd p 1) job) fetchRule false (opnd p 2) = .ok e →
    (∀ i < opnd p 4, ∀ g m' k, s.translate (procAccessor (opnd p 1) job) copyRule false (opnd p 3 + i) = .ok (g, m') →
      g.home (opnd p 3 + i) = .package k → Config.farFault s.fresh (opnd p 3 + i) = none) →
    s.gather none job (procAccessor (opnd p 1) job) copyRule (farBytes s (opnd p 3) (opnd p 4)) (.transfer (opnd p 1))
      ((List.range (opnd p 4)).map (opnd p 3 + ·)) [] [] = .bytes l m →
    ∃ u t f', exec (.fabricStart n) s = .next t ∧ Done u t n q p 0 ∧ u.proc? (opnd p 1) = some f' ∧
      { f' with k := [] } = { FabricProc.reset with job := some job, pc := opnd p 2, last := s.cyc } ∧
      ∀ i < opnd p 4 / 8, sget 0 f'.k i = BitVec.ofNat 64 (leNat ((l.drop (8 * i)).take 8))) ∧
  (∀ s n q p job l m, InHand s n q p 6 job → (s.job? job).isSome → s.tt.state ≠ 1 → s.tt.state ≠ 2 → s.tt.held = [] → opnd p 1 % 64 = 0 →
    s.ownWords job (opnd p 1) 8 = .ok (l, m) → tcbSound l = true →
    (∀ j f, m.job? job = some j → j.freeze = some f → 2 ≤ f.stage) →
    ∃ u t, exec (.ttStart n) s = .next t ∧ Done u t n q p 0 ∧ u.tt = { Timetable.reset with
      epoch := s.tt.epoch + 1, state := 1, job, tcb := l, since := m.cyc + 1, counted := m.cyc + 1, crf := (l.getD 2 0).toNat / 2 ^ 48 % 2 ^ 16
      crb := (l.getD 2 0).toNat / 2 ^ 32 % 2 ^ 16 }) ∧
  (∀ s n q p job r, InHand s n q p 7 job → NodeHere s job (opnd p 1) r → r.state < 4 → s.requests = [] → opnd p 2 = 1 →
    ∃ u t, exec (.preempt n) s = .next t ∧ Done u t n q p 0 ∧
      (s.coresUnder r.id = [] → u = { s with requests := [⟨r.id, none, 1, []⟩] }) ∧
      ∀ c, s.chooseCore ⟨r.id, none, 1, []⟩ = some c → u.requests = [⟨r.id, none, 1, [c]⟩] ∧
        ∀ w ∈ s.wgsUnder r.id c, s.wg? w.id = some w → ∃ w', u.wg? w.id = some w' ∧ w'.residence ≠ .resident) ∧
  (∀ s n q p job, InHand s n q p 8 job → (s.job? job).isSome → opnd p 1 < 2 ^ 16 → ∃ u t, exec (.bellRaise n) s = .next t ∧ Done u t n q p 0 ∧
    BellRaised s u job { cause := 5, unit := 4, handle := 0, code := opnd p 1, addr := 0 }) ∧
  (∀ s n q p job j, InHand s n q p 9 job → s.job? job = some j → j.freeze.isSome → opnd p 1 = j.bseq → j.bcb = none → p.started = false →
    ∃ t, exec (.bellResume n) s = .next t ∧ Begun { s with todo := .event (.resumeStage1 ⟨job, j.bseq⟩) :: s.todo } t n q p) ∧
  (∀ s n q p job j, InHand s n q p 9 job → s.job? job = some j → opnd p 1 ≠ j.bseq → ∃ t, exec (.bellResume n) s = .next t ∧ Done s t n q p 1) ∧
  (∀ s n q p job r, InHand s n q p 0x0A job → NodeHere s job (opnd p 1) r → opnd p 2 < 2 ^ 16 → opnd p 3 = 0 → r.killable = true →
    ∃ u t, exec (.kill n) s = .next t ∧ Done u t n q p 0 ∧ (∀ w ∈ u.wgs, w.region ≠ r.id) ∧ (u.region? r.id).map (·.state) = some 7) ∧
  (∀ s n q p job, InHand s n q p 0x0B job → s.host.meas.length = 8 → opnd p 1 + 63 < 2 ^ 54 → opnd p 2 + 0x2DB < 2 ^ 54 →
    ∃ u t report, exec (.attest n) s = .next t ∧
    Done u t n q p 0 ∧ u = { s with outbox := s.outbox ++ [bytesAt (0x40000000000000 + opnd p 2) report] } ∧ report.length = 0x2DC ∧
    report.take 64 = hostRead s.fresh (0x40000000000000 + opnd p 1) 64) ∧
  (∀ s n q p job, InHand s n q p 0x0C job → opnd p 1 < 64 → opnd p 2 < 2 ^ 17 → ∃ t, exec (.domain n) s = .next t ∧
    Done { s with domtab := s.domtab.set (opnd p 1) (BitVec.ofNat 64 (opnd p 2)) } t n q p 0) ∧
  (∀ s n q p job, InHand s n q p 0x0D job → opnd p 1 % 0x200000 = 0 → opnd p 1 ≤ 0x200000000 → s.savedBytes ≤ opnd p 1 →
    ∃ t, exec (.ctxstore n) s = .next t ∧ Done { s with ctxsize := opnd p 1 } t n q p 0) ∧
  ∀ s n q p job, InHand s n q p 0x0E job → ∃ t, exec (.fence n) s = .next t ∧
    ((∀ r ∈ s.queues, ∀ x, r.packet = some x → p.order ≤ x.order) → Done s t n q p 0) ∧
    ∀ r ∈ s.queues, ∀ x, r.packet = some x → x.order < p.order → t = s

/-- The host's registers and memory window, boot, power and the three resets (R424 to R426, R432 to R440). -/
def Obligations.HostEvents : Prop :=
  (∀ s o n d pa, s.answers = true → (∀ i < d.length, s.bar2 (o + i) = some (pa + i)) → ∃ t, exec (.bar2Access ⟨o, n, some d⟩) s = .next t ∧
    (∀ i, (h : i < d.length) → memByte t.mem (pa + i) = d[i]) ∧ t.outbox = s.outbox ∧ t.host = s.host) ∧
  (∀ s o n pa, s.answers = true → (∀ i < n, s.bar2 (o + i) = some (pa + i) ∧ s.touch (pa + i) = s) → (∀ e ∈ s.l1, e.2.dirty = false) →
    exec (.bar2Access ⟨o, n, none⟩) s = .next { s with outbox := s.outbox ++ [.readback (sgetAll 0 s.mem pa n)] }) ∧
  (∀ s o n i, s.answers = true → i < n → s.bar2 (o + i) = none → exec (.bar2Access ⟨o, n, none⟩) s =
    .next { s with host := { s.host with bar2err := s.host.bar2err + 1 }, outbox := s.outbox ++ [.readback (List.replicate n 0xFF)] }) ∧
  (∀ s o n d i, s.answers = true → i < d.length → s.bar2 (o + i) = none → exec (.bar2Access ⟨o, n, some d⟩) s =
    .next { s with host := { s.host with bar2err := s.host.bar2err + 1 } }) ∧
  (∀ s o v, s.answers = false → exec (.registerWrite o v) s = .next s) ∧
  (∀ s v, s.answers = true → v < 2 ^ 64 → v % 2 ^ 32 < 2 →
    exec (.registerWrite 0x10 v) s = .next { s with host := { s.host with bar2ctl := BitVec.ofNat 64 v } }) ∧
  (∀ s v, s.answers = true → v < 2 ^ 64 → exec (.registerWrite 0x18 v) s =
    .next (if 1200 ≤ v ∧ v ≤ 2600 then { s with host := { s.host with powcap := BitVec.ofNat 64 v } } else s)) ∧
  (∀ s n q v, s.answers = true → n < 64 → s.queues[n]? = some q → v < 2 ^ 64 → v % 4096 = 0 →
    exec (.registerWrite (0x100000 + 0x40 * n) v) s = .next { s with queues := s.queues.set n { q with qbase := BitVec.ofNat 64 v } }) ∧
  (∀ s v, s.answers = true → v < 2 ^ 64 → v ≠ 0x5752 → exec (.registerWrite 0 v) s = .next s) ∧
  (∀ s, s.answers = true → exec (.registerWrite 0 0x5752) s = exec .warmReset s) ∧
  (∀ s, exec .coldReset s = .next { State.reset with fresh := s.fresh, seq := s.seq, outbox := s.outbox, hold := s.hold }) ∧
  (∀ s, s.answers = true → s.host.alarmed = false → (∀ e ∈ s.l1, e.2.dirty = false) → ∃ t, exec .warmReset s = .next t ∧ Quiet t ∧
    t.cyc = s.cyc ∧ t.mem = s.mem ∧ t.chunks = s.chunks ∧ t.ctxsize = s.ctxsize ∧ t.host.bootstat = 1 ∧ t.host.linked = true ∧
    t.host.meas = List.replicate 8 0) ∧
  (∀ s, s.host.alarmed = true → exec .warmReset s = exec .coldReset s) ∧
  (∀ s, s.host.alarmed = false → (s.chunks.map (·.1)).Nodup → ∃ t, exec .functionReset s = .next t ∧ Quiet t ∧ t.cyc = s.cyc ∧ t.mem = s.mem ∧
    t.host.bootstat = s.host.bootstat ∧ t.host.meas = s.host.meas ∧ t.migrations = [] ∧
    ∀ c, (t.chunk c).owner = 0 ∧ (t.chunk c).fresh = BitVec.allOnes 64 ∧
      (t.chunk c).version + t.versions = (s.chunk c).version + s.versions + 1 ∧ (t.chunk c).pin = (s.chunk c).pin) ∧
  (∀ s, s.host.bootstat = 1 → exec .linkTraining s = .next { s with host := { s.host with linked := true } }) ∧
  (∀ s i, s.host.bootstat = 1 → s.host.linked = true → ∃ t, exec (.secureBoot i) s = .next t ∧
    (i.readable = false → t.host.bootstat = 5) ∧ (i.readable = true → i.signed = false → t.host.bootstat = 3) ∧
    (i.readable = true → i.signed = true → i.version < Config.rollback → t.host.bootstat = 4) ∧
    (i.readable = true → i.signed = true → Config.rollback ≤ i.version → t.host.bootstat = 2 ∧
      t.host.meas = s.host.meas.map fun m => i.digests.foldl Config.extend m) ∧
    { t with host := { t.host with bootstat := s.host.bootstat, meas := s.host.meas } } = s) ∧
  (∀ s z, ∃ t, exec (.securityAlarm z) s = .next t ∧ Quiet t ∧ t.host.bootstat = 6 ∧ t.host.keyed = false ∧
    t.host.identity = (s.host.identity && !z) ∧ t.answers = false) ∧
  ∀ s p, ∃ t, exec (.powerWindow p) s = .next t ∧
    (s.host.powcap.toNat < p.watts ∨ 95 < p.temp → t.host.clock = max 1200 (s.host.clock - 100)) ∧
    (p.watts + 100 ≤ s.host.powcap.toNat → p.temp < 90 → t.host.clock = min 2100 (s.host.clock + 100)) ∧
    (p.watts ≤ s.host.powcap.toNat → p.temp ≤ 95 → s.host.powcap.toNat < p.watts + 100 ∨ 90 ≤ p.temp → t.host.clock = s.host.clock) ∧
    { t with host := { t.host with clock := s.host.clock, powmeas := s.host.powmeas } } = s

end

namespace Sys2Proof.Spec
open Sys2Proof.Machine

/-! ### Taking a trap (R316, R320, R321) -/

/-- The record of an event without a detail or an address (Table 13.2), from its parts. -/
def record (cause sub handle code : Nat) (cont reexec : Bool) (pc resume regions lanes leaf cyc w job : Nat) : List W64 :=
  [handle * 2 ^ 24 + code * 2 ^ 18 + cont.toNat * 2 ^ 17 + reexec.toNat * 2 ^ 16 + sub * 2 ^ 8 + cause, pc, resume, 0,
    regions * 2 ^ 32 + lanes, leaf, cyc, w * 2 ^ 32 + job].map (BitVec.ofNat 64)

/-- `t` is `s`, but that the group of the word has stopped before it (R317) with a cause and a subcause, raised by `lanes`; only
re-execution is open (Table 13.1), and the event with its record waits for the control core of the cluster (R320). -/
def GroupTraps (s t : State) (v : View) (cause sub : Nat) (lanes : List Nat) (tid : Nat) : Prop :=
  (∃ st, t.group? v.g.id = some { v.g with stop := some st, step := none } ∧ st.cause = cause ∧ st.sub = sub ∧ st.code = 0 ∧
    st.pc = v.turn.pc ∧ st.lanes = lanes ∧ st.cont = false ∧ st.reexec = true ∧ st.clk = s.cyc) ∧
  (∀ id, id ≠ v.g.id → t.group? id = s.group? id) ∧
  (∃ e, t.events = s.events ++ [e] ∧ e.unit = some (.group v.g.id) ∧ e.control = v.wg.core / 4 ∧ e.event.core = v.wg.core ∧
    e.event.part = v.g.block % 4 ∧ ∀ th, v.wg.thread? tid = some th →
      e.event.words = record cause sub (v.wg.core + v.wg.slot * 2 ^ 8 + tid * 2 ^ 13) 0 false true v.turn.pc (s.resumeHeader v.wg th).1
        th.regions.toNat (laneBits lanes) v.leaf.va s.cyc v.wg.w v.leaf.job) ∧
  { t with groups := s.groups, events := s.events } = s

/-- The operands of a lane-set word whose operands are all it checks. -/
def plainLane (i : Instr) (f : Form) : Prop :=
  (∃ r, intRow i = some r ∧ r.f = f) ∨ (∃ r, shiftRow i = some r ∧ r.f = f) ∨ ∃ r, arithRow i = some r ∧ r.f = f

/-! ### Where words complete -/

/-- The float, conversion and cross-lane words of fixed latency: operands, latency, and the k registers random bits come from. -/
def fixedWord : Instr → Option (Form × Nat × (View → List Src))
  | .fadd f | .fsub f | .fmul f | .fmin f | .fmax f | .frnd f | .fscl f | .fdot2 f => some (form32 .f f, 4, rsrSources)
  | .fadd64 f | .fsub64 f | .fmul64 f | .fma f | .fmin64 f | .fmax64 f | .frnd64 f | .fscl64 f | .fdot264 f => some (form64 f, 4, rsrSources)
  | .fadd64i f | .fsub64i f | .fmul64i f | .fmin64i f | .fmax64i f | .fscl64i f => some (form64I f, 4, rsrSources)
  | .fclass f | .fexp f | .fcmp _ _ f => some (form32 .f f, 4, noDraw)
  | .fclass64 f | .fexp64 f | .fcmp64 _ _ f => some (form64 f, 4, noDraw)
  | .fcmp64i _ _ f => some (form64I f, 4, noDraw)
  | .pk f | .upk f _ => some (form32 .i f, 2, noDraw)
  | .pk64 f | .upk64 f _ => some (form64 f, 2, noDraw)
  | .rng f => some (form32 .i f, 2, fun _ => [.k 61, .k 62, .k 63])
  | .rng64 f => some (form64 f, 2, fun _ => [.k 61, .k 62, .k 63])
  | .cvt f _ | .dqn f _ _ => some (form64 f, 2, rsrSources)
  | .qnt f _ scale => some (form64 f, 2, if scale then noDraw else rsrSources)
  | .xsh f | .xrot f _ | .xpush f | .xmatch f | .vote _ f => some (form32 .i f, 5, noDraw)
  | .xsh64 f | .xbc f _ _ | .xrot64 f _ | .xpush64 f | .xmatch64 f | .vote64 _ f => some (form64 f, 5, noDraw)
  | .xred op f | .xscan op f => some (form32 (redKind op) f, 5, rsrSources)
  | .xred64 _ f | .xscan64 _ f => some (form64 f, 5, rsrSources)
  | _ => none

/-- The long-latency float words: operands. -/
def longWord? : Instr → Option Form
  | .fdiv f | .fsqrt f | .rcp f | .rsq f | .ex2 f | .lg2 f | .sin f | .cos f => some (form32 .f f)
  | .fdiv64 f | .fsqrt64 f | .rcp64 f | .rsq64 f | .ex264 f | .lg264 f | .sin64 f | .cos64 f => some (form64 f)
  | .fdiv64i f => some (form64I f)
  | _ => none

/-- A prefetch's operands and address form (R246). -/
def prefetch? : Instr → Option (Form × Form119)
  | .pref f off => some (form32 .i f, .offset off)
  | .pref64 f k _ => some (form64 f, .index k)
  | .pref64i f => some (form64IS f, .imm f.imm)
  | _ => none

/-- Some lanes' prefetches pass the checks of a load, one after another: alignment, then translation, permission and format (R246). -/
def PrefetchesPass (v : View) (f : Form) (m : Form119) : State → List Thread → Prop
  | _, [] => True
  | s, t :: r => addressOf s v f m t % (shapeBits f.shape / 8) = 0 ∧
    ∃ p u, s.access (s.wgAccessor v.wg) { plainRule .read with format := fun p => !p.exr || p.cellBytes == shapeBits f.shape / 8 } false
      (addressOf s v f m t) = .ok (p, u) ∧ PrefetchesPass v f m u r

/-! ### One step runs the decoded instruction -/

/-- The state in which the next step performs a word of `u`, once it has taken its turn from what is due, or from the schedule where no timed
step of the device comes first. -/
def TurnOf (s : State) (u : UnitId) (s0 : State) : Prop :=
  (∃ r, s.todo = .unit u :: r ∧ s0 = { s with todo := r, fresh := s.fresh + 1 }) ∨
  (s.todo = [] ∧ (Config.schedule s.fresh).2 = .unit u ∧ s.awaited.timedBy (s.awaited.cyc + (Config.schedule s.fresh).1) = none ∧
    s0 = { s.awaited with cyc := s.awaited.cyc + (Config.schedule s.fresh).1 })

/-- A step that answers what an instruction answers, with `f` after a next state. -/
def Ran (r o : Result) (f : State → State) : Prop := match o with
  | .next t => r = .next (f t)
  | .fault e => r = .fault e
  | .refused e => r = .refused e

/-- What a step leaves of a word that `t` follows, with `f` the bookkeeping after it: a word that would issue later than a timed step of the
device, or than the freeze of its unit, has not run (R150, R154, R174, R390, R402). -/
noncomputable def orWaits (s0 : State) (u : UnitId) (f : State → State) (t : State) : State :=
  if s0.overtaken u t.cyc then { s0 with turn := none, hold := false } else f t

/-- A group may issue a word of its workgroup at a clk: it, its workgroup and its partition do not stand still, and no other run holds
the partition (R22). -/
def MayIssue (s : State) (gid : Nat) (g : Group) (w : Workgroup) (l : Region) (clk : Nat) : Prop :=
  s.group? gid = some g ∧ s.wg? g.wg = some w ∧ s.leafOf w = some l ∧ clk = s.issueClk w g.part ∧
  g.stop = none ∧ w.stopped = none ∧ g.filing = none ∧ w.residence ≠ .saved ∧ s.groupFrozen w g clk = false ∧
  s.partitionHeld g w = false

/-- The word after a first word: that of a 64-bit instruction must have been fetched; otherwise it is what was fetched, or 0. -/
def wordsAre (next : Except Nat Nat) (w0 w1 : Nat) : Prop :=
  next = .ok w1 ∨ (isDouble w0 = false ∧ w1 = 0 ∧ ∃ e, next = .error e)

/-- How many words an instruction takes (R64). -/
def sizeOf0 (w0 : Nat) : Nat := if isDouble w0 then 2 else 1

/-- A word has no fault of its place (R30, R33, R38, R72): it fits the run, an op that ends a run is last in it, a group may run it, its
prefix suits it, and the run holds fewer than 16 long-latency words or it is none. -/
def FitsRun (r : Run) (pfx : Option PrefixFields) (w0 w1 : Nat) : Prop :=
  sizeOf0 w0 ≤ r.left ∧ (lastOnly (isUniform w0) (opField w0) = true → r.left = sizeOf0 w0) ∧
  mayRun .group (isUniform w0) (opField w0) = true ∧ (r.ordinals.length < 16 ∨ longOp w0 = false) ∧
  ((r.pfx = none ∧ pfx = none) ∨ ∃ p q, r.pfx = some p ∧ decodePrefix p.2 = .ok q ∧ pfx = some q ∧ prefixFits q w0 w1 = true)

end Sys2Proof.Spec

section
open Sys2Proof Sys2Proof.Machine Sys2Proof.Spec

/-- R14, R23 to R25, R30, R38, R78, R316, R320: where a word completes and where it traps. A float, conversion or cross-lane word completes
wherever its registers exist and its sources have values: one of fixed latency gives every present lane a result and changes nothing else,
a long-latency one begins the run's next ordinal where it holds fewer than 16, with an operation for each lane that a guard bit is on for;
a prefetch completes where every active lane passes the checks of a load. A register beyond the thread's count gives
the operand subcause; an o or l register without a value gives the undefined-operand trap, raised by the lanes that lack it; a 17th
long-latency word gives the reserved-field subcause; a lane-set word on an executor without lanes gives the wrong-executor subcause. -/
def Obligations.TrapsTaken : Prop :=
  (∀ i f lat draws s v, fixedWord i = some (f, lat, draws) → InRun s v → Usable v f.srcs f.d →
    ∃ t out, exec i s = .next t ∧ (∀ l, (out l).tid = l.tid) ∧
      LaneEffect (atReady s v f.guard f.srcs (draws v) []) t v f.d ((atReady s v f.guard f.srcs (draws v) []).cyc + lat) out) ∧
  (∀ i f s v, longWord? i = some f → InRun s v → Usable v f.srcs f.d → v.run.ordinals.length < 16 →
    ∃ t asked, exec i s = .next t ∧ Issued (atReady s v f.guard f.srcs (rsrSources v) []) t v f.d v.run.tail asked ∧
      asked.map (·.tids) = (v.threads.filter fun l =>
        anyOn f.n ((atReady s v f.guard f.srcs (rsrSources v) []).guard v f.guard l)).map fun l => [l.tid]) ∧
  (∀ i f m s v, prefetch? i = some (f, m) → InRun s v → Usable v [f.a, f.b] .none →
    PrefetchesPass v f m (atReady s v f.guard [f.a, f.b] [] []) (v.threads.filter (bit0 (atReady s v f.guard [f.a, f.b] [] []) v f.guard)) →
    ∃ t, exec i s = .next t ∧ t.group? v.g.id = some v.g ∧ t.ops = s.ops ∧ t.copies = s.copies) ∧
  (∀ i f s v, plainLane i f → InRun s v → v.g.stop = none →
    (f.srcs.all (srcAllowed v.leaf.regs) && dstAllowed v.leaf.regs f.d) = false →
    ∃ t, exec i s = .next t ∧ GroupTraps s t v 0 1 v.g.lanes (32 * v.g.block + v.g.lanes.head?.getD 0)) ∧
  (∀ i f s v l r, plainLane i f → InRun s v → v.g.stop = none → f.srcs.all (srcAllowed v.leaf.regs) = true →
    dstAllowed v.leaf.regs f.d = true → v.threads.filter (fun t => !f.srcs.all (hasValue t)) = l :: r →
    ∃ t, exec i s = .next t ∧ GroupTraps s t v 1 0 ((l :: r).map (·.tid % 32)) (32 * v.g.block + l.tid % 32)) ∧
  (∀ i r s v, longFloatRows i = some r → InRun s v → v.g.stop = none → 16 ≤ v.run.ordinals.length →
    ∃ t, exec i s = .next t ∧ GroupTraps s t v 0 3 v.g.lanes (32 * v.g.block + v.g.lanes.head?.getD 0)) ∧
  (∀ i f s n pc ws p w, plainLane i f → s.turn = some ⟨.stream n, pc, ws, p⟩ → s.wg? n = some w →
    ∃ t, exec i s = .next t ∧ (∀ x, w.stream = some x → ∃ st, t.stream? n = some { x with stop := some st } ∧ st.cause = 0 ∧ st.sub = 2 ∧
        st.code = 4 ∧ st.cont = true ∧ st.reexec = false ∧ st.pc = pc) ∧
      (∃ e, t.events = s.events ++ [e] ∧ e.unit = some (.stream n) ∧ e.control = w.core / 4 ∧ e.event.part = 4 ∧
        e.event.words.take 5 = (record 0 2 (w.core + w.slot * 2 ^ 8 + 2 ^ 23) 4 true false pc 0 0 0 0 0 0 0).take 5) ∧
      { t with wgs := s.wgs, events := s.events, grants := s.grants } = s) ∧
  (∀ i f s n pc ws p q, plainLane i f → s.turn = some ⟨.fabric n, pc, ws, p⟩ → s.proc? n = some q →
    ∃ t, exec i s = .next t ∧ (∃ st, t.proc? n = some { q with stop := some st } ∧ st.cause = 0 ∧ st.sub = 2 ∧ st.pc = pc) ∧
      (∃ e, t.events = s.events ++ [e] ∧ e.unit = some (.fabric n) ∧ e.control = 16 * (n / 8) ∧
        e.event.words = record 0 2 (0xFFE000 + n) 6 true false pc 0 0 0 0 s.cyc 0 (q.job.getD 0)) ∧
      { t with procs := s.procs, events := s.events, grants := s.grants } = s) ∧
  ∀ i f s n pc ws p c, plainLane i f → s.turn = some ⟨.control n, pc, ws, p⟩ → s.control? n = some c →
    ∃ t, exec i s = .next t ∧ t.control? n = some { c with trapped := true } ∧ { t with controls := s.controls } = s

/-- Words written out from the encodings of the spec (Tables 3.1 to 3.13, 4.1, 6.1, 9.3, 11.1, 13.8, 15.1, 16.1) decode to the instructions
they stand for. -/
def Obligations.WordsDecode : Prop :=
  (∀ z, decodeWord 0x000080F3 z = .ok (.add ⟨.d, .x 2, .x 1, .imm 3⟩)) ∧
  (∀ z, decodeWord 0x1C000008 z = .ok (.br 8)) ∧
  (∀ z, decodeWord 0x05446EC1 z = .ok (.cmp .lt 1 ⟨.d, .none, .special .lane, .k 1⟩)) ∧
  (∀ z, decodeWord 0x1E0FEE5C z = .ok .nop) ∧
  (∀ z, decodeWord 0x9FCFEE5C z = .ok .eret) ∧
  (∀ z, decodeWord 0x60000000 z = .ok (.trailer ⟨false, none, none, none⟩)) ∧
  decodeWord 0xB04FF880 0x03010080 = .ok (.mma 8 4 2 0 4) ∧
  decodeWord 0xAD8FF080 0x84090111 = .ok (.cpslice (.x 8) 4 (.x 9) 1 1 2)

/-- Every well-formed instruction that has words is what its words decode to, whatever stands after them (R63 to R70). -/
def Obligations.EncodedWordsDecode : Prop :=
  ∀ i ws, WellFormed i = true → encode i = some ws →
    (∃ w, ws = [w] ∧ w < 2 ^ 32 ∧ isDouble w = false ∧ ∀ z, decodeWord w z = .ok i) ∨
    ∃ w z, ws = [w, z] ∧ w < 2 ^ 32 ∧ z < 2 ^ 32 ∧ isDouble w = true ∧ decodeWord w z = .ok i

/-- No field is ignored (R78): words that decode to an instruction are the words of it, and it is well-formed. -/
def Obligations.DecodedWordsEncode : Prop :=
  ∀ w z i, w < 2 ^ 32 → z < 2 ^ 32 → decodeWord w z = .ok i →
    WellFormed i = true ∧ encode i = some (if isDouble w then [w, z] else [w])

/-- A step runs the instruction that the words at the program counter decode to: a group's header, trailer, prefix or instruction in the
state at its clk, or a word of an executor without lanes, whose program counter then stands after it. After it, the group stands past
its words, its threads' `%ret` counts it (R18), and its prefix is spent (R71); a word that waits leaves its unit where it was. -/
def Obligations.StepRunsDecoded : Prop :=
  (∀ s s0 s1 gid g w l clk v n h, TurnOf s (.group gid) s0 → MayIssue s0 gid g w l clk → g.run = none →
    s0.fetch (s0.wgAccessor w) g.pc = .ok (v, n, s1) → isHeaderWord v = true → decodeWord v 0 = .ok (.header h) →
    Ran (step s) (exec (.header h) { s1 with turn := some ⟨.group g.id, g.pc, 1, none⟩, cyc := clk })
      (orWaits s0 (.group gid) fun t => State.finish s0 t (.group gid) (.header h) g.lanes false)) ∧
  (∀ s s0 s1 gid g w l r clk v n h, TurnOf s (.group gid) s0 → MayIssue s0 gid g w l clk → g.run = some r → r.left = 0 →
    s0.fetch (s0.wgAccessor w) r.pc = .ok (v, n, s1) → isTrailerWord v = true → decodeWord v 0 = .ok (.trailer h) →
    Ran (step s) (exec (.trailer h) { s1 with turn := some ⟨.group g.id, r.pc, 1, none⟩, cyc := clk })
      (orWaits s0 (.group gid) fun t => State.finish s0 t (.group gid) (.trailer h) g.lanes false)) ∧
  (∀ s s0 s1 gid g w l r clk v n p, TurnOf s (.group gid) s0 → MayIssue s0 gid g w l clk → g.run = some r → 0 < r.left →
    s0.fetch (s0.wgAccessor w) r.pc = .ok (v, n, s1) → isPrefixWord v = true → decodeWord v 0 = .ok (.prefixWord p) →
    Ran (step s) (exec (.prefixWord p) { s1 with turn := some ⟨.group g.id, r.pc, 1, none⟩, cyc := clk })
      (orWaits s0 (.group gid) fun t => State.finish s0 t (.group gid) (.prefixWord p) g.lanes false)) ∧
  (∀ s s0 s1 s2 gid g w l r clk w0 w1 n i pfx, TurnOf s (.group gid) s0 → MayIssue s0 gid g w l clk → g.run = some r →
    s0.fetch (s0.wgAccessor w) r.pc = .ok (w0, n, s1) → wordsAre n w0 w1 → decodeWord w0 w1 = .ok i →
    lenField w0 < 2 → FitsRun r pfx w0 w1 →
    s2 = { s1 with turn := some ⟨.group g.id, r.pc, sizeOf0 w0, pfx⟩, cyc := clk + sizeOf0 w0 - 1 } →
    let v : View := ⟨g, r, w, l, ⟨.group g.id, r.pc, sizeOf0 w0, pfx⟩⟩
    let active := s2.activeLanes v w0 w1
    v.upsetLanes active (codeUse (r.pfx.map (·.2)) w0 w1) = [] →
    Ran (step s) (exec i s2) (orWaits s0 (.group gid) fun t => State.finish s0 t (.group gid) i active true)) ∧
  (∀ s s0 s1 s2 u pc last a w0 w1 n i, TurnOf s u s0 → isGroup u = false → s0.unitState u = some (pc, last, a) →
    s0.unitFetch u a pc = .ok (w0, n, s1) → wordsAre n w0 w1 → decodeWord w0 w1 = .ok i → isUniform w0 = true → lenField w0 < 2 →
    mayRun u.executor true (opField w0) = true →
    s2 = { s1 with turn := some ⟨u, pc, sizeOf0 w0, none⟩, cyc := s0.unitClk u last + sizeOf0 w0 - 1 } →
    s2.unitUpset u (codeUse none w0 w1) = false →
    Ran (step s) (exec i (s2.setUnitPc u (pc + 4 * sizeOf0 w0))) (orWaits s0 u fun t => State.finish s0 t u i [] true)) ∧
  (∀ b t gid g w q r tn i active counts, b.group? gid = some g → b.wg? g.wg = some w → t.turn = some tn → t.hold = false →
    runControl i = false → t.group? gid = some q → q.run = some r → q.stop = none → q.skipWatch = false → g.id = gid →
    let f := State.finish b t (.group gid) i active counts
    f.group? gid = some { q with skipWatch := false
                                 run := some { r with pc := r.pc + 4 * tn.words, left := r.left - tn.words
                                                      pfx := if counts then none else r.pfx } } ∧
    (∀ tid th, t.thread? g.wg tid = some th →
      f.thread? g.wg tid = some (if counts ∧ g.tids.contains tid then { th with retired := th.retired + 1 } else th)) ∧
    f.turn = none ∧ (f.part w.core g.part).lastIssue = t.cyc ∧
    { f with turn := t.turn, parts := t.parts, groups := t.groups, wgs := t.wgs } = t) ∧
  (∀ b t gid g tn i active counts, b.group? gid = some g → t.turn = some tn → t.hold = true →
    State.finish b t (.group gid) i active counts = { t with turn := none, hold := false, cyc := b.cyc, parts := b.parts }) ∧
  ∀ b t u tn i active counts, isGroup u = false → t.turn = some tn → t.hold = true →
    State.finish b t u i active counts = { ({ t with hold := false, cyc := b.cyc }.setUnitPc u tn.pc) with turn := none }

/-- R17, R204, R332, R355, R425, R427, R433 (Tables 7.7, 13.4, 13.8, 16.11, 18.2, 18.4, 18.5): what a cold reset leaves, and memory in its
canonical form. -/
def Obligations.ResetState : Prop :=
  let s := State.reset
  s.cyc = 0 ∧ (∀ a, memByte s.mem a = 0) ∧ s.MemoryCanonical ∧ s.l1 = [] ∧ s.tlb = [] ∧ s.path = [] ∧
  s.jobs = [] ∧ s.regions = [] ∧ s.wgs = [] ∧ s.groups = [] ∧ s.bins = [] ∧ s.copies = [] ∧ s.ops = [] ∧ s.launches = [] ∧
  (∀ c, s.chunk c = { fresh := BitVec.allOnes 64, version := 0, owner := 0, frame := c % 32768, stack := c / 32768, mig := false
                      exr := false, die := false, pin := false }) ∧
  (∀ n < 64, ∃ c, s.control? n = some c ∧ c.current = none ∧ c.queue = [] ∧ c.dwstat = 0 ∧ c.assistcnt = 0 ∧ c.ccwdog = 2 ^ 24) ∧
  (∀ n < 256, ∃ r, s.cores[n]? = some r ∧ r.lcbase = List.replicate 16 1 ∧ r.lclim = List.replicate 16 0 ∧ r.trctl = 0 ∧ r.trbase = 0 ∧
    r.trsize = 4096 ∧ r.trhead = 0 ∧ r.trdrop = 0) ∧
  s.bpcnt = List.replicate 16 0 ∧ s.wpts = List.replicate 8 ⟨0, 0, 0, 0⟩ ∧ s.lranges = List.replicate 16 ⟨0, 0⟩ ∧ s.xcways = 2 ∧
  s.migctl = 1 ∧ s.chsel = 0 ∧ s.pfrz = none ∧ s.domtab = List.replicate 64 0 ∧
  (∀ n < 32, ∃ p, s.proc? n = some p ∧ p.job = none ∧ p.stop = none ∧ p.queue = []) ∧ s.tt.state = 0 ∧
  s.host.bootstat = 1 ∧ s.host.bar2ctl = 0 ∧ s.host.powcap = 2600 ∧ s.host.powmeas = 0 ∧ s.host.bar2err = 0 ∧ s.host.bar2map = [] ∧
  ∀ n < 64, ∃ q, s.queues[n]? = some q ∧ q.qbase = 0 ∧ q.qsize = 0 ∧ q.qkick = 0 ∧ q.qhead = 0 ∧ q.en = false ∧ q.halt = false ∧
    q.err = 0 ∧ q.qcbase = 0 ∧ q.qmsi = 0

/-- Every step keeps memory in its canonical form: addresses strictly rising, and no byte listed that reads as an unlisted one. -/
def Obligations.StepKeepsMemory : Prop := ∀ s t, s.MemoryCanonical → step s = .next t → t.MemoryCanonical

end
end

