-- ==== Sys2Proof/Laws/Sparse.lean ====
section
/-!
SUPPORT. Sparse maps: a read after a write to the same key gives the value written, a write leaves every other key alone, and every
write keeps the canonical form.
-/
namespace Sys2Proof.Machine

variable {α : Type} [DecidableEq α]

theorem sget_filter_other (d : α) (m : Sparse α) {a b : Nat} (h : b ≠ a) : sget d (m.filter fun e => e.1 != a) b = sget d m b := by
  induction m with
  | nil => rfl
  | cons e r ih =>
    obtain ⟨k, w⟩ := e
    by_cases hk : k = a
    · subst hk; simp [sget, h, ih]
    · simp [hk, sget, ih]

theorem sget_filter_same (d : α) (m : Sparse α) (a : Nat) : sget d (m.filter fun e => e.1 != a) a = d := by
  induction m with
  | nil => rfl
  | cons e r ih =>
    obtain ⟨k, w⟩ := e
    by_cases hk : k = a
    · simp [hk, ih]
    · simp [hk, sget, ih, Ne.symm hk]

theorem sget_sput_other (d : α) (m : Sparse α) {a b : Nat} (v : α) (h : b ≠ a) : sget d (sput m a v) b = sget d m b := by
  induction m with
  | nil => simp [sput, sget, h]
  | cons e r ih =>
    obtain ⟨k, w⟩ := e
    unfold sput
    split
    · simp [sget, h]
    · split
      · next h1 => subst h1; simp [sget, h]
      · simp [sget, ih]

theorem sget_sput_same (d : α) (m : Sparse α) (a : Nat) (v : α) : sget d (sput m a v) a = v := by
  induction m with
  | nil => simp [sput, sget]
  | cons e r ih =>
    obtain ⟨k, w⟩ := e
    unfold sput
    split
    · simp [sget]
    · split
      · simp [sget]
      · next h1 => simp [sget, h1, ih]

/-- A write leaves every other key alone, in canonical form or not. -/
theorem sget_sset_other (d : α) (m : Sparse α) {a b : Nat} (v : α) (h : b ≠ a) : sget d (sset d m a v) b = sget d m b := by
  unfold sset
  split
  · exact sget_filter_other d m h
  · exact sget_sput_other d m v h

/-- A read after a write to the same key gives the value written, in canonical form or not. -/
theorem sget_sset_same (d : α) (m : Sparse α) (a : Nat) (v : α) : sget d (sset d m a v) a = v := by
  unfold sset
  split
  · next h => rw [sget_filter_same, h]
  · exact sget_sput_same d m a v

/-- Every read after a write. -/
theorem sget_sset (d : α) (m : Sparse α) (a b : Nat) (v : α) : sget d (sset d m a v) b = if b = a then v else sget d m b := by
  split
  · next h => rw [h, sget_sset_same]
  · next h => exact sget_sset_other d m v h

/-- A canonical map is canonical from any lower bound. -/
theorem swfFrom_mono (d : α) {m : Sparse α} {lo lo' : Nat} (h : swfFrom d lo m = true) (hl : lo' ≤ lo) : swfFrom d lo' m = true := by
  cases m with
  | nil => rfl
  | cons e r =>
    simp only [swfFrom, Bool.and_eq_true, decide_eq_true_eq] at h ⊢
    exact ⟨⟨by omega, h.1.2⟩, h.2⟩

/-- Dropping keys keeps the canonical form. -/
theorem swfFrom_filter (d : α) {m : Sparse α} {lo : Nat} (h : swfFrom d lo m = true) (p : Nat × α → Bool) :
    swfFrom d lo (m.filter p) = true := by
  induction m generalizing lo with
  | nil => rfl
  | cons e r ih =>
    obtain ⟨k, w⟩ := e
    simp only [swfFrom, Bool.and_eq_true, decide_eq_true_eq] at h
    simp only [List.filter_cons]
    split
    · simp only [swfFrom, Bool.and_eq_true, decide_eq_true_eq]
      exact ⟨h.1, ih h.2⟩
    · exact swfFrom_mono d (ih h.2) (by omega)

/-- A write keeps the canonical form. -/
theorem swfFrom_sput (d : α) {m : Sparse α} {lo : Nat} (h : swfFrom d lo m = true) {a : Nat} {v : α} (hv : v ≠ d) (ha : lo ≤ a) :
    swfFrom d lo (sput m a v) = true := by
  induction m generalizing lo with
  | nil => simp [sput, swfFrom, ha, hv]
  | cons e r ih =>
    obtain ⟨k, w⟩ := e
    simp only [swfFrom, Bool.and_eq_true, decide_eq_true_eq] at h
    unfold sput
    split
    · next h1 =>
      simp only [swfFrom, Bool.and_eq_true, decide_eq_true_eq]
      exact ⟨⟨ha, hv⟩, ⟨by omega, h.1.2⟩, h.2⟩
    · split
      · next h1 =>
        subst h1
        simp only [swfFrom, Bool.and_eq_true, decide_eq_true_eq]
        exact ⟨⟨ha, hv⟩, h.2⟩
      · simp only [swfFrom, Bool.and_eq_true, decide_eq_true_eq]
        exact ⟨h.1, ih h.2 (by omega)⟩

theorem swfFrom_sset (d : α) {m : Sparse α} {lo : Nat} (h : swfFrom d lo m = true) {a : Nat} (v : α) (ha : lo ≤ a) :
    swfFrom d lo (sset d m a v) = true := by
  unfold sset
  split
  · exact swfFrom_filter d h _
  · next hv => exact swfFrom_sput d h hv ha

theorem swf_sset (d : α) {m : Sparse α} (h : swf d m = true) (a : Nat) (v : α) : swf d (sset d m a v) = true :=
  swfFrom_sset d h v (Nat.zero_le a)

/-- Writing consecutive keys keeps the canonical form. -/
theorem swf_ssetAll (d : α) {m : Sparse α} (h : swf d m = true) (a : Nat) (l : List α) : swf d (ssetAll d m a l) = true := by
  induction l generalizing m a with
  | nil => exact h
  | cons v r ih => exact ih (swf_sset d h a v) (a + 1)

/-- Writing a list of entries keeps the canonical form. -/
theorem swf_ssetEach (d : α) {m : Sparse α} (h : swf d m = true) (l : List (Nat × α)) : swf d (ssetEach d m l) = true := by
  induction l generalizing m with
  | nil => exact h
  | cons e r ih => exact ih (swf_sset d h e.1 e.2)

theorem swf_filter (d : α) {m : Sparse α} (h : swf d m = true) (p : Nat × α → Bool) : swf d (m.filter p) = true :=
  swfFrom_filter d h p

theorem swf_sdrop (d : α) {m : Sparse α} (h : swf d m = true) (p : Nat → Bool) : swf d (sdrop p m) = true :=
  swf_filter d h fun e => !p e.1

/-- Writing a number's bytes keeps memory's canonical form. -/
theorem Memory.wf_memPut {m : Sparse Byte} (h : Memory.wf m = true) (a n v : Nat) : Memory.wf (memPut m a n v) = true :=
  swf_ssetAll 0 h a (leBytes n v)

/-- A byte outside the bytes written reads as before. -/
theorem sget_ssetAll_other (d : α) (m : Sparse α) (a : Nat) (l : List α) {b : Nat} (h : b < a ∨ a + l.length ≤ b) :
    sget d (ssetAll d m a l) b = sget d m b := by
  induction l generalizing m a with
  | nil => rfl
  | cons v r ih =>
    simp only [List.length_cons] at h
    rw [ssetAll, ih (sset d m a v) (a + 1) (by omega), sget_sset_other d m v (by omega)]

/-- A byte among the bytes written reads as written. -/
theorem sget_ssetAll_at (d : α) (m : Sparse α) (a : Nat) (l : List α) {i : Nat} (h : i < l.length) :
    sget d (ssetAll d m a l) (a + i) = l[i] := by
  induction l generalizing m a i with
  | nil => simp at h
  | cons v r ih =>
    cases i with
    | zero =>
      rw [ssetAll, sget_ssetAll_other d _ (a + 1) r (by omega)]
      exact sget_sset_same d m a v
    | succ n =>
      have := ih (sset d m a v) (a + 1) (i := n) (by simpa using h)
      rw [ssetAll, show a + (n + 1) = a + 1 + n by omega, this]
      rfl

/-- The bytes of a number make it up again (R4). -/
theorem leNat_leBytes (n v : Nat) : leNat (leBytes n v) = v % 256 ^ n := by
  induction n generalizing v with
  | zero => simp [leBytes, leNat, Nat.mod_one]
  | succ n ih =>
    rw [leBytes, leNat, ih, BitVec.toNat_ofNat, show 256 ^ (n + 1) = 256 * 256 ^ n by rw [Nat.pow_succ, Nat.mul_comm], Nat.mod_mul]

end Sys2Proof.Machine
end

