-- ==== Sys2Proof/Laws/Units.lean ====
section
/-!
SUPPORT. Finding a unit after an update of one: the updated one is found updated, every other as it was.
-/
namespace Sys2Proof.Machine

variable {α : Type}

theorem find_updFirst_same {p : α → Bool} {f : α → α} (h : ∀ a, p a = true → p (f a) = true) (l : List α) :
    (updFirst p f l).find? p = (l.find? p).map f := by
  induction l with
  | nil => rfl
  | cons a r ih =>
    unfold updFirst
    split
    · next hp => simp [List.find?_cons, hp, h a hp]
    · next hp => simp [List.find?_cons, hp, ih]

theorem find_updFirst_other {p q : α → Bool} {f : α → α} (h : ∀ a, p a = true → q a = false ∧ q (f a) = false) (l : List α) :
    (updFirst p f l).find? q = l.find? q := by
  induction l with
  | nil => rfl
  | cons a r ih =>
    unfold updFirst
    split
    · next hp => simp [List.find?_cons, h a hp]
    · simp [List.find?_cons, ih]

theorem wg_mapWg_same (s : State) (id : Nat) {f : Workgroup → Workgroup} (h : ∀ w, (f w).id = w.id) :
    (s.mapWg id f).wg? id = (s.wg? id).map f :=
  find_updFirst_same (fun a ha => by simpa [h] using ha) _

theorem wg_mapWg_other (s : State) {id j : Nat} {f : Workgroup → Workgroup} (h : ∀ w, (f w).id = w.id) (hj : j ≠ id) :
    (s.mapWg id f).wg? j = s.wg? j :=
  find_updFirst_other (fun a ha => by
    have : a.id = id := by simpa using ha
    simp [h, this, Ne.symm hj]) _

theorem group_mapGroup_same (s : State) (id : Nat) {f : Group → Group} (h : ∀ g, (f g).id = g.id) :
    (s.mapGroup id f).group? id = (s.group? id).map f :=
  find_updFirst_same (fun a ha => by simpa [h] using ha) _

theorem group_mapGroup_other (s : State) {id j : Nat} {f : Group → Group} (h : ∀ g, (f g).id = g.id) (hj : j ≠ id) :
    (s.mapGroup id f).group? j = s.group? j :=
  find_updFirst_other (fun a ha => by
    have : a.id = id := by simpa using ha
    simp [h, this, Ne.symm hj]) _

theorem thread_mapThread_same (w : Workgroup) (tid : Nat) {f : Thread → Thread} (h : ∀ t, (f t).tid = t.tid) :
    (w.mapThread tid f).thread? tid = (w.thread? tid).map f :=
  find_updFirst_same (fun a ha => by simpa [h] using ha) _

theorem thread_mapThread_other (w : Workgroup) {tid j : Nat} {f : Thread → Thread} (h : ∀ t, (f t).tid = t.tid) (hj : j ≠ tid) :
    (w.mapThread tid f).thread? j = w.thread? j :=
  find_updFirst_other (fun a ha => by
    have : a.tid = tid := by simpa using ha
    simp [h, this, Ne.symm hj]) _

/-- Every thread after an update of one. -/
theorem thread_mapThread (w : Workgroup) (tid j : Nat) {f : Thread → Thread} (h : ∀ t, (f t).tid = t.tid) :
    (w.mapThread tid f).thread? j = if j = tid then (w.thread? j).map f else w.thread? j := by
  split
  · next hj => rw [hj, thread_mapThread_same w tid h]
  · next hj => exact thread_mapThread_other w h hj

/-- A unit that is found has the id looked for. -/
theorem wg_id {s : State} {id : Nat} {w : Workgroup} (h : s.wg? id = some w) : w.id = id := by
  simpa using List.find?_some h
theorem group_id {s : State} {id : Nat} {g : Group} (h : s.group? id = some g) : g.id = id := by
  simpa using List.find?_some h
theorem thread_tid {w : Workgroup} {tid : Nat} {t : Thread} (h : w.thread? tid = some t) : t.tid = tid := by
  simpa using List.find?_some h

/-- The threads a word sees are the workgroup's, under their own numbers. -/
theorem View.thread_of_mem {v : View} {t : Thread} (h : t ∈ v.threads) : v.wg.thread? t.tid = some t := by
  simp only [View.threads, List.mem_filterMap] at h
  obtain ⟨n, -, h⟩ := h
  rwa [thread_tid h]

end Sys2Proof.Machine
end

