-- ==== Sys2Proof/Laws/Lanes.lean ====
section
/-!
SUPPORT. What committing the results of a fixed-latency word does, said once: the lanes take them and nothing else changes.
-/
namespace Sys2Proof.Machine
open Sys2Proof.Spec

theorem testBit_packNat_one (l : List Bool) (i : Nat) :
    (packNat 1 (l.map fun b => if b then 1 else 0)).testBit i = l.getD i false := by
  induction l generalizing i with
  | nil => simp [packNat]
  | cons b r ih =>
    rw [List.map_cons, packNat]
    cases i with
    | zero => cases b <;> simp <;> omega
    | succ i =>
      rw [Nat.testBit_succ, show ((if b then 1 else 0) % 2 ^ 1 + 2 ^ 1 * packNat 1 (r.map fun b => if b then 1 else 0)) / 2
        = packNat 1 (r.map fun b => if b then 1 else 0) by cases b <;> simp <;> omega, ih]
      rfl

/-- Bit `i` of a predicate after a masked write. -/
theorem mergeBits_bit (n : Nat) (g old new : Byte) {i : Nat} (hi : i < 8) :
    (mergeBits n g old new).getLsbD i = if decide (i < n) && g.getLsbD i then new.getLsbD i else old.getLsbD i := by
  have h := testBit_packNat_one ((List.range 8).map fun i => if decide (i < n) && g.getLsbD i then new.getLsbD i else old.getLsbD i) i
  rw [List.map_map] at h
  unfold mergeBits
  rw [BitVec.getLsbD_ofNat]
  simp only [hi, decide_true, Bool.true_and]
  refine h.trans ?_
  simp [hi]

theorem mergeBits_twice (n : Nat) (g old new : Byte) : mergeBits n g (mergeBits n g old new) new = mergeBits n g old new := by
  apply BitVec.eq_of_getLsbD_eq
  intro i hi
  rw [mergeBits_bit n g _ new hi, mergeBits_bit n g old new hi]
  split <;> rfl

theorem mergeBits_none {n : Nat} {g : Byte} (h : anyOn n g = false) (old new : Byte) : mergeBits n g old new = old := by
  apply BitVec.eq_of_getLsbD_eq
  intro i hi
  rw [mergeBits_bit n g old new hi]
  split
  · next hb =>
    simp only [Bool.and_eq_true, decide_eq_true_eq] at hb
    simp only [anyOn, List.any_eq_false, List.mem_range] at h
    exact absurd hb.2 (h i hb.1)
  · rfl

theorem merge_twice (m old v : W64) : merge m (merge m old v) v = merge m old v := by
  apply BitVec.eq_of_getLsbD_eq
  intro i hi
  simp only [merge, BitVec.getLsbD_or, BitVec.getLsbD_and, BitVec.getLsbD_not]
  cases m.getLsbD i <;> simp

theorem merge_zero (old v : W64) : merge 0 old v = old := by
  apply BitVec.eq_of_getLsbD_eq
  intro i hi
  change ((old &&& ~~~(0#64)) ||| (v &&& 0#64)).getLsbD i = _
  simp only [BitVec.getLsbD_or, BitVec.getLsbD_and, BitVec.getLsbD_not, BitVec.getLsbD_zero]
  simp [hi]

theorem merge_and (m old v : W64) : merge m old v &&& m = v &&& m := by
  apply BitVec.eq_of_getLsbD_eq
  intro i hi
  simp only [merge, BitVec.getLsbD_or, BitVec.getLsbD_and, BitVec.getLsbD_not]
  cases m.getLsbD i <;> simp

/-- What `take` leaves alone, in whatever order its parts run. -/
theorem Thread.take_tid (t : Thread) (fresh : Nat) (dst : Dst) (ready : Nat) (o : LaneOut) : (t.take fresh dst ready o).tid = t.tid := by
  unfold Thread.take Thread.push Thread.writeX Thread.writeO Thread.writeP
  cases dst <;> cases o.pred <;> simp only [] <;> repeat (first | rfl | split)

theorem Thread.take_rest (t : Thread) (fresh : Nat) (dst : Dst) (ready : Nat) (o : LaneOut) :
    { t.take fresh dst ready o with
      x := t.x, p := t.p, o := t.o, l := t.l, settling := t.settling, stale := t.stale, upsets := t.upsets } = t := by
  unfold Thread.take Thread.push Thread.writeX Thread.writeO Thread.writeP
  cases dst <;> cases o.pred <;> simp only [] <;> repeat (first | rfl | split)

theorem Thread.take_l (t : Thread) (fresh : Nat) (dst : Dst) (ready : Nat) (o : LaneOut) :
    (t.take fresh dst ready o).l = (⟨o.value, ready⟩ :: t.l).take 4 := by
  unfold Thread.take Thread.push Thread.writeX Thread.writeO Thread.writeP
  cases dst <;> cases o.pred <;> simp only [] <;> repeat (first | rfl | split)

/-- The part of `take` that writes the destination. -/
def Thread.takeReg (t : Thread) (fresh : Nat) (dst : Dst) (ready : Nat) (o : LaneOut) : Thread :=
  match dst with
  | .x n => t.writeX n o.mask o.value ready
  | .o n => t.writeO fresh n o.mask o.value ready
  | _ => t

theorem Thread.take_none (t : Thread) (fresh : Nat) (dst : Dst) (ready : Nat) {o : LaneOut} (h : o.pred = none) :
    t.take fresh dst ready o = (t.takeReg fresh dst ready o).push o.value ready := by
  unfold Thread.take
  rw [h]
  cases dst <;> rfl

theorem Thread.take_some (t : Thread) (fresh : Nat) (dst : Dst) (ready : Nat) {o : LaneOut} {w : PredWrite} (h : o.pred = some w) :
    t.take fresh dst ready o = ((t.takeReg fresh dst ready o).writeP w.q w.n w.mask w.bits ready).push o.value ready := by
  unfold Thread.take
  rw [h]
  cases dst <;> rfl

theorem writeX_upsets (t : Thread) (n : Nat) (m v : W64) (ready : Nat) : ∀ r ∈ (t.writeX n m v ready).upsets, r ∈ t.upsets := by
  intro r
  unfold Thread.writeX
  split
  · exact id
  · exact fun h => (List.mem_filter.mp h).1

theorem writeP_upsets (t : Thread) (q n : Nat) (m v : Byte) (ready : Nat) : ∀ r ∈ (t.writeP q n m v ready).upsets, r ∈ t.upsets := by
  intro r
  unfold Thread.writeP
  dsimp only
  split
  · exact id
  · exact fun h => (List.mem_filter.mp h).1

theorem takeReg_upsets (t : Thread) (fresh : Nat) (dst : Dst) (ready : Nat) (o : LaneOut) :
    ∀ r ∈ (t.takeReg fresh dst ready o).upsets, r ∈ t.upsets := by
  cases dst with
  | x n => exact writeX_upsets t n o.mask o.value ready
  | o n =>
    intro r h
    have e : (t.writeO fresh n o.mask o.value ready).upsets = t.upsets := by unfold Thread.writeO; split <;> rfl
    exact e ▸ h
  | _ => exact fun _ h => h

/-- A write puts no register in error. -/
theorem Thread.take_upsets (t : Thread) (fresh : Nat) (dst : Dst) (ready : Nat) (o : LaneOut) :
    ∀ r ∈ (t.take fresh dst ready o).upsets, r ∈ t.upsets := by
  intro r h
  cases hp : o.pred with
  | none =>
    rw [Thread.take_none t fresh dst ready hp] at h
    exact takeReg_upsets t fresh dst ready o r h
  | some w =>
    rw [Thread.take_some t fresh dst ready hp] at h
    exact takeReg_upsets t fresh dst ready o r (writeP_upsets _ w.q w.n w.mask w.bits ready r h)

theorem writeX_x (t : Thread) (n : Nat) (m v : W64) (ready k : Nat) :
    sget 0 (t.writeX n m v ready).x k = if k = n then merge m (sget 0 t.x n) v else sget 0 t.x k := by
  unfold Thread.writeX
  split
  · next h =>
    split
    · next hk => rw [h, merge_zero, hk]
    · rfl
  · exact sget_sset 0 t.x n k (merge m (sget 0 t.x n) v)

theorem takeReg_x (t : Thread) (fresh : Nat) (dst : Dst) (ready : Nat) (o : LaneOut) (n : Nat) :
    sget 0 (t.takeReg fresh dst ready o).x n = if dst = .x n then merge o.mask (sget 0 t.x n) o.value else sget 0 t.x n := by
  cases dst with
  | x m =>
    refine (writeX_x t m o.mask o.value ready n).trans ?_
    by_cases h : n = m
    · subst h; rw [if_pos rfl, if_pos rfl]
    · rw [if_neg h, if_neg (by intro e; injection e with e; exact h e.symm)]
  | o m =>
    rw [if_neg (by intro e; cases e)]
    show sget 0 (t.writeO fresh m o.mask o.value ready).x n = _
    unfold Thread.writeO; split <;> rfl
  | k m => rw [if_neg (by intro e; cases e)]; rfl
  | none => rw [if_neg (by intro e; cases e)]; rfl

theorem writeP_x (t : Thread) (q n : Nat) (m v : Byte) (ready : Nat) : (t.writeP q n m v ready).x = t.x := by
  unfold Thread.writeP; split <;> rfl
theorem writeP_o (t : Thread) (q n : Nat) (m v : Byte) (ready : Nat) : (t.writeP q n m v ready).o = t.o := by
  unfold Thread.writeP; split <;> rfl

theorem Thread.take_x (t : Thread) (fresh : Nat) (dst : Dst) (ready : Nat) (o : LaneOut) (n : Nat) :
    sget 0 (t.take fresh dst ready o).x n = if dst = .x n then merge o.mask (sget 0 t.x n) o.value else sget 0 t.x n := by
  rw [← takeReg_x t fresh dst ready o n]
  cases h : o.pred with
  | none => rw [Thread.take_none t fresh dst ready h]; rfl
  | some w =>
    rw [Thread.take_some t fresh dst ready h]
    show sget 0 ((t.takeReg fresh dst ready o).writeP w.q w.n w.mask w.bits ready).x n = _
    rw [writeP_x]

theorem takeReg_p (t : Thread) (fresh : Nat) (dst : Dst) (ready : Nat) (o : LaneOut) : (t.takeReg fresh dst ready o).p = t.p := by
  cases dst with
  | x n => show (t.writeX n o.mask o.value ready).p = t.p; unfold Thread.writeX; split <;> rfl
  | o n => show (t.writeO fresh n o.mask o.value ready).p = t.p; unfold Thread.writeO; split <;> rfl
  | _ => rfl

theorem writeP_on (t : Thread) (q n : Nat) (m v : Byte) (ready : Nat) (h : anyOn n m = true) :
    (t.writeP q n m v ready).p = sset 0 t.p q (mergeBits n m (sget 0 t.p q) v) := by
  unfold Thread.writeP
  simp only [h, Bool.not_true, Bool.not_false, Bool.false_eq_true, if_false, if_true]

theorem writeP_off (t : Thread) (q n : Nat) (m v : Byte) (ready : Nat) (h : anyOn n m = false) : t.writeP q n m v ready = t := by
  unfold Thread.writeP
  simp only [h, Bool.not_true, Bool.not_false, Bool.false_eq_true, if_false, if_true]

theorem writeP_p (t : Thread) (q n : Nat) (m v : Byte) (ready k : Nat) :
    sget 0 (t.writeP q n m v ready).p k = if q = k then mergeBits n m (sget 0 t.p k) v else sget 0 t.p k := by
  cases h : anyOn n m with
  | true =>
    rw [writeP_on t q n m v ready h, sget_sset]
    by_cases hk : k = q
    · rw [if_pos hk, if_pos hk.symm, hk]
    · rw [if_neg hk, if_neg (Ne.symm hk)]
  | false =>
    rw [writeP_off t q n m v ready h, mergeBits_none h]
    split <;> rfl

theorem Thread.take_p (t : Thread) (fresh : Nat) (dst : Dst) (ready : Nat) (o : LaneOut) (q : Nat) :
    sget 0 (t.take fresh dst ready o).p q = match o.pred with
      | some w => if w.q = q then mergeBits w.n w.mask (sget 0 t.p q) w.bits else sget 0 t.p q
      | none => sget 0 t.p q := by
  cases h : o.pred with
  | none =>
    rw [Thread.take_none t fresh dst ready h]
    show sget 0 (t.takeReg fresh dst ready o).p q = _
    rw [takeReg_p]
  | some w =>
    rw [Thread.take_some t fresh dst ready h]
    show sget 0 ((t.takeReg fresh dst ready o).writeP w.q w.n w.mask w.bits ready).p q = _
    rw [writeP_p, takeReg_p]

/-- The o registers that `take` leaves. -/
theorem Thread.take_o (t : Thread) (fresh : Nat) (dst : Dst) (ready : Nat) (o : LaneOut) :
    (t.take fresh dst ready o).o = (t.takeReg fresh dst ready o).o := by
  cases h : o.pred with
  | none => rw [Thread.take_none t fresh dst ready h]; rfl
  | some w =>
    rw [Thread.take_some t fresh dst ready h]
    exact writeP_o ..

theorem takeReg_o_other (t : Thread) (fresh : Nat) {dst : Dst} (ready : Nat) (o : LaneOut) (h : ∀ n, dst ≠ .o n) :
    (t.takeReg fresh dst ready o).o = t.o := by
  cases dst with
  | x n => show (t.writeX n o.mask o.value ready).o = t.o; unfold Thread.writeX; split <;> rfl
  | o n => exact absurd rfl (h n)
  | _ => rfl

theorem writeO_off (t : Thread) (fresh n : Nat) (v : W64) (ready : Nat) : t.writeO fresh n 0 v ready = t := if_pos rfl

theorem find_writeO (t : Thread) (fresh n : Nat) {m : W64} (v : W64) (ready k : Nat) (hm : m ≠ 0) :
    (t.writeO fresh n m v ready).o.find? (·.1 == k) =
      if k = n then some (n, ⟨merge m (((t.o.find? (·.1 == n)).map (·.2.val)).getD (Config.unwritten fresh t.tid t.retired.toNat n)) v, ready⟩)
      else t.o.find? (·.1 == k) := by
  generalize hv : (⟨merge m (((t.o.find? (·.1 == n)).map (·.2.val)).getD (Config.unwritten fresh t.tid t.retired.toNat n)) v, ready⟩ : RunVal) = e
  have hd : (t.writeO fresh n m v ready).o = (t.o.filter fun x => decide (x.1 < n)) ++ [(n, e)] ++ t.o.filter fun x => decide (n < x.1) := by
    rw [← hv]; unfold Thread.writeO; rw [if_neg hm]
  rw [hd]
  generalize t.o = l
  induction l with
  | nil => by_cases h : k = n <;> simp [h, Ne.symm]
  | cons a r ih =>
    by_cases h1 : a.1 < n
    · have h2 : ¬ n < a.1 := by omega
      simp only [List.filter_cons, h1, h2, decide_true, decide_false, if_true, if_false, Bool.false_eq_true, List.cons_append, List.find?_cons]
      by_cases h3 : a.1 = k
      · have : k ≠ n := by omega
        simp [h3, this]
      · simp only [beq_eq_false_iff_ne.mpr h3]
        simpa using ih
    · by_cases h2 : n < a.1
      · simp only [List.filter_cons, h1, h2, decide_true, decide_false, if_true, if_false, Bool.false_eq_true, List.find?_append, List.find?_cons] at ih ⊢
        by_cases h3 : a.1 = k
        · have hk : k ≠ n := by omega
          have e1 : (List.filter (fun x => decide (x.1 < n)) r).find? (·.1 == k) = none := by
            rw [List.find?_eq_none]; intro x hx; simp at hx; simp; omega
          have e2 : (n == k) = false := by simp; omega
          simp [h3, hk, e1, e2]
        · simp only [beq_eq_false_iff_ne.mpr h3]
          exact ih
      · simp only [List.filter_cons, h1, h2, decide_false, Bool.false_eq_true, if_false, List.find?_cons] at ih ⊢
        have h3 : a.1 = n := by omega
        by_cases hk : k = n
        · rw [ih, if_pos hk, if_pos hk]
        · have : (a.1 == k) = false := by simp; omega
          simp only [this]
          exact ih

theorem writeX_settling (t : Thread) (n : Nat) {m : W64} (v : W64) (ready : Nat) (hm : m ≠ 0) :
    (t.writeX n m v ready).settling = t.settling.filter (·.reg != .x n) ++ [⟨.x n, sget 0 t.x n, ready⟩] := by
  unfold Thread.writeX; rw [if_neg hm]

theorem find_settling_take (t : Thread) (fresh n ready : Nat) (o : LaneOut) (hm : o.mask ≠ 0) :
    ((t.take fresh (.x n) ready o).settling.find? (·.reg == .x n)).map (·.ready) = some ready := by
  have hn : (t.settling.filter (·.reg != .x n)).find? (·.reg == .x n) = none := by
    rw [List.find?_eq_none]; intro x hx; simpa using (List.mem_filter.mp hx).2
  have hx : (t.writeX n o.mask o.value ready).settling.find? (·.reg == .x n) = some ⟨.x n, sget 0 t.x n, ready⟩ := by
    rw [writeX_settling t n o.value ready hm, List.find?_append, hn]; simp
  cases h : o.pred with
  | none =>
    rw [Thread.take_none t fresh (.x n) ready h]
    show ((t.writeX n o.mask o.value ready).settling.find? (·.reg == .x n)).map (·.ready) = some ready
    rw [hx]; rfl
  | some w =>
    rw [Thread.take_some t fresh (.x n) ready h]
    show (((t.writeX n o.mask o.value ready).writeP w.q w.n w.mask w.bits ready).settling.find? (·.reg == .x n)).map (·.ready) = some ready
    unfold Thread.writeP
    split
    · rw [hx]; rfl
    · show ((((t.writeX n o.mask o.value ready).settling.filter (·.reg != .p w.q)) ++ _).find? (·.reg == .x n)).map (·.ready) = some ready
      have : ∀ l : List Settling, (l.filter (·.reg != .p w.q)).find? (·.reg == .x n) = l.find? (·.reg == .x n) := by
        intro l
        induction l with
        | nil => rfl
        | cons a r ih =>
          by_cases ha : a.reg = .p w.q
          · simp [List.filter_cons, List.find?_cons, ha, ih]
          · simp [List.filter_cons, List.find?_cons, ha, ih]
      rw [List.find?_append, this, hx]; rfl

theorem takeReg_o_at (t : Thread) (fresh : Nat) {dst : Dst} (ready : Nat) (o : LaneOut) {n : Nat} (h : dst ≠ .o n) :
    (t.takeReg fresh dst ready o).o.find? (·.1 == n) = t.o.find? (·.1 == n) := by
  cases dst with
  | o m =>
    show (t.writeO fresh m o.mask o.value ready).o.find? (·.1 == n) = _
    by_cases hm : o.mask = 0
    · rw [hm, writeO_off]
    · exact (find_writeO t fresh m o.value ready n hm).trans (if_neg fun e => h (by rw [e]))
  | _ => rw [takeReg_o_other t fresh ready o (by intro k e; cases e)]

/-- One take. -/
theorem took_take (fresh : Nat) (dst : Dst) (ready : Nat) (r : LaneOut) (a : Thread) : Took dst ready r a (a.take fresh dst ready r) where
  x := Thread.take_x a fresh dst ready r
  p := Thread.take_p a fresh dst ready r
  own := by
    intro n h
    subst h
    rw [Thread.take_o]
    show if r.mask = 0 then (a.writeO fresh n r.mask r.value ready).o.find? (·.1 == n) = _ else _
    split
    · next h => rw [h, writeO_off]
    · next h =>
      refine ⟨_, (find_writeO a fresh n r.value ready n h).trans (if_pos rfl), rfl, merge_and .., ?_⟩
      intro old ho
      simp [ho]
  others := by
    intro n h
    rw [Thread.take_o, takeReg_o_at a fresh ready r h]
  l := by simp [Thread.take_l]
  usable := by
    intro n h hm
    subst h
    exact find_settling_take a fresh n ready r hm
  upsets := Thread.take_upsets a fresh dst ready r
  rest := Thread.take_rest a fresh dst ready r

/-- Taking the same result again changes nothing that matters. -/
theorem took_again {fresh : Nat} {dst : Dst} {ready : Nat} {r : LaneOut} {a b : Thread} (h : Took dst ready r a b) :
    Took dst ready r a (b.take fresh dst ready r) where
  x := by
    intro n
    rw [Thread.take_x, h.x]
    split
    · exact merge_twice ..
    · rfl
  p := by
    intro q
    rw [Thread.take_p, h.p]
    cases r.pred with
    | none => rfl
    | some w =>
      simp only
      split
      · exact mergeBits_twice ..
      · rfl
  own := by
    intro n hn
    have h0 := h.own n hn
    subst hn
    rw [Thread.take_o]
    show if r.mask = 0 then (b.writeO fresh n r.mask r.value ready).o.find? (·.1 == n) = _ else _
    split
    · next hm =>
      rw [if_pos hm] at h0
      rw [hm, writeO_off, h0]
    · next hm =>
      rw [if_neg hm] at h0
      obtain ⟨e, he, h1, h2, h3⟩ := h0
      refine ⟨_, (find_writeO b fresh n r.value ready n hm).trans (if_pos rfl), rfl, merge_and .., ?_⟩
      intro old ho
      simp only [he, Option.map_some, Option.getD_some]
      rw [h3 old ho, merge_twice]
  others := by
    intro n hn
    rw [← h.others n hn, Thread.take_o, takeReg_o_at b fresh ready r hn]
  l := by simp [Thread.take_l]
  usable := by
    intro n hn hm
    subst hn
    exact find_settling_take b fresh n ready r hm
  upsets := fun x hx => h.upsets x (Thread.take_upsets b fresh dst ready r x hx)
  rest := by
    have h1 := Thread.take_rest b fresh dst ready r
    have h2 := h.rest
    rw [← h1] at h2
    exact h2

/-- The results of the lanes, written in order into a workgroup. -/
def Workgroup.takeAll (w : Workgroup) (fresh : Nat) (dst : Dst) (ready : Nat) (outs : List LaneOut) : Workgroup :=
  outs.foldl (fun w o => w.mapThread o.tid fun t => t.take fresh dst ready o) w

theorem takeAll_parts (w : Workgroup) (fresh : Nat) (dst : Dst) (ready : Nat) (outs : List LaneOut) :
    (w.takeAll fresh dst ready outs).id = w.id ∧ { w.takeAll fresh dst ready outs with threads := [] } = { w with threads := [] } := by
  induction outs generalizing w with
  | nil => exact ⟨rfl, rfl⟩
  | cons o r ih => exact ⟨(ih (w.mapThread o.tid fun t => t.take fresh dst ready o)).1, (ih (w.mapThread o.tid fun t => t.take fresh dst ready o)).2⟩

theorem takeAll_absent (w : Workgroup) (fresh : Nat) (dst : Dst) (ready : Nat) (outs : List LaneOut) {tid : Nat}
    (h : ∀ o ∈ outs, o.tid ≠ tid) : (w.takeAll fresh dst ready outs).thread? tid = w.thread? tid := by
  induction outs generalizing w with
  | nil => rfl
  | cons o r ih =>
    refine (ih (w.mapThread o.tid fun t => t.take fresh dst ready o) fun o ho => h o (List.mem_cons_of_mem _ ho)).trans ?_
    exact thread_mapThread_other w (fun t => Thread.take_tid t fresh dst ready o) (Ne.symm (h o List.mem_cons_self))

/-- A thread that has taken its result keeps it, whatever its further entries. -/
theorem takeAll_keep (w : Workgroup) (fresh : Nat) (dst : Dst) (ready : Nat) (outs : List LaneOut) {r : LaneOut} {a b : Thread}
    (hr : ∀ o ∈ outs, o.tid = a.tid → o = r) (hb : w.thread? a.tid = some b) (hk : Took dst ready r a b) :
    ∃ c, (w.takeAll fresh dst ready outs).thread? a.tid = some c ∧ Took dst ready r a c := by
  induction outs generalizing w b with
  | nil => exact ⟨b, hb, hk⟩
  | cons o l ih =>
    have hl := fun o' ho' => hr o' (List.mem_cons_of_mem o ho')
    have ht := thread_mapThread w o.tid a.tid (fun t => Thread.take_tid t fresh dst ready o)
    by_cases h : o.tid = a.tid
    · have e := hr o List.mem_cons_self h
      subst e
      rw [if_pos h.symm, hb] at ht
      exact ih (w.mapThread o.tid fun t => t.take fresh dst ready o) hl ht (took_again hk)
    · rw [if_neg (Ne.symm h), hb] at ht
      exact ih (w.mapThread o.tid fun t => t.take fresh dst ready o) hl ht hk

theorem takeAll_took (w : Workgroup) (fresh : Nat) (dst : Dst) (ready : Nat) (outs : List LaneOut) {r : LaneOut} {a : Thread}
    (hr : ∀ o ∈ outs, o.tid = a.tid → o = r) (ha : w.thread? a.tid = some a) (hm : ∃ o ∈ outs, o.tid = a.tid) :
    ∃ c, (w.takeAll fresh dst ready outs).thread? a.tid = some c ∧ Took dst ready r a c := by
  induction outs generalizing w with
  | nil => obtain ⟨o, ho, _⟩ := hm; cases ho
  | cons o l ih =>
    have hl := fun o' ho' => hr o' (List.mem_cons_of_mem o ho')
    have ht := thread_mapThread w o.tid a.tid (fun t => Thread.take_tid t fresh dst ready o)
    by_cases h : o.tid = a.tid
    · have e := hr o List.mem_cons_self h
      subst e
      rw [if_pos h.symm, ha] at ht
      exact takeAll_keep (w.mapThread o.tid fun t => t.take fresh dst ready o) fresh dst ready l hl ht (took_take fresh dst ready o a)
    · rw [if_neg (Ne.symm h), ha] at ht
      obtain ⟨o', ho', e⟩ := hm
      rcases List.mem_cons.mp ho' with rfl | ho'
      · exact absurd e h
      · exact ih (w.mapThread o.tid fun t => t.take fresh dst ready o) hl ht ⟨o', ho', e⟩

theorem commit_fold (s : State) (lin wg : Nat) (dst : Dst) (lat : Nat) (outs : List LaneOut) :
    (outs.foldl (fun s o => s.mapThread wg o.tid fun t => t.take lin dst (s.cyc + lat) o) s).wg? wg =
        (s.wg? wg).map (·.takeAll lin dst (s.cyc + lat) outs) ∧
    (∀ id, id ≠ wg → (outs.foldl (fun s o => s.mapThread wg o.tid fun t => t.take lin dst (s.cyc + lat) o) s).wg? id = s.wg? id) ∧
    { outs.foldl (fun s o => s.mapThread wg o.tid fun t => t.take lin dst (s.cyc + lat) o) s with wgs := s.wgs } = s := by
  induction outs generalizing s with
  | nil =>
    refine ⟨?_, fun _ _ => rfl, rfl⟩
    cases h : s.wg? wg <;> simp [Workgroup.takeAll, h]
  | cons o r ih =>
    obtain ⟨h1, h2, h3⟩ := ih (s.mapThread wg o.tid fun t => t.take lin dst (s.cyc + lat) o)
    refine ⟨?_, ?_, ?_⟩
    · refine h1.trans ?_
      rw [show (s.mapThread wg o.tid fun t => t.take lin dst (s.cyc + lat) o).wg? wg = _ from
        wg_mapWg_same s wg (f := (·.mapThread o.tid fun t => t.take lin dst (s.cyc + lat) o)) fun _ => rfl, Option.map_map]
      rfl
    · intro id hid
      exact (h2 id hid).trans (wg_mapWg_other s (fun _ => rfl) hid)
    · have e : ({ s.mapThread wg o.tid (fun t => t.take lin dst (s.cyc + lat) o) with wgs := s.wgs } : State) = s := rfl
      rw [← h3] at e
      exact e

theorem supersede_ops (s : State) (wg : Nat) (tids : List Nat) (n : Nat) :
    (s.supersede wg tids n).ops.map (fun o => { o with dropped := [] }) = s.ops.map fun o => { o with dropped := [] } := by
  simp only [State.supersede, List.map_map]
  apply List.map_congr_left
  intro o _
  simp only [Function.comp_apply]
  split <;> rfl

/-- What committing the lanes' results does to a package whose workgroup `w` has the view's threads. -/
theorem commit_parts (s : State) (v : View) {w : Workgroup} (hw : s.wg? v.wg.id = some w) (ht : w.threads = v.wg.threads) (dst : Dst)
    (lat : Nat) (out : Thread → LaneOut) (ho : ∀ t, (out t).tid = t.tid) :
    (∀ a ∈ v.threads, ∃ b, (s.commit v dst lat (v.threads.map out)).thread? v.wg.id a.tid = some b ∧ Took dst (s.cyc + lat) (out a) a b) ∧
    (∀ tid, (∀ a ∈ v.threads, a.tid ≠ tid) → (s.commit v dst lat (v.threads.map out)).thread? v.wg.id tid = s.thread? v.wg.id tid) ∧
    (∃ u, (s.commit v dst lat (v.threads.map out)).wg? v.wg.id = some u ∧ { u with threads := [] } = { w with threads := [] }) ∧
    (∀ id, id ≠ v.wg.id → (s.commit v dst lat (v.threads.map out)).wg? id = s.wg? id) ∧
    (s.commit v dst lat (v.threads.map out)).ops.map (fun o => { o with dropped := [] }) = s.ops.map (fun o => { o with dropped := [] }) ∧
    { s.commit v dst lat (v.threads.map out) with wgs := s.wgs, ops := s.ops } = s := by
  have key : ∃ u : State, u.cyc = s.cyc ∧ u.wgs = s.wgs ∧ { u with ops := s.ops } = s ∧
      u.ops.map (fun o => { o with dropped := [] }) = s.ops.map (fun o => { o with dropped := [] }) ∧
      s.commit v dst lat (v.threads.map out) =
        (v.threads.map out).foldl (fun s o => s.mapThread v.wg.id o.tid fun t => t.take v.wg.w dst (s.cyc + lat) o) u := by
    cases dst with
    | x n => exact ⟨s.supersede v.wg.id _ n, rfl, rfl, rfl, supersede_ops .., rfl⟩
    | _ => exact ⟨s, rfl, rfl, rfl, rfl, rfl⟩
  obtain ⟨u, e2, e3, e4, e5, e6⟩ := key
  have eu : ∀ id, u.wg? id = s.wg? id := fun id => by unfold State.wg?; rw [e3]
  have et : ∀ tid, w.thread? tid = v.wg.thread? tid := fun tid => by unfold Workgroup.thread?; rw [ht]
  obtain ⟨h1, h2, h3⟩ := commit_fold u v.wg.w v.wg.id dst lat (v.threads.map out)
  rw [← e6] at h1 h2 h3
  rw [eu, hw, e2, Option.map_some] at h1
  have hp := takeAll_parts w v.wg.w dst (s.cyc + lat) (v.threads.map out)
  refine ⟨?_, ?_, ⟨_, h1, hp.2⟩, ?_, ?_, ?_⟩
  · intro a ha
    have hwa := (et a.tid).trans (View.thread_of_mem ha)
    obtain ⟨c, hc, hk⟩ := takeAll_took w v.wg.w dst (s.cyc + lat) (v.threads.map out) (r := out a) (a := a)
      (by
        intro o hm he
        obtain ⟨b, hb, rfl⟩ := List.mem_map.mp hm
        have : b.tid = a.tid := (ho b).symm.trans he
        have hb' := View.thread_of_mem hb
        rw [this, ← et, hwa] at hb'
        rw [Option.some.inj hb'])
      hwa ⟨out a, List.mem_map_of_mem ha, ho a⟩
    exact ⟨c, by rw [State.thread?, h1]; exact hc, hk⟩
  · intro tid hne
    rw [State.thread?, State.thread?, h1, hw]
    refine takeAll_absent w v.wg.w dst (s.cyc + lat) _ fun o hm => ?_
    obtain ⟨b, hb, rfl⟩ := List.mem_map.mp hm
    rw [ho b]
    exact hne b hb
  · intro id hid
    rw [h2 id hid, eu]
  · rw [← e5]
    have := congrArg State.ops h3
    simp only at this
    rw [this]
  · have e7 : ({ ({ s.commit v dst lat (v.threads.map out) with wgs := u.wgs } : State) with ops := s.ops } : State) = s := by rw [h3]; exact e4
    rw [e3] at e7
    exact e7

/-- Committing the lanes' results: each present lane takes its own, and nothing else changes. -/
theorem laneEffect_commit (s : State) (v : View) (hw : s.wg? v.wg.id = some v.wg) (dst : Dst) (lat : Nat) (out : Thread → LaneOut)
    (ho : ∀ t, (out t).tid = t.tid) : LaneEffect s (s.commit v dst lat (v.threads.map out)) v dst (s.cyc + lat) out := by
  obtain ⟨h1, h2, ⟨u, h3, h4⟩, h5, h6, h7⟩ := commit_parts s v hw rfl dst lat out ho
  exact ⟨h1, h2, by rw [h3]; exact congrArg some h4, h5, h6, h7⟩

/-- Taking the destinations of some pending results. -/
theorem undirected_drop (s : State) {p : LongOp → Bool} {f : LongOp → LongOp} (h : ∀ o, f o = if p o then { o with dst := .none } else o) :
    (s.ops.map f).map undirected = s.ops.map undirected := by
  rw [List.map_map]
  apply List.map_congr_left
  intro o _
  simp only [Function.comp_apply, h]
  split <;> rfl

/-- Writing a k register of a workgroup: a higher partition's write of the same clk stands (R15). -/
theorem writeK_parts (s : State) (v : View) (hw : s.wg? v.wg.id = some v.wg) (n : Nat) (x : W64) (lat : Nat) :
    ∃ w, (s.writeK v n x lat).wg? v.wg.id = some w ∧ w.threads = v.wg.threads ∧
      besidesLanes w = besidesLanes v.wg ∧
      (∀ m, sget 0 w.k m =
        if m = n ∧ (v.wg.ksettling.any fun e => e.k == n && e.clk == s.cyc && decide (v.g.part < e.part)) = false then x
        else sget 0 v.wg.k m) ∧
      (∀ id, id ≠ v.wg.id → (s.writeK v n x lat).wg? id = s.wg? id) ∧
      (s.writeK v n x lat).ops.map undirected = s.ops.map undirected ∧ { s.writeK v n x lat with wgs := s.wgs, ops := s.ops } = s := by
  let f : Workgroup → Workgroup := fun w =>
    if w.ksettling.any fun e => e.k == n && e.clk == s.cyc && decide (v.g.part < e.part) then w
    else { w with k := sset 0 w.k n x
                  ksettling := w.ksettling.filter (·.k != n) ++ [⟨n, sget 0 w.k n, s.cyc + lat, some v.g.id, v.g.part, s.cyc⟩]
                  upsets := w.upsets.filter (· != .k n) }
  have hf : ∀ w, (f w).id = w.id := fun w => by simp only [f]; split <;> rfl
  obtain ⟨u, hu, hu'⟩ : ∃ u : State, s.writeK v n x lat = u.mapWg v.wg.id f ∧ u.wgs = s.wgs ∧ { u with ops := s.ops } = s := ⟨_, rfl, rfl, rfl⟩
  have eu : ∀ id, u.wg? id = s.wg? id := fun id => by unfold State.wg?; rw [hu'.1]
  refine ⟨f v.wg, by rw [hu, wg_mapWg_same u v.wg.id hf, eu, hw]; rfl, ?_, ?_, ?_, ?_, ?_, ?_⟩
  · simp only [f]; split <;> rfl
  · simp only [f]
    split
    · rfl
    · unfold besidesLanes
      simp only [List.filter_filter]
      congr 1
      apply List.filter_congr
      intro u _
      cases u with
      | k m => rfl
      | _ => rfl
  · intro m
    simp only [f]
    cases hb : (v.wg.ksettling.any fun e => e.k == n && e.clk == s.cyc && decide (v.g.part < e.part)) with
    | true => rw [if_pos rfl, if_neg (by simp)]
    | false =>
      rw [if_neg (by simp)]
      show sget 0 (sset 0 v.wg.k n x) m = _
      rw [sget_sset]
      by_cases hm : m = n
      · rw [if_pos hm, if_pos ⟨hm, rfl⟩]
      · rw [if_neg hm, if_neg (fun h => hm h.1)]
  · intro id hid
    rw [hu, wg_mapWg_other u hf hid, eu]
  · exact undirected_drop s fun _ => rfl
  · have e := hu'.2
    rw [← hu'.1]
    rw [hu]
    exact e

theorem stream_mapStream_same (s : State) (w : Nat) (f : Stream → Stream) : (s.mapStream w f).stream? w = (s.stream? w).map f := by
  unfold State.stream? State.mapStream
  rw [wg_mapWg_same s w (f := fun w => { w with stream := w.stream.map f }) fun _ => rfl]
  cases s.wg? w <;> rfl

theorem stream_mapStream_other (s : State) {w j : Nat} (f : Stream → Stream) (h : j ≠ w) : (s.mapStream w f).stream? j = s.stream? j := by
  unfold State.stream? State.mapStream
  rw [wg_mapWg_other s (f := fun w => { w with stream := w.stream.map f }) (fun _ => rfl) h]

theorem modify_get_same {α : Type} (l : List α) (n : Nat) (f : α → α) : (l.modify n f)[n]? = l[n]?.map f := by
  rw [List.getElem?_modify]; simp
theorem modify_get_other {α : Type} (l : List α) {n m : Nat} (f : α → α) (h : m ≠ n) : (l.modify n f)[m]? = l[m]? := by
  rw [List.getElem?_modify]; simp [Ne.symm h]

/-- Reading the k registers of an executor without lanes after a write to one of them. -/
theorem unitK_setUnitK (s : State) (i j : UnitId) (n m : Nat) (x : W64) :
    (s.setUnitK i n x).unitK j m = if j = i ∧ m = n ∧ holds s i = true then x else s.unitK j m := by
  cases i with
  | group g =>
    rw [if_neg (by rintro ⟨-, -, h⟩; cases h)]
    cases j <;> rfl
  | stream w =>
    cases j with
    | stream w' =>
      let f : Stream → Stream := fun y =>
        { y with k := sset 0 y.k n x, queue := y.queue.map (fun q => { q with instr := q.instr.superseded n }), upsets := y.upsets.filter (· != n) }
      obtain ⟨u, hu, hw⟩ : ∃ u : State, s.setUnitK (.stream w) n x = u.mapStream w f ∧ u.wgs = s.wgs := ⟨_, rfl, rfl⟩
      have eu : ∀ k, u.stream? k = s.stream? k := fun k => by unfold State.stream? State.wg?; rw [hw]
      rw [hu]
      by_cases h : w' = w
      · subst h
        show ((u.mapStream w' f).stream? w' |>.map fun x => sget 0 x.k m).getD 0 = _
        rw [stream_mapStream_same, eu]
        simp only [holds]
        cases hs : s.stream? w' with
        | none => simp [State.unitK, hs]
        | some y =>
          show sget 0 (sset 0 y.k n x) m = _
          rw [sget_sset]
          by_cases hm : m = n
          · rw [if_pos hm, if_pos (by simp [hm])]
          · rw [if_neg hm, if_neg (fun h => hm h.2.1)]
            simp [State.unitK, hs]
      · show ((u.mapStream w f).stream? w' |>.map fun x => sget 0 x.k m).getD 0 = _
        rw [stream_mapStream_other u f h, eu, if_neg (by rintro ⟨e, -⟩; injection e with e; exact h e)]
        rfl
    | _ => rw [if_neg (by rintro ⟨h, -⟩; cases h)]; rfl
  | fabric p =>
    cases j with
    | fabric p' =>
      let f : FabricProc → FabricProc := fun y => { y.supersede n with k := sset 0 y.k n x }
      obtain ⟨u, hu, hw⟩ : ∃ u : State, s.setUnitK (.fabric p) n x = u.mapProc p f ∧ u.procs = s.procs := ⟨_, rfl, rfl⟩
      rw [hu]
      show ((u.procs.modify p f)[p']?.map fun x => sget 0 x.k m).getD 0 = _
      rw [hw]
      by_cases h : p' = p
      · subst h
        rw [modify_get_same]
        simp only [holds, State.proc?]
        cases hs : s.procs[p']? with
        | none => simp [State.unitK, State.proc?, hs]
        | some y =>
          show sget 0 (sset 0 y.k n x) m = _
          rw [sget_sset]
          by_cases hm : m = n
          · rw [if_pos hm, if_pos (by simp [hm])]
          · rw [if_neg hm, if_neg (fun h => hm h.2.1)]
            simp [State.unitK, State.proc?, hs]
      · rw [modify_get_other _ f h, if_neg (by rintro ⟨e, -⟩; injection e with e; exact h e)]
        rfl
    | _ => rw [if_neg (by rintro ⟨h, -⟩; cases h)]; rfl
  | control c =>
    cases j with
    | control c' =>
      let f : Control → Control := fun y => { y with k := sset 0 y.k n x }
      obtain ⟨u, hu, hw⟩ : ∃ u : State, s.setUnitK (.control c) n x = u.mapControl c f ∧ u.controls = s.controls := ⟨_, rfl, rfl⟩
      rw [hu]
      show ((u.controls.modify c f)[c']?.map fun x => sget 0 x.k m).getD 0 = _
      rw [hw]
      by_cases h : c' = c
      · subst h
        rw [modify_get_same]
        simp only [holds, State.control?]
        cases hs : s.controls[c']? with
        | none => simp [State.unitK, State.control?, hs]
        | some y =>
          show sget 0 (sset 0 y.k n x) m = _
          rw [sget_sset]
          by_cases hm : m = n
          · rw [if_pos hm, if_pos (by simp [hm])]
          · rw [if_neg hm, if_neg (fun h => hm h.2.1)]
            simp [State.unitK, State.control?, hs]
      · rw [modify_get_other _ f h, if_neg (by rintro ⟨e, -⟩; injection e with e; exact h e)]
        rfl
    | _ => rw [if_neg (by rintro ⟨h, -⟩; cases h)]; rfl

theorem map_updFirst {α β : Type} (p : α → Bool) (f : α → α) (g : α → β) (h : ∀ a, g (f a) = g a) (l : List α) :
    (updFirst p f l).map g = l.map g := by
  induction l with
  | nil => rfl
  | cons a r ih => unfold updFirst; split <;> simp [h, ih]

theorem map_modify {α β : Type} (f : α → α) (g : α → β) (h : ∀ a, g (f a) = g a) (l : List α) (n : Nat) :
    (l.modify n f).map g = l.map g := by
  induction l generalizing n with
  | nil => cases n <;> rfl
  | cons a r ih => cases n <;> simp [h, ih]

theorem unaimed_superseded (n : Nat) (w : MatrixWork) : unaimed (w.superseded n) = unaimed w := by
  cases w with
  | pin d key t => cases d with
    | k m => simp only [MatrixWork.superseded]; split <;> rfl
    | _ => rfl
  | _ => rfl

/-- Writing a k register of an executor without lanes changes nothing beside k registers and pending destinations. -/
theorem setUnitK_frame (s : State) (i : UnitId) (n : Nat) (x : W64) : besidesK (s.setUnitK i n x) = besidesK s := by
  have ho : ∀ o, (if o.issuer == i && o.dst == .k n then { o with dst := .none } else o) =
      if (fun o : LongOp => o.issuer == i && o.dst == .k n) o then ({ o with dst := .none } : LongOp) else o := fun _ => rfl
  cases i with
  | group g => unfold State.setUnitK besidesK; simp only [undirected_drop s ho]
  | stream w =>
    unfold State.setUnitK State.mapStream State.mapWg besidesK
    simp only [undirected_drop s ho]
    rw [map_updFirst]
    intro a
    cases a.stream <;> simp [unaimed_superseded]
  | fabric p =>
    unfold State.setUnitK State.mapProc besidesK
    simp only [undirected_drop s ho]
    rw [map_modify]
    intro a
    simp only [FabricProc.supersede, List.map_map]
    congr 1
    apply List.map_congr_left
    intro b _
    cases hb : b.active <;> simp [hb]
  | control c =>
    unfold State.setUnitK State.mapControl besidesK
    simp only [undirected_drop s ho]
    rw [map_modify]
    intro a; rfl

/-- Writing a k register of an executor without lanes. -/
theorem unit_effect (s : State) (i : UnitId) (dst : Dst) (lat : Nat) (x : W64) :
    UniEffect s (s.uniCommit (.unit i) dst lat x) (.unit i) dst lat x := by
  cases dst with
  | k n =>
    refine ⟨fun m => ?_, fun j hj m => ?_, setUnitK_frame s i n x⟩
    · refine (unitK_setUnitK s i i n m x).trans ?_
      by_cases hm : m = n
      · subst hm; simp
      · rw [if_neg (fun h => hm h.2.1), if_neg (by rintro ⟨h, -⟩; injection h with h; exact hm h.symm)]
    · exact (unitK_setUnitK s i j n m x).trans (if_neg fun h => hj h.1)
  | _ =>
    refine ⟨fun n => ?_, fun _ _ _ => rfl, rfl⟩
    rw [if_neg (by rintro ⟨h, -⟩; cases h)]
    rfl

/-- The result of a uniform word (R36). -/
theorem uniEffect_commit (s : State) (u : Uni) (hw : ∀ v t on, u = .lane v t on → s.wg? v.wg.id = some v.wg)
    (dst : Dst) (lat : Nat) (x : W64) : UniEffect s (s.uniCommit u dst lat x) u dst lat x := by
  cases u with
  | lane v t on =>
    have hw := hw v t on rfl
    obtain ⟨s0, w, e1, hw0, ht0, hk0, hn0, hj0, hu0, hf0⟩ : ∃ (s0 : State) (w : Workgroup),
        s.uniCommit (.lane v t on) dst lat x = s0.commit v dst lat (v.threads.map (uniOut on x)) ∧ s0.wg? v.wg.id = some w ∧
        w.threads = v.wg.threads ∧
        besidesLanes w = besidesLanes v.wg ∧
        (∀ n, sget 0 w.k n =
          if dst = .k n ∧ (v.wg.ksettling.any fun e => e.k == n && e.clk == s.cyc && decide (v.g.part < e.part)) = false then x
          else sget 0 v.wg.k n) ∧
        (∀ id, id ≠ v.wg.id → s0.wg? id = s.wg? id) ∧ s0.ops.map undirected = s.ops.map undirected ∧
        { s0 with wgs := s.wgs, ops := s.ops } = s := by
      cases dst with
      | k n =>
        obtain ⟨w, h1, h2, h3, h4, h5, h6, h7⟩ := writeK_parts s v hw n x lat
        refine ⟨s.writeK v n x lat, w, rfl, h1, h2, h3, fun m => ?_, h5, h6, h7⟩
        rw [h4 m]
        by_cases hm : m = n
        · subst hm; simp
        · rw [if_neg (fun h => hm h.1), if_neg (by rintro ⟨h, -⟩; injection h with h; exact hm h.symm)]
      | _ => exact ⟨s, v.wg, rfl, hw, rfl, rfl, fun n => by rw [if_neg (by rintro ⟨h, -⟩; cases h)], fun _ _ => rfl, rfl, rfl⟩
    have ec : s0.cyc = s.cyc := by have := congrArg State.cyc hf0; exact this
    have eth : s0.thread? v.wg.id = s.thread? v.wg.id := by
      funext tid
      simp only [State.thread?, hw0, hw, Option.bind_some, Workgroup.thread?, ht0]
    obtain ⟨h1, h2, ⟨b, h3, h4⟩, h5, h6, h7⟩ := commit_parts s0 v hw0 ht0 dst lat (uniOut on x) fun _ => rfl
    rw [e1]
    rw [ec] at h1
    refine ⟨h1, fun tid h => (h2 tid h).trans (by rw [eth]), ⟨b, h3, ?_, ?_⟩, fun id h => (h5 id h).trans (hj0 id h), ?_, ?_⟩
    · have : besidesLanes { b with threads := [] } = besidesLanes { w with threads := [] } := by rw [h4]
      exact this.trans hk0
    · intro n
      have : b.k = w.k := by have := congrArg Workgroup.k h4; exact this
      rw [this]
      exact hn0 n
    · have e := congrArg (List.map undirected) h6
      simp only [List.map_map] at e
      exact e.trans hu0
    · have e : ({ ({ s0.commit v dst lat (v.threads.map (uniOut on x)) with wgs := s0.wgs, ops := s0.ops } : State) with
          wgs := s.wgs, ops := s.ops } : State) = s := by rw [h7]; exact hf0
      exact e
  | unit i => exact unit_effect s i dst lat x

end Sys2Proof.Machine
end

