-- ==== Sys2Proof/Laws/Memory.lean ====
section
/-!
SUPPORT. The operations over memory: each keeps its canonical form, reads give what was written, a write leaves every other byte. These are
the only operations that change memory, but for the resets and `withFetchWord`.
-/
namespace Sys2Proof.Machine

/-- The memory of reset is canonical. -/
theorem reset_canonical : State.reset.MemoryCanonical := rfl

/-- Giving a segment its zeros (R204) keeps memory canonical. -/
theorem touch_canonical {s : State} (h : s.MemoryCanonical) (pa : Nat) : (s.touch pa).MemoryCanonical := by
  unfold State.touch
  simp only []
  split
  · show swf 0 (sdrop (fun a => a / 0x8000 == pa / 0x8000) s.mem) = true
    exact swf_sdrop 0 h _
  · exact h

/-- So does giving them to several addresses. -/
theorem touches_canonical {s : State} (h : s.MemoryCanonical) (l : List (Nat × Byte)) :
    (l.foldl (fun s e => s.touch e.1) s).MemoryCanonical := by
  induction l generalizing s with
  | nil => exact h
  | cons e r ih => exact ih (touch_canonical h e.1)

/-- Writing L1 bytes back keeps memory canonical. -/
theorem writeBack_canonical {s : State} (h : s.MemoryCanonical) (p : Nat → Bool) : (s.writeBack p).MemoryCanonical :=
  swf_ssetEach 0 h _

/-- An eviction keeps memory canonical. -/
theorem evictOthers_canonical {s : State} (h : s.MemoryCanonical) (core : Option Nat) (pa : Nat) :
    (s.evictOthers core pa).MemoryCanonical := by
  unfold State.evictOthers
  simp only []
  split
  · exact writeBack_canonical h _
  · exact h

/-- A read at home keeps memory canonical. -/
theorem homeRead_canonical {s : State} (h : s.MemoryCanonical) (core : Option Nat) (pa n : Nat) : (s.homeRead core pa n).2.MemoryCanonical :=
  evictOthers_canonical (touch_canonical h pa) core pa

/-- A write at home keeps memory canonical. -/
theorem homeWrite_canonical {s : State} (h : s.MemoryCanonical) (l : List (Nat × Byte)) : (s.homeWrite l).MemoryCanonical :=
  swf_ssetEach 0 (touches_canonical h l) l

/-- A write of several bytes leaves a byte that it does not name. -/
theorem sget_ssetEach_other {α : Type} [DecidableEq α] (d : α) (m : Sparse α) (l : List (Nat × α)) {a : Nat} (h : a ∉ l.map (·.1)) :
    sget d (ssetEach d m l) a = sget d m a := by
  induction l generalizing m with
  | nil => rfl
  | cons e r ih =>
    simp only [List.map_cons, List.mem_cons, not_or] at h
    rw [ssetEach, ih _ h.2, sget_sset_other d m e.2 h.1]

/-- A byte written once reads as it was written. -/
theorem sget_ssetEach_at {α : Type} [DecidableEq α] (d : α) (m : Sparse α) (l : List (Nat × α)) (h : (l.map (·.1)).Nodup)
    {e : Nat × α} (he : e ∈ l) : sget d (ssetEach d m l) e.1 = e.2 := by
  induction l generalizing m with
  | nil => cases he
  | cons f r ih =>
    simp only [List.map_cons, List.nodup_cons] at h
    rcases List.mem_cons.mp he with rfl | he
    · rw [ssetEach, sget_ssetEach_other d _ r h.1, sget_sset_same]
    · exact ih _ h.2 he

/-- What a write at home leaves in memory: its own bytes where no address occurs twice, and every other byte as after the zero fill of the
segments it touches. -/
theorem homeWrite_bytes (s : State) (l : List (Nat × Byte)) (h : (l.map (·.1)).Nodup) :
    (∀ e ∈ l, memByte (s.homeWrite l).mem e.1 = e.2) ∧
      ∀ a, a ∉ l.map (·.1) → memByte (s.homeWrite l).mem a = memByte (l.foldl (fun s e => s.touch e.1) s).mem a :=
  ⟨fun _ he => sget_ssetEach_at 0 _ l h he, fun _ ha => sget_ssetEach_other 0 _ l ha⟩

/-- A zero fill changes memory only where the touched segment lies, and there to 0. -/
theorem touch_byte (s : State) (pa a : Nat) :
    memByte (s.touch pa).mem a = memByte s.mem a ∨ (a / 0x8000 = pa / 0x8000 ∧ memByte (s.touch pa).mem a = 0) := by
  unfold State.touch
  simp only []
  split
  · by_cases h : a / 0x8000 = pa / 0x8000
    · right
      refine ⟨h, ?_⟩
      simp only [memByte, sdrop]
      induction s.mem with
      | nil => rfl
      | cons e r ih =>
        simp only [List.filter_cons]
        split
        · rename_i he
          have : a ≠ e.1 := by rintro rfl; simp [h] at he
          simpa [sget, this] using ih
        · exact ih
    · left
      simp only [memByte, sdrop]
      induction s.mem with
      | nil => rfl
      | cons e r ih =>
        simp only [List.filter_cons]
        split
        · simp only [sget]; split
          · rfl
          · exact ih
        · rename_i he
          have : a ≠ e.1 := by rintro rfl; simp [h] at he
          simpa [sget, this] using ih
  · exact .inl rfl

end Sys2Proof.Machine
end

