-- ==== Sys2Proof/Laws/State.lean ====
section
/-!
SUPPORT. What each update of the state leaves in each field: one lemma per field per update, true by unfolding, so that no proof
unfolds a record update.
-/
namespace Sys2Proof.Machine

/-! ### `mapWg` -/

@[simp] theorem State.mapWg_todo (s : State) (id : Nat) (f : Workgroup → Workgroup) : (s.mapWg id f).todo = s.todo := rfl
@[simp] theorem State.mapWg_turn (s : State) (id : Nat) (f : Workgroup → Workgroup) : (s.mapWg id f).turn = s.turn := rfl
@[simp] theorem State.mapWg_hold (s : State) (id : Nat) (f : Workgroup → Workgroup) : (s.mapWg id f).hold = s.hold := rfl
@[simp] theorem State.mapWg_fresh (s : State) (id : Nat) (f : Workgroup → Workgroup) : (s.mapWg id f).fresh = s.fresh := rfl
@[simp] theorem State.mapWg_cyc (s : State) (id : Nat) (f : Workgroup → Workgroup) : (s.mapWg id f).cyc = s.cyc := rfl
@[simp] theorem State.mapWg_seq (s : State) (id : Nat) (f : Workgroup → Workgroup) : (s.mapWg id f).seq = s.seq := rfl
@[simp] theorem State.mapWg_mem (s : State) (id : Nat) (f : Workgroup → Workgroup) : (s.mapWg id f).mem = s.mem := rfl
@[simp] theorem State.mapWg_l1 (s : State) (id : Nat) (f : Workgroup → Workgroup) : (s.mapWg id f).l1 = s.l1 := rfl
@[simp] theorem State.mapWg_tlb (s : State) (id : Nat) (f : Workgroup → Workgroup) : (s.mapWg id f).tlb = s.tlb := rfl
@[simp] theorem State.mapWg_errors (s : State) (id : Nat) (f : Workgroup → Workgroup) : (s.mapWg id f).errors = s.errors := rfl
@[simp] theorem State.mapWg_chunks (s : State) (id : Nat) (f : Workgroup → Workgroup) : (s.mapWg id f).chunks = s.chunks := rfl
@[simp] theorem State.mapWg_versions (s : State) (id : Nat) (f : Workgroup → Workgroup) : (s.mapWg id f).versions = s.versions := rfl
@[simp] theorem State.mapWg_migrations (s : State) (id : Nat) (f : Workgroup → Workgroup) : (s.mapWg id f).migrations = s.migrations := rfl
@[simp] theorem State.mapWg_epoch (s : State) (id : Nat) (f : Workgroup → Workgroup) : (s.mapWg id f).epoch = s.epoch := rfl
@[simp] theorem State.mapWg_migctl (s : State) (id : Nat) (f : Workgroup → Workgroup) : (s.mapWg id f).migctl = s.migctl := rfl
@[simp] theorem State.mapWg_lranges (s : State) (id : Nat) (f : Workgroup → Workgroup) : (s.mapWg id f).lranges = s.lranges := rfl
@[simp] theorem State.mapWg_xcways (s : State) (id : Nat) (f : Workgroup → Workgroup) : (s.mapWg id f).xcways = s.xcways := rfl
@[simp] theorem State.mapWg_domtab (s : State) (id : Nat) (f : Workgroup → Workgroup) : (s.mapWg id f).domtab = s.domtab := rfl
@[simp] theorem State.mapWg_path (s : State) (id : Nat) (f : Workgroup → Workgroup) : (s.mapWg id f).path = s.path := rfl
@[simp] theorem State.mapWg_boundaries (s : State) (id : Nat) (f : Workgroup → Workgroup) : (s.mapWg id f).boundaries = s.boundaries := rfl
@[simp] theorem State.mapWg_ops (s : State) (id : Nat) (f : Workgroup → Workgroup) : (s.mapWg id f).ops = s.ops := rfl
@[simp] theorem State.mapWg_remotes (s : State) (id : Nat) (f : Workgroup → Workgroup) : (s.mapWg id f).remotes = s.remotes := rfl
@[simp] theorem State.mapWg_wgs (s : State) (id : Nat) (f : Workgroup → Workgroup) : (s.mapWg id f).wgs = updFirst (·.id == id) f s.wgs := rfl
@[simp] theorem State.mapWg_groups (s : State) (id : Nat) (f : Workgroup → Workgroup) : (s.mapWg id f).groups = s.groups := rfl
@[simp] theorem State.mapWg_bins (s : State) (id : Nat) (f : Workgroup → Workgroup) : (s.mapWg id f).bins = s.bins := rfl
@[simp] theorem State.mapWg_parts (s : State) (id : Nat) (f : Workgroup → Workgroup) : (s.mapWg id f).parts = s.parts := rfl
@[simp] theorem State.mapWg_regions (s : State) (id : Nat) (f : Workgroup → Workgroup) : (s.mapWg id f).regions = s.regions := rfl
@[simp] theorem State.mapWg_kernels (s : State) (id : Nat) (f : Workgroup → Workgroup) : (s.mapWg id f).kernels = s.kernels := rfl
@[simp] theorem State.mapWg_launches (s : State) (id : Nat) (f : Workgroup → Workgroup) : (s.mapWg id f).launches = s.launches := rfl
@[simp] theorem State.mapWg_requests (s : State) (id : Nat) (f : Workgroup → Workgroup) : (s.mapWg id f).requests = s.requests := rfl
@[simp] theorem State.mapWg_cinch (s : State) (id : Nat) (f : Workgroup → Workgroup) : (s.mapWg id f).cinch = s.cinch := rfl
@[simp] theorem State.mapWg_copies (s : State) (id : Nat) (f : Workgroup → Workgroup) : (s.mapWg id f).copies = s.copies := rfl
@[simp] theorem State.mapWg_binsets (s : State) (id : Nat) (f : Workgroup → Workgroup) : (s.mapWg id f).binsets = s.binsets := rfl
@[simp] theorem State.mapWg_pins (s : State) (id : Nat) (f : Workgroup → Workgroup) : (s.mapWg id f).pins = s.pins := rfl
@[simp] theorem State.mapWg_holding (s : State) (id : Nat) (f : Workgroup → Workgroup) : (s.mapWg id f).holding = s.holding := rfl
@[simp] theorem State.mapWg_ctxsize (s : State) (id : Nat) (f : Workgroup → Workgroup) : (s.mapWg id f).ctxsize = s.ctxsize := rfl
@[simp] theorem State.mapWg_controls (s : State) (id : Nat) (f : Workgroup → Workgroup) : (s.mapWg id f).controls = s.controls := rfl
@[simp] theorem State.mapWg_events (s : State) (id : Nat) (f : Workgroup → Workgroup) : (s.mapWg id f).events = s.events := rfl
@[simp] theorem State.mapWg_grants (s : State) (id : Nat) (f : Workgroup → Workgroup) : (s.mapWg id f).grants = s.grants := rfl
@[simp] theorem State.mapWg_cores (s : State) (id : Nat) (f : Workgroup → Workgroup) : (s.mapWg id f).cores = s.cores := rfl
@[simp] theorem State.mapWg_bpact (s : State) (id : Nat) (f : Workgroup → Workgroup) : (s.mapWg id f).bpact = s.bpact := rfl
@[simp] theorem State.mapWg_bpcnt (s : State) (id : Nat) (f : Workgroup → Workgroup) : (s.mapWg id f).bpcnt = s.bpcnt := rfl
@[simp] theorem State.mapWg_wpts (s : State) (id : Nat) (f : Workgroup → Workgroup) : (s.mapWg id f).wpts = s.wpts := rfl
@[simp] theorem State.mapWg_chsel (s : State) (id : Nat) (f : Workgroup → Workgroup) : (s.mapWg id f).chsel = s.chsel := rfl
@[simp] theorem State.mapWg_pfrz (s : State) (id : Nat) (f : Workgroup → Workgroup) : (s.mapWg id f).pfrz = s.pfrz := rfl
@[simp] theorem State.mapWg_procs (s : State) (id : Nat) (f : Workgroup → Workgroup) : (s.mapWg id f).procs = s.procs := rfl
@[simp] theorem State.mapWg_waiting (s : State) (id : Nat) (f : Workgroup → Workgroup) : (s.mapWg id f).waiting = s.waiting := rfl
@[simp] theorem State.mapWg_ports (s : State) (id : Nat) (f : Workgroup → Workgroup) : (s.mapWg id f).ports = s.ports := rfl
@[simp] theorem State.mapWg_posts (s : State) (id : Nat) (f : Workgroup → Workgroup) : (s.mapWg id f).posts = s.posts := rfl
@[simp] theorem State.mapWg_jobs (s : State) (id : Nat) (f : Workgroup → Workgroup) : (s.mapWg id f).jobs = s.jobs := rfl
@[simp] theorem State.mapWg_heldPkts (s : State) (id : Nat) (f : Workgroup → Workgroup) : (s.mapWg id f).heldPkts = s.heldPkts := rfl
@[simp] theorem State.mapWg_tt (s : State) (id : Nat) (f : Workgroup → Workgroup) : (s.mapWg id f).tt = s.tt := rfl
@[simp] theorem State.mapWg_host (s : State) (id : Nat) (f : Workgroup → Workgroup) : (s.mapWg id f).host = s.host := rfl
@[simp] theorem State.mapWg_queues (s : State) (id : Nat) (f : Workgroup → Workgroup) : (s.mapWg id f).queues = s.queues := rfl
@[simp] theorem State.mapWg_outbox (s : State) (id : Nat) (f : Workgroup → Workgroup) : (s.mapWg id f).outbox = s.outbox := rfl

/-! ### `mapGroup` -/

@[simp] theorem State.mapGroup_todo (s : State) (id : Nat) (f : Group → Group) : (s.mapGroup id f).todo = s.todo := rfl
@[simp] theorem State.mapGroup_turn (s : State) (id : Nat) (f : Group → Group) : (s.mapGroup id f).turn = s.turn := rfl
@[simp] theorem State.mapGroup_hold (s : State) (id : Nat) (f : Group → Group) : (s.mapGroup id f).hold = s.hold := rfl
@[simp] theorem State.mapGroup_fresh (s : State) (id : Nat) (f : Group → Group) : (s.mapGroup id f).fresh = s.fresh := rfl
@[simp] theorem State.mapGroup_cyc (s : State) (id : Nat) (f : Group → Group) : (s.mapGroup id f).cyc = s.cyc := rfl
@[simp] theorem State.mapGroup_seq (s : State) (id : Nat) (f : Group → Group) : (s.mapGroup id f).seq = s.seq := rfl
@[simp] theorem State.mapGroup_mem (s : State) (id : Nat) (f : Group → Group) : (s.mapGroup id f).mem = s.mem := rfl
@[simp] theorem State.mapGroup_l1 (s : State) (id : Nat) (f : Group → Group) : (s.mapGroup id f).l1 = s.l1 := rfl
@[simp] theorem State.mapGroup_tlb (s : State) (id : Nat) (f : Group → Group) : (s.mapGroup id f).tlb = s.tlb := rfl
@[simp] theorem State.mapGroup_errors (s : State) (id : Nat) (f : Group → Group) : (s.mapGroup id f).errors = s.errors := rfl
@[simp] theorem State.mapGroup_chunks (s : State) (id : Nat) (f : Group → Group) : (s.mapGroup id f).chunks = s.chunks := rfl
@[simp] theorem State.mapGroup_versions (s : State) (id : Nat) (f : Group → Group) : (s.mapGroup id f).versions = s.versions := rfl
@[simp] theorem State.mapGroup_migrations (s : State) (id : Nat) (f : Group → Group) : (s.mapGroup id f).migrations = s.migrations := rfl
@[simp] theorem State.mapGroup_epoch (s : State) (id : Nat) (f : Group → Group) : (s.mapGroup id f).epoch = s.epoch := rfl
@[simp] theorem State.mapGroup_migctl (s : State) (id : Nat) (f : Group → Group) : (s.mapGroup id f).migctl = s.migctl := rfl
@[simp] theorem State.mapGroup_lranges (s : State) (id : Nat) (f : Group → Group) : (s.mapGroup id f).lranges = s.lranges := rfl
@[simp] theorem State.mapGroup_xcways (s : State) (id : Nat) (f : Group → Group) : (s.mapGroup id f).xcways = s.xcways := rfl
@[simp] theorem State.mapGroup_domtab (s : State) (id : Nat) (f : Group → Group) : (s.mapGroup id f).domtab = s.domtab := rfl
@[simp] theorem State.mapGroup_path (s : State) (id : Nat) (f : Group → Group) : (s.mapGroup id f).path = s.path := rfl
@[simp] theorem State.mapGroup_boundaries (s : State) (id : Nat) (f : Group → Group) : (s.mapGroup id f).boundaries = s.boundaries := rfl
@[simp] theorem State.mapGroup_ops (s : State) (id : Nat) (f : Group → Group) : (s.mapGroup id f).ops = s.ops := rfl
@[simp] theorem State.mapGroup_remotes (s : State) (id : Nat) (f : Group → Group) : (s.mapGroup id f).remotes = s.remotes := rfl
@[simp] theorem State.mapGroup_wgs (s : State) (id : Nat) (f : Group → Group) : (s.mapGroup id f).wgs = s.wgs := rfl
@[simp] theorem State.mapGroup_groups (s : State) (id : Nat) (f : Group → Group) : (s.mapGroup id f).groups = updFirst (·.id == id) f s.groups := rfl
@[simp] theorem State.mapGroup_bins (s : State) (id : Nat) (f : Group → Group) : (s.mapGroup id f).bins = s.bins := rfl
@[simp] theorem State.mapGroup_parts (s : State) (id : Nat) (f : Group → Group) : (s.mapGroup id f).parts = s.parts := rfl
@[simp] theorem State.mapGroup_regions (s : State) (id : Nat) (f : Group → Group) : (s.mapGroup id f).regions = s.regions := rfl
@[simp] theorem State.mapGroup_kernels (s : State) (id : Nat) (f : Group → Group) : (s.mapGroup id f).kernels = s.kernels := rfl
@[simp] theorem State.mapGroup_launches (s : State) (id : Nat) (f : Group → Group) : (s.mapGroup id f).launches = s.launches := rfl
@[simp] theorem State.mapGroup_requests (s : State) (id : Nat) (f : Group → Group) : (s.mapGroup id f).requests = s.requests := rfl
@[simp] theorem State.mapGroup_cinch (s : State) (id : Nat) (f : Group → Group) : (s.mapGroup id f).cinch = s.cinch := rfl
@[simp] theorem State.mapGroup_copies (s : State) (id : Nat) (f : Group → Group) : (s.mapGroup id f).copies = s.copies := rfl
@[simp] theorem State.mapGroup_binsets (s : State) (id : Nat) (f : Group → Group) : (s.mapGroup id f).binsets = s.binsets := rfl
@[simp] theorem State.mapGroup_pins (s : State) (id : Nat) (f : Group → Group) : (s.mapGroup id f).pins = s.pins := rfl
@[simp] theorem State.mapGroup_holding (s : State) (id : Nat) (f : Group → Group) : (s.mapGroup id f).holding = s.holding := rfl
@[simp] theorem State.mapGroup_ctxsize (s : State) (id : Nat) (f : Group → Group) : (s.mapGroup id f).ctxsize = s.ctxsize := rfl
@[simp] theorem State.mapGroup_controls (s : State) (id : Nat) (f : Group → Group) : (s.mapGroup id f).controls = s.controls := rfl
@[simp] theorem State.mapGroup_events (s : State) (id : Nat) (f : Group → Group) : (s.mapGroup id f).events = s.events := rfl
@[simp] theorem State.mapGroup_grants (s : State) (id : Nat) (f : Group → Group) : (s.mapGroup id f).grants = s.grants := rfl
@[simp] theorem State.mapGroup_cores (s : State) (id : Nat) (f : Group → Group) : (s.mapGroup id f).cores = s.cores := rfl
@[simp] theorem State.mapGroup_bpact (s : State) (id : Nat) (f : Group → Group) : (s.mapGroup id f).bpact = s.bpact := rfl
@[simp] theorem State.mapGroup_bpcnt (s : State) (id : Nat) (f : Group → Group) : (s.mapGroup id f).bpcnt = s.bpcnt := rfl
@[simp] theorem State.mapGroup_wpts (s : State) (id : Nat) (f : Group → Group) : (s.mapGroup id f).wpts = s.wpts := rfl
@[simp] theorem State.mapGroup_chsel (s : State) (id : Nat) (f : Group → Group) : (s.mapGroup id f).chsel = s.chsel := rfl
@[simp] theorem State.mapGroup_pfrz (s : State) (id : Nat) (f : Group → Group) : (s.mapGroup id f).pfrz = s.pfrz := rfl
@[simp] theorem State.mapGroup_procs (s : State) (id : Nat) (f : Group → Group) : (s.mapGroup id f).procs = s.procs := rfl
@[simp] theorem State.mapGroup_waiting (s : State) (id : Nat) (f : Group → Group) : (s.mapGroup id f).waiting = s.waiting := rfl
@[simp] theorem State.mapGroup_ports (s : State) (id : Nat) (f : Group → Group) : (s.mapGroup id f).ports = s.ports := rfl
@[simp] theorem State.mapGroup_posts (s : State) (id : Nat) (f : Group → Group) : (s.mapGroup id f).posts = s.posts := rfl
@[simp] theorem State.mapGroup_jobs (s : State) (id : Nat) (f : Group → Group) : (s.mapGroup id f).jobs = s.jobs := rfl
@[simp] theorem State.mapGroup_heldPkts (s : State) (id : Nat) (f : Group → Group) : (s.mapGroup id f).heldPkts = s.heldPkts := rfl
@[simp] theorem State.mapGroup_tt (s : State) (id : Nat) (f : Group → Group) : (s.mapGroup id f).tt = s.tt := rfl
@[simp] theorem State.mapGroup_host (s : State) (id : Nat) (f : Group → Group) : (s.mapGroup id f).host = s.host := rfl
@[simp] theorem State.mapGroup_queues (s : State) (id : Nat) (f : Group → Group) : (s.mapGroup id f).queues = s.queues := rfl
@[simp] theorem State.mapGroup_outbox (s : State) (id : Nat) (f : Group → Group) : (s.mapGroup id f).outbox = s.outbox := rfl

/-! ### `mapThread` -/

@[simp] theorem State.mapThread_todo (s : State) (wg tid : Nat) (f : Thread → Thread) : (s.mapThread wg tid f).todo = s.todo := rfl
@[simp] theorem State.mapThread_turn (s : State) (wg tid : Nat) (f : Thread → Thread) : (s.mapThread wg tid f).turn = s.turn := rfl
@[simp] theorem State.mapThread_hold (s : State) (wg tid : Nat) (f : Thread → Thread) : (s.mapThread wg tid f).hold = s.hold := rfl
@[simp] theorem State.mapThread_fresh (s : State) (wg tid : Nat) (f : Thread → Thread) : (s.mapThread wg tid f).fresh = s.fresh := rfl
@[simp] theorem State.mapThread_cyc (s : State) (wg tid : Nat) (f : Thread → Thread) : (s.mapThread wg tid f).cyc = s.cyc := rfl
@[simp] theorem State.mapThread_seq (s : State) (wg tid : Nat) (f : Thread → Thread) : (s.mapThread wg tid f).seq = s.seq := rfl
@[simp] theorem State.mapThread_mem (s : State) (wg tid : Nat) (f : Thread → Thread) : (s.mapThread wg tid f).mem = s.mem := rfl
@[simp] theorem State.mapThread_l1 (s : State) (wg tid : Nat) (f : Thread → Thread) : (s.mapThread wg tid f).l1 = s.l1 := rfl
@[simp] theorem State.mapThread_tlb (s : State) (wg tid : Nat) (f : Thread → Thread) : (s.mapThread wg tid f).tlb = s.tlb := rfl
@[simp] theorem State.mapThread_errors (s : State) (wg tid : Nat) (f : Thread → Thread) : (s.mapThread wg tid f).errors = s.errors := rfl
@[simp] theorem State.mapThread_chunks (s : State) (wg tid : Nat) (f : Thread → Thread) : (s.mapThread wg tid f).chunks = s.chunks := rfl
@[simp] theorem State.mapThread_versions (s : State) (wg tid : Nat) (f : Thread → Thread) : (s.mapThread wg tid f).versions = s.versions := rfl
@[simp] theorem State.mapThread_migrations (s : State) (wg tid : Nat) (f : Thread → Thread) : (s.mapThread wg tid f).migrations = s.migrations := rfl
@[simp] theorem State.mapThread_epoch (s : State) (wg tid : Nat) (f : Thread → Thread) : (s.mapThread wg tid f).epoch = s.epoch := rfl
@[simp] theorem State.mapThread_migctl (s : State) (wg tid : Nat) (f : Thread → Thread) : (s.mapThread wg tid f).migctl = s.migctl := rfl
@[simp] theorem State.mapThread_lranges (s : State) (wg tid : Nat) (f : Thread → Thread) : (s.mapThread wg tid f).lranges = s.lranges := rfl
@[simp] theorem State.mapThread_xcways (s : State) (wg tid : Nat) (f : Thread → Thread) : (s.mapThread wg tid f).xcways = s.xcways := rfl
@[simp] theorem State.mapThread_domtab (s : State) (wg tid : Nat) (f : Thread → Thread) : (s.mapThread wg tid f).domtab = s.domtab := rfl
@[simp] theorem State.mapThread_path (s : State) (wg tid : Nat) (f : Thread → Thread) : (s.mapThread wg tid f).path = s.path := rfl
@[simp] theorem State.mapThread_boundaries (s : State) (wg tid : Nat) (f : Thread → Thread) : (s.mapThread wg tid f).boundaries = s.boundaries := rfl
@[simp] theorem State.mapThread_ops (s : State) (wg tid : Nat) (f : Thread → Thread) : (s.mapThread wg tid f).ops = s.ops := rfl
@[simp] theorem State.mapThread_remotes (s : State) (wg tid : Nat) (f : Thread → Thread) : (s.mapThread wg tid f).remotes = s.remotes := rfl
@[simp] theorem State.mapThread_wgs (s : State) (wg tid : Nat) (f : Thread → Thread) : (s.mapThread wg tid f).wgs = updFirst (·.id == wg) (·.mapThread tid f) s.wgs := rfl
@[simp] theorem State.mapThread_groups (s : State) (wg tid : Nat) (f : Thread → Thread) : (s.mapThread wg tid f).groups = s.groups := rfl
@[simp] theorem State.mapThread_bins (s : State) (wg tid : Nat) (f : Thread → Thread) : (s.mapThread wg tid f).bins = s.bins := rfl
@[simp] theorem State.mapThread_parts (s : State) (wg tid : Nat) (f : Thread → Thread) : (s.mapThread wg tid f).parts = s.parts := rfl
@[simp] theorem State.mapThread_regions (s : State) (wg tid : Nat) (f : Thread → Thread) : (s.mapThread wg tid f).regions = s.regions := rfl
@[simp] theorem State.mapThread_kernels (s : State) (wg tid : Nat) (f : Thread → Thread) : (s.mapThread wg tid f).kernels = s.kernels := rfl
@[simp] theorem State.mapThread_launches (s : State) (wg tid : Nat) (f : Thread → Thread) : (s.mapThread wg tid f).launches = s.launches := rfl
@[simp] theorem State.mapThread_requests (s : State) (wg tid : Nat) (f : Thread → Thread) : (s.mapThread wg tid f).requests = s.requests := rfl
@[simp] theorem State.mapThread_cinch (s : State) (wg tid : Nat) (f : Thread → Thread) : (s.mapThread wg tid f).cinch = s.cinch := rfl
@[simp] theorem State.mapThread_copies (s : State) (wg tid : Nat) (f : Thread → Thread) : (s.mapThread wg tid f).copies = s.copies := rfl
@[simp] theorem State.mapThread_binsets (s : State) (wg tid : Nat) (f : Thread → Thread) : (s.mapThread wg tid f).binsets = s.binsets := rfl
@[simp] theorem State.mapThread_pins (s : State) (wg tid : Nat) (f : Thread → Thread) : (s.mapThread wg tid f).pins = s.pins := rfl
@[simp] theorem State.mapThread_holding (s : State) (wg tid : Nat) (f : Thread → Thread) : (s.mapThread wg tid f).holding = s.holding := rfl
@[simp] theorem State.mapThread_ctxsize (s : State) (wg tid : Nat) (f : Thread → Thread) : (s.mapThread wg tid f).ctxsize = s.ctxsize := rfl
@[simp] theorem State.mapThread_controls (s : State) (wg tid : Nat) (f : Thread → Thread) : (s.mapThread wg tid f).controls = s.controls := rfl
@[simp] theorem State.mapThread_events (s : State) (wg tid : Nat) (f : Thread → Thread) : (s.mapThread wg tid f).events = s.events := rfl
@[simp] theorem State.mapThread_grants (s : State) (wg tid : Nat) (f : Thread → Thread) : (s.mapThread wg tid f).grants = s.grants := rfl
@[simp] theorem State.mapThread_cores (s : State) (wg tid : Nat) (f : Thread → Thread) : (s.mapThread wg tid f).cores = s.cores := rfl
@[simp] theorem State.mapThread_bpact (s : State) (wg tid : Nat) (f : Thread → Thread) : (s.mapThread wg tid f).bpact = s.bpact := rfl
@[simp] theorem State.mapThread_bpcnt (s : State) (wg tid : Nat) (f : Thread → Thread) : (s.mapThread wg tid f).bpcnt = s.bpcnt := rfl
@[simp] theorem State.mapThread_wpts (s : State) (wg tid : Nat) (f : Thread → Thread) : (s.mapThread wg tid f).wpts = s.wpts := rfl
@[simp] theorem State.mapThread_chsel (s : State) (wg tid : Nat) (f : Thread → Thread) : (s.mapThread wg tid f).chsel = s.chsel := rfl
@[simp] theorem State.mapThread_pfrz (s : State) (wg tid : Nat) (f : Thread → Thread) : (s.mapThread wg tid f).pfrz = s.pfrz := rfl
@[simp] theorem State.mapThread_procs (s : State) (wg tid : Nat) (f : Thread → Thread) : (s.mapThread wg tid f).procs = s.procs := rfl
@[simp] theorem State.mapThread_waiting (s : State) (wg tid : Nat) (f : Thread → Thread) : (s.mapThread wg tid f).waiting = s.waiting := rfl
@[simp] theorem State.mapThread_ports (s : State) (wg tid : Nat) (f : Thread → Thread) : (s.mapThread wg tid f).ports = s.ports := rfl
@[simp] theorem State.mapThread_posts (s : State) (wg tid : Nat) (f : Thread → Thread) : (s.mapThread wg tid f).posts = s.posts := rfl
@[simp] theorem State.mapThread_jobs (s : State) (wg tid : Nat) (f : Thread → Thread) : (s.mapThread wg tid f).jobs = s.jobs := rfl
@[simp] theorem State.mapThread_heldPkts (s : State) (wg tid : Nat) (f : Thread → Thread) : (s.mapThread wg tid f).heldPkts = s.heldPkts := rfl
@[simp] theorem State.mapThread_tt (s : State) (wg tid : Nat) (f : Thread → Thread) : (s.mapThread wg tid f).tt = s.tt := rfl
@[simp] theorem State.mapThread_host (s : State) (wg tid : Nat) (f : Thread → Thread) : (s.mapThread wg tid f).host = s.host := rfl
@[simp] theorem State.mapThread_queues (s : State) (wg tid : Nat) (f : Thread → Thread) : (s.mapThread wg tid f).queues = s.queues := rfl
@[simp] theorem State.mapThread_outbox (s : State) (wg tid : Nat) (f : Thread → Thread) : (s.mapThread wg tid f).outbox = s.outbox := rfl

/-! ### `mapThreads` -/

@[simp] theorem State.mapThreads_todo (s : State) (wg : Nat) (tids : List Nat) (f : Thread → Thread) : (s.mapThreads wg tids f).todo = s.todo := rfl
@[simp] theorem State.mapThreads_turn (s : State) (wg : Nat) (tids : List Nat) (f : Thread → Thread) : (s.mapThreads wg tids f).turn = s.turn := rfl
@[simp] theorem State.mapThreads_hold (s : State) (wg : Nat) (tids : List Nat) (f : Thread → Thread) : (s.mapThreads wg tids f).hold = s.hold := rfl
@[simp] theorem State.mapThreads_fresh (s : State) (wg : Nat) (tids : List Nat) (f : Thread → Thread) : (s.mapThreads wg tids f).fresh = s.fresh := rfl
@[simp] theorem State.mapThreads_cyc (s : State) (wg : Nat) (tids : List Nat) (f : Thread → Thread) : (s.mapThreads wg tids f).cyc = s.cyc := rfl
@[simp] theorem State.mapThreads_seq (s : State) (wg : Nat) (tids : List Nat) (f : Thread → Thread) : (s.mapThreads wg tids f).seq = s.seq := rfl
@[simp] theorem State.mapThreads_mem (s : State) (wg : Nat) (tids : List Nat) (f : Thread → Thread) : (s.mapThreads wg tids f).mem = s.mem := rfl
@[simp] theorem State.mapThreads_l1 (s : State) (wg : Nat) (tids : List Nat) (f : Thread → Thread) : (s.mapThreads wg tids f).l1 = s.l1 := rfl
@[simp] theorem State.mapThreads_tlb (s : State) (wg : Nat) (tids : List Nat) (f : Thread → Thread) : (s.mapThreads wg tids f).tlb = s.tlb := rfl
@[simp] theorem State.mapThreads_errors (s : State) (wg : Nat) (tids : List Nat) (f : Thread → Thread) : (s.mapThreads wg tids f).errors = s.errors := rfl
@[simp] theorem State.mapThreads_chunks (s : State) (wg : Nat) (tids : List Nat) (f : Thread → Thread) : (s.mapThreads wg tids f).chunks = s.chunks := rfl
@[simp] theorem State.mapThreads_versions (s : State) (wg : Nat) (tids : List Nat) (f : Thread → Thread) : (s.mapThreads wg tids f).versions = s.versions := rfl
@[simp] theorem State.mapThreads_migrations (s : State) (wg : Nat) (tids : List Nat) (f : Thread → Thread) : (s.mapThreads wg tids f).migrations = s.migrations := rfl
@[simp] theorem State.mapThreads_epoch (s : State) (wg : Nat) (tids : List Nat) (f : Thread → Thread) : (s.mapThreads wg tids f).epoch = s.epoch := rfl
@[simp] theorem State.mapThreads_migctl (s : State) (wg : Nat) (tids : List Nat) (f : Thread → Thread) : (s.mapThreads wg tids f).migctl = s.migctl := rfl
@[simp] theorem State.mapThreads_lranges (s : State) (wg : Nat) (tids : List Nat) (f : Thread → Thread) : (s.mapThreads wg tids f).lranges = s.lranges := rfl
@[simp] theorem State.mapThreads_xcways (s : State) (wg : Nat) (tids : List Nat) (f : Thread → Thread) : (s.mapThreads wg tids f).xcways = s.xcways := rfl
@[simp] theorem State.mapThreads_domtab (s : State) (wg : Nat) (tids : List Nat) (f : Thread → Thread) : (s.mapThreads wg tids f).domtab = s.domtab := rfl
@[simp] theorem State.mapThreads_path (s : State) (wg : Nat) (tids : List Nat) (f : Thread → Thread) : (s.mapThreads wg tids f).path = s.path := rfl
@[simp] theorem State.mapThreads_boundaries (s : State) (wg : Nat) (tids : List Nat) (f : Thread → Thread) : (s.mapThreads wg tids f).boundaries = s.boundaries := rfl
@[simp] theorem State.mapThreads_ops (s : State) (wg : Nat) (tids : List Nat) (f : Thread → Thread) : (s.mapThreads wg tids f).ops = s.ops := rfl
@[simp] theorem State.mapThreads_remotes (s : State) (wg : Nat) (tids : List Nat) (f : Thread → Thread) : (s.mapThreads wg tids f).remotes = s.remotes := rfl
@[simp] theorem State.mapThreads_wgs (s : State) (wg : Nat) (tids : List Nat) (f : Thread → Thread) : (s.mapThreads wg tids f).wgs = updFirst (·.id == wg) (·.mapThreads tids f) s.wgs := rfl
@[simp] theorem State.mapThreads_groups (s : State) (wg : Nat) (tids : List Nat) (f : Thread → Thread) : (s.mapThreads wg tids f).groups = s.groups := rfl
@[simp] theorem State.mapThreads_bins (s : State) (wg : Nat) (tids : List Nat) (f : Thread → Thread) : (s.mapThreads wg tids f).bins = s.bins := rfl
@[simp] theorem State.mapThreads_parts (s : State) (wg : Nat) (tids : List Nat) (f : Thread → Thread) : (s.mapThreads wg tids f).parts = s.parts := rfl
@[simp] theorem State.mapThreads_regions (s : State) (wg : Nat) (tids : List Nat) (f : Thread → Thread) : (s.mapThreads wg tids f).regions = s.regions := rfl
@[simp] theorem State.mapThreads_kernels (s : State) (wg : Nat) (tids : List Nat) (f : Thread → Thread) : (s.mapThreads wg tids f).kernels = s.kernels := rfl
@[simp] theorem State.mapThreads_launches (s : State) (wg : Nat) (tids : List Nat) (f : Thread → Thread) : (s.mapThreads wg tids f).launches = s.launches := rfl
@[simp] theorem State.mapThreads_requests (s : State) (wg : Nat) (tids : List Nat) (f : Thread → Thread) : (s.mapThreads wg tids f).requests = s.requests := rfl
@[simp] theorem State.mapThreads_cinch (s : State) (wg : Nat) (tids : List Nat) (f : Thread → Thread) : (s.mapThreads wg tids f).cinch = s.cinch := rfl
@[simp] theorem State.mapThreads_copies (s : State) (wg : Nat) (tids : List Nat) (f : Thread → Thread) : (s.mapThreads wg tids f).copies = s.copies := rfl
@[simp] theorem State.mapThreads_binsets (s : State) (wg : Nat) (tids : List Nat) (f : Thread → Thread) : (s.mapThreads wg tids f).binsets = s.binsets := rfl
@[simp] theorem State.mapThreads_pins (s : State) (wg : Nat) (tids : List Nat) (f : Thread → Thread) : (s.mapThreads wg tids f).pins = s.pins := rfl
@[simp] theorem State.mapThreads_holding (s : State) (wg : Nat) (tids : List Nat) (f : Thread → Thread) : (s.mapThreads wg tids f).holding = s.holding := rfl
@[simp] theorem State.mapThreads_ctxsize (s : State) (wg : Nat) (tids : List Nat) (f : Thread → Thread) : (s.mapThreads wg tids f).ctxsize = s.ctxsize := rfl
@[simp] theorem State.mapThreads_controls (s : State) (wg : Nat) (tids : List Nat) (f : Thread → Thread) : (s.mapThreads wg tids f).controls = s.controls := rfl
@[simp] theorem State.mapThreads_events (s : State) (wg : Nat) (tids : List Nat) (f : Thread → Thread) : (s.mapThreads wg tids f).events = s.events := rfl
@[simp] theorem State.mapThreads_grants (s : State) (wg : Nat) (tids : List Nat) (f : Thread → Thread) : (s.mapThreads wg tids f).grants = s.grants := rfl
@[simp] theorem State.mapThreads_cores (s : State) (wg : Nat) (tids : List Nat) (f : Thread → Thread) : (s.mapThreads wg tids f).cores = s.cores := rfl
@[simp] theorem State.mapThreads_bpact (s : State) (wg : Nat) (tids : List Nat) (f : Thread → Thread) : (s.mapThreads wg tids f).bpact = s.bpact := rfl
@[simp] theorem State.mapThreads_bpcnt (s : State) (wg : Nat) (tids : List Nat) (f : Thread → Thread) : (s.mapThreads wg tids f).bpcnt = s.bpcnt := rfl
@[simp] theorem State.mapThreads_wpts (s : State) (wg : Nat) (tids : List Nat) (f : Thread → Thread) : (s.mapThreads wg tids f).wpts = s.wpts := rfl
@[simp] theorem State.mapThreads_chsel (s : State) (wg : Nat) (tids : List Nat) (f : Thread → Thread) : (s.mapThreads wg tids f).chsel = s.chsel := rfl
@[simp] theorem State.mapThreads_pfrz (s : State) (wg : Nat) (tids : List Nat) (f : Thread → Thread) : (s.mapThreads wg tids f).pfrz = s.pfrz := rfl
@[simp] theorem State.mapThreads_procs (s : State) (wg : Nat) (tids : List Nat) (f : Thread → Thread) : (s.mapThreads wg tids f).procs = s.procs := rfl
@[simp] theorem State.mapThreads_waiting (s : State) (wg : Nat) (tids : List Nat) (f : Thread → Thread) : (s.mapThreads wg tids f).waiting = s.waiting := rfl
@[simp] theorem State.mapThreads_ports (s : State) (wg : Nat) (tids : List Nat) (f : Thread → Thread) : (s.mapThreads wg tids f).ports = s.ports := rfl
@[simp] theorem State.mapThreads_posts (s : State) (wg : Nat) (tids : List Nat) (f : Thread → Thread) : (s.mapThreads wg tids f).posts = s.posts := rfl
@[simp] theorem State.mapThreads_jobs (s : State) (wg : Nat) (tids : List Nat) (f : Thread → Thread) : (s.mapThreads wg tids f).jobs = s.jobs := rfl
@[simp] theorem State.mapThreads_heldPkts (s : State) (wg : Nat) (tids : List Nat) (f : Thread → Thread) : (s.mapThreads wg tids f).heldPkts = s.heldPkts := rfl
@[simp] theorem State.mapThreads_tt (s : State) (wg : Nat) (tids : List Nat) (f : Thread → Thread) : (s.mapThreads wg tids f).tt = s.tt := rfl
@[simp] theorem State.mapThreads_host (s : State) (wg : Nat) (tids : List Nat) (f : Thread → Thread) : (s.mapThreads wg tids f).host = s.host := rfl
@[simp] theorem State.mapThreads_queues (s : State) (wg : Nat) (tids : List Nat) (f : Thread → Thread) : (s.mapThreads wg tids f).queues = s.queues := rfl
@[simp] theorem State.mapThreads_outbox (s : State) (wg : Nat) (tids : List Nat) (f : Thread → Thread) : (s.mapThreads wg tids f).outbox = s.outbox := rfl

/-! ### `mapStream` -/

@[simp] theorem State.mapStream_todo (s : State) (wg : Nat) (f : Stream → Stream) : (s.mapStream wg f).todo = s.todo := rfl
@[simp] theorem State.mapStream_turn (s : State) (wg : Nat) (f : Stream → Stream) : (s.mapStream wg f).turn = s.turn := rfl
@[simp] theorem State.mapStream_hold (s : State) (wg : Nat) (f : Stream → Stream) : (s.mapStream wg f).hold = s.hold := rfl
@[simp] theorem State.mapStream_fresh (s : State) (wg : Nat) (f : Stream → Stream) : (s.mapStream wg f).fresh = s.fresh := rfl
@[simp] theorem State.mapStream_cyc (s : State) (wg : Nat) (f : Stream → Stream) : (s.mapStream wg f).cyc = s.cyc := rfl
@[simp] theorem State.mapStream_seq (s : State) (wg : Nat) (f : Stream → Stream) : (s.mapStream wg f).seq = s.seq := rfl
@[simp] theorem State.mapStream_mem (s : State) (wg : Nat) (f : Stream → Stream) : (s.mapStream wg f).mem = s.mem := rfl
@[simp] theorem State.mapStream_l1 (s : State) (wg : Nat) (f : Stream → Stream) : (s.mapStream wg f).l1 = s.l1 := rfl
@[simp] theorem State.mapStream_tlb (s : State) (wg : Nat) (f : Stream → Stream) : (s.mapStream wg f).tlb = s.tlb := rfl
@[simp] theorem State.mapStream_errors (s : State) (wg : Nat) (f : Stream → Stream) : (s.mapStream wg f).errors = s.errors := rfl
@[simp] theorem State.mapStream_chunks (s : State) (wg : Nat) (f : Stream → Stream) : (s.mapStream wg f).chunks = s.chunks := rfl
@[simp] theorem State.mapStream_versions (s : State) (wg : Nat) (f : Stream → Stream) : (s.mapStream wg f).versions = s.versions := rfl
@[simp] theorem State.mapStream_migrations (s : State) (wg : Nat) (f : Stream → Stream) : (s.mapStream wg f).migrations = s.migrations := rfl
@[simp] theorem State.mapStream_epoch (s : State) (wg : Nat) (f : Stream → Stream) : (s.mapStream wg f).epoch = s.epoch := rfl
@[simp] theorem State.mapStream_migctl (s : State) (wg : Nat) (f : Stream → Stream) : (s.mapStream wg f).migctl = s.migctl := rfl
@[simp] theorem State.mapStream_lranges (s : State) (wg : Nat) (f : Stream → Stream) : (s.mapStream wg f).lranges = s.lranges := rfl
@[simp] theorem State.mapStream_xcways (s : State) (wg : Nat) (f : Stream → Stream) : (s.mapStream wg f).xcways = s.xcways := rfl
@[simp] theorem State.mapStream_domtab (s : State) (wg : Nat) (f : Stream → Stream) : (s.mapStream wg f).domtab = s.domtab := rfl
@[simp] theorem State.mapStream_path (s : State) (wg : Nat) (f : Stream → Stream) : (s.mapStream wg f).path = s.path := rfl
@[simp] theorem State.mapStream_boundaries (s : State) (wg : Nat) (f : Stream → Stream) : (s.mapStream wg f).boundaries = s.boundaries := rfl
@[simp] theorem State.mapStream_ops (s : State) (wg : Nat) (f : Stream → Stream) : (s.mapStream wg f).ops = s.ops := rfl
@[simp] theorem State.mapStream_remotes (s : State) (wg : Nat) (f : Stream → Stream) : (s.mapStream wg f).remotes = s.remotes := rfl
@[simp] theorem State.mapStream_wgs (s : State) (wg : Nat) (f : Stream → Stream) : (s.mapStream wg f).wgs = updFirst (·.id == wg) (fun w => { w with stream := w.stream.map f }) s.wgs := rfl
@[simp] theorem State.mapStream_groups (s : State) (wg : Nat) (f : Stream → Stream) : (s.mapStream wg f).groups = s.groups := rfl
@[simp] theorem State.mapStream_bins (s : State) (wg : Nat) (f : Stream → Stream) : (s.mapStream wg f).bins = s.bins := rfl
@[simp] theorem State.mapStream_parts (s : State) (wg : Nat) (f : Stream → Stream) : (s.mapStream wg f).parts = s.parts := rfl
@[simp] theorem State.mapStream_regions (s : State) (wg : Nat) (f : Stream → Stream) : (s.mapStream wg f).regions = s.regions := rfl
@[simp] theorem State.mapStream_kernels (s : State) (wg : Nat) (f : Stream → Stream) : (s.mapStream wg f).kernels = s.kernels := rfl
@[simp] theorem State.mapStream_launches (s : State) (wg : Nat) (f : Stream → Stream) : (s.mapStream wg f).launches = s.launches := rfl
@[simp] theorem State.mapStream_requests (s : State) (wg : Nat) (f : Stream → Stream) : (s.mapStream wg f).requests = s.requests := rfl
@[simp] theorem State.mapStream_cinch (s : State) (wg : Nat) (f : Stream → Stream) : (s.mapStream wg f).cinch = s.cinch := rfl
@[simp] theorem State.mapStream_copies (s : State) (wg : Nat) (f : Stream → Stream) : (s.mapStream wg f).copies = s.copies := rfl
@[simp] theorem State.mapStream_binsets (s : State) (wg : Nat) (f : Stream → Stream) : (s.mapStream wg f).binsets = s.binsets := rfl
@[simp] theorem State.mapStream_pins (s : State) (wg : Nat) (f : Stream → Stream) : (s.mapStream wg f).pins = s.pins := rfl
@[simp] theorem State.mapStream_holding (s : State) (wg : Nat) (f : Stream → Stream) : (s.mapStream wg f).holding = s.holding := rfl
@[simp] theorem State.mapStream_ctxsize (s : State) (wg : Nat) (f : Stream → Stream) : (s.mapStream wg f).ctxsize = s.ctxsize := rfl
@[simp] theorem State.mapStream_controls (s : State) (wg : Nat) (f : Stream → Stream) : (s.mapStream wg f).controls = s.controls := rfl
@[simp] theorem State.mapStream_events (s : State) (wg : Nat) (f : Stream → Stream) : (s.mapStream wg f).events = s.events := rfl
@[simp] theorem State.mapStream_grants (s : State) (wg : Nat) (f : Stream → Stream) : (s.mapStream wg f).grants = s.grants := rfl
@[simp] theorem State.mapStream_cores (s : State) (wg : Nat) (f : Stream → Stream) : (s.mapStream wg f).cores = s.cores := rfl
@[simp] theorem State.mapStream_bpact (s : State) (wg : Nat) (f : Stream → Stream) : (s.mapStream wg f).bpact = s.bpact := rfl
@[simp] theorem State.mapStream_bpcnt (s : State) (wg : Nat) (f : Stream → Stream) : (s.mapStream wg f).bpcnt = s.bpcnt := rfl
@[simp] theorem State.mapStream_wpts (s : State) (wg : Nat) (f : Stream → Stream) : (s.mapStream wg f).wpts = s.wpts := rfl
@[simp] theorem State.mapStream_chsel (s : State) (wg : Nat) (f : Stream → Stream) : (s.mapStream wg f).chsel = s.chsel := rfl
@[simp] theorem State.mapStream_pfrz (s : State) (wg : Nat) (f : Stream → Stream) : (s.mapStream wg f).pfrz = s.pfrz := rfl
@[simp] theorem State.mapStream_procs (s : State) (wg : Nat) (f : Stream → Stream) : (s.mapStream wg f).procs = s.procs := rfl
@[simp] theorem State.mapStream_waiting (s : State) (wg : Nat) (f : Stream → Stream) : (s.mapStream wg f).waiting = s.waiting := rfl
@[simp] theorem State.mapStream_ports (s : State) (wg : Nat) (f : Stream → Stream) : (s.mapStream wg f).ports = s.ports := rfl
@[simp] theorem State.mapStream_posts (s : State) (wg : Nat) (f : Stream → Stream) : (s.mapStream wg f).posts = s.posts := rfl
@[simp] theorem State.mapStream_jobs (s : State) (wg : Nat) (f : Stream → Stream) : (s.mapStream wg f).jobs = s.jobs := rfl
@[simp] theorem State.mapStream_heldPkts (s : State) (wg : Nat) (f : Stream → Stream) : (s.mapStream wg f).heldPkts = s.heldPkts := rfl
@[simp] theorem State.mapStream_tt (s : State) (wg : Nat) (f : Stream → Stream) : (s.mapStream wg f).tt = s.tt := rfl
@[simp] theorem State.mapStream_host (s : State) (wg : Nat) (f : Stream → Stream) : (s.mapStream wg f).host = s.host := rfl
@[simp] theorem State.mapStream_queues (s : State) (wg : Nat) (f : Stream → Stream) : (s.mapStream wg f).queues = s.queues := rfl
@[simp] theorem State.mapStream_outbox (s : State) (wg : Nat) (f : Stream → Stream) : (s.mapStream wg f).outbox = s.outbox := rfl

/-! ### `mapRegion` -/

@[simp] theorem State.mapRegion_todo (s : State) (id : Nat) (f : Region → Region) : (s.mapRegion id f).todo = s.todo := rfl
@[simp] theorem State.mapRegion_turn (s : State) (id : Nat) (f : Region → Region) : (s.mapRegion id f).turn = s.turn := rfl
@[simp] theorem State.mapRegion_hold (s : State) (id : Nat) (f : Region → Region) : (s.mapRegion id f).hold = s.hold := rfl
@[simp] theorem State.mapRegion_fresh (s : State) (id : Nat) (f : Region → Region) : (s.mapRegion id f).fresh = s.fresh := rfl
@[simp] theorem State.mapRegion_cyc (s : State) (id : Nat) (f : Region → Region) : (s.mapRegion id f).cyc = s.cyc := rfl
@[simp] theorem State.mapRegion_seq (s : State) (id : Nat) (f : Region → Region) : (s.mapRegion id f).seq = s.seq := rfl
@[simp] theorem State.mapRegion_mem (s : State) (id : Nat) (f : Region → Region) : (s.mapRegion id f).mem = s.mem := rfl
@[simp] theorem State.mapRegion_l1 (s : State) (id : Nat) (f : Region → Region) : (s.mapRegion id f).l1 = s.l1 := rfl
@[simp] theorem State.mapRegion_tlb (s : State) (id : Nat) (f : Region → Region) : (s.mapRegion id f).tlb = s.tlb := rfl
@[simp] theorem State.mapRegion_errors (s : State) (id : Nat) (f : Region → Region) : (s.mapRegion id f).errors = s.errors := rfl
@[simp] theorem State.mapRegion_chunks (s : State) (id : Nat) (f : Region → Region) : (s.mapRegion id f).chunks = s.chunks := rfl
@[simp] theorem State.mapRegion_versions (s : State) (id : Nat) (f : Region → Region) : (s.mapRegion id f).versions = s.versions := rfl
@[simp] theorem State.mapRegion_migrations (s : State) (id : Nat) (f : Region → Region) : (s.mapRegion id f).migrations = s.migrations := rfl
@[simp] theorem State.mapRegion_epoch (s : State) (id : Nat) (f : Region → Region) : (s.mapRegion id f).epoch = s.epoch := rfl
@[simp] theorem State.mapRegion_migctl (s : State) (id : Nat) (f : Region → Region) : (s.mapRegion id f).migctl = s.migctl := rfl
@[simp] theorem State.mapRegion_lranges (s : State) (id : Nat) (f : Region → Region) : (s.mapRegion id f).lranges = s.lranges := rfl
@[simp] theorem State.mapRegion_xcways (s : State) (id : Nat) (f : Region → Region) : (s.mapRegion id f).xcways = s.xcways := rfl
@[simp] theorem State.mapRegion_domtab (s : State) (id : Nat) (f : Region → Region) : (s.mapRegion id f).domtab = s.domtab := rfl
@[simp] theorem State.mapRegion_path (s : State) (id : Nat) (f : Region → Region) : (s.mapRegion id f).path = s.path := rfl
@[simp] theorem State.mapRegion_boundaries (s : State) (id : Nat) (f : Region → Region) : (s.mapRegion id f).boundaries = s.boundaries := rfl
@[simp] theorem State.mapRegion_ops (s : State) (id : Nat) (f : Region → Region) : (s.mapRegion id f).ops = s.ops := rfl
@[simp] theorem State.mapRegion_remotes (s : State) (id : Nat) (f : Region → Region) : (s.mapRegion id f).remotes = s.remotes := rfl
@[simp] theorem State.mapRegion_wgs (s : State) (id : Nat) (f : Region → Region) : (s.mapRegion id f).wgs = s.wgs := rfl
@[simp] theorem State.mapRegion_groups (s : State) (id : Nat) (f : Region → Region) : (s.mapRegion id f).groups = s.groups := rfl
@[simp] theorem State.mapRegion_bins (s : State) (id : Nat) (f : Region → Region) : (s.mapRegion id f).bins = s.bins := rfl
@[simp] theorem State.mapRegion_parts (s : State) (id : Nat) (f : Region → Region) : (s.mapRegion id f).parts = s.parts := rfl
@[simp] theorem State.mapRegion_regions (s : State) (id : Nat) (f : Region → Region) : (s.mapRegion id f).regions = updFirst (·.id == id) f s.regions := rfl
@[simp] theorem State.mapRegion_kernels (s : State) (id : Nat) (f : Region → Region) : (s.mapRegion id f).kernels = s.kernels := rfl
@[simp] theorem State.mapRegion_launches (s : State) (id : Nat) (f : Region → Region) : (s.mapRegion id f).launches = s.launches := rfl
@[simp] theorem State.mapRegion_requests (s : State) (id : Nat) (f : Region → Region) : (s.mapRegion id f).requests = s.requests := rfl
@[simp] theorem State.mapRegion_cinch (s : State) (id : Nat) (f : Region → Region) : (s.mapRegion id f).cinch = s.cinch := rfl
@[simp] theorem State.mapRegion_copies (s : State) (id : Nat) (f : Region → Region) : (s.mapRegion id f).copies = s.copies := rfl
@[simp] theorem State.mapRegion_binsets (s : State) (id : Nat) (f : Region → Region) : (s.mapRegion id f).binsets = s.binsets := rfl
@[simp] theorem State.mapRegion_pins (s : State) (id : Nat) (f : Region → Region) : (s.mapRegion id f).pins = s.pins := rfl
@[simp] theorem State.mapRegion_holding (s : State) (id : Nat) (f : Region → Region) : (s.mapRegion id f).holding = s.holding := rfl
@[simp] theorem State.mapRegion_ctxsize (s : State) (id : Nat) (f : Region → Region) : (s.mapRegion id f).ctxsize = s.ctxsize := rfl
@[simp] theorem State.mapRegion_controls (s : State) (id : Nat) (f : Region → Region) : (s.mapRegion id f).controls = s.controls := rfl
@[simp] theorem State.mapRegion_events (s : State) (id : Nat) (f : Region → Region) : (s.mapRegion id f).events = s.events := rfl
@[simp] theorem State.mapRegion_grants (s : State) (id : Nat) (f : Region → Region) : (s.mapRegion id f).grants = s.grants := rfl
@[simp] theorem State.mapRegion_cores (s : State) (id : Nat) (f : Region → Region) : (s.mapRegion id f).cores = s.cores := rfl
@[simp] theorem State.mapRegion_bpact (s : State) (id : Nat) (f : Region → Region) : (s.mapRegion id f).bpact = s.bpact := rfl
@[simp] theorem State.mapRegion_bpcnt (s : State) (id : Nat) (f : Region → Region) : (s.mapRegion id f).bpcnt = s.bpcnt := rfl
@[simp] theorem State.mapRegion_wpts (s : State) (id : Nat) (f : Region → Region) : (s.mapRegion id f).wpts = s.wpts := rfl
@[simp] theorem State.mapRegion_chsel (s : State) (id : Nat) (f : Region → Region) : (s.mapRegion id f).chsel = s.chsel := rfl
@[simp] theorem State.mapRegion_pfrz (s : State) (id : Nat) (f : Region → Region) : (s.mapRegion id f).pfrz = s.pfrz := rfl
@[simp] theorem State.mapRegion_procs (s : State) (id : Nat) (f : Region → Region) : (s.mapRegion id f).procs = s.procs := rfl
@[simp] theorem State.mapRegion_waiting (s : State) (id : Nat) (f : Region → Region) : (s.mapRegion id f).waiting = s.waiting := rfl
@[simp] theorem State.mapRegion_ports (s : State) (id : Nat) (f : Region → Region) : (s.mapRegion id f).ports = s.ports := rfl
@[simp] theorem State.mapRegion_posts (s : State) (id : Nat) (f : Region → Region) : (s.mapRegion id f).posts = s.posts := rfl
@[simp] theorem State.mapRegion_jobs (s : State) (id : Nat) (f : Region → Region) : (s.mapRegion id f).jobs = s.jobs := rfl
@[simp] theorem State.mapRegion_heldPkts (s : State) (id : Nat) (f : Region → Region) : (s.mapRegion id f).heldPkts = s.heldPkts := rfl
@[simp] theorem State.mapRegion_tt (s : State) (id : Nat) (f : Region → Region) : (s.mapRegion id f).tt = s.tt := rfl
@[simp] theorem State.mapRegion_host (s : State) (id : Nat) (f : Region → Region) : (s.mapRegion id f).host = s.host := rfl
@[simp] theorem State.mapRegion_queues (s : State) (id : Nat) (f : Region → Region) : (s.mapRegion id f).queues = s.queues := rfl
@[simp] theorem State.mapRegion_outbox (s : State) (id : Nat) (f : Region → Region) : (s.mapRegion id f).outbox = s.outbox := rfl

/-! ### `mapJob` -/

@[simp] theorem State.mapJob_todo (s : State) (id : Nat) (f : Job → Job) : (s.mapJob id f).todo = s.todo := rfl
@[simp] theorem State.mapJob_turn (s : State) (id : Nat) (f : Job → Job) : (s.mapJob id f).turn = s.turn := rfl
@[simp] theorem State.mapJob_hold (s : State) (id : Nat) (f : Job → Job) : (s.mapJob id f).hold = s.hold := rfl
@[simp] theorem State.mapJob_fresh (s : State) (id : Nat) (f : Job → Job) : (s.mapJob id f).fresh = s.fresh := rfl
@[simp] theorem State.mapJob_cyc (s : State) (id : Nat) (f : Job → Job) : (s.mapJob id f).cyc = s.cyc := rfl
@[simp] theorem State.mapJob_seq (s : State) (id : Nat) (f : Job → Job) : (s.mapJob id f).seq = s.seq := rfl
@[simp] theorem State.mapJob_mem (s : State) (id : Nat) (f : Job → Job) : (s.mapJob id f).mem = s.mem := rfl
@[simp] theorem State.mapJob_l1 (s : State) (id : Nat) (f : Job → Job) : (s.mapJob id f).l1 = s.l1 := rfl
@[simp] theorem State.mapJob_tlb (s : State) (id : Nat) (f : Job → Job) : (s.mapJob id f).tlb = s.tlb := rfl
@[simp] theorem State.mapJob_errors (s : State) (id : Nat) (f : Job → Job) : (s.mapJob id f).errors = s.errors := rfl
@[simp] theorem State.mapJob_chunks (s : State) (id : Nat) (f : Job → Job) : (s.mapJob id f).chunks = s.chunks := rfl
@[simp] theorem State.mapJob_versions (s : State) (id : Nat) (f : Job → Job) : (s.mapJob id f).versions = s.versions := rfl
@[simp] theorem State.mapJob_migrations (s : State) (id : Nat) (f : Job → Job) : (s.mapJob id f).migrations = s.migrations := rfl
@[simp] theorem State.mapJob_epoch (s : State) (id : Nat) (f : Job → Job) : (s.mapJob id f).epoch = s.epoch := rfl
@[simp] theorem State.mapJob_migctl (s : State) (id : Nat) (f : Job → Job) : (s.mapJob id f).migctl = s.migctl := rfl
@[simp] theorem State.mapJob_lranges (s : State) (id : Nat) (f : Job → Job) : (s.mapJob id f).lranges = s.lranges := rfl
@[simp] theorem State.mapJob_xcways (s : State) (id : Nat) (f : Job → Job) : (s.mapJob id f).xcways = s.xcways := rfl
@[simp] theorem State.mapJob_domtab (s : State) (id : Nat) (f : Job → Job) : (s.mapJob id f).domtab = s.domtab := rfl
@[simp] theorem State.mapJob_path (s : State) (id : Nat) (f : Job → Job) : (s.mapJob id f).path = s.path := rfl
@[simp] theorem State.mapJob_boundaries (s : State) (id : Nat) (f : Job → Job) : (s.mapJob id f).boundaries = s.boundaries := rfl
@[simp] theorem State.mapJob_ops (s : State) (id : Nat) (f : Job → Job) : (s.mapJob id f).ops = s.ops := rfl
@[simp] theorem State.mapJob_remotes (s : State) (id : Nat) (f : Job → Job) : (s.mapJob id f).remotes = s.remotes := rfl
@[simp] theorem State.mapJob_wgs (s : State) (id : Nat) (f : Job → Job) : (s.mapJob id f).wgs = s.wgs := rfl
@[simp] theorem State.mapJob_groups (s : State) (id : Nat) (f : Job → Job) : (s.mapJob id f).groups = s.groups := rfl
@[simp] theorem State.mapJob_bins (s : State) (id : Nat) (f : Job → Job) : (s.mapJob id f).bins = s.bins := rfl
@[simp] theorem State.mapJob_parts (s : State) (id : Nat) (f : Job → Job) : (s.mapJob id f).parts = s.parts := rfl
@[simp] theorem State.mapJob_regions (s : State) (id : Nat) (f : Job → Job) : (s.mapJob id f).regions = s.regions := rfl
@[simp] theorem State.mapJob_kernels (s : State) (id : Nat) (f : Job → Job) : (s.mapJob id f).kernels = s.kernels := rfl
@[simp] theorem State.mapJob_launches (s : State) (id : Nat) (f : Job → Job) : (s.mapJob id f).launches = s.launches := rfl
@[simp] theorem State.mapJob_requests (s : State) (id : Nat) (f : Job → Job) : (s.mapJob id f).requests = s.requests := rfl
@[simp] theorem State.mapJob_cinch (s : State) (id : Nat) (f : Job → Job) : (s.mapJob id f).cinch = s.cinch := rfl
@[simp] theorem State.mapJob_copies (s : State) (id : Nat) (f : Job → Job) : (s.mapJob id f).copies = s.copies := rfl
@[simp] theorem State.mapJob_binsets (s : State) (id : Nat) (f : Job → Job) : (s.mapJob id f).binsets = s.binsets := rfl
@[simp] theorem State.mapJob_pins (s : State) (id : Nat) (f : Job → Job) : (s.mapJob id f).pins = s.pins := rfl
@[simp] theorem State.mapJob_holding (s : State) (id : Nat) (f : Job → Job) : (s.mapJob id f).holding = s.holding := rfl
@[simp] theorem State.mapJob_ctxsize (s : State) (id : Nat) (f : Job → Job) : (s.mapJob id f).ctxsize = s.ctxsize := rfl
@[simp] theorem State.mapJob_controls (s : State) (id : Nat) (f : Job → Job) : (s.mapJob id f).controls = s.controls := rfl
@[simp] theorem State.mapJob_events (s : State) (id : Nat) (f : Job → Job) : (s.mapJob id f).events = s.events := rfl
@[simp] theorem State.mapJob_grants (s : State) (id : Nat) (f : Job → Job) : (s.mapJob id f).grants = s.grants := rfl
@[simp] theorem State.mapJob_cores (s : State) (id : Nat) (f : Job → Job) : (s.mapJob id f).cores = s.cores := rfl
@[simp] theorem State.mapJob_bpact (s : State) (id : Nat) (f : Job → Job) : (s.mapJob id f).bpact = s.bpact := rfl
@[simp] theorem State.mapJob_bpcnt (s : State) (id : Nat) (f : Job → Job) : (s.mapJob id f).bpcnt = s.bpcnt := rfl
@[simp] theorem State.mapJob_wpts (s : State) (id : Nat) (f : Job → Job) : (s.mapJob id f).wpts = s.wpts := rfl
@[simp] theorem State.mapJob_chsel (s : State) (id : Nat) (f : Job → Job) : (s.mapJob id f).chsel = s.chsel := rfl
@[simp] theorem State.mapJob_pfrz (s : State) (id : Nat) (f : Job → Job) : (s.mapJob id f).pfrz = s.pfrz := rfl
@[simp] theorem State.mapJob_procs (s : State) (id : Nat) (f : Job → Job) : (s.mapJob id f).procs = s.procs := rfl
@[simp] theorem State.mapJob_waiting (s : State) (id : Nat) (f : Job → Job) : (s.mapJob id f).waiting = s.waiting := rfl
@[simp] theorem State.mapJob_ports (s : State) (id : Nat) (f : Job → Job) : (s.mapJob id f).ports = s.ports := rfl
@[simp] theorem State.mapJob_posts (s : State) (id : Nat) (f : Job → Job) : (s.mapJob id f).posts = s.posts := rfl
@[simp] theorem State.mapJob_jobs (s : State) (id : Nat) (f : Job → Job) : (s.mapJob id f).jobs = updFirst (·.id == id) f s.jobs := rfl
@[simp] theorem State.mapJob_heldPkts (s : State) (id : Nat) (f : Job → Job) : (s.mapJob id f).heldPkts = s.heldPkts := rfl
@[simp] theorem State.mapJob_tt (s : State) (id : Nat) (f : Job → Job) : (s.mapJob id f).tt = s.tt := rfl
@[simp] theorem State.mapJob_host (s : State) (id : Nat) (f : Job → Job) : (s.mapJob id f).host = s.host := rfl
@[simp] theorem State.mapJob_queues (s : State) (id : Nat) (f : Job → Job) : (s.mapJob id f).queues = s.queues := rfl
@[simp] theorem State.mapJob_outbox (s : State) (id : Nat) (f : Job → Job) : (s.mapJob id f).outbox = s.outbox := rfl

/-! ### `mapControl` -/

@[simp] theorem State.mapControl_todo (s : State) (n : Nat) (f : Control → Control) : (s.mapControl n f).todo = s.todo := rfl
@[simp] theorem State.mapControl_turn (s : State) (n : Nat) (f : Control → Control) : (s.mapControl n f).turn = s.turn := rfl
@[simp] theorem State.mapControl_hold (s : State) (n : Nat) (f : Control → Control) : (s.mapControl n f).hold = s.hold := rfl
@[simp] theorem State.mapControl_fresh (s : State) (n : Nat) (f : Control → Control) : (s.mapControl n f).fresh = s.fresh := rfl
@[simp] theorem State.mapControl_cyc (s : State) (n : Nat) (f : Control → Control) : (s.mapControl n f).cyc = s.cyc := rfl
@[simp] theorem State.mapControl_seq (s : State) (n : Nat) (f : Control → Control) : (s.mapControl n f).seq = s.seq := rfl
@[simp] theorem State.mapControl_mem (s : State) (n : Nat) (f : Control → Control) : (s.mapControl n f).mem = s.mem := rfl
@[simp] theorem State.mapControl_l1 (s : State) (n : Nat) (f : Control → Control) : (s.mapControl n f).l1 = s.l1 := rfl
@[simp] theorem State.mapControl_tlb (s : State) (n : Nat) (f : Control → Control) : (s.mapControl n f).tlb = s.tlb := rfl
@[simp] theorem State.mapControl_errors (s : State) (n : Nat) (f : Control → Control) : (s.mapControl n f).errors = s.errors := rfl
@[simp] theorem State.mapControl_chunks (s : State) (n : Nat) (f : Control → Control) : (s.mapControl n f).chunks = s.chunks := rfl
@[simp] theorem State.mapControl_versions (s : State) (n : Nat) (f : Control → Control) : (s.mapControl n f).versions = s.versions := rfl
@[simp] theorem State.mapControl_migrations (s : State) (n : Nat) (f : Control → Control) : (s.mapControl n f).migrations = s.migrations := rfl
@[simp] theorem State.mapControl_epoch (s : State) (n : Nat) (f : Control → Control) : (s.mapControl n f).epoch = s.epoch := rfl
@[simp] theorem State.mapControl_migctl (s : State) (n : Nat) (f : Control → Control) : (s.mapControl n f).migctl = s.migctl := rfl
@[simp] theorem State.mapControl_lranges (s : State) (n : Nat) (f : Control → Control) : (s.mapControl n f).lranges = s.lranges := rfl
@[simp] theorem State.mapControl_xcways (s : State) (n : Nat) (f : Control → Control) : (s.mapControl n f).xcways = s.xcways := rfl
@[simp] theorem State.mapControl_domtab (s : State) (n : Nat) (f : Control → Control) : (s.mapControl n f).domtab = s.domtab := rfl
@[simp] theorem State.mapControl_path (s : State) (n : Nat) (f : Control → Control) : (s.mapControl n f).path = s.path := rfl
@[simp] theorem State.mapControl_boundaries (s : State) (n : Nat) (f : Control → Control) : (s.mapControl n f).boundaries = s.boundaries := rfl
@[simp] theorem State.mapControl_ops (s : State) (n : Nat) (f : Control → Control) : (s.mapControl n f).ops = s.ops := rfl
@[simp] theorem State.mapControl_remotes (s : State) (n : Nat) (f : Control → Control) : (s.mapControl n f).remotes = s.remotes := rfl
@[simp] theorem State.mapControl_wgs (s : State) (n : Nat) (f : Control → Control) : (s.mapControl n f).wgs = s.wgs := rfl
@[simp] theorem State.mapControl_groups (s : State) (n : Nat) (f : Control → Control) : (s.mapControl n f).groups = s.groups := rfl
@[simp] theorem State.mapControl_bins (s : State) (n : Nat) (f : Control → Control) : (s.mapControl n f).bins = s.bins := rfl
@[simp] theorem State.mapControl_parts (s : State) (n : Nat) (f : Control → Control) : (s.mapControl n f).parts = s.parts := rfl
@[simp] theorem State.mapControl_regions (s : State) (n : Nat) (f : Control → Control) : (s.mapControl n f).regions = s.regions := rfl
@[simp] theorem State.mapControl_kernels (s : State) (n : Nat) (f : Control → Control) : (s.mapControl n f).kernels = s.kernels := rfl
@[simp] theorem State.mapControl_launches (s : State) (n : Nat) (f : Control → Control) : (s.mapControl n f).launches = s.launches := rfl
@[simp] theorem State.mapControl_requests (s : State) (n : Nat) (f : Control → Control) : (s.mapControl n f).requests = s.requests := rfl
@[simp] theorem State.mapControl_cinch (s : State) (n : Nat) (f : Control → Control) : (s.mapControl n f).cinch = s.cinch := rfl
@[simp] theorem State.mapControl_copies (s : State) (n : Nat) (f : Control → Control) : (s.mapControl n f).copies = s.copies := rfl
@[simp] theorem State.mapControl_binsets (s : State) (n : Nat) (f : Control → Control) : (s.mapControl n f).binsets = s.binsets := rfl
@[simp] theorem State.mapControl_pins (s : State) (n : Nat) (f : Control → Control) : (s.mapControl n f).pins = s.pins := rfl
@[simp] theorem State.mapControl_holding (s : State) (n : Nat) (f : Control → Control) : (s.mapControl n f).holding = s.holding := rfl
@[simp] theorem State.mapControl_ctxsize (s : State) (n : Nat) (f : Control → Control) : (s.mapControl n f).ctxsize = s.ctxsize := rfl
@[simp] theorem State.mapControl_controls (s : State) (n : Nat) (f : Control → Control) : (s.mapControl n f).controls = s.controls.modify n f := rfl
@[simp] theorem State.mapControl_events (s : State) (n : Nat) (f : Control → Control) : (s.mapControl n f).events = s.events := rfl
@[simp] theorem State.mapControl_grants (s : State) (n : Nat) (f : Control → Control) : (s.mapControl n f).grants = s.grants := rfl
@[simp] theorem State.mapControl_cores (s : State) (n : Nat) (f : Control → Control) : (s.mapControl n f).cores = s.cores := rfl
@[simp] theorem State.mapControl_bpact (s : State) (n : Nat) (f : Control → Control) : (s.mapControl n f).bpact = s.bpact := rfl
@[simp] theorem State.mapControl_bpcnt (s : State) (n : Nat) (f : Control → Control) : (s.mapControl n f).bpcnt = s.bpcnt := rfl
@[simp] theorem State.mapControl_wpts (s : State) (n : Nat) (f : Control → Control) : (s.mapControl n f).wpts = s.wpts := rfl
@[simp] theorem State.mapControl_chsel (s : State) (n : Nat) (f : Control → Control) : (s.mapControl n f).chsel = s.chsel := rfl
@[simp] theorem State.mapControl_pfrz (s : State) (n : Nat) (f : Control → Control) : (s.mapControl n f).pfrz = s.pfrz := rfl
@[simp] theorem State.mapControl_procs (s : State) (n : Nat) (f : Control → Control) : (s.mapControl n f).procs = s.procs := rfl
@[simp] theorem State.mapControl_waiting (s : State) (n : Nat) (f : Control → Control) : (s.mapControl n f).waiting = s.waiting := rfl
@[simp] theorem State.mapControl_ports (s : State) (n : Nat) (f : Control → Control) : (s.mapControl n f).ports = s.ports := rfl
@[simp] theorem State.mapControl_posts (s : State) (n : Nat) (f : Control → Control) : (s.mapControl n f).posts = s.posts := rfl
@[simp] theorem State.mapControl_jobs (s : State) (n : Nat) (f : Control → Control) : (s.mapControl n f).jobs = s.jobs := rfl
@[simp] theorem State.mapControl_heldPkts (s : State) (n : Nat) (f : Control → Control) : (s.mapControl n f).heldPkts = s.heldPkts := rfl
@[simp] theorem State.mapControl_tt (s : State) (n : Nat) (f : Control → Control) : (s.mapControl n f).tt = s.tt := rfl
@[simp] theorem State.mapControl_host (s : State) (n : Nat) (f : Control → Control) : (s.mapControl n f).host = s.host := rfl
@[simp] theorem State.mapControl_queues (s : State) (n : Nat) (f : Control → Control) : (s.mapControl n f).queues = s.queues := rfl
@[simp] theorem State.mapControl_outbox (s : State) (n : Nat) (f : Control → Control) : (s.mapControl n f).outbox = s.outbox := rfl

/-! ### `mapProc` -/

@[simp] theorem State.mapProc_todo (s : State) (n : Nat) (f : FabricProc → FabricProc) : (s.mapProc n f).todo = s.todo := rfl
@[simp] theorem State.mapProc_turn (s : State) (n : Nat) (f : FabricProc → FabricProc) : (s.mapProc n f).turn = s.turn := rfl
@[simp] theorem State.mapProc_hold (s : State) (n : Nat) (f : FabricProc → FabricProc) : (s.mapProc n f).hold = s.hold := rfl
@[simp] theorem State.mapProc_fresh (s : State) (n : Nat) (f : FabricProc → FabricProc) : (s.mapProc n f).fresh = s.fresh := rfl
@[simp] theorem State.mapProc_cyc (s : State) (n : Nat) (f : FabricProc → FabricProc) : (s.mapProc n f).cyc = s.cyc := rfl
@[simp] theorem State.mapProc_seq (s : State) (n : Nat) (f : FabricProc → FabricProc) : (s.mapProc n f).seq = s.seq := rfl
@[simp] theorem State.mapProc_mem (s : State) (n : Nat) (f : FabricProc → FabricProc) : (s.mapProc n f).mem = s.mem := rfl
@[simp] theorem State.mapProc_l1 (s : State) (n : Nat) (f : FabricProc → FabricProc) : (s.mapProc n f).l1 = s.l1 := rfl
@[simp] theorem State.mapProc_tlb (s : State) (n : Nat) (f : FabricProc → FabricProc) : (s.mapProc n f).tlb = s.tlb := rfl
@[simp] theorem State.mapProc_errors (s : State) (n : Nat) (f : FabricProc → FabricProc) : (s.mapProc n f).errors = s.errors := rfl
@[simp] theorem State.mapProc_chunks (s : State) (n : Nat) (f : FabricProc → FabricProc) : (s.mapProc n f).chunks = s.chunks := rfl
@[simp] theorem State.mapProc_versions (s : State) (n : Nat) (f : FabricProc → FabricProc) : (s.mapProc n f).versions = s.versions := rfl
@[simp] theorem State.mapProc_migrations (s : State) (n : Nat) (f : FabricProc → FabricProc) : (s.mapProc n f).migrations = s.migrations := rfl
@[simp] theorem State.mapProc_epoch (s : State) (n : Nat) (f : FabricProc → FabricProc) : (s.mapProc n f).epoch = s.epoch := rfl
@[simp] theorem State.mapProc_migctl (s : State) (n : Nat) (f : FabricProc → FabricProc) : (s.mapProc n f).migctl = s.migctl := rfl
@[simp] theorem State.mapProc_lranges (s : State) (n : Nat) (f : FabricProc → FabricProc) : (s.mapProc n f).lranges = s.lranges := rfl
@[simp] theorem State.mapProc_xcways (s : State) (n : Nat) (f : FabricProc → FabricProc) : (s.mapProc n f).xcways = s.xcways := rfl
@[simp] theorem State.mapProc_domtab (s : State) (n : Nat) (f : FabricProc → FabricProc) : (s.mapProc n f).domtab = s.domtab := rfl
@[simp] theorem State.mapProc_path (s : State) (n : Nat) (f : FabricProc → FabricProc) : (s.mapProc n f).path = s.path := rfl
@[simp] theorem State.mapProc_boundaries (s : State) (n : Nat) (f : FabricProc → FabricProc) : (s.mapProc n f).boundaries = s.boundaries := rfl
@[simp] theorem State.mapProc_ops (s : State) (n : Nat) (f : FabricProc → FabricProc) : (s.mapProc n f).ops = s.ops := rfl
@[simp] theorem State.mapProc_remotes (s : State) (n : Nat) (f : FabricProc → FabricProc) : (s.mapProc n f).remotes = s.remotes := rfl
@[simp] theorem State.mapProc_wgs (s : State) (n : Nat) (f : FabricProc → FabricProc) : (s.mapProc n f).wgs = s.wgs := rfl
@[simp] theorem State.mapProc_groups (s : State) (n : Nat) (f : FabricProc → FabricProc) : (s.mapProc n f).groups = s.groups := rfl
@[simp] theorem State.mapProc_bins (s : State) (n : Nat) (f : FabricProc → FabricProc) : (s.mapProc n f).bins = s.bins := rfl
@[simp] theorem State.mapProc_parts (s : State) (n : Nat) (f : FabricProc → FabricProc) : (s.mapProc n f).parts = s.parts := rfl
@[simp] theorem State.mapProc_regions (s : State) (n : Nat) (f : FabricProc → FabricProc) : (s.mapProc n f).regions = s.regions := rfl
@[simp] theorem State.mapProc_kernels (s : State) (n : Nat) (f : FabricProc → FabricProc) : (s.mapProc n f).kernels = s.kernels := rfl
@[simp] theorem State.mapProc_launches (s : State) (n : Nat) (f : FabricProc → FabricProc) : (s.mapProc n f).launches = s.launches := rfl
@[simp] theorem State.mapProc_requests (s : State) (n : Nat) (f : FabricProc → FabricProc) : (s.mapProc n f).requests = s.requests := rfl
@[simp] theorem State.mapProc_cinch (s : State) (n : Nat) (f : FabricProc → FabricProc) : (s.mapProc n f).cinch = s.cinch := rfl
@[simp] theorem State.mapProc_copies (s : State) (n : Nat) (f : FabricProc → FabricProc) : (s.mapProc n f).copies = s.copies := rfl
@[simp] theorem State.mapProc_binsets (s : State) (n : Nat) (f : FabricProc → FabricProc) : (s.mapProc n f).binsets = s.binsets := rfl
@[simp] theorem State.mapProc_pins (s : State) (n : Nat) (f : FabricProc → FabricProc) : (s.mapProc n f).pins = s.pins := rfl
@[simp] theorem State.mapProc_holding (s : State) (n : Nat) (f : FabricProc → FabricProc) : (s.mapProc n f).holding = s.holding := rfl
@[simp] theorem State.mapProc_ctxsize (s : State) (n : Nat) (f : FabricProc → FabricProc) : (s.mapProc n f).ctxsize = s.ctxsize := rfl
@[simp] theorem State.mapProc_controls (s : State) (n : Nat) (f : FabricProc → FabricProc) : (s.mapProc n f).controls = s.controls := rfl
@[simp] theorem State.mapProc_events (s : State) (n : Nat) (f : FabricProc → FabricProc) : (s.mapProc n f).events = s.events := rfl
@[simp] theorem State.mapProc_grants (s : State) (n : Nat) (f : FabricProc → FabricProc) : (s.mapProc n f).grants = s.grants := rfl
@[simp] theorem State.mapProc_cores (s : State) (n : Nat) (f : FabricProc → FabricProc) : (s.mapProc n f).cores = s.cores := rfl
@[simp] theorem State.mapProc_bpact (s : State) (n : Nat) (f : FabricProc → FabricProc) : (s.mapProc n f).bpact = s.bpact := rfl
@[simp] theorem State.mapProc_bpcnt (s : State) (n : Nat) (f : FabricProc → FabricProc) : (s.mapProc n f).bpcnt = s.bpcnt := rfl
@[simp] theorem State.mapProc_wpts (s : State) (n : Nat) (f : FabricProc → FabricProc) : (s.mapProc n f).wpts = s.wpts := rfl
@[simp] theorem State.mapProc_chsel (s : State) (n : Nat) (f : FabricProc → FabricProc) : (s.mapProc n f).chsel = s.chsel := rfl
@[simp] theorem State.mapProc_pfrz (s : State) (n : Nat) (f : FabricProc → FabricProc) : (s.mapProc n f).pfrz = s.pfrz := rfl
@[simp] theorem State.mapProc_procs (s : State) (n : Nat) (f : FabricProc → FabricProc) : (s.mapProc n f).procs = s.procs.modify n f := rfl
@[simp] theorem State.mapProc_waiting (s : State) (n : Nat) (f : FabricProc → FabricProc) : (s.mapProc n f).waiting = s.waiting := rfl
@[simp] theorem State.mapProc_ports (s : State) (n : Nat) (f : FabricProc → FabricProc) : (s.mapProc n f).ports = s.ports := rfl
@[simp] theorem State.mapProc_posts (s : State) (n : Nat) (f : FabricProc → FabricProc) : (s.mapProc n f).posts = s.posts := rfl
@[simp] theorem State.mapProc_jobs (s : State) (n : Nat) (f : FabricProc → FabricProc) : (s.mapProc n f).jobs = s.jobs := rfl
@[simp] theorem State.mapProc_heldPkts (s : State) (n : Nat) (f : FabricProc → FabricProc) : (s.mapProc n f).heldPkts = s.heldPkts := rfl
@[simp] theorem State.mapProc_tt (s : State) (n : Nat) (f : FabricProc → FabricProc) : (s.mapProc n f).tt = s.tt := rfl
@[simp] theorem State.mapProc_host (s : State) (n : Nat) (f : FabricProc → FabricProc) : (s.mapProc n f).host = s.host := rfl
@[simp] theorem State.mapProc_queues (s : State) (n : Nat) (f : FabricProc → FabricProc) : (s.mapProc n f).queues = s.queues := rfl
@[simp] theorem State.mapProc_outbox (s : State) (n : Nat) (f : FabricProc → FabricProc) : (s.mapProc n f).outbox = s.outbox := rfl

/-! ### `mapPart` -/

@[simp] theorem State.mapPart_todo (s : State) (core part : Nat) (f : Partition → Partition) : (s.mapPart core part f).todo = s.todo := rfl
@[simp] theorem State.mapPart_turn (s : State) (core part : Nat) (f : Partition → Partition) : (s.mapPart core part f).turn = s.turn := rfl
@[simp] theorem State.mapPart_hold (s : State) (core part : Nat) (f : Partition → Partition) : (s.mapPart core part f).hold = s.hold := rfl
@[simp] theorem State.mapPart_fresh (s : State) (core part : Nat) (f : Partition → Partition) : (s.mapPart core part f).fresh = s.fresh := rfl
@[simp] theorem State.mapPart_cyc (s : State) (core part : Nat) (f : Partition → Partition) : (s.mapPart core part f).cyc = s.cyc := rfl
@[simp] theorem State.mapPart_seq (s : State) (core part : Nat) (f : Partition → Partition) : (s.mapPart core part f).seq = s.seq := rfl
@[simp] theorem State.mapPart_mem (s : State) (core part : Nat) (f : Partition → Partition) : (s.mapPart core part f).mem = s.mem := rfl
@[simp] theorem State.mapPart_l1 (s : State) (core part : Nat) (f : Partition → Partition) : (s.mapPart core part f).l1 = s.l1 := rfl
@[simp] theorem State.mapPart_tlb (s : State) (core part : Nat) (f : Partition → Partition) : (s.mapPart core part f).tlb = s.tlb := rfl
@[simp] theorem State.mapPart_errors (s : State) (core part : Nat) (f : Partition → Partition) : (s.mapPart core part f).errors = s.errors := rfl
@[simp] theorem State.mapPart_chunks (s : State) (core part : Nat) (f : Partition → Partition) : (s.mapPart core part f).chunks = s.chunks := rfl
@[simp] theorem State.mapPart_versions (s : State) (core part : Nat) (f : Partition → Partition) : (s.mapPart core part f).versions = s.versions := rfl
@[simp] theorem State.mapPart_migrations (s : State) (core part : Nat) (f : Partition → Partition) : (s.mapPart core part f).migrations = s.migrations := rfl
@[simp] theorem State.mapPart_epoch (s : State) (core part : Nat) (f : Partition → Partition) : (s.mapPart core part f).epoch = s.epoch := rfl
@[simp] theorem State.mapPart_migctl (s : State) (core part : Nat) (f : Partition → Partition) : (s.mapPart core part f).migctl = s.migctl := rfl
@[simp] theorem State.mapPart_lranges (s : State) (core part : Nat) (f : Partition → Partition) : (s.mapPart core part f).lranges = s.lranges := rfl
@[simp] theorem State.mapPart_xcways (s : State) (core part : Nat) (f : Partition → Partition) : (s.mapPart core part f).xcways = s.xcways := rfl
@[simp] theorem State.mapPart_domtab (s : State) (core part : Nat) (f : Partition → Partition) : (s.mapPart core part f).domtab = s.domtab := rfl
@[simp] theorem State.mapPart_path (s : State) (core part : Nat) (f : Partition → Partition) : (s.mapPart core part f).path = s.path := rfl
@[simp] theorem State.mapPart_boundaries (s : State) (core part : Nat) (f : Partition → Partition) : (s.mapPart core part f).boundaries = s.boundaries := rfl
@[simp] theorem State.mapPart_ops (s : State) (core part : Nat) (f : Partition → Partition) : (s.mapPart core part f).ops = s.ops := rfl
@[simp] theorem State.mapPart_remotes (s : State) (core part : Nat) (f : Partition → Partition) : (s.mapPart core part f).remotes = s.remotes := rfl
@[simp] theorem State.mapPart_wgs (s : State) (core part : Nat) (f : Partition → Partition) : (s.mapPart core part f).wgs = s.wgs := rfl
@[simp] theorem State.mapPart_groups (s : State) (core part : Nat) (f : Partition → Partition) : (s.mapPart core part f).groups = s.groups := rfl
@[simp] theorem State.mapPart_bins (s : State) (core part : Nat) (f : Partition → Partition) : (s.mapPart core part f).bins = s.bins := rfl
@[simp] theorem State.mapPart_parts (s : State) (core part : Nat) (f : Partition → Partition) : (s.mapPart core part f).parts = sset partReset s.parts (core * 4 + part) (f (s.part core part)) := rfl
@[simp] theorem State.mapPart_regions (s : State) (core part : Nat) (f : Partition → Partition) : (s.mapPart core part f).regions = s.regions := rfl
@[simp] theorem State.mapPart_kernels (s : State) (core part : Nat) (f : Partition → Partition) : (s.mapPart core part f).kernels = s.kernels := rfl
@[simp] theorem State.mapPart_launches (s : State) (core part : Nat) (f : Partition → Partition) : (s.mapPart core part f).launches = s.launches := rfl
@[simp] theorem State.mapPart_requests (s : State) (core part : Nat) (f : Partition → Partition) : (s.mapPart core part f).requests = s.requests := rfl
@[simp] theorem State.mapPart_cinch (s : State) (core part : Nat) (f : Partition → Partition) : (s.mapPart core part f).cinch = s.cinch := rfl
@[simp] theorem State.mapPart_copies (s : State) (core part : Nat) (f : Partition → Partition) : (s.mapPart core part f).copies = s.copies := rfl
@[simp] theorem State.mapPart_binsets (s : State) (core part : Nat) (f : Partition → Partition) : (s.mapPart core part f).binsets = s.binsets := rfl
@[simp] theorem State.mapPart_pins (s : State) (core part : Nat) (f : Partition → Partition) : (s.mapPart core part f).pins = s.pins := rfl
@[simp] theorem State.mapPart_holding (s : State) (core part : Nat) (f : Partition → Partition) : (s.mapPart core part f).holding = s.holding := rfl
@[simp] theorem State.mapPart_ctxsize (s : State) (core part : Nat) (f : Partition → Partition) : (s.mapPart core part f).ctxsize = s.ctxsize := rfl
@[simp] theorem State.mapPart_controls (s : State) (core part : Nat) (f : Partition → Partition) : (s.mapPart core part f).controls = s.controls := rfl
@[simp] theorem State.mapPart_events (s : State) (core part : Nat) (f : Partition → Partition) : (s.mapPart core part f).events = s.events := rfl
@[simp] theorem State.mapPart_grants (s : State) (core part : Nat) (f : Partition → Partition) : (s.mapPart core part f).grants = s.grants := rfl
@[simp] theorem State.mapPart_cores (s : State) (core part : Nat) (f : Partition → Partition) : (s.mapPart core part f).cores = s.cores := rfl
@[simp] theorem State.mapPart_bpact (s : State) (core part : Nat) (f : Partition → Partition) : (s.mapPart core part f).bpact = s.bpact := rfl
@[simp] theorem State.mapPart_bpcnt (s : State) (core part : Nat) (f : Partition → Partition) : (s.mapPart core part f).bpcnt = s.bpcnt := rfl
@[simp] theorem State.mapPart_wpts (s : State) (core part : Nat) (f : Partition → Partition) : (s.mapPart core part f).wpts = s.wpts := rfl
@[simp] theorem State.mapPart_chsel (s : State) (core part : Nat) (f : Partition → Partition) : (s.mapPart core part f).chsel = s.chsel := rfl
@[simp] theorem State.mapPart_pfrz (s : State) (core part : Nat) (f : Partition → Partition) : (s.mapPart core part f).pfrz = s.pfrz := rfl
@[simp] theorem State.mapPart_procs (s : State) (core part : Nat) (f : Partition → Partition) : (s.mapPart core part f).procs = s.procs := rfl
@[simp] theorem State.mapPart_waiting (s : State) (core part : Nat) (f : Partition → Partition) : (s.mapPart core part f).waiting = s.waiting := rfl
@[simp] theorem State.mapPart_ports (s : State) (core part : Nat) (f : Partition → Partition) : (s.mapPart core part f).ports = s.ports := rfl
@[simp] theorem State.mapPart_posts (s : State) (core part : Nat) (f : Partition → Partition) : (s.mapPart core part f).posts = s.posts := rfl
@[simp] theorem State.mapPart_jobs (s : State) (core part : Nat) (f : Partition → Partition) : (s.mapPart core part f).jobs = s.jobs := rfl
@[simp] theorem State.mapPart_heldPkts (s : State) (core part : Nat) (f : Partition → Partition) : (s.mapPart core part f).heldPkts = s.heldPkts := rfl
@[simp] theorem State.mapPart_tt (s : State) (core part : Nat) (f : Partition → Partition) : (s.mapPart core part f).tt = s.tt := rfl
@[simp] theorem State.mapPart_host (s : State) (core part : Nat) (f : Partition → Partition) : (s.mapPart core part f).host = s.host := rfl
@[simp] theorem State.mapPart_queues (s : State) (core part : Nat) (f : Partition → Partition) : (s.mapPart core part f).queues = s.queues := rfl
@[simp] theorem State.mapPart_outbox (s : State) (core part : Nat) (f : Partition → Partition) : (s.mapPart core part f).outbox = s.outbox := rfl

/-! ### `bump` -/

@[simp] theorem State.bump_todo (s : State) : (s.bump).todo = s.todo := rfl
@[simp] theorem State.bump_turn (s : State) : (s.bump).turn = s.turn := rfl
@[simp] theorem State.bump_hold (s : State) : (s.bump).hold = s.hold := rfl
@[simp] theorem State.bump_fresh (s : State) : (s.bump).fresh = s.fresh := rfl
@[simp] theorem State.bump_cyc (s : State) : (s.bump).cyc = s.cyc := rfl
@[simp] theorem State.bump_seq (s : State) : (s.bump).seq = s.seq + 1 := rfl
@[simp] theorem State.bump_mem (s : State) : (s.bump).mem = s.mem := rfl
@[simp] theorem State.bump_l1 (s : State) : (s.bump).l1 = s.l1 := rfl
@[simp] theorem State.bump_tlb (s : State) : (s.bump).tlb = s.tlb := rfl
@[simp] theorem State.bump_errors (s : State) : (s.bump).errors = s.errors := rfl
@[simp] theorem State.bump_chunks (s : State) : (s.bump).chunks = s.chunks := rfl
@[simp] theorem State.bump_versions (s : State) : (s.bump).versions = s.versions := rfl
@[simp] theorem State.bump_migrations (s : State) : (s.bump).migrations = s.migrations := rfl
@[simp] theorem State.bump_epoch (s : State) : (s.bump).epoch = s.epoch := rfl
@[simp] theorem State.bump_migctl (s : State) : (s.bump).migctl = s.migctl := rfl
@[simp] theorem State.bump_lranges (s : State) : (s.bump).lranges = s.lranges := rfl
@[simp] theorem State.bump_xcways (s : State) : (s.bump).xcways = s.xcways := rfl
@[simp] theorem State.bump_domtab (s : State) : (s.bump).domtab = s.domtab := rfl
@[simp] theorem State.bump_path (s : State) : (s.bump).path = s.path := rfl
@[simp] theorem State.bump_boundaries (s : State) : (s.bump).boundaries = s.boundaries := rfl
@[simp] theorem State.bump_ops (s : State) : (s.bump).ops = s.ops := rfl
@[simp] theorem State.bump_remotes (s : State) : (s.bump).remotes = s.remotes := rfl
@[simp] theorem State.bump_wgs (s : State) : (s.bump).wgs = s.wgs := rfl
@[simp] theorem State.bump_groups (s : State) : (s.bump).groups = s.groups := rfl
@[simp] theorem State.bump_bins (s : State) : (s.bump).bins = s.bins := rfl
@[simp] theorem State.bump_parts (s : State) : (s.bump).parts = s.parts := rfl
@[simp] theorem State.bump_regions (s : State) : (s.bump).regions = s.regions := rfl
@[simp] theorem State.bump_kernels (s : State) : (s.bump).kernels = s.kernels := rfl
@[simp] theorem State.bump_launches (s : State) : (s.bump).launches = s.launches := rfl
@[simp] theorem State.bump_requests (s : State) : (s.bump).requests = s.requests := rfl
@[simp] theorem State.bump_cinch (s : State) : (s.bump).cinch = s.cinch := rfl
@[simp] theorem State.bump_copies (s : State) : (s.bump).copies = s.copies := rfl
@[simp] theorem State.bump_binsets (s : State) : (s.bump).binsets = s.binsets := rfl
@[simp] theorem State.bump_pins (s : State) : (s.bump).pins = s.pins := rfl
@[simp] theorem State.bump_holding (s : State) : (s.bump).holding = s.holding := rfl
@[simp] theorem State.bump_ctxsize (s : State) : (s.bump).ctxsize = s.ctxsize := rfl
@[simp] theorem State.bump_controls (s : State) : (s.bump).controls = s.controls := rfl
@[simp] theorem State.bump_events (s : State) : (s.bump).events = s.events := rfl
@[simp] theorem State.bump_grants (s : State) : (s.bump).grants = s.grants := rfl
@[simp] theorem State.bump_cores (s : State) : (s.bump).cores = s.cores := rfl
@[simp] theorem State.bump_bpact (s : State) : (s.bump).bpact = s.bpact := rfl
@[simp] theorem State.bump_bpcnt (s : State) : (s.bump).bpcnt = s.bpcnt := rfl
@[simp] theorem State.bump_wpts (s : State) : (s.bump).wpts = s.wpts := rfl
@[simp] theorem State.bump_chsel (s : State) : (s.bump).chsel = s.chsel := rfl
@[simp] theorem State.bump_pfrz (s : State) : (s.bump).pfrz = s.pfrz := rfl
@[simp] theorem State.bump_procs (s : State) : (s.bump).procs = s.procs := rfl
@[simp] theorem State.bump_waiting (s : State) : (s.bump).waiting = s.waiting := rfl
@[simp] theorem State.bump_ports (s : State) : (s.bump).ports = s.ports := rfl
@[simp] theorem State.bump_posts (s : State) : (s.bump).posts = s.posts := rfl
@[simp] theorem State.bump_jobs (s : State) : (s.bump).jobs = s.jobs := rfl
@[simp] theorem State.bump_heldPkts (s : State) : (s.bump).heldPkts = s.heldPkts := rfl
@[simp] theorem State.bump_tt (s : State) : (s.bump).tt = s.tt := rfl
@[simp] theorem State.bump_host (s : State) : (s.bump).host = s.host := rfl
@[simp] theorem State.bump_queues (s : State) : (s.bump).queues = s.queues := rfl
@[simp] theorem State.bump_outbox (s : State) : (s.bump).outbox = s.outbox := rfl

/-! ### `send` -/

@[simp] theorem State.send_todo (s : State) (o : Outgoing) : (s.send o).todo = s.todo := rfl
@[simp] theorem State.send_turn (s : State) (o : Outgoing) : (s.send o).turn = s.turn := rfl
@[simp] theorem State.send_hold (s : State) (o : Outgoing) : (s.send o).hold = s.hold := rfl
@[simp] theorem State.send_fresh (s : State) (o : Outgoing) : (s.send o).fresh = s.fresh := rfl
@[simp] theorem State.send_cyc (s : State) (o : Outgoing) : (s.send o).cyc = s.cyc := rfl
@[simp] theorem State.send_seq (s : State) (o : Outgoing) : (s.send o).seq = s.seq := rfl
@[simp] theorem State.send_mem (s : State) (o : Outgoing) : (s.send o).mem = s.mem := rfl
@[simp] theorem State.send_l1 (s : State) (o : Outgoing) : (s.send o).l1 = s.l1 := rfl
@[simp] theorem State.send_tlb (s : State) (o : Outgoing) : (s.send o).tlb = s.tlb := rfl
@[simp] theorem State.send_errors (s : State) (o : Outgoing) : (s.send o).errors = s.errors := rfl
@[simp] theorem State.send_chunks (s : State) (o : Outgoing) : (s.send o).chunks = s.chunks := rfl
@[simp] theorem State.send_versions (s : State) (o : Outgoing) : (s.send o).versions = s.versions := rfl
@[simp] theorem State.send_migrations (s : State) (o : Outgoing) : (s.send o).migrations = s.migrations := rfl
@[simp] theorem State.send_epoch (s : State) (o : Outgoing) : (s.send o).epoch = s.epoch := rfl
@[simp] theorem State.send_migctl (s : State) (o : Outgoing) : (s.send o).migctl = s.migctl := rfl
@[simp] theorem State.send_lranges (s : State) (o : Outgoing) : (s.send o).lranges = s.lranges := rfl
@[simp] theorem State.send_xcways (s : State) (o : Outgoing) : (s.send o).xcways = s.xcways := rfl
@[simp] theorem State.send_domtab (s : State) (o : Outgoing) : (s.send o).domtab = s.domtab := rfl
@[simp] theorem State.send_path (s : State) (o : Outgoing) : (s.send o).path = s.path := rfl
@[simp] theorem State.send_boundaries (s : State) (o : Outgoing) : (s.send o).boundaries = s.boundaries := rfl
@[simp] theorem State.send_ops (s : State) (o : Outgoing) : (s.send o).ops = s.ops := rfl
@[simp] theorem State.send_remotes (s : State) (o : Outgoing) : (s.send o).remotes = s.remotes := rfl
@[simp] theorem State.send_wgs (s : State) (o : Outgoing) : (s.send o).wgs = s.wgs := rfl
@[simp] theorem State.send_groups (s : State) (o : Outgoing) : (s.send o).groups = s.groups := rfl
@[simp] theorem State.send_bins (s : State) (o : Outgoing) : (s.send o).bins = s.bins := rfl
@[simp] theorem State.send_parts (s : State) (o : Outgoing) : (s.send o).parts = s.parts := rfl
@[simp] theorem State.send_regions (s : State) (o : Outgoing) : (s.send o).regions = s.regions := rfl
@[simp] theorem State.send_kernels (s : State) (o : Outgoing) : (s.send o).kernels = s.kernels := rfl
@[simp] theorem State.send_launches (s : State) (o : Outgoing) : (s.send o).launches = s.launches := rfl
@[simp] theorem State.send_requests (s : State) (o : Outgoing) : (s.send o).requests = s.requests := rfl
@[simp] theorem State.send_cinch (s : State) (o : Outgoing) : (s.send o).cinch = s.cinch := rfl
@[simp] theorem State.send_copies (s : State) (o : Outgoing) : (s.send o).copies = s.copies := rfl
@[simp] theorem State.send_binsets (s : State) (o : Outgoing) : (s.send o).binsets = s.binsets := rfl
@[simp] theorem State.send_pins (s : State) (o : Outgoing) : (s.send o).pins = s.pins := rfl
@[simp] theorem State.send_holding (s : State) (o : Outgoing) : (s.send o).holding = s.holding := rfl
@[simp] theorem State.send_ctxsize (s : State) (o : Outgoing) : (s.send o).ctxsize = s.ctxsize := rfl
@[simp] theorem State.send_controls (s : State) (o : Outgoing) : (s.send o).controls = s.controls := rfl
@[simp] theorem State.send_events (s : State) (o : Outgoing) : (s.send o).events = s.events := rfl
@[simp] theorem State.send_grants (s : State) (o : Outgoing) : (s.send o).grants = s.grants := rfl
@[simp] theorem State.send_cores (s : State) (o : Outgoing) : (s.send o).cores = s.cores := rfl
@[simp] theorem State.send_bpact (s : State) (o : Outgoing) : (s.send o).bpact = s.bpact := rfl
@[simp] theorem State.send_bpcnt (s : State) (o : Outgoing) : (s.send o).bpcnt = s.bpcnt := rfl
@[simp] theorem State.send_wpts (s : State) (o : Outgoing) : (s.send o).wpts = s.wpts := rfl
@[simp] theorem State.send_chsel (s : State) (o : Outgoing) : (s.send o).chsel = s.chsel := rfl
@[simp] theorem State.send_pfrz (s : State) (o : Outgoing) : (s.send o).pfrz = s.pfrz := rfl
@[simp] theorem State.send_procs (s : State) (o : Outgoing) : (s.send o).procs = s.procs := rfl
@[simp] theorem State.send_waiting (s : State) (o : Outgoing) : (s.send o).waiting = s.waiting := rfl
@[simp] theorem State.send_ports (s : State) (o : Outgoing) : (s.send o).ports = s.ports := rfl
@[simp] theorem State.send_posts (s : State) (o : Outgoing) : (s.send o).posts = s.posts := rfl
@[simp] theorem State.send_jobs (s : State) (o : Outgoing) : (s.send o).jobs = s.jobs := rfl
@[simp] theorem State.send_heldPkts (s : State) (o : Outgoing) : (s.send o).heldPkts = s.heldPkts := rfl
@[simp] theorem State.send_tt (s : State) (o : Outgoing) : (s.send o).tt = s.tt := rfl
@[simp] theorem State.send_host (s : State) (o : Outgoing) : (s.send o).host = s.host := rfl
@[simp] theorem State.send_queues (s : State) (o : Outgoing) : (s.send o).queues = s.queues := rfl
@[simp] theorem State.send_outbox (s : State) (o : Outgoing) : (s.send o).outbox = s.outbox ++ [o] := rfl

end Sys2Proof.Machine
end

