-- ==== Sys2Proof/Laws/Traps.lean ====
section
/-!
SUPPORT. What taking a trap does to each unit (R316, R317, R320), and the step's turn: one lemma per operation, which says everything it
changes.
-/
namespace Sys2Proof.Machine

/-- The stop that a trap leaves on a group. -/
def groupStop (g : Group) (s : State) (cause sub detail code addr pc : Nat) (lanes : List Nat) (noResume : Bool) : Stop :=
  { cause, sub, detail, code, cont := (if code = 3 then (false, false) else stopFlags cause sub).1
    reexec := (if code = 3 then (false, false) else stopFlags cause sub).2 && !noResume, pc, addr, lanes
    tid := 32 * g.block + (lanes.head?.or g.lanes.head?).getD 0, clk := s.cyc }

/-- A trap on a group that no fault has stopped: the group stops, and its event waits to be entered. -/
theorem trapGroup_eq {s : State} {gid : Nat} {g : Group} {w : Workgroup} (hg : s.group? gid = some g) (hw : s.wg? g.wg = some w)
    (hs : (g.stop.map fun x => !x.debug).getD false = false) (cause sub detail code addr pc : Nat) (lanes : List Nat) (noResume : Bool) :
    s.trapGroup gid cause sub detail code addr pc lanes noResume =
      let st := groupStop g s cause sub detail code addr pc lanes noResume
      { s with
        groups := updFirst (·.id == gid) (fun g => { g with stop := some st, step := none }) s.groups
        events := s.events ++ [{ control := clusterOf w.core, unit := some (.group gid)
                                 event := { words := s.wgEvent w st.tid false st, core := w.core, part := g.part, clk := 0 } }] } := by
  unfold State.trapGroup
  simp only [hg, hw, hs]
  rfl

/-- A group that a fault has stopped already takes no second trap. -/
theorem trapGroup_again {s : State} {gid : Nat} {g : Group} {w : Workgroup} (hg : s.group? gid = some g) (hw : s.wg? g.wg = some w)
    {st : Stop} (hs : g.stop = some st) (hd : st.debug = false) (cause sub detail code addr pc : Nat) (lanes : List Nat) (noResume : Bool) :
    s.trapGroup gid cause sub detail code addr pc lanes noResume = s := by
  unfold State.trapGroup
  simp [hg, hw, hs, hd]

/-- A trap at a word of a group is a trap on that group, raised by all its lanes where none are named. -/
theorem trapHere_group {s : State} {v : View} (h : Spec.InRun s v) (cause sub detail addr : Nat) (lanes : List Nat) :
    s.trapHere cause sub detail addr lanes =
      s.trapGroup v.g.id cause sub detail 0 addr v.turn.pc (if lanes.isEmpty then v.g.lanes else lanes) false := by
  unfold State.trapHere
  simp [h.turn, h.unit, h.group]

/-- The group after its trap. -/
theorem trapGroup_group {s : State} {gid : Nat} {g : Group} {w : Workgroup} (hg : s.group? gid = some g) (hw : s.wg? g.wg = some w)
    (hs : (g.stop.map fun x => !x.debug).getD false = false) (cause sub detail code addr pc : Nat) (lanes : List Nat) (noResume : Bool) :
    (s.trapGroup gid cause sub detail code addr pc lanes noResume).group? gid =
      some { g with stop := some (groupStop g s cause sub detail code addr pc lanes noResume), step := none } := by
  rw [trapGroup_eq hg hw hs]
  have := group_mapGroup_same s gid
    (f := fun g' => { g' with stop := some (groupStop g s cause sub detail code addr pc lanes noResume), step := none }) (fun _ => rfl)
  rw [hg] at this
  exact this

/-- Another group is as it was. -/
theorem trapGroup_other (s : State) {gid j : Nat} (hj : j ≠ gid) (cause sub detail code addr pc : Nat) (lanes : List Nat) (noResume : Bool) :
    (s.trapGroup gid cause sub detail code addr pc lanes noResume).group? j = s.group? j := by
  unfold State.trapGroup
  split
  · rfl
  split
  · rfl
  simp only []
  split
  · rfl
  · exact group_mapGroup_other s (fun _ => rfl) hj

/-- A trap on a control core stops it, and nothing else. -/
theorem trapControl_eq (s : State) (n : Nat) :
    s.trapControl n = { s with controls := s.controls.modify n fun c => { c with trapped := true } } := rfl

/-- A step with something due performs it first. -/
theorem step_due {s : State} {a : Act} {r : List Act} (h : s.todo = a :: r) :
    step s = perform { s with todo := r, fresh := s.fresh + 1 } a := by
  unfold step nextAct
  simp only [h]

/-- A step with nothing due, and no timed step by the clk that the schedule names, performs what the schedule names. -/
theorem step_scheduled {s : State} (h : s.todo = []) (ht : s.awaited.timedBy (s.awaited.cyc + (Config.schedule s.fresh).1) = none) :
    step s = perform (s.awaited.atClk (s.awaited.cyc + (Config.schedule s.fresh).1)) (Config.schedule s.fresh).2 := by
  unfold step nextAct
  split
  · next e => rw [h] at e; cases e
  · simp only [ht]

/-- A step with nothing due performs the earliest timed step that falls due by the clk that the schedule names. -/
theorem step_timed {s : State} (h : s.todo = []) {e : Nat × Instr}
    (ht : s.awaited.timedBy (s.awaited.cyc + (Config.schedule s.fresh).1) = some e) :
    step s = perform (s.awaited.atClk e.1) (.event e.2) := by
  unfold step nextAct
  split
  · next e => rw [h] at e; cases e
  · simp only [ht]

/-- A unit that offers an instruction runs it, with the bookkeeping after it, unless something comes before the clk at which it issues. -/
theorem runUnit_offer {s t : State} {u : UnitId} {i : Instr} {active : List Nat} {counts : Bool}
    (h : s.offer u = .run i active counts t) {t' : State} (he : exec i t = .next t') (ho : s.overtaken u t'.cyc = false) :
    runUnit s u = .next (State.finish s t' u i active counts) := by
  unfold runUnit
  simp only [h, he, ho, Bool.false_eq_true, if_false]

/-- A word of a unit that something else comes before does not run yet. -/
theorem runUnit_overtaken {s t : State} {u : UnitId} {i : Instr} {active : List Nat} {counts : Bool}
    (h : s.offer u = .run i active counts t) {t' : State} (he : exec i t = .next t') (ho : s.overtaken u t'.cyc = true) :
    runUnit s u = .next { s with turn := none, hold := false } := by
  unfold runUnit
  simp only [h, he, ho, if_true]

end Sys2Proof.Machine
end

