-- ==== Sys2Proof/Laws/Words.lean ====
section
/-!
SUPPORT. What each shared operation that begins a word does when the word can execute, said once: a word of a run, a fixed-latency
lane-set or cross-lane word, a long-latency word, a uniform word on every executor, and a packet in hand.
-/
namespace Sys2Proof.Machine
open Sys2Proof.Spec

/-! ### Holding until sources are ready changes the clk only -/

theorem holdTo_frame (s : State) (v : View) (c : Nat) : { s.holdTo v c with cyc := s.cyc, parts := s.parts } = s := by
  unfold State.holdTo; split <;> rfl
theorem holdTo_wg (s : State) (v : View) (c id : Nat) : (s.holdTo v c).wg? id = s.wg? id := by
  unfold State.holdTo; split <;> rfl
theorem holdTo_thread (s : State) (v : View) (c wg tid : Nat) : (s.holdTo v c).thread? wg tid = s.thread? wg tid := by
  unfold State.holdTo; split <;> rfl
theorem holdTo_fresh (s : State) (v : View) (c : Nat) : (s.holdTo v c).fresh = s.fresh := by
  unfold State.holdTo; split <;> rfl
theorem holdTo_cyc (s : State) (v : View) (c : Nat) : (s.holdTo v c).cyc = max s.cyc c := by
  unfold State.holdTo
  split
  · exact (Nat.max_eq_left ‹_›).symm
  · next h => exact (Nat.max_eq_right (Nat.le_of_lt (Nat.lt_of_not_le h))).symm

/-- The view's workgroup under its own id. -/
theorem inRun_own {s : State} {v : View} (h : InRun s v) : s.wg? v.wg.id = some v.wg := by
  rw [wg_id h.wg]; exact h.wg

theorem atReady_wg (s : State) (v : View) (g : Option Guard) (a b : List Src) (p : List Nat) (id : Nat) :
    (atReady s v g a b p).wg? id = s.wg? id := by
  unfold atReady; rw [holdTo_wg, holdTo_wg]

/-! ### Words of a run -/

/-- A word of a run sees its view. -/
theorem onGroup_run {s : State} {v : View} (h : InRun s v) (body : View → Result) : onGroup s body = body v := by
  unfold onGroup
  simp only [h.turn, h.unit, h.group, h.wg, h.leaf, h.run]

/-- A lane-set word whose operands are usable does what it does at the clk at which they are ready. -/
theorem withLanes_run {s : State} {v : View} (h : InRun s v) {guard : Option Guard} {srcs : List Src} {preds : List Nat} {dst : Dst}
    {long : Bool} (hu : Usable v srcs dst) (hl : long = true → v.run.ordinals.length < 16) (body : View → State → Result) :
    withLanes guard srcs preds dst long s body = body v (s.holdTo v (State.sourcesReady v v.threads srcs (preds ++ guardPreds v guard))) := by
  unfold withLanes
  rw [onGroup_run h]
  have h1 : (long && decide (16 ≤ v.run.ordinals.length)) = false := by
    cases hb : long with
    | false => rfl
    | true => simpa using hl hb
  have h2 : v.threads.filter (fun t => !srcs.all (hasValue t)) = [] := by
    rw [List.filter_eq_nil_iff]
    intro t ht
    simp [hu.values t ht]
  simp [h1, hu.sources, hu.target, h2]

/-- A fixed-latency lane-set word gives every present lane its result. -/
theorem laneWord_run {s : State} {v : View} (h : InRun s v) (f : Form) (lat wa wb wc wg : Nat) (draws : View → List Src)
    (preds : List Nat) (compute : State → View → Thread → W64 → W64 → W64 → W64 × Option PredWrite) (hu : Usable v f.srcs f.d) :
    ∃ t, laneWord f lat wa wb wc wg draws preds compute s = .next t ∧
      LaneEffect (atReady s v f.guard f.srcs (draws v) preds) t v f.d ((atReady s v f.guard f.srcs (draws v) preds).cyc + lat)
        fun t => laneOut (atReady s v f.guard f.srcs (draws v) preds) v f wa wb wc wg compute t := by
  refine ⟨_, ?_, laneEffect_commit (atReady s v f.guard f.srcs (draws v) preds) v (by rw [atReady_wg]; exact inRun_own h) f.d lat _ fun _ => rfl⟩
  unfold laneWord
  rw [withLanes_run h hu (by intro e; cases e)]
  rfl

/-- A cross-lane word gives every present lane its result. -/
theorem crossWord_run {s : State} {v : View} (h : InRun s v) (f : Form) (draws : View → List Src)
    (compute : State → View → Positions → Thread → W64 × W64) (hu : Usable v f.srcs f.d) :
    ∃ t, crossWord f draws compute s = .next t ∧
      LaneEffect (atReady s v f.guard f.srcs (draws v) []) t v f.d ((atReady s v f.guard f.srcs (draws v) []).cyc + 5)
        fun t => crossOut (atReady s v f.guard f.srcs (draws v) []) v f compute t := by
  refine ⟨_, ?_, laneEffect_commit (atReady s v f.guard f.srcs (draws v) []) v (by rw [atReady_wg]; exact inRun_own h) f.d 5 _ fun _ => rfl⟩
  unfold crossWord
  rw [withLanes_run h hu (by intro e; cases e)]
  rfl

/-! ### Uniform words -/

/-- A uniform word on an executor that can run it. -/
theorem withUni_run {s s1 : State} {u : Uni} {guard : Option Guard} {n : Nat} {srcs : List Src} {dst : Dst} {long : Bool}
    (h : UniReady s u guard n srcs dst long s1) (body : Uni → State → Result) : withUni guard n srcs dst long s body = body u s1 := by
  cases u with
  | lane v src on =>
    obtain ⟨hr, hl, ha, hd, hon, hh, hv, rfl⟩ := h
    unfold withUni
    have h1 : (long && decide (16 ≤ v.run.ordinals.length)) = false := by
      cases hb : long with
      | false => rfl
      | true => simpa using hl hb
    have e : on = src :: on.tail := by
      cases on with
      | nil => simp at hh
      | cons a r => simp at hh; subst hh; rfl
    simp only [hr.turn, hr.unit]
    rw [onGroup_run hr]
    simp only [h1, ha, hd, Bool.false_eq_true, if_false, Bool.and_self, Bool.not_true]
    rw [← hon, e]
    simp [hv]
  | unit i =>
    obtain ⟨⟨t, ht, hi⟩, hg, rfl, hs, hd, hk, rfl⟩ := h
    have hb : ∀ x ∈ srcs, (match x with | .k r => s1.kBusy i r | _ => false) = false := by
      intro x hx
      cases x with
      | k r => exact hk r hx
      | _ => rfl
    have hb : (srcs.any fun x => match x with | .k r => s1.kBusy i r | _ => false) = false :=
      List.any_eq_false.mpr fun x hx => by simp [hb x hx]
    unfold withUni
    rw [ht]
    cases i with
    | group g => exact absurd rfl (hg g)
    | _ =>
      simp only [hi, hs, hd, Option.isSome_none, Bool.false_eq_true, if_false, Bool.and_self, Bool.not_true]
      exact if_neg fun h => Bool.noConfusion (hb.symm.trans h)

/-- A packet in hand is performed. -/
theorem onPacket_run {s : State} {queue op : Nat} {q : Queue} {p : QPacket} (hq : s.queues[queue]? = some q) (hp : q.packet = some p)
    (ho : fld q.word0 16 8 = op) (body : Command → State) :
    onPacket queue op s body = .next (body ⟨queue, fld q.word0 32 32, p.words, p.started, p.order⟩) := by
  unfold onPacket
  simp only [hq, hp, ho, if_true]

end Sys2Proof.Machine
end

