-- ==== Sys2Proof/Tests/Slice0.lean ====
section
/-!
SUPPORT. Tests: words written out from the spec's encodings decode to their instructions, ill-formed terms are refused, single steps
give the values of the spec's examples, and every statement's hypotheses are met by a state and operands shown here.
-/
namespace Sys2Proof.Tests

-- One theorem at a time: the kernel's evaluations otherwise wait on each other in many threads at once, each with a stack of its own.
set_option Elab.async false

open Sys2Proof.Machine Sys2Proof.Spec

/-! ### Decoding: words built field by field from Tables 3.1 to 3.13 and each chapter's own encoding tables -/

/-- `add.d x2, x1, 3`: op 0x00, shape 00, D 2, A 1, B 0x73. -/
theorem test_decode_add (z : Nat) : decodeWord 0x000080F3 z = .ok (.add ⟨.d, .x 2, .x 1, .imm 3⟩) := by rfl
/-- `cmp.d.lt p1, %lane, k1`: D holds condition 010 and predicate 1, A 0x5D, B 0x41. -/
theorem test_decode_cmp (z : Nat) : decodeWord 0x05446EC1 z = .ok (.cmp .lt 1 ⟨.d, .none, .special .lane, .k 1⟩) := by rfl
/-- `bfx.d x4, x1, 16, 8`: MOD holds p and m − 1. -/
theorem test_decode_bfx : decodeWord 0x24804011 0xCCCC01D0 = .ok (.bfx ⟨.d, .n, .x 4, .x 1, .zero, .zero, none⟩ 16 8) := by rfl
/-- Op 0x23 (fma), shape 01, D8 0x64, A8 0x46, kind 010; word 1 0x0304_E000: guard !p2 (chapter 3's example). -/
theorem test_decode_fma : decodeWord 0x28D64462 0x0304E000 =
    .ok (.fma ⟨.w, .f, .x 100, .x 70, .x 3, .x 4, some ⟨true, 2⟩⟩) := by rfl
/-- Op 0x20 (fadd) of Table 3.18. -/
theorem test_decode_fadd (z : Nat) : decodeWord 0x08028288 z = .ok (.fadd ⟨.d, .x 10, .x 5, .x 8⟩) := by rfl
/-- `xbc.w x5, x3, 7:1, x9` (chapter 6's example). -/
theorem test_decode_xbc : decodeWord 0x34905030 0xCC090027 = .ok (.xbc ⟨.w, .i, .x 5, .x 3, .zero, .x 9, none⟩ 7 1) := by rfl
/-- `ld.h x5, [x4+2]`: op 0x60, shape 10, D 5, A 4, B 0x71 (chapter 4's example: the offset counts elements). -/
theorem test_decode_ld (z : Nat) : decodeWord 0x18214271 z = .ok (.ld ⟨.h, .x 5, .x 4, .zero⟩ 1) := by rfl
/-- `atom.w.add.rel x5, [x4+8], x6` (chapter 9's example): MOD holds the operation, the flavour and the offset in elements. -/
theorem test_decode_atom : decodeWord 0x39905040 0x06CC0090 =
    .ok (.atom ⟨.w, .i, .x 5, .x 4, .x 6, .zero, none⟩ .add .rel 2) := by rfl
/-- `br` +8 words: op 0x70. -/
theorem test_decode_br (z : Nat) : decodeWord 0x1C000008 z = .ok (.br 8) := by rfl
/-- `reform` and `reform.all` (R160). -/
theorem test_decode_reform (z : Nat) : decodeWord 0x1D0FEE70 z = .ok .reform ∧ decodeWord 0x1D0FEE71 z = .ok .reformAll := ⟨by rfl, by rfl⟩
/-- `exit`: op 0x75, unused fields neutral. -/
theorem test_decode_exit (z : Nat) : decodeWord 0x1D4FEE5C z = .ok .exit := by rfl
/-- `kadd.d k1, k2, 1` in the 64 form: S 1, L 01, op 0x00, D8 0x81, A8 0x82, B8 0xF1. -/
theorem test_decode_kadd : decodeWord 0xA0081820 0xF1CC0000 = .ok (.kadd64 ⟨.d, .i, .k 1, .k 2, .imm 1, .zero, none⟩) := by rfl
/-- `cpslice b1, [x8], k4, x9, 1, 2` (chapter 10's example). -/
theorem test_decode_cpslice : decodeWord 0xAD8FF080 0x84090111 = .ok (.cpslice (.x 8) 4 (.x 9) 1 1 2) := by rfl
/-- `mstart` without a destination (R279). -/
theorem test_decode_mstart (z : Nat) : decodeWord 0x8E8FEE70 z = .ok (.mstart .none) := by rfl
/-- `mma a4, m0, k8, 4, 2` (chapter 11's example). -/
theorem test_decode_mma : decodeWord 0xB04FF880 0x03010080 = .ok (.mma 8 4 2 0 4) := by rfl
/-- `fdar.last k4, k8, [k12], [k16]` (chapter 15's example). -/
theorem test_decode_fdar : decodeWord 0xB9884880 0x8C900001 = .ok (.fdarLast (.k 4) 8 12 16) := by rfl
/-- `ttpost.free.prev k2, 1` (chapter 16's example). -/
theorem test_decode_ttpost : decodeWord 0xBC0FF820 0xF1CC0005 = .ok (.ttpost (.k 2) (.imm 1) true true none) := by rfl
/-- `bell 3`: 0x9C8F_C000 + A × 2^7 + 0x5C with A the code 0x73 (R385). -/
theorem test_decode_bell (z : Nat) : decodeWord 0x9C8FF9DC z = .ok (.bell (.imm 3)) := by rfl
/-- `dwrd.x k3, k0, 4` and `eret` (chapter 13's examples). -/
theorem test_decode_dwrd (z : Nat) : decodeWord 0xBE083800 0xF4CC0000 = .ok (.dwrd 3 0 (.imm 4) 0) ∧ decodeWord 0x9FCFEE5C z = .ok .eret :=
  ⟨by rfl, by rfl⟩
/-- `gresume.step k0` (chapter 17's example). -/
theorem test_decode_gresume : decodeWord 0xBE8FF800 0xCCCC0002 = .ok (.gresumeStep 0 .group) := by rfl
/-- The header of Table 3.18: WAIT bit 17, DIST 3, LEN 1; the trailer without entries; the prefix with RND 001. -/
theorem test_decode_run_words (z : Nat) : decodeWord 0xE0023080 z = .ok (.header ⟨1, 3, 1, false, 0⟩) ∧
    decodeWord 0x60000000 z = .ok (.trailer ⟨false, none, none, none⟩) ∧
    decodeWord 0x44000000 z = .ok (.prefixWord ⟨false, .rtz, .off, false, false, none, none⟩) := ⟨by rfl, by rfl, by rfl⟩

/-- R79's example: op 0x7B gives the opcode subcause; with `add`, kind 111 the reserved-field one; with kind 000, D8 0x90 the operand one. -/
theorem test_decode_order :
    decodeWord (0x20000000 + 0x7B * 2 ^ 22 + 0x90 * 2 ^ 12 + 7) 0xCCCC0000 = .error .opcode ∧
    decodeWord (0x20000000 + 0x90 * 2 ^ 12 + 7) 0xCCCC0000 = .error .reserved ∧
    decodeWord (0x20000000 + 0x90 * 2 ^ 12) 0x02CC0000 = .error .operand := ⟨by rfl, by rfl, by rfl⟩
/-- A header of LEN 24 and one with bit 0 set are refused (R74); a trailer whose entry names flag 12 is (R75). -/
theorem test_decode_run_words_refused : decodeWord 0xE0000C00 0 = .error .reserved ∧ decodeWord 0xE0000001 0 = .error .reserved ∧
    decodeWord 0x600001C0 0 = .error .reserved := ⟨by rfl, by rfl, by rfl⟩

/-! ### Ill-formed terms are refused: one for each check of WellFormed -/

/-- `wf32`: an x register that no 6-bit code names; a shape that the operation does not have; an o destination of a long-latency word. -/
theorem test_ill_formed_32 : WellFormed (.add ⟨.d, .x 48, .x 1, .zero⟩) = false ∧ WellFormed (.fadd ⟨.b, .x 1, .x 1, .zero⟩) = false ∧
    WellFormed (.fdiv ⟨.w, .o 1, .x 1, .x 2⟩) = false ∧ WellFormed (.clz ⟨.d, .x 1, .x 1, .x 2⟩) = false := by decide
/-- `wf32C`: a destination on a compare; a predicate beyond p7. -/
theorem test_ill_formed_compare : WellFormed (.cmp .eq 1 ⟨.d, .x 1, .x 1, .x 2⟩) = false ∧
    WellFormed (.cmp .eq 8 ⟨.d, .none, .x 1, .x 2⟩) = false := by decide
/-- `wf32M` and `wf32S`: an offset beyond 15; a store without data. -/
theorem test_ill_formed_memory_32 : WellFormed (.ld ⟨.d, .x 1, .x 2, .zero⟩ 16) = false ∧ WellFormed (.st ⟨.d, .none, .x 2, .zero⟩ 0) = false := by
  decide
/-- `wf64`, `wf64N`, `wf64S`: a k destination of a lane-set word; a register destination of a compare; a predicate beyond p3 in a guard. -/
theorem test_ill_formed_64 : WellFormed (.add64 ⟨.d, .i, .k 1, .x 1, .x 2, .zero, none⟩) = false ∧
    WellFormed (.cmp64 .eq 1 ⟨.d, .i, .x 1, .x 1, .x 2, .zero, none⟩) = false ∧
    WellFormed (.st64 ⟨.d, .i, .x 1, .x 1, .x 2, .zero, some ⟨false, 4⟩⟩ ⟨0, .normal, false⟩) = false ∧
    WellFormed (.add64 ⟨.d, .f, .x 1, .x 1, .x 2, .zero, none⟩) = false := by decide
/-- `wf64I`, `wf64IN`, `wf64IM`, `wf64IS`: an immediate beyond its shape; a destination; an immediate beyond 32 bits. -/
theorem test_ill_formed_64i : WellFormed (.add64i ⟨.b, .i, .x 1, .x 1, 128⟩) = false ∧
    WellFormed (.cmp64i .eq 1 ⟨.d, .i, .x 1, .x 1, 0⟩) = false ∧ WellFormed (.ld64i ⟨.d, .i, .x 1, .x 1, 2 ^ 32⟩) = false ∧
    WellFormed (.st64i ⟨.d, .bf, .x 1, .x 1, 0⟩) = false := by decide
/-- `wfCvt`, `wfQnt`, `wfDqn`: a part that does not exist; a format that is no source. -/
theorem test_ill_formed_convert : WellFormed (.cvt ⟨.d, .f, .x 1, .x 2, .zero, .zero, none⟩ ⟨.w, .f, 2⟩) = false ∧
    WellFormed (.qnt ⟨.b, .e4, .x 1, .x 2, .zero, .x 3, none⟩ ⟨.b, .e4, 0⟩ false) = false ∧
    WellFormed (.dqn ⟨.w, .f, .x 1, .x 2, .x 3, .zero, none⟩ ⟨.w, .f, 0⟩ false) = false := by decide
/-- `wfPref`, `headerWf`, `trailerWf`, `prefixWf`: an offset, a LEN, a flag and a guard that no field holds. -/
theorem test_ill_formed_run : WellFormed (.pref ⟨.d, .x 1, .x 2, .zero⟩ 0) = false ∧ WellFormed (.header ⟨0, 0, 24, false, 0⟩) = false ∧
    WellFormed (.trailer ⟨false, some ⟨12, 0⟩, none, none⟩) = false ∧
    WellFormed (.prefixWord ⟨true, .rne, .off, false, false, some ⟨false, 8⟩, none⟩) = false := by decide
/-- The ranges of single arms: a field beyond its sub-element, a lane beyond 31, a bar beyond 15, an odd descriptor, a count of 0. -/
theorem test_ill_formed_ranges : WellFormed (.bfx ⟨.b, .i, .x 1, .x 2, .zero, .zero, none⟩ 4 5) = false ∧
    WellFormed (.xbc ⟨.d, .i, .x 1, .x 2, .zero, .x 3, none⟩ 32 0) = false ∧ WellFormed (.barwait .zero 16) = false ∧
    WellFormed (.bload 3 0) = false ∧ WellFormed (.mzero 0 0) = false ∧ WellFormed (.br (2 ^ 19)) = false ∧ WellFormed (.brk 16) = false := by
  decide
/-! ### A small package to run words on -/

/-- A thread of the group. -/
def thr (tid : Nat) : Thread := Thread.start tid 0x10000 0 (.group 1)
/-- A workgroup of some threads, with an idle stream. -/
def wgWith (ts : List Thread) : Workgroup := { probeWg with threads := ts, stream := some { Stream.at 0x10000 with stage := .idle } }
/-- The turn of a word of the group, under a prefix. -/
def turnOn (u : UnitId) (pfx : Option PrefixFields) : Turn := ⟨u, 0x10000, 1, pfx⟩
/-- The group in its run. -/
def grpWith (ts : List Thread) (r : Run) : Group := { probeGroup (some r) with lanes := ts.map (·.tid % 32) }
/-- Tables at 0x100000 to 0x130000 whose leaf entries map 0x10000 and 0x20000 as plain pages, 0x30000 as one of FP32, 0x40000 as one of
E4MX with its block scales at 0x20000 (Table 7.2, R187), each at its own physical address: the bytes that are not 0. -/
def pages : Sparse Byte :=
  [(0x100000, 0x03), (0x100002, 0x11), (0x110000, 0x03), (0x110002, 0x12), (0x120000, 0x03), (0x120002, 0x13),
    (0x130010, 0x5D), (0x130011, 0x06), (0x130012, 0x01), (0x130020, 0x5D), (0x130021, 0x06), (0x130022, 0x02),
    (0x130030, 0x5D), (0x130031, 0x06), (0x130032, 0x03), (0x130038, 0x02), (0x130040, 0x5D), (0x130041, 0x06), (0x130042, 0x04),
    (0x130048, 0x08), (0x13004C, 0xFE), (0x13004D, 0xFF), (0x13004E, 0xFF)]
/-- A package at clk 100 in which a leaf of one workgroup stands, its pages mapped, their chunk owned. -/
def package (ts : List Thread) : State :=
  { State.reset with
    cyc := 100, seq := 5, mem := pages, chunks := [(0, { chunkReset 0 with fresh := 0, owner := 1 })]
    jobs := [probeJob], regions := [probeRegion], wgs := [wgWith ts] }
/-- The package with the group's word being performed. -/
def onGrp (ts : List Thread) (r : Run) (pfx : Option PrefixFields) : State :=
  { package ts with turn := some (turnOn (.group 1) pfx), groups := [grpWith ts r] }
/-- What that word sees. -/
def seenBy (ts : List Thread) (r : Run) (pfx : Option PrefixFields) : View :=
  ⟨grpWith ts r, r, wgWith ts, probeRegion, turnOn (.group 1) pfx⟩
/-- A stream's word being performed. -/
def onStream (x : Stream) : State :=
  { package [] with turn := some (turnOn (.stream 1) none), wgs := [{ wgWith [] with stream := some x }] }
/-- A fabric processor's word being performed. -/
def onFabric (p : FabricProc) : State :=
  { package [] with turn := some (turnOn (.fabric 0) none), procs := [p] }
/-- A control core's word being performed. -/
def onCore (c : Control) : State :=
  { package [] with turn := some (turnOn (.control 0) none), controls := [c] }

/-- The thread `t` that some word left. -/
def lane (r : Result) (tid : Nat) : Option Thread := match r with
  | .next s => s.thread? 1 tid
  | _ => none
/-- The x register `n` that a word left in lane `tid`. -/
def xAfter (r : Result) (tid n : Nat) : Option W64 := (lane r tid).map fun t => sget 0 t.x n
/-- The predicate `q` that it left. -/
def pAfter (r : Result) (tid q : Nat) : Option Byte := (lane r tid).map fun t => sget 0 t.p q
/-- The k register `n` of a unit after a word. -/
def kAfter (r : Result) (u : UnitId) (n : Nat) : Option W64 := match r with
  | .next s => some (s.unitK u n)
  | _ => none
/-- The k register of the workgroup after a word of the group. -/
def kGroup (r : Result) (n : Nat) : Option W64 := match r with
  | .next s => (s.wg? 1).map fun w => sget 0 w.k n
  | _ => none

theorem inRun (ts : List Thread) (r : Run) (p : Option PrefixFields) : InRun (onGrp ts r p) (seenBy ts r p) :=
  ⟨rfl, rfl, rfl, rfl, rfl, rfl⟩

/-! ### Witnesses: the hypotheses of each statement met at a state and operands -/

/-- The hypotheses of a row of lane-set words, met by two threads and a row of the table. -/
def LanesMet (row : Instr → Option LaneRow) (i : Instr) : Prop :=
  ∃ r, row i = some r ∧ InRun (onGrp [thr 0, thr 1] (probeRun 2) none) (seenBy [thr 0, thr 1] (probeRun 2) none) ∧
    Usable (seenBy [thr 0, thr 1] (probeRun 2) none) r.f.srcs r.f.d

theorem lanesMet {row : Instr → Option LaneRow} {i : Instr} {r : LaneRow} (h : row i = some r) (a : r.f.srcs.all (srcAllowed 128) = true)
    (b : dstAllowed 128 r.f.d = true) (c : [thr 0, thr 1].all (fun t => r.f.srcs.all (hasValue t)) = true) : LanesMet row i :=
  ⟨r, h, inRun _ _ _, a, b, List.all_eq_true.1 c⟩

theorem witness_IntegerWords : LanesMet intRow (.add ⟨.d, .x 127, .x 1, .imm 3⟩) := lanesMet rfl (by decide) (by decide) (by decide)
theorem witness_ShiftWords : LanesMet shiftRow (.shl ⟨.w, .x 2, .x 1, .imm 31⟩) := lanesMet rfl (by decide) (by decide) (by decide)
theorem witness_FieldAndSelectWords : LanesMet fieldRow (.bfx ⟨.d, .i, .x 4, .x 1, .zero, .zero, none⟩ 0 64) ∧
    LanesMet fieldRow (.bfi ⟨.b, .i, .x 4, .x 1, .x 2, .zero, none⟩ 7 1) ∧
    LanesMet selRow (.sel ⟨.d, .i, .x 4, .x 1, .x 2, .zero, none⟩ 3 true) :=
  ⟨lanesMet rfl (by decide) (by decide) (by decide), lanesMet rfl (by decide) (by decide) (by decide),
    lanesMet rfl (by decide) (by decide) (by decide)⟩
theorem witness_CompareWords : LanesMet cmpRow (.cmp .lt 7 ⟨.d, .none, .special .lane, .k 1⟩) :=
  lanesMet rfl (by decide) (by decide) (by decide)
theorem witness_CarryAndAddressWords : LanesMet carryRow (.addc ⟨.d, .i, .x 4, .x 1, .x 2, .zero, none⟩ ⟨1, true⟩ ⟨2, true⟩) ∧
    LanesMet leaRow (.lea64 ⟨.d, .i, .x 4, .x 1, .x 2, .zero, none⟩ 6) :=
  ⟨lanesMet rfl (by decide) (by decide) (by decide), lanesMet rfl (by decide) (by decide) (by decide)⟩
theorem witness_ByteSumWords : LanesMet byteRow (.dot4 ⟨.w, .x 4, .x 1, .x 2⟩) ∧
    LanesMet byteRow (.sad64 ⟨.w, .n, .x 4, .x 1, .x 2, .x 3, none⟩) :=
  ⟨lanesMet rfl (by decide) (by decide) (by decide), lanesMet rfl (by decide) (by decide) (by decide)⟩
theorem witness_FloatWords : LanesMet arithRow (.fma ⟨.w, .f, .x 100, .x 70, .x 3, .x 4, some ⟨true, 2⟩⟩) ∧
    LanesMet otherFloatRow (.fmin ⟨.h, .x 4, .x 1, .x 2⟩) ∧ LanesMet classRow (.fcmp .un 1 ⟨.d, .none, .x 1, .x 2⟩) ∧
    LanesMet dotRow (.fdot2 ⟨.h, .x 4, .x 1, .x 2⟩) :=
  ⟨lanesMet rfl (by decide) (by decide) (by decide), lanesMet rfl (by decide) (by decide) (by decide),
    lanesMet rfl (by decide) (by decide) (by decide), lanesMet rfl (by decide) (by decide) (by decide)⟩
theorem witness_SwizzleAndBitWords : LanesMet swzRow (.swz64 ⟨.b, .i, .x 4, .x 1, .x 2, .x 3, none⟩) ∧
    LanesMet bcsRow (.bcs64 ⟨.b, .i, .x 4, .x 1, .x 2, .zero, none⟩ true) :=
  ⟨lanesMet rfl (by decide) (by decide) (by decide), lanesMet rfl (by decide) (by decide) (by decide)⟩
theorem witness_ConvertWords : LanesMet packRow (.pk ⟨.w, .x 4, .x 1, .x 2⟩) ∧ LanesMet rngRow (.rng ⟨.w, .x 4, .x 1, .x 2⟩) ∧
    LanesMet convertRow (.cvt ⟨.w, .f, .x 1, .x 2, .zero, .zero, none⟩ ⟨.h, .f, 1⟩) :=
  ⟨lanesMet rfl (by decide) (by decide) (by decide), lanesMet rfl (by decide) (by decide) (by decide),
    lanesMet rfl (by decide) (by decide) (by decide)⟩
theorem witness_PushAndMatchWords : LanesMet pushRow (.xpush ⟨.d, .x 4, .x 1, .x 2⟩) ∧ LanesMet matchRow (.xmatch ⟨.w, .x 4, .x 1, .zero⟩) :=
  ⟨lanesMet rfl (by decide) (by decide) (by decide), lanesMet rfl (by decide) (by decide) (by decide)⟩
theorem witness_CrossLaneWords : LanesMet shuffleRow (.xbc ⟨.w, .i, .x 5, .x 3, .zero, .x 9, none⟩ 31 1) ∧
    LanesMet voteRow (.vote .ballot ⟨.d, .x 4, .x 1, .zero⟩) ∧ LanesMet reduceRow (.xscan .add ⟨.w, .x 4, .x 1, .zero⟩) :=
  ⟨lanesMet rfl (by decide) (by decide) (by decide), lanesMet rfl (by decide) (by decide) (by decide),
    lanesMet rfl (by decide) (by decide) (by decide)⟩

/-- Two threads whose x1 is an address of a mapped page and whose x2 and x3 are 8 and 64. -/
def two : List Thread := [{ thr 0 with x := [(1, 0x10000), (2, 8), (3, 64)] }, { thr 1 with x := [(1, 0x2FFF8), (2, 16), (3, 64)] }]
/-- A run with `n` ordinals. -/
def runOf (n : Nat) : Run := { probeRun 2 with ordinals := List.replicate n [] }

/-- The hypotheses of a row of long-latency words, with fifteen ordinals begun. -/
def LongMet (row : Instr → Option LongRow) (i : Instr) : Prop :=
  ∃ r, row i = some r ∧ InRun (onGrp two (runOf 15) none) (seenBy two (runOf 15) none) ∧ Usable (seenBy two (runOf 15) none) r.srcs r.f.d ∧
    (runOf 15).ordinals.length < 16 ∧ Unwatched (onGrp two (runOf 15) none) (seenBy two (runOf 15) none) ∧
    (r.waits = true → NoCwait (onGrp two (runOf 15) none) (seenBy two (runOf 15) none))

theorem unwatched (ts : List Thread) (r : Run) : Unwatched (onGrp ts r none) (seenBy ts r none) := .inr (by
  show ∀ w ∈ List.replicate 8 (⟨0, 0, 0, 0⟩ : Watchpoint), ∀ k < 3, w.ctl.getLsbD (3 + k) = false
  decide)

theorem usable {ts : List Thread} {r : Run} {srcs : List Src} {d : Dst} (a : srcs.all (srcAllowed (seenBy ts r none).leaf.regs) = true)
    (b : dstAllowed (seenBy ts r none).leaf.regs d = true)
    (c : (seenBy ts r none).threads.all (fun t => srcs.all (hasValue t)) = true) : Usable (seenBy ts r none) srcs d :=
  ⟨a, b, List.all_eq_true.1 c⟩

theorem longMet {row : Instr → Option LongRow} {i : Instr} {r : LongRow} (h : row i = some r) (a : r.srcs.all (srcAllowed 128) = true)
    (b : dstAllowed 128 r.f.d = true) (c : two.all (fun t => r.srcs.all (hasValue t)) = true) : LongMet row i :=
  ⟨r, h, inRun _ _ _, ⟨a, b, List.all_eq_true.1 c⟩, by decide, unwatched _ _, fun _ _ h => nomatch h⟩

/-- The lanes of a word all pass their checks. -/
theorem checked {α : Type} {x : List (Thread × α) × List (Nat × Nat × Nat × Nat) × State} (h : x.2.1 = []) : ∃ ok s2, x = (ok, [], s2) :=
  ⟨x.1, x.2.2, by rw [← h]⟩

theorem witness_LongFloatWords : LongMet longFloatRows (.fdiv ⟨.w, .x 4, .x 1, .x 2⟩) := longMet rfl (by decide) (by decide) (by decide)
theorem witness_LoadWords : LongMet loads (.ld ⟨.h, .x 5, .x 1, .zero⟩ (-32)) ∧ LongMet loads (.lds64i ⟨.d, .i, .x 5, .x 1, 0xFFFFFFFF⟩) :=
  ⟨longMet rfl (by decide) (by decide) (by decide), longMet rfl (by decide) (by decide) (by decide)⟩

/-- One thread whose x1 and x2 are addresses of the two pages, and whose x3 is 64. -/
def one : List Thread := [{ thr 0 with x := [(1, 0x10000), (2, 0x2FFC0), (3, 64)] }]

/-- The hypotheses of a store of some lanes. -/
def StoreMet (ts : List Thread) (r : StoreRow) : Prop :=
  ∃ ok s2, InRun (onGrp ts (runOf 0) none) (seenBy ts (runOf 0) none) ∧ Usable (seenBy ts (runOf 0) none) r.srcs .none ∧
    Unwatched (onGrp ts (runOf 0) none) (seenBy ts (runOf 0) none) ∧
    let s := atReady (onGrp ts (runOf 0) none) (seenBy ts (runOf 0) none) r.f.guard r.srcs (r.draws (seenBy ts (runOf 0) none)) []
    checkLanes s (wgWith ts) (r.one s (seenBy ts (runOf 0) none))
      ((seenBy ts (runOf 0) none).threads.filter (r.lane s (seenBy ts (runOf 0) none))) = (ok, [], s2)

theorem storeMet {ts : List Thread} {r : StoreRow} (a : r.srcs.all (srcAllowed (seenBy ts (runOf 0) none).leaf.regs) = true)
    (c : (seenBy ts (runOf 0) none).threads.all (fun t => r.srcs.all (hasValue t)) = true)
    (h : (let s := atReady (onGrp ts (runOf 0) none) (seenBy ts (runOf 0) none) r.f.guard r.srcs (r.draws (seenBy ts (runOf 0) none)) []
      checkLanes s (wgWith ts) (r.one s (seenBy ts (runOf 0) none))
        ((seenBy ts (runOf 0) none).threads.filter (r.lane s (seenBy ts (runOf 0) none)))).2.1 = []) : StoreMet ts r := by
  obtain ⟨ok, s2, e⟩ := checked h
  exact ⟨ok, s2, inRun _ _ _, usable a rfl c, unwatched _ _, e⟩

theorem witness_StoreWords : (∃ r, stores (.st ⟨.d, .x 2, .x 1, .zero⟩ 0) = some r ∧ StoreMet two r) ∧
    StoreMet one (stashRow ⟨.d, .i, .x 3, .x 1, .x 2, .x 3, none⟩) :=
  ⟨⟨_, rfl, storeMet (by decide) (by decide) (by decide +kernel)⟩, storeMet (by decide) (by decide) (by decide +kernel)⟩

theorem witness_ScratchpadStores : InRun (onGrp two (runOf 0) none) (seenBy two (runOf 0) none) ∧
    Usable (seenBy two (runOf 0) none) [.x 2, .zero, .x 3] .none ∧
    NoCwait (onGrp two (runOf 0) none) (seenBy two (runOf 0) none) ∧ NotFenced (onGrp two (runOf 0) none) (seenBy two (runOf 0) none) ∧
    ∀ t ∈ (seenBy two (runOf 0) none).threads,
      let s := atReady (onGrp two (runOf 0) none) (seenBy two (runOf 0) none) none [.x 2, .zero, .x 3] [] []
      let v := seenBy two (runOf 0) none
      addressOf s v (form32 .i ⟨.d, .x 3, .x 2, .zero⟩) (.offset 15) t % 8 = 0 ∧
        addressOf s v (form32 .i ⟨.d, .x 3, .x 2, .zero⟩) (.offset 15) t + 8 ≤ v.leaf.scratch :=
  ⟨inRun _ _ _, usable (by decide) rfl (by decide), (fun _ h => nomatch h), (fun _ _ _ h => nomatch h), by decide +kernel⟩
/-- The hypotheses of a formatted store. -/
def StxMet (ts : List Thread) (f : Form) (data : Src) (scale : Bool) : Prop :=
  ∃ ok s2, InRun (onGrp ts (runOf 0) none) (seenBy ts (runOf 0) none) ∧ Usable (seenBy ts (runOf 0) none) [f.a, f.b, f.c, data] .none ∧
    Unwatched (onGrp ts (runOf 0) none) (seenBy ts (runOf 0) none) ∧
    let v := seenBy ts (runOf 0) none
    let s0 := (onGrp ts (runOf 0) none).holdTo v (State.sourcesReady v v.threads [f.a] (guardPreds v f.guard))
    let s := atReady (onGrp ts (runOf 0) none) v f.guard [f.a, f.b, f.c, data] (rsrSources v) []
    (f.c ≠ .zero ∨ scale = true → ∀ t ∈ v.threads, anyOn f.n (s0.guard v f.guard t) = true → ∀ p u,
      s0.access (s0.wgAccessor v.wg) (formatRule .write) false (s0.source v t 64 f.a).toNat = .ok (p, u) → blockSize p.efmt ≠ 0) ∧
    checkLanes s v.wg (fun u t => u.stxLane v f data scale t) (v.threads.filter fun t => anyOn f.n (s.guard v f.guard t)) = (ok, [], s2)

theorem stxMet {ts : List Thread} {f : Form} {data : Src} {scale : Bool}
    (a : [f.a, f.b, f.c, data].all (srcAllowed (seenBy ts (runOf 0) none).leaf.regs) = true)
    (c : (seenBy ts (runOf 0) none).threads.all (fun t => [f.a, f.b, f.c, data].all (hasValue t)) = true)
    (b : let v := seenBy ts (runOf 0) none
      let s := (onGrp ts (runOf 0) none).holdTo v (State.sourcesReady v v.threads [f.a] (guardPreds v f.guard))
      (f.c == .zero && !scale) = true ∨ v.threads.all (fun t =>
        match s.access (s.wgAccessor v.wg) (formatRule .write) false (s.source v t 64 f.a).toNat with
        | .ok e => blockSize e.1.efmt != 0
        | .error _ => true) = true)
    (h : (let v := seenBy ts (runOf 0) none
      let s := atReady (onGrp ts (runOf 0) none) v f.guard [f.a, f.b, f.c, data] (rsrSources v) []
      checkLanes s v.wg (fun u t => u.stxLane v f data scale t) (v.threads.filter fun t => anyOn f.n (s.guard v f.guard t))).2.1 = []) :
    StxMet ts f data scale := by
  obtain ⟨ok, s2, e⟩ := checked h
  refine ⟨ok, s2, inRun _ _ _, usable a rfl c, unwatched _ _, fun k t ht _ p u hp => ?_, e⟩
  rcases b with b | b
  · rcases k with k | k <;> simp [k] at b
  · have := List.all_eq_true.1 b t ht
    rw [hp] at this
    simpa using this

theorem witness_FormattedStores :
    StxMet [{ thr 0 with x := [(1, 0x30000), (2, 5)] }] (formS ⟨.w, .f, .x 3, .x 1, .x 2, .zero, none⟩) (.x 3) false ∧
    StxMet [{ thr 0 with x := [(1, 0x40000), (2, 5)] }] (formS ⟨.d, .f, .x 3, .x 1, .x 2, .x 3, none⟩) (.x 3) true ∧
    StxMet [{ thr 0 with x := [(1, 0x30000)] }] (formZ .d .f .none (.x 1) 0x3FFF) (.x 3) false :=
  ⟨stxMet (by decide) (by decide) (.inl rfl) (by decide +kernel), stxMet (by decide) (by decide) (.inr (by decide +kernel)) (by decide +kernel),
    stxMet (by decide) (by decide) (.inl rfl) (by decide +kernel)⟩

theorem witness_AtomicWords : InRun (onGrp two (runOf 15) none) (seenBy two (runOf 15) none) ∧
    Usable (seenBy two (runOf 15) none) [.x 1, .x 2, .x 3] (.x 5) ∧ (runOf 15).ordinals.length < 16 ∧
    Unwatched (onGrp two (runOf 15) none) (seenBy two (runOf 15) none) ∧
    atomLanes (onGrp two (runOf 15) none) (seenBy two (runOf 15) none) (form64 ⟨.d, .i, .x 5, .x 1, .x 2, .x 3, none⟩) 0 ≠ [] :=
  ⟨inRun _ _ _, usable (by decide) (by decide) (by decide), by decide, unwatched _ _, by decide⟩

theorem witness_PrefetchWords : ∃ ok s2, InRun (onGrp two (runOf 0) none) (seenBy two (runOf 0) none) ∧
    Usable (seenBy two (runOf 0) none) [.x 1, .zero] .none ∧
    let v := seenBy two (runOf 0) none
    let s := atReady (onGrp two (runOf 0) none) v none [.x 1, .zero] [] []
    checkLanes s v.wg (fun u t =>
      let va := addressOf u v (form32 .i ⟨.d, .none, .x 1, .zero⟩) (.offset 0) t
      if va % (shapeBits .d / 8) ≠ 0 then .error (2, 0, va) else
      match u.access (u.wgAccessor v.wg) { plainRule .read with format := fun p => !p.exr || p.cellBytes == 8 } false va with
      | .error e => .error (3, e, va)
      | .ok (p, u) => .ok ((p, va), u)) (v.threads.filter (bit0 s v none)) = (ok, [], s2) := by
  have h : ∃ ok s2, (let v := seenBy two (runOf 0) none
    let s := atReady (onGrp two (runOf 0) none) v none [.x 1, .zero] [] []
    checkLanes s v.wg (fun u t =>
      let va := addressOf u v (form32 .i ⟨.d, .none, .x 1, .zero⟩) (.offset 0) t
      if va % (shapeBits .d / 8) ≠ 0 then .error (2, 0, va) else
      match u.access (u.wgAccessor v.wg) { plainRule .read with format := fun p => !p.exr || p.cellBytes == 8 } false va with
      | .error e => .error (3, e, va)
      | .ok (p, u) => .ok ((p, va), u)) (v.threads.filter (bit0 s v none))) = (ok, [], s2) := checked (by decide +kernel)
  obtain ⟨ok, s2, e⟩ := h
  exact ⟨ok, s2, inRun _ _ _, usable (by decide) rfl (by decide), e⟩

theorem witness_CopyWords : InRun (onGrp one (runOf 0) none) (seenBy one (runOf 0) none) ∧
    Usable (seenBy one (runOf 0) none) [.x 1, .x 3, .x 3] .none ∧
    (∀ t ∈ (seenBy one (runOf 0) none).threads,
      let s1 := atReady (onGrp one (runOf 0) none) (seenBy one (runOf 0) none) none [.x 1, .x 3, .x 3] [] []
      (s1.source (seenBy one (runOf 0) none) t 64 (.x 1)).toNat % 4 = 0 ∧ (s1.source (seenBy one (runOf 0) none) t 64 (.x 3)).toNat % 4 = 0 ∧
        (s1.source (seenBy one (runOf 0) none) t 64 (.x 3)).toNat % 4 = 0 ∧ (s1.source (seenBy one (runOf 0) none) t 64 (.x 3)).toNat ≤ 65536 ∧
        (s1.source (seenBy one (runOf 0) none) t 64 (.x 3)).toNat + (s1.source (seenBy one (runOf 0) none) t 64 (.x 3)).toNat ≤
          (seenBy one (runOf 0) none).leaf.scratch) ∧
    (onGrp one (runOf 0) none).batchCopies (seenBy one (runOf 0) none) 8 = [] :=
  ⟨inRun _ _ _, usable (by decide) rfl (by decide), by decide +kernel, by decide⟩

theorem witness_WaitvWords : InRun (onGrp two (runOf 15) none) (seenBy two (runOf 15) none) ∧
    Usable (seenBy two (runOf 15) none) [.x 1, .x 2, .x 3] (.x 127) ∧ (runOf 15).ordinals.length < 16 ∧
    Unwatched (onGrp two (runOf 15) none) (seenBy two (runOf 15) none) :=
  ⟨inRun _ _ _, usable (by decide) (by decide) (by decide), by decide, unwatched _ _⟩

theorem witness_PhaseWords : InRun (onGrp two (runOf 0) none) (seenBy two (runOf 0) none) ∧
    (onGrp two (runOf 0) none).loadsPending 1 (seenBy two (runOf 0) none).tids true (onGrp two (runOf 0) none).seq = false :=
  ⟨inRun _ _ _, by decide⟩

/-- A control core that handles an event. -/
def handling : Control := { Control.reset with current := some probeEvent, pc := 0x10000, k := [(0, 0x10000), (1, 2)] }
/-- A fabric processor of job 1, with k1 at the mapped page. -/
def working : FabricProc := { FabricProc.reset with job := some 1, pc := 0x10000, k := [(0, 0x10000), (1, 0x20000), (2, 64)] }
/-- A running stream. -/
def running : Stream := { Stream.at 0x10000 with k := [(0, 0x10000), (1, 2)] }
/-- The uniform word of a group of the threads `ts`, the first of them the source. -/
def uniOf (ts : List Thread) (r : Run) : Uni := .lane (seenBy ts r none) (ts.headD (thr 0)) ts

theorem uniLane {s : State} {v : View} {src : Thread} {on : List Thread} {g : Option Guard} {n : Nat} {srcs : List Src} {d : Dst} {long : Bool}
    (h : InRun s v) (a : v.run.ordinals.length < 16) (b : srcs.all (srcAllowed v.leaf.regs) = true) (c : dstAllowed v.leaf.regs d = true)
    (o : on = v.threads.filter fun t => anyOn n
      ((s.holdTo v (State.sourcesReady v v.threads [] (guardPreds v g))).guard v g t))
    (e : on.head? = some src) (k : srcs.all (hasValue src) = true)
    (r : s = (s.holdTo v (State.sourcesReady v v.threads [] (guardPreds v g))).holdTo v (State.sourcesReady v [src] srcs [])) :
    UniReady s (.lane v src on) g n srcs d long s :=
  ⟨h, fun _ => a, b, c, o, e, k, r⟩

theorem uniUnit {s : State} {i : UnitId} {n : Nat} {srcs : List Src} {d : Dst} {long : Bool} (p : Option PrefixFields)
    (a : s.turn = some (turnOn i p)) (b : ∀ g, i ≠ .group g) (c : srcs.all unitSrc = true) (e : unitDst d = true) (o : ∀ r, s.kBusy i r = false) :
    UniReady s (.unit i) none n srcs d long s :=
  ⟨⟨_, a, rfl⟩, b, rfl, c, e, fun r _ => o r, rfl⟩

theorem witness_UniformWords : ∃ r, uniRow (.kadd ⟨.d, .k 63, .k 0, .imm 1⟩) = some r ∧
    UniReady (onGrp two (runOf 0) none) (uniOf two (runOf 0)) r.f.guard r.f.n r.f.srcs r.f.d false (onGrp two (runOf 0) none) ∧
    UniReady (onStream running) (.unit (.stream 1)) r.f.guard r.f.n r.f.srcs r.f.d false (onStream running) ∧
    UniReady (onFabric working) (.unit (.fabric 0)) r.f.guard r.f.n r.f.srcs r.f.d false (onFabric working) ∧
    UniReady (onCore handling) (.unit (.control 0)) r.f.guard r.f.n r.f.srcs r.f.d false (onCore handling) :=
  ⟨_, rfl, uniLane (inRun _ _ _) (by decide) (by decide) rfl rfl rfl (by decide) rfl, uniUnit none rfl (by simp) (by decide) rfl (fun _ => rfl),
    uniUnit none rfl (by simp) (by decide) rfl (fun _ => rfl), uniUnit none rfl (by simp) (by decide) rfl (fun _ => rfl)⟩

theorem okOf {ε α : Type} {x : Except ε α} (h : (match x with | .ok _ => true | .error _ => false) = true) : ∃ t, x = .ok t := by
  cases x with
  | ok t => exact ⟨t, rfl⟩
  | error e => cases h

theorem ok2Of {ε α β : Type} {x : Except ε (α × β)} (h : (match x with | .ok _ => true | .error _ => false) = true) :
    ∃ a b, x = .ok (a, b) := by
  cases x with
  | ok t => exact ⟨t.1, t.2, rfl⟩
  | error e => cases h

theorem noneIn {α : Type} (p : α → Prop) : ∀ c ∈ ([] : List α), p c := fun _ h => nomatch h

theorem witness_UniformWithoutLanes :
    (∃ r, uniRow (.kadd64 ⟨.d, .i, .k 1, .k 2, .x 127, .zero, some ⟨false, 1⟩⟩) = some r ∧ InRun (onGrp two (runOf 15) none) (seenBy two (runOf 15) none) ∧
      r.f.srcs.all (srcAllowed (seenBy two (runOf 15) none).leaf.regs) = true ∧ dstAllowed (seenBy two (runOf 15) none).leaf.regs r.f.d = true ∧
      ∀ t ∈ (seenBy two (runOf 15) none).threads, anyOn r.f.n (((onGrp two (runOf 15) none).holdTo (seenBy two (runOf 15) none)
        (State.sourcesReady (seenBy two (runOf 15) none) (seenBy two (runOf 15) none).threads []
          (guardPreds (seenBy two (runOf 15) none) r.f.guard))).guard (seenBy two (runOf 15) none) r.f.guard t) = false) ∧
    (runOf 15).ordinals.length < 16 := by
  refine ⟨⟨_, rfl, inRun _ _ _, by decide, rfl, ?_⟩, by decide⟩
  decide

/-- The load that a uniform word of some executor asks for at the address in k0. -/
def load0 (s : State) (u : Uni) : LongKind := .load (uniAddressOf s u (form32 .i ⟨.d, .k 5, .k 0, .zero⟩) (.offset 0)) 8 true false

theorem witness_UniformMemoryWords :
    (UniReady (onGrp two (runOf 15) none) (uniOf two (runOf 15)) none 1 [.k 0, .zero] (.k 5) true (onGrp two (runOf 15) none) ∧
      UniPasses (onGrp two (runOf 15) none) (uniOf two (runOf 15)) (load0 (onGrp two (runOf 15) none) (uniOf two (runOf 15))) (.k 5)) ∧
    (UniReady (onFabric working) (.unit (.fabric 0)) none 1 [.k 0, .zero] (.k 5) true (onFabric working) ∧
      UniPasses (onFabric working) (.unit (.fabric 0)) (load0 (onFabric working) (.unit (.fabric 0))) (.k 5)) ∧
    (∃ l s2, UniReady (onGrp two (runOf 0) none) (uniOf two (runOf 0)) none 1 [.x 1, .zero, .x 2] .none false (onGrp two (runOf 0) none) ∧
      Unwatched (onGrp two (runOf 0) none) (seenBy two (runOf 0) none) ∧
      (onGrp two (runOf 0) none).storeAt ((onGrp two (runOf 0) none).uniAccessor (uniOf two (runOf 0)))
        (uniAddressOf (onGrp two (runOf 0) none) (uniOf two (runOf 0)) (form32 .i ⟨.d, .x 2, .x 1, .zero⟩) (.offset 0)) 8 8 = .ok (l, s2)) ∧
    (∃ l s2, UniReady (onStream running) (.unit (.stream 1)) none 1 [.k 0, .zero, .k 1] .none false (onStream running) ∧
      (onStream running).storeAt ((onStream running).uniAccessor (.unit (.stream 1)))
        (uniAddressOf (onStream running) (.unit (.stream 1)) (form32 .i ⟨.d, .k 1, .k 0, .zero⟩) (.offset 0)) 8 2 = .ok (l, s2)) ∧
    (UniReady (onFabric working) (.unit (.fabric 0)) none 1 [.k 0, .k 2, .zero] (.k 5) true (onFabric working) ∧
      UniPasses (onFabric working) (.unit (.fabric 0)) (katomKind (onFabric working) (.unit (.fabric 0))
        ⟨.d, .i, .k 5, .k 0, .k 2, .zero, none⟩ .add .rel 0) (.k 5)) := by
  obtain ⟨l, a, e⟩ := ok2Of (x := (onGrp two (runOf 0) none).storeAt ((onGrp two (runOf 0) none).uniAccessor (uniOf two (runOf 0)))
    (uniAddressOf (onGrp two (runOf 0) none) (uniOf two (runOf 0)) (form32 .i ⟨.d, .x 2, .x 1, .zero⟩) (.offset 0)) 8 8) (by decide +kernel)
  obtain ⟨l', a', e'⟩ := ok2Of (x := (onStream running).storeAt ((onStream running).uniAccessor (.unit (.stream 1)))
    (uniAddressOf (onStream running) (.unit (.stream 1)) (form32 .i ⟨.d, .k 1, .k 0, .zero⟩) (.offset 0)) 8 2) (by decide +kernel)
  exact ⟨⟨uniLane (inRun _ _ _) (by decide) (by decide) rfl rfl rfl (by decide) rfl, unwatched _ _⟩,
    ⟨uniUnit none rfl (by simp) (by decide) rfl (fun _ => rfl), okOf (by decide +kernel)⟩,
    ⟨l, a, uniLane (inRun _ _ _) (by decide) (by decide) rfl rfl rfl (by decide) rfl, unwatched _ _, e⟩,
    ⟨l', a', uniUnit none rfl (by simp) (by decide) rfl (fun _ => rfl), e'⟩,
    ⟨uniUnit none rfl (by simp) (by decide) rfl (fun _ => rfl), okOf (by decide +kernel)⟩⟩

theorem witness_LaneBranchWords :
    (InRun (onGrp two (runOf 0) none) (seenBy two (runOf 0) none) ∧ Usable (seenBy two (runOf 0) none) [.x 1] .none ∧
      ∀ t ∈ (seenBy two (runOf 0) none).threads,
        let s := atReady (onGrp two (runOf 0) none) (seenBy two (runOf 0) none) none [.x 1] [] []
        (s.source (seenBy two (runOf 0) none) t 64 (.x 1)).toNat % 4 = 0 ∧
          s.plainHeaderAt (seenBy two (runOf 0) none).wg (s.source (seenBy two (runOf 0) none) t 64 (.x 1)).toNat = false) ∧
    Usable (seenBy two (runOf 0) none) [] (.x 127) ∧ ∀ c ∈ (onGrp two (runOf 0) none).copies, c.outFault = none :=
  ⟨⟨inRun _ _ _, usable (by decide) rfl (by decide), by decide +kernel⟩, usable rfl (by decide) (by decide), noneIn _⟩

theorem witness_UniformBranchWords :
    (UniReady (onGrp two (runOf 0) none) (uniOf two (runOf 0)) none 1 [.x 1] (.x 3) false (onGrp two (runOf 0) none) ∧
      ((onGrp two (runOf 0) none).uniSource (uniOf two (runOf 0)) 64 (.x 1)).toNat % 4 = 0 ∧
      (onGrp two (runOf 0) none).plainHeaderAt (wgWith two) ((onGrp two (runOf 0) none).uniSource (uniOf two (runOf 0)) 64 (.x 1)).toNat = false) ∧
    (UniReady (onStream running) (.unit (.stream 1)) none 1 [.k 0] (.k 63) false (onStream running) ∧
      targetOf (onStream running).turnPc (-0x4000) % 4 = 0 ∧ ((onStream running).uniSource (.unit (.stream 1)) 64 (.k 0)).toNat % 4 = 0 ∧
      (onStream running).uniSource (.unit (.stream 1)) 64 (.k 0) ≠ 0 ∧ (onStream running).uniSource (.unit (.stream 1)) 64 (.k 9) = 0) ∧
    UniReady (onFabric working) (.unit (.fabric 0)) none 1 [] .none false (onFabric working) ∧
    UniReady (onCore handling) (.unit (.control 0)) none 1 [] .none false (onCore handling) ∧
    (∀ c ∈ (onGrp two (runOf 0) none).copies, c.outFault = none) :=
  ⟨⟨uniLane (inRun _ _ _) (by decide) (by decide) (by decide) rfl rfl (by decide) rfl, by decide, by decide +kernel⟩,
    ⟨uniUnit none rfl (by simp) (by decide) rfl (fun _ => rfl), by decide, by decide, by decide, by decide⟩,
    uniUnit none rfl (by simp) (by decide) rfl (fun _ => rfl), uniUnit none rfl (by simp) (by decide) rfl (fun _ => rfl),
    noneIn _⟩

/-- A breakpoint register of job 1 with action 0. -/
def counting : State := { onGrp two (runOf 0) none with bpact := 0x100000008 :: List.replicate 15 1 }

theorem witness_DebugWords :
    (InRun (onGrp two (runOf 0) none) (seenBy two (runOf 0) none) ∧ (seenBy two (runOf 0) none).g.stop = none ∧
      ((onGrp two (runOf 0) none).bpact.getD 15 1).toNat % 8 = 1) ∧
    (InRun counting (seenBy two (runOf 0) none) ∧ (counting.bpact.getD 0 1).toNat / 2 ^ 3 % 2 = 1 ∧
      (counting.bpact.getD 0 1).toNat / 2 ^ 32 % 2 ^ 32 = (seenBy two (runOf 0) none).leaf.job ∧ (counting.bpact.getD 0 1).toNat % 8 = 0) ∧
    (∃ l r, Usable (seenBy two (runOf 0) none) [.x 1] .none ∧ (seenBy two (runOf 0) none).threads.filter
      (bit0 (atReady (onGrp two (runOf 0) none) (seenBy two (runOf 0) none) none [.x 1] [] []) (seenBy two (runOf 0) none) none) = l :: r) ∧
    ∀ c, (onGrp two (runOf 0) none).cores[0]? = some c → c.trctl.getLsbD 0 = false :=
  ⟨⟨inRun _ _ _, rfl, by decide⟩, ⟨⟨rfl, rfl, rfl, rfl, rfl, rfl⟩, by decide, by decide, by decide⟩,
    ⟨_, _, usable (by decide) rfl (by decide), rfl⟩, fun c h => by injection h with h; subst h; rfl⟩

/-- The package with bin set 255 bound to job 1. -/
def binned : State := { onGrp two (runOf 0) none with binsets := [(255, ⟨1, [], 0⟩)] }
/-- A control core that handles nothing. -/
def idle : Control := { handling with current := none }

theorem witness_PlacementWords :
    (UniReady (onGrp two (runOf 15) none) (uniOf two (runOf 15)) none 1 [.x 1] (.x 5) true (onGrp two (runOf 15) none) ∧
      ¬Jobless (onGrp two (runOf 15) none) (uniOf two (runOf 15))) ∧
    (UniReady (onCore idle) (.unit (.control 0)) none 1 [.k 0] (.k 5) true (onCore idle) ∧ Jobless (onCore idle) (.unit (.control 0))) ∧
    (UniReady (onFabric working) (.unit (.fabric 0)) none 1 [.k 0] (.k 5) true (onFabric working) ∧
      ¬Jobless (onFabric working) (.unit (.fabric 0)) ∧
      UnitPasses (onFabric working) (.unit (.fabric 0)) (.rcbrd ((onFabric working).uniSource (.unit (.fabric 0)) 64 (.k 0)).toNat 31) (.k 5)) ∧
    (UniReady binned (uniOf two (runOf 0)) none 1 [.imm 255, .x 3] .none false binned ∧
      OwnSet binned ((uniOf two (runOf 0)).job binned) (binned.uniSource (uniOf two (runOf 0)) 64 (.imm 255)).toNat ∧
      ∀ t ∈ two, hasValue t (.x 3) = true) ∧
    (UniReady binned (uniOf two (runOf 0)) none 1 [.x 1, .imm 65535, .zero] (.x 5) true binned ∧
      binned.bound ((binned.uniSource (uniOf two (runOf 0)) 64 (.imm 65535)).toNat / 2 ^ 8 % 2 ^ 8) = true ∧
      (sget freeSet binned.binsets ((binned.uniSource (uniOf two (runOf 0)) 64 (.imm 65535)).toNat / 2 ^ 8 % 2 ^ 8)).owner =
        (uniOf two (runOf 0)).job binned ∧
      2 ^ 16 ≤ (binned.uniSource (uniOf two (runOf 0)) 64 (.x 1)).toNat) ∧
    (∃ r, UniReady { binned with regions := [probeRegion, { probeRegion with id := 2, va := 0x10000, held := true }] }
        (uniOf two (runOf 0)) none 1 [.x 1] .none false
        { binned with regions := [probeRegion, { probeRegion with id := 2, va := 0x10000, held := true }] } ∧
      ({ binned with regions := [probeRegion, { probeRegion with id := 2, va := 0x10000, held := true }] } : State).regions.find?
        (fun r => r.job == 1 && r.held && r.va == 0x10000) = some r) :=
  ⟨⟨uniLane (inRun _ _ _) (by decide) (by decide) (by decide) rfl rfl (by decide) rfl, fun ⟨_, h, _⟩ => by cases h⟩,
    ⟨uniUnit none rfl (by simp) (by decide) rfl (fun _ => rfl), 0, rfl, rfl⟩,
    ⟨uniUnit none rfl (by simp) (by decide) rfl (fun _ => rfl), (fun ⟨_, h, _⟩ => by cases h), okOf (by decide +kernel)⟩,
    ⟨uniLane ⟨rfl, rfl, rfl, rfl, rfl, rfl⟩ (by decide) (by decide) rfl rfl rfl (by decide) rfl, ⟨by decide, fun _ => by decide⟩, by decide⟩,
    ⟨uniLane ⟨rfl, rfl, rfl, rfl, rfl, rfl⟩ (by decide) (by decide) (by decide) rfl rfl (by decide) rfl, by decide, by decide, by decide⟩,
    ⟨_, uniLane ⟨rfl, rfl, rfl, rfl, rfl, rfl⟩ (by decide) (by decide) rfl rfl rfl (by decide) rfl, rfl⟩⟩

/-- Two threads whose x2 and x3 are the largest member and byte counts of `barinit`. -/
def counts : List Thread := [{ thr 0 with x := [(2, 2047), (3, 1048575)] }, thr 1]
/-- The workgroup whose barrier register 15 is `b`. -/
def barWg (b : Barrier) : Workgroup := { wgWith counts with bars := List.replicate 15 ⟨false, 0, 0, 0, 0⟩ ++ [b] }
/-- A package with it. -/
def barPkg (b : Barrier) : State := { onGrp counts (runOf 0) none with wgs := [barWg b] }
/-- Its group's word. -/
def barUni (b : Barrier) : Uni := .lane { seenBy counts (runOf 0) none with wg := barWg b } (counts.headD (thr 0)) counts

theorem witness_BarrierWords :
    (∃ w b, UniReady (barPkg ⟨true, 5, 0, 7, 0⟩) (barUni ⟨true, 5, 0, 7, 0⟩) none 1 [.x 2, .x 3] .none false (barPkg ⟨true, 5, 0, 7, 0⟩) ∧
      HasBar (barPkg ⟨true, 5, 0, 7, 0⟩) (barUni ⟨true, 5, 0, 7, 0⟩) 15 w b ∧ b.arr = 0 ∧ b.arrb = 0 ∧
      1 ≤ ((barPkg ⟨true, 5, 0, 7, 0⟩).uniSource (barUni ⟨true, 5, 0, 7, 0⟩) 64 (.x 2)).toNat ∧
      ((barPkg ⟨true, 5, 0, 7, 0⟩).uniSource (barUni ⟨true, 5, 0, 7, 0⟩) 64 (.x 2)).toNat ≤ 2047 ∧
      ((barPkg ⟨true, 5, 0, 7, 0⟩).uniSource (barUni ⟨true, 5, 0, 7, 0⟩) 64 (.x 3)).toNat ≤ 1048575) ∧
    (∃ w b, UniReady (barPkg ⟨true, 2, 0, 1048575, 0⟩) (barUni ⟨true, 2, 0, 1048575, 0⟩) none 1 [.x 3] (.x 127) false (barPkg ⟨true, 2, 0, 1048575, 0⟩) ∧
      HasBar (barPkg ⟨true, 2, 0, 1048575, 0⟩) (barUni ⟨true, 2, 0, 1048575, 0⟩) 15 w b ∧
      ArrivesNow (barPkg ⟨true, 2, 0, 1048575, 0⟩) (barUni ⟨true, 2, 0, 1048575, 0⟩) w false ∧
      b.exp ≠ 0 ∧ b.arr + counts.length = b.exp ∧
      b.arrb + ((barPkg ⟨true, 2, 0, 1048575, 0⟩).uniSource (barUni ⟨true, 2, 0, 1048575, 0⟩) 64 (.x 3)).toNat = b.expb ∧
      ∀ t ∈ w.threads, t.place ≠ .barwait 15 b.gen) ∧
    (∃ w b, UniReady (barPkg ⟨true, 3, 0, 1048575, 0⟩) (barUni ⟨true, 3, 0, 1048575, 0⟩) none 1 [.x 3] (.x 127) false (barPkg ⟨true, 3, 0, 1048575, 0⟩) ∧
      HasBar (barPkg ⟨true, 3, 0, 1048575, 0⟩) (barUni ⟨true, 3, 0, 1048575, 0⟩) 15 w b ∧ b.arr + counts.length < b.exp) ∧
    (∃ w b, UniReady (barPkg ⟨true, 3, 0, 0, 0⟩) (barUni ⟨true, 3, 0, 0, 0⟩) none 1 [.x 3] .none false (barPkg ⟨true, 3, 0, 0, 0⟩) ∧
      HasBar (barPkg ⟨true, 3, 0, 0, 0⟩) (barUni ⟨true, 3, 0, 0, 0⟩) 15 w b ∧
      ((barPkg ⟨true, 3, 0, 0, 0⟩).uniSource (barUni ⟨true, 3, 0, 0, 0⟩) 64 (.x 3)).getLsbD 0 = b.gen) ∧
    (∃ w b, UniReady (onStream running) (.unit (.stream 1)) none 1 [.k 0] .none false (onStream running) ∧
      HasBar (onStream running) (.unit (.stream 1)) 0 w b ∧ ArrivesNow (onStream running) (.unit (.stream 1)) w false ∧
      ((onStream running).uniSource (.unit (.stream 1)) 64 (.k 0)).getLsbD 0 = b.gen) :=
  ⟨⟨_, _, uniLane ⟨rfl, rfl, rfl, rfl, rfl, rfl⟩ (by decide) (by decide) rfl rfl rfl (by decide) rfl, ⟨rfl, rfl⟩, rfl, rfl, by decide, by decide, by decide⟩,
    ⟨_, _, uniLane ⟨rfl, rfl, rfl, rfl, rfl, rfl⟩ (by decide) (by decide) (by decide) rfl rfl (by decide) rfl, ⟨rfl, rfl⟩, rfl, by decide, by decide, by decide, by decide⟩,
    ⟨_, _, uniLane ⟨rfl, rfl, rfl, rfl, rfl, rfl⟩ (by decide) (by decide) (by decide) rfl rfl (by decide) rfl, ⟨rfl, rfl⟩, by decide⟩,
    ⟨_, _, uniLane ⟨rfl, rfl, rfl, rfl, rfl, rfl⟩ (by decide) (by decide) rfl rfl rfl (by decide) rfl, ⟨rfl, rfl⟩, by decide⟩,
    ⟨_, _, uniUnit none rfl (by simp) (by decide) rfl (fun _ => rfl), ⟨rfl, rfl⟩, by rfl, by decide⟩⟩

/-- A cinch line of region 1 for the cores in a mask. -/
def lined (arrived : List (Nat × Nat)) : State :=
  { onGrp two (runOf 0) none with cinch := List.replicate 7 CinchLine.reset ++ [⟨some 1, some [0], 2, arrived, none⟩] }
/-- An open bulk copy of the workgroup, with one of two slices there. -/
def halfOpen : Copy :=
  { id := 4, wg := 1, region := 1, job := 1, kind := .bulk 0 2 [0] 0x10000 [0, 0, 0, 0, 0, 0] 0 [] .filling (0, 0), line := 0, seq := 4
    after := [], sent := false, got := [] }

theorem witness_CinchWords :
    (∃ w l, UniReady (lined [(1, 0)]) (uniOf two (runOf 0)) none 1 [] .none false (lined [(1, 0)]) ∧ (uniOf two (runOf 0)).wgOf (lined [(1, 0)]) = some w ∧
      (lined [(1, 0)]).cinch[7]? = some l ∧ MayArrive l w) ∧
    (∃ w l, UniReady (onStream running) (.unit (.stream 1)) none 1 [] .none false (onStream running) ∧
      (Uni.unit (.stream 1)).wgOf (onStream running) = some w ∧ w.stream = some running ∧ (onStream running).cinch[0]? = some l ∧ MayArrive l w ∧
      l.region = none) ∧
    (∃ w l, UniReady (lined []) (uniOf two (runOf 0)) none 1 [.imm 262144, .k 4, .k 5, .k 6, .k 7] (.x 5) false (lined []) ∧
      (uniOf two (runOf 0)).wgOf (lined []) = some w ∧ (lined []).cinch[7]? = some l ∧
      cinchStatusOf (lined []) l w.region none ((lined []).uniSource (uniOf two (runOf 0)) 64 (.imm 262144)).toNat = 0 ∧
      cinchStatusOf (lined []) l w.region none ((lined []).uniSource (uniOf two (runOf 0)) 64 .zero).toNat = 3 ∧
      (lined []).waitingAt w.region 7 = []) ∧
    (∃ w b, UniReady (onGrp two (runOf 0) none) (uniOf two (runOf 0)) none 1 [.x 1, .zero, .k 0, .k 1, .k 2] .none false (onGrp two (runOf 0) none) ∧
      HasBar (onGrp two (runOf 0) none) (uniOf two (runOf 0)) 0 w b ∧
      ((onGrp two (runOf 0) none).uniSource (uniOf two (runOf 0)) 64 (.x 1)).toNat % 128 = 0 ∧
      (onGrp two (runOf 0) none).copies.find? (·.lacks w.id 0 0) = none ∧
      ((onGrp two (runOf 0) none).copies.filter fun c => c.wg == w.id && c.isOpen).length < 8) ∧
    (∃ c, ({ onGrp two (runOf 0) none with copies := [halfOpen] } : State).copies.find? (·.lacks 1 0 1) = some c ∧
      UniReady { onGrp two (runOf 0) none with copies := [halfOpen] } (uniOf two (runOf 0)) none 1 [.x 1, .zero, .k 0, .k 1, .k 2] .none false
        { onGrp two (runOf 0) none with copies := [halfOpen] } ∧
      c.agrees 0x10000 [0, 0, 0, 0, 0, 0] 0 2 = true) :=
  ⟨⟨_, _, uniLane ⟨rfl, rfl, rfl, rfl, rfl, rfl⟩ (by decide) rfl rfl rfl rfl rfl rfl, rfl, rfl, fun _ h => by
      injection h with h; exact ⟨h.symm, fun m k => by injection k with k; subst k; decide⟩⟩,
    ⟨_, _, uniUnit none rfl (by simp) (by decide) rfl (fun _ => rfl), rfl, rfl, rfl, (fun _ h => by cases h), rfl⟩,
    ⟨_, _, uniLane ⟨rfl, rfl, rfl, rfl, rfl, rfl⟩ (by decide) (by decide) (by decide) rfl rfl (by decide) rfl, rfl, rfl, by decide, by decide, by decide⟩,
    ⟨_, _, uniLane (inRun _ _ _) (by decide) (by decide) rfl rfl rfl (by decide) rfl, ⟨rfl, rfl⟩, by decide, rfl, by decide⟩,
    ⟨_, rfl, uniLane ⟨rfl, rfl, rfl, rfl, rfl, rfl⟩ (by decide) (by decide) rfl rfl rfl (by decide) rfl, by decide⟩⟩

/-- A stream with seven matrix instructions queued. -/
def queued : Stream :=
  { running with rnd := 5, queue := List.replicate 7 { instr := .unpin 0, pc := 0, regs := [], rnd := 0, flush := 0, step := 0, got := [] } }

theorem witness_MatrixWords :
    (∃ x, UniReady (onGrp two (runOf 0) none) (uniOf two (runOf 0)) none 1 [] (.x 5) false (onGrp two (runOf 0) none) ∧
      (wgWith two).stream = some x ∧ x.stage = .idle) ∧
    (∃ r g, matrixRow (.mdrainSt 4 0) = some r ∧ (onStream queued).wg? 1 = some g ∧ g.stream = some queued ∧ queued.queue.length < 8 ∧
      UniReady (onStream queued) (.unit (.stream 1)) none 1 (r.ks.map Src.k ++ [.k 61, .k 62, .k 63]) r.dst false (onStream queued)) :=
  ⟨⟨_, uniLane (inRun _ _ _) (by decide) rfl (by decide) rfl rfl rfl rfl, rfl, rfl⟩,
    ⟨_, _, rfl, rfl, rfl, by decide, uniUnit none rfl (by simp) (by decide) rfl (fun _ => rfl)⟩⟩

/-- A processor with fifteen transfers queued. -/
def crowded : FabricProc :=
  { working with queue := List.replicate 15 { instr := .put, pc := 0, regs := [], dst := .none, step := 0, begun := false, cld := [], zeroRes := false
                                              plan := [], sent := false, writing := false, got := [], due := [] } }

theorem witness_TransferWords : ∃ r, transferRow (.fdarLast (.k 4) 8 12 16) = some r ∧ (onFabric crowded).proc? 0 = some crowded ∧
    crowded.queue.length < 16 ∧ UniReady (onFabric crowded) (.unit (.fabric 0)) none 1 (r.ks.map Src.k) r.d false (onFabric crowded) :=
  ⟨_, rfl, rfl, by decide, uniUnit none rfl (by simp) (by decide) rfl (fun _ => rfl)⟩

/-- A processor whose k20 names processor 0 and channel 0 of this package, and k21 the same of another. -/
def sending : FabricProc :=
  { working with
    k := [(0, 0x10000), (1, 0x20000), (20, Config.pkg.setWidth 64), (21, if Config.pkg = 0 then 1 else 0), (22, 0x7FFFFF), (23, 1)]
    channels := [(15, [[1, 2, 3, 4, 5, 6, 7, 8]])] }
/-- A processor with root slot 0 open for three contributors, one of them applied. -/
def slot0 : OpenSlot :=
  { n := 3, op := 0, epoch := 0, applied := [0], value := 5, limit := 0, since := 0, res := .none, stat := .none, bitmap := none, pc := 0 }
def rooted : FabricProc := { sending with slots := ⟨some slot0, none⟩ :: List.replicate 15 ⟨none, none⟩ }

theorem otherPkg : ((if Config.pkg = 0 then 1 else 0 : W64).toNat) % 2 ^ 16 ≠ Config.pkg.toNat := by
  by_cases h : Config.pkg = 0
  · rw [h]; decide
  · have : Config.pkg.toNat ≠ 0 := fun e => h (BitVec.eq_of_toNat_eq (by simpa using e))
    simp only [h, if_false]
    exact fun e => this (by simpa using e.symm)

theorem thisPkg : (Config.pkg.setWidth 64).toNat = Config.pkg.toNat := by
  have := Config.pkg.isLt
  simp only [BitVec.toNat_setWidth]; omega

theorem onProc {p : FabricProc} {srcs : List Nat} {d : Dst} (c : (srcs.map Src.k).all unitSrc = true) (e : unitDst d = true)
    (o : ∀ r, (onFabric p).kBusy (.fabric 0) r = false) : OnProc (onFabric p) 0 p srcs d :=
  ⟨rfl, uniUnit none rfl (by simp) c e o⟩

/-- What the clauses of `fwait` ask of a package. -/
def Tests (s : State) (bad : Bool) (w0 w1 : Nat) : Prop :=
  ∃ pg s2, s.proc? 0 = some sending ∧ UniReady s (.unit (.fabric 0)) none 1 [.k 1] (.k 40) false s ∧ procK s 0 1 % 64 = 0 ∧
    (keeping s 0 (.k 40)).translate (s.procAcc 0) barrierRule false (procK s 0 1) = .ok (pg, s2) ∧
    s2.errorIn pg (procK s 0 1) 64 = none ∧ pg.home (procK s 0 1) = .home ∧
    let word := fun i => leNat (((s2.homeRead none (pg.pa (procK s 0 1)) 64).1.drop (8 * i)).take 8)
    (word 4 ≠ 0 ∨ word 5 ≠ 0 ∨ word 6 ≠ 0 ∨ word 7 ≠ 0 ↔ bad = true) ∧ word 0 = w0 ∧ word 1 = w1

theorem tests {s : State} {bad : Bool} {w0 w1 : Nat} (a : s.proc? 0 = some sending) (b : s.turn = some (turnOn (.fabric 0) none))
    (k : ∀ r, s.kBusy (.fabric 0) r = false) (e : procK s 0 1 % 64 = 0)
    (h : (match (keeping s 0 (.k 40)).translate (s.procAcc 0) barrierRule false (procK s 0 1) with
      | .ok (pg, s2) =>
        let word := fun i => leNat (((s2.homeRead none (pg.pa (procK s 0 1)) 64).1.drop (8 * i)).take 8)
        (s2.errorIn pg (procK s 0 1) 64).isNone && (pg.home (procK s 0 1) == .home) &&
          (decide (word 4 ≠ 0 ∨ word 5 ≠ 0 ∨ word 6 ≠ 0 ∨ word 7 ≠ 0) == bad) && word 0 == w0 && word 1 == w1
      | .error _ => false) = true) : Tests s bad w0 w1 := by
  generalize hx : (keeping s 0 (.k 40)).translate (s.procAcc 0) barrierRule false (procK s 0 1) = x at h
  cases x with
  | error _ => cases h
  | ok x =>
    obtain ⟨pg, s2⟩ := x
    refine ⟨pg, s2, a, uniUnit none b (by simp) rfl rfl k, e, hx, ?_⟩
    simp only [Bool.and_eq_true, beq_iff_eq, Option.isNone_iff_eq_none, and_assoc] at h
    obtain ⟨h1, h2, h3, h4, h5⟩ := h
    exact ⟨h1, h2, by rw [← h3]; exact decide_eq_true_iff.symm, h4, h5⟩

/-- A processor with a checkpoint in its queue. -/
def cutting : FabricProc :=
  { sending with queue := [{ instr := .ckpt, pc := 0x10000, regs := [0, 0, 0], dst := .none, step := 0, begun := false, cld := [],
                             zeroRes := false, plan := [], sent := false, writing := false, got := [], due := [] }] }

theorem witness_FabricWords :
    (OnProc (onFabric cutting) 0 cutting [1] (.k 40) ∧ procK (onFabric cutting) 0 1 % 64 = 0 ∧ ∃ q ∈ cutting.queue, q.instr = .ckpt) ∧
    (∀ q ∈ sending.queue, q.instr ≠ .ckpt) ∧
    (OnProc (onFabric sending) 0 sending (21 :: (List.range 8).map (56 + ·)) .none ∧ procK (onFabric sending) 0 21 / 2 ^ 21 % 2 ^ 3 = 0 ∧
      procK (onFabric sending) 0 21 / 2 ^ 28 = 0 ∧ procK (onFabric sending) 0 21 % 2 ^ 16 ≠ Config.pkg.toNat) ∧
    (OnProc (onFabric sending) 0 sending (20 :: (List.range 8).map (0 + ·)) .none ∧ procK (onFabric sending) 0 20 / 2 ^ 21 % 2 ^ 3 = 0 ∧
      procK (onFabric sending) 0 20 / 2 ^ 28 = 0 ∧ procK (onFabric sending) 0 20 % 2 ^ 16 = Config.pkg.toNat ∧
      procK (onFabric sending) 0 20 / 2 ^ 16 % 2 ^ 5 = 0 ∧ procK (onFabric sending) 0 20 / 2 ^ 24 % 2 ^ 4 = 0 ∧
      sending.job = some 1 ∧ (onFabric sending).waiting = [] ∧ (sget [] sending.channels 0).length < 8) ∧
    (∃ w r, OnProc (onFabric sending) 0 sending [] .none ∧ sget [] sending.channels 15 = w :: r ∧ (onFabric sending).waiting = [] ∧ w.length = 8) ∧
    (∃ s2 pg, UniReady (onFabric crowded) (.unit (.fabric 0)) none 1 [.k 1, .imm 1] .none false (onFabric crowded) ∧
      procK (onFabric crowded) 0 1 % 64 = 0 ∧ (onFabric crowded).translate ((onFabric crowded).procAcc 0)
        { barrierRule with physical := fun _ => true } false (procK (onFabric crowded) 0 1) = .ok (pg, s2) ∧ crowded.queue ≠ []) ∧
    (Tests (onFabric sending) false 0 0 ∧ Tests { onFabric sending with mem := memPut pages 0x20008 8 1 } false 0 1 ∧
      Tests { onFabric sending with mem := memPut pages 0x20038 8 1 } true 0 0) ∧
    (∃ x, OnProc (onFabric rooted) 0 rooted [22, 0] .none ∧ procK (onFabric rooted) 0 22 / 2 ^ 16 % 2 ^ 4 = 15 ∧ rooted.slots[15]? = some x ∧
      x.active = none ∧ procK (onFabric rooted) 0 22 % 2 ^ 16 = 0xFFFF ∧ procK (onFabric rooted) 0 22 / 2 ^ 20 % 2 ^ 4 = 7 ∧
      procK (onFabric rooted) 0 22 / 2 ^ 40 = 0 ∧ rooted.pool = [] ∧ (onFabric rooted).waiting = []) ∧
    (OnProc (onFabric rooted) 0 rooted [0, 20, 23] .none ∧ procK (onFabric rooted) 0 20 / 2 ^ 21 % 2 ^ 3 = 0 ∧
      procK (onFabric rooted) 0 20 / 2 ^ 28 % 2 ^ 4 = 0 ∧ procK (onFabric rooted) 0 20 / 2 ^ 48 = 0 ∧ procK (onFabric rooted) 0 23 / 2 ^ 16 = 0 ∧
      procK (onFabric rooted) 0 20 / 2 ^ 32 % 2 ^ 16 = slot0.epoch ∧ procK (onFabric rooted) 0 23 % 2 ^ 16 = 1 ∧ 1 < slot0.n ∧ 1 ∉ slot0.applied ∧
      slot0.applied.length + 1 < slot0.n ∧ ∀ r ∈ (onFabric rooted).remotes, r.use ≠ .fred 0) := by
  have k20 : procK (onFabric sending) 0 20 = Config.pkg.toNat := thisPkg
  have k20' : procK (onFabric rooted) 0 20 = Config.pkg.toNat := thisPkg
  have lt := Config.pkg.isLt
  have k21 : procK (onFabric sending) 0 21 % 2 ^ 16 ≠ Config.pkg.toNat := otherPkg
  have le : procK (onFabric sending) 0 21 ≤ 1 := by
    show (if Config.pkg = 0 then 1 else 0 : W64).toNat ≤ 1
    split <;> decide
  obtain ⟨pg, s2, h⟩ := ok2Of (x := (onFabric crowded).translate ((onFabric crowded).procAcc 0)
    { barrierRule with physical := fun _ => true } false (procK (onFabric crowded) 0 1)) (by decide +kernel)
  refine ⟨⟨onProc (by decide) rfl fun _ => rfl, by decide, _, .head _, rfl⟩, nofun, ⟨onProc (by decide) rfl fun _ => rfl, by omega, by omega, k21⟩,
    ⟨onProc (by decide) rfl fun _ => rfl, by omega, by omega, by omega, by omega, by omega, rfl, rfl, by decide⟩,
    ⟨_, _, onProc (by decide) rfl fun _ => rfl, rfl, rfl, rfl⟩,
    ⟨s2, pg, uniUnit none rfl (by simp) (by decide) rfl fun _ => rfl, by decide, h, by decide⟩,
    ⟨tests rfl rfl (fun _ => rfl) (by decide) (by decide +kernel), tests rfl rfl (fun _ => rfl) (by decide) (by decide +kernel),
      tests rfl rfl (fun _ => rfl) (by decide) (by decide +kernel)⟩,
    ⟨_, onProc (by decide) rfl fun _ => rfl, by decide, rfl, rfl, by decide, by decide, by decide, rfl, rfl⟩,
    ⟨onProc (by decide) rfl fun _ => rfl, by omega, by omega, by omega, by decide, ?_, by decide, by decide, by decide, by decide, nofun⟩⟩
  rw [k20']; show _ = 0; omega

/-- The Timetable running for job 1 with neighbours 5 before and 6 after. -/
def ticking : Timetable := { Timetable.reset with state := 1, job := 1, tcb := [0, 0, 0x00060005, 0] }

theorem witness_TimetableWords :
    (UniReady (onGrp two (runOf 15) none) (uniOf two (runOf 15)) none 1 [.imm 15, .x 1] (.x 127) true (onGrp two (runOf 15) none)) ∧
    (UniReady { onGrp two (runOf 0) none with tt := ticking } (uniOf two (runOf 0)) none 1 [.imm 15, .imm 65535] .none false
        { onGrp two (runOf 0) none with tt := ticking } ∧
      Neighbour { onGrp two (runOf 0) none with tt := ticking } 1 true 5 ∧ Neighbour { onGrp two (runOf 0) none with tt := ticking } 1 false 6) ∧
    (∀ k, ¬Neighbour (onGrp two (runOf 0) none) 1 true k) ∧
    (UniReady { onGrp two (runOf 0) none with boundaries := [⟨7, 0, 1, [1], 3, [], .nothing⟩] } (uniOf two (runOf 0)) none 1 [.imm 15, .x 1] .none false
        { onGrp two (runOf 0) none with boundaries := [⟨7, 0, 1, [1], 3, [], .nothing⟩] } ∧
      ((({ onGrp two (runOf 0) none with boundaries := [⟨7, 0, 1, [1], 3, [], .nothing⟩] } : State).boundaries.filter fun b => b.wg == 1 &&
        b.tids.any fun t => ((seenBy two (runOf 0) none).threads.map (·.tid)).contains t).map (·.id)) ≠ [] ∧
      (((onGrp two (runOf 0) none).boundaries.filter fun b => b.wg == 1 &&
        b.tids.any fun t => ((seenBy two (runOf 0) none).threads.map (·.tid)).contains t).map (·.id) ++
        ((onGrp two (runOf 0) none).ops.filter fun o => o.wg == 1 && isCwait o.kind).map (·.id)) = []) ∧
    (UniReady (onFabric crowded) (.unit (.fabric 0)) none 1 [.imm 0, .imm 1] .none false (onFabric crowded) ∧ crowded.queue ≠ []) ∧
    (∃ n, Dst.x 127 = .x n) :=
  ⟨uniLane (inRun _ _ _) (by decide) (by decide) (by decide) rfl rfl (by decide) rfl,
    ⟨uniLane ⟨rfl, rfl, rfl, rfl, rfl, rfl⟩ (by decide) (by decide) rfl rfl rfl (by decide) rfl, ⟨.inl rfl, rfl, by decide, by decide⟩,
      .inl rfl, rfl, by decide, by decide⟩,
    (fun _ h => by rcases h.1 with h | h <;> cases h),
    ⟨uniLane ⟨rfl, rfl, rfl, rfl, rfl, rfl⟩ (by decide) (by decide) rfl rfl rfl (by decide) rfl, by decide⟩,
    ⟨uniUnit none rfl (by simp) (by decide) rfl fun _ => rfl, by decide⟩, 127, rfl⟩

/-- A freeze of job 1 at a resume stage. -/
def freezeAt (stage shown : Nat) : BellFreeze :=
  { seq := 1, raise := none, nraise := 255, cyc := 100, since := 100, entry := [], stage, shown }
/-- Job 1 under it. -/
def frozenJob (stage shown : Nat) : Job := { probeJob with freeze := some (freezeAt stage shown), bseq := 1 }

theorem witness_BellAndCounterWords :
    UniReady (onGrp two (runOf 0) none) (uniOf two (runOf 0)) none 1 [.x 1] (.x 5) false (onGrp two (runOf 0) none) ∧
    (∃ g, (onStream running).wg? 1 = some g ∧ UniReady (onStream running) (.unit (.stream 1)) none 1 [.k 0] .none false (onStream running)) ∧
    (UniReady (onFabric working) (.unit (.fabric 0)) none 1 [.k 0] .none false (onFabric working) ∧ (onFabric working).proc? 0 = some working) ∧
    UniReady (onCore handling) (.unit (.control 0)) none 1 [.k 0] .none false (onCore handling) ∧
    ((onCore handling).job? 1 = some probeJob ∧ probeJob.freeze = none) ∧ (onCore handling).job? 2 = none ∧
    (({ onCore handling with jobs := [frozenJob 1 1] } : State).job? 1 = some (frozenJob 1 1) ∧ (frozenJob 1 1).freeze = some (freezeAt 1 1) ∧
      (freezeAt 1 1).stage < 2) :=
  ⟨uniLane (inRun _ _ _) (by decide) (by decide) (by decide) rfl rfl (by decide) rfl,
    ⟨_, rfl, uniUnit none rfl (by simp) (by decide) rfl fun _ => rfl⟩, ⟨uniUnit none rfl (by simp) (by decide) rfl fun _ => rfl, rfl⟩,
    uniUnit none rfl (by simp) (by decide) rfl fun _ => rfl, ⟨rfl, rfl⟩, rfl, rfl, rfl, by decide⟩

/-- A stop that a debugger may continue. -/
def stopped : Stop :=
  { cause := 0x0B, sub := 0, detail := 0, code := 0, cont := true, reexec := true, pc := 0x10000, addr := 0, lanes := [0], tid := 0, clk := 90 }
/-- A control core with its handle registers: k0 names thread 1 of core 0, k1 fabric processor 0, k2 nothing. -/
def debugger : Control := { handling with k := [(0, 0x2000), (1, 0xFFE000), (2, 0x1000000), (3, 393215), (4, 0x10000), (5, 0xFFFFFFFF)] }
/-- A package whose group stands stopped, seen by that control core. -/
def debugged : State :=
  { onCore debugger with wgs := [wgWith two], groups := [{ grpWith two (runOf 0) with stop := some stopped }], procs := [working] }

theorem onControl' {srcs : List Src} {d : Dst} (c : srcs.all unitSrc = true) (e : unitDst d = true) : OnControl debugged 0 debugger srcs d :=
  ⟨rfl, uniUnit none rfl (by simp) c e fun _ => rfl⟩

theorem witness_ControlRegisterWords :
    (∃ x, OnControl debugged 0 debugger [] (.k 63) ∧ csrOf debugged debugger 7 = some x) ∧
    (∃ x, csrOf debugged debugger 0x201F = some x) ∧
    (OnControl debugged 0 debugger [.k 3] .none ∧ (debugged.csrRead 0 debugger 0x2062).isSome = true ∧ (ctlK debugged 0 3).toNat < 393216 ∧
      (debugged.csrRead 0 debugger 9).isSome = true ∧ (ctlK debugged 0 3).toNat % 4 ≠ 0 ∧ (ctlK debugged 0 4).toNat % 4 = 0 ∧
      (debugged.csrRead 0 debugger 0x0C).isSome = true ∧ (ctlK debugged 0 4).toNat = 2 ^ 16 ∧ (ctlK debugged 0 5).toNat = 2 ^ 32 - 1 ∧
      (debugged.csrRead 0 debugger 0x2066).isSome = true ∧ (debugged.csrRead 0 debugger 0x2000).isSome = true) ∧
    (OnControl debugged 0 debugger [.k 0, .imm 127, .k 3] (.k 63) ∧ PlainIndex (.imm 127) ∧
      (∃ it, debugged.item (ctlK debugged 0 0) 0 127 = .ok it) ∧ (∃ e, debugged.item (ctlK debugged 0 0) 0 128 = .error e) ∧
      ∃ e, debugged.item (ctlK debugged 0 2) 0 0 = .error e) ∧
    (∃ w a, debugged.target (ctlK debugged 0 0) = some (.thread w a) ∧ debugged.wg? w.id = some w ∧ w.thread? a.tid = some a ∧
      debugged.threadStopped w a = true ∧ (∀ l, debugged.leafOf w = some l → 127 < l.regs) ∧ (debugged.leafOf w).isSome) := by
  have errOf : ∀ {α : Type} {x : Except Nat α}, (match x with | .ok _ => true | .error _ => false) = false → ∃ e, x = .error e := by
    intro α x h
    cases x with
    | ok _ => cases h
    | error e => exact ⟨e, rfl⟩
  refine ⟨⟨_, onControl' rfl rfl, rfl⟩, ⟨_, rfl⟩,
    ⟨onControl' (by decide) rfl, by decide +kernel, by decide, by decide +kernel, by decide, by decide, by decide +kernel, by decide, by decide,
      by decide +kernel, by decide +kernel⟩,
    ⟨onControl' (by decide) rfl, .inr ⟨127, by decide, rfl⟩, okOf (by decide +kernel), errOf (by decide +kernel), errOf (by decide +kernel)⟩,
    ⟨_, _, rfl, rfl, rfl, by decide +kernel, fun l h => by injection h with h; subst h; decide, by decide⟩⟩

theorem witness_ControlWords :
    (resumeOf (.gresumeCont 0 .group) = some (.cont, 0, .group) ∧ OnControl debugged 0 debugger [.k 0] .none ∧
      (∃ m, debugged.resume .cont .group debugger.reexec (ctlK debugged 0 0) = .ok m) ∧ debugged.target (ctlK debugged 0 2) = none) ∧
    (∃ w a r, OnControl debugged 0 debugger [.k 0, .k 3] .none ∧ debugged.target (ctlK debugged 0 0) = some (.thread w a) ∧
      debugged.region? w.region = some r ∧ r.killable = true) ∧
    (∃ q, debugged.target (ctlK debugged 0 1) = some (.fabric 0 q)) ∧
    (OnControl debugged 0 debugger ([4, 3, 4].map Src.k) .none ∧ debugged.ops = [] ∧ debugged.path = [] ∧ (ctlK debugged 0 4).toNat % 0x10000 = 0 ∧
      1 ≤ (ctlK debugged 0 4).toNat ∧ (ctlK debugged 0 4).toNat ≤ 2 ^ 20) ∧
    (OnControl debugged 0 debugger [] .none ∧ debugger.queue = [] ∧
      OnControl (onCore { debugger with queue := [probeEvent] }) 0 { debugger with queue := [probeEvent] } [] .none) :=
  ⟨⟨rfl, onControl' (by decide) rfl, okOf (by decide +kernel), rfl⟩,
    ⟨_, _, _, onControl' (by decide) rfl, rfl, rfl, by decide +kernel⟩, ⟨_, rfl⟩,
    ⟨onControl' (by decide) rfl, rfl, rfl, by decide, by decide, by decide⟩,
    onControl' rfl rfl, rfl, rfl, uniUnit none rfl (by simp) rfl rfl fun _ => rfl⟩

/-- Threads that a header with DIST 7 and WAIT bit 11 has waited for exactly until clk 100. -/
def waited : List Thread := [{ thr 0 with trailer := 92, setAt := [(11, 99)] }, { thr 1 with trailer := 92 }]
/-- Their group, a candidate. -/
def ready : Group := { grpWith waited (runOf 0) with run := none, since := 100 }
/-- The package in which it has the turn. -/
def atHeader : State := { onGrp waited (runOf 0) none with groups := [ready] }

theorem witness_RunControlWords :
    (Candidate atHeader ready (wgWith waited) (turnOn (.group 1) none) ∧
      (∀ a ∈ ready.tids.filterMap (wgWith waited).thread?, Due a ⟨0x800, 7, 23, true, 0⟩ 100) ∧ atHeader.ops = []) ∧
    (InRun (onGrp two (probeRun 2) none) (seenBy two (probeRun 2) none) ∧ 2 ≤ (probeRun 2).left ∧
      ∀ x, (onGrp two (probeRun 2) none).wordAfter (wgWith two) 0x10000 = some x → orphanBefore false x = false) ∧
    (InRun (onGrp two { probeRun 0 with ordinals := [[7], [8]] } none) (seenBy two { probeRun 0 with ordinals := [[7], [8]] } none) ∧
      (∀ e ∈ trailerEntries ⟨false, some ⟨11, 1⟩, none, some ⟨0, 0⟩⟩, e.ordinal < [[7], [8]].length) ∧
      (seenBy two { probeRun 0 with ordinals := [[7], [8]] } none).g.step = none ∧
      ∀ b ∈ (onGrp two { probeRun 0 with ordinals := [[7], [8]] } none).bins, b.wg = 1 → b.block ≠ 0) := by
  refine ⟨⟨⟨rfl, rfl, rfl, rfl, rfl, rfl, .inr (by decide), fun q h n => ?_⟩, ?_, rfl⟩, ⟨inRun _ _ _, by decide, ?_⟩, inRun _ _ _, by decide, rfl, noneIn _⟩
  · rcases List.mem_singleton.1 h with rfl
    exact absurd rfl n
  · intro a h
    have h : a ∈ waited := h
    simp only [waited, List.mem_cons, List.not_mem_nil, or_false] at h
    rcases h with rfl | rfl <;> exact ⟨by decide, .inr (by decide)⟩
  · intro x h
    have k : ((onGrp two (probeRun 2) none).wordAfter (wgWith two) 0x10000).all (fun x => !orphanBefore false x) = true := by decide +kernel
    rw [h] at k
    simpa using k

/-- A pending operation of thread 0 of the group. -/
def pending (k : LongKind) (d : Dst) : LongOp :=
  { id := 4, seq := 4, issuer := .group 1, wg := 1, core := 0, job := 1, pc := 0x10000, kind := k, dst := d, tids := [0], dropped := [], present := [0]
    flags := [11], after := [], issued := 50, sent := false, got := [], own := [], held := none, checked := true }
/-- A package with it, its thread counting it in flag 11. -/
def opPkg (k : LongKind) : State :=
  { onGrp [{ thr 0 with flags := [(11, 1)] }] (runOf 0) none with turn := none, ops := [pending k (.x 127)] }
/-- A thread parked by `waitv` at 0x20000 until it holds 1. -/
def park : WaitvPark :=
  { va := 0x20000, width := 8, signed := true, cond := .eq, operand := 1, timeout := 50, since := 50, read := 50, lastRead := some 0, dst := 127, op := 4 }
/-- A package with it, and `x` at that place. -/
def parkPkg (x : Nat) : State :=
  { opPkg .waitv with mem := memPut pages 0x20000 8 x, wgs := [wgWith [{ thr 0 with place := .waitv park }]], groups := [] }

theorem bytesOf {x : Found} (h : (match x with | .bytes .. => true | _ => false) = true) : ∃ l u, x = .bytes l u := by
  cases x with
  | bytes l u => exact ⟨l, u, rfl⟩
  | _ => cases h

/-- What a reread of the parked thread asks for; its location satisfies the condition or not. -/
def Rereads (s : State) (holds : Bool) : Prop :=
  ∃ g o m l u, Parked s 1 0 g park o ∧ o.sent = false ∧ s.clear o.after = true ∧
    checkAccess s (s.wgAccessor g) (loadRule park.width) o.checked park.va park.width = .ok m ∧
    (m.refresh g.core).loadAt (s.wgAccessor g) (o.reader false) true park.va park.width = .bytes l u ∧ park.holds (leNat l) = holds ∧
    MayFile s g 0

theorem rereads (x : Nat) (holds : Bool) (h : (match checkAccess (parkPkg x) ((parkPkg x).wgAccessor (wgWith [{ thr 0 with place := .waitv park }]))
      (loadRule 8) true 0x20000 8 with
    | .ok m => match (m.refresh 0).loadAt ((parkPkg x).wgAccessor (wgWith [{ thr 0 with place := .waitv park }]))
        ((pending .waitv (.x 127)).reader false) true 0x20000 8 with
      | .bytes l _ => park.holds (leNat l) == holds
      | _ => false
    | .error _ => false) = true) (f : (parkPkg x).threadFrozen 1 0 = false) : Rereads (parkPkg x) holds := by
  generalize e : checkAccess _ _ _ _ _ _ = a at h
  cases a with
  | error _ => cases h
  | ok m =>
    dsimp only at h
    generalize e' : State.loadAt _ _ _ _ _ _ = b at h
    cases b with
    | bytes l u => exact ⟨_, _, m, l, u, ⟨rfl, rfl, rfl, rfl, f, rfl, rfl⟩, rfl, rfl, e, e', by simpa using h, noneIn _, by decide⟩
    | _ => cases h

/-- A load that is ready to complete. -/
def loading : LongOp := pending (.load 0x20000 8 true false) (.x 127)

theorem witness_CompletionEvents :
    (MayComplete (opPkg (.value 3 0xFF .d)) (pending (.value 3 0xFF .d) (.x 127)) ∧
      (opPkg (.value 3 0xFF .d)).opFrozen (pending (.value 3 0xFF .d) (.x 127)) = false) ∧
    (∃ m l u, MayComplete (opPkg loading.kind) loading ∧ (opPkg loading.kind).opCheck loading = .ok m ∧
      m.loadBehind loading = false ∧ m.loadAt loading.accessor (loading.reader false) true 0x20000 8 = .bytes l u ∧ u.opFrozen loading = false) ∧
    (MayComplete (opPkg (.load 0x50000 8 true false)) (pending (.load 0x50000 8 true false) (.x 127)) ∧
      (∀ m, (opPkg (.load 0x50000 8 true false)).opCheck (pending (.load 0x50000 8 true false) (.x 127)) ≠ .ok m) ∧
      (pending (.load 0x50000 8 true false) (.x 127)).ofUnit = false) ∧
    Rereads (parkPkg 0) false ∧ Rereads (parkPkg 1) true ∧
    (Parked (parkPkg 0) 1 0 (wgWith [{ thr 0 with place := .waitv park }]) park (pending .waitv (.x 127)) ∧ (parkPkg 0).debugStopped 1 = false ∧
      park.timeout ≠ 0 ∧ park.since + park.timeout ≤ (parkPkg 0).cyc ∧ park.lastRead = some 0 ∧
      MayFile (parkPkg 0) (wgWith [{ thr 0 with place := .waitv park }]) 0) ∧
    (∃ o, o.kind = .ttwait 3 0 0 50 [] ∧ (opPkg (.ttwait 3 0 0 50 [])).op? o.id = some o ∧ o.held = none ∧
      (opPkg (.ttwait 3 0 0 50 [])).clear o.after = true ∧ (opPkg (.ttwait 3 0 0 50 [])).opFrozen o = false ∧
      o.issued + 50 ≤ (opPkg (.ttwait 3 0 0 50 [])).cyc) := by
  refine ⟨⟨⟨rfl, rfl, rfl, rfl⟩, by decide +kernel⟩, ?_, ⟨⟨rfl, rfl, rfl, rfl⟩, ?_, rfl⟩, rereads _ _ (by decide +kernel) (by decide +kernel),
    rereads _ _ (by decide +kernel) (by decide +kernel), ⟨⟨rfl, rfl, rfl, rfl, by decide +kernel, rfl, rfl⟩, by decide +kernel, by decide, by decide, rfl, noneIn _, by decide⟩,
    ⟨pending (.ttwait 3 0 0 50 []) (.x 127), rfl, rfl, rfl, rfl, by decide +kernel, by decide⟩⟩
  · have h : (match (opPkg loading.kind).opCheck loading with
      | .ok m => match m.loadAt loading.accessor (loading.reader false) true 0x20000 8 with
        | .bytes _ u => !u.opFrozen loading && !m.loadBehind loading
        | _ => false
      | .error _ => false) = true := by decide +kernel
    generalize e : (opPkg loading.kind).opCheck loading = a at h
    cases a with
    | error _ => cases h
    | ok m =>
      dsimp only at h
      generalize e' : State.loadAt _ _ _ _ _ _ = b at h
      cases b with
      | bytes l u =>
        have h : u.opFrozen loading = false ∧ m.loadBehind loading = false := by simpa using h
        exact ⟨m, l, u, ⟨rfl, rfl, rfl, rfl⟩, rfl, h.2, e', h.1⟩
      | _ => cases h
  · intro m h
    have k : (match (opPkg (.load 0x50000 8 true false)).opCheck (pending (.load 0x50000 8 true false) (.x 127)) with
      | .ok _ => true | .error _ => false) = false := by decide +kernel
    rw [h] at k
    cases k

/-- Bin 15 of partition 0 with both live threads of the block, filed at clk `filed`. -/
def binOf (filed : Nat) (all : Bool) : Bin :=
  { core := 0, part := 0, index := 15, wg := 1, block := 0, pc := 0x10000, lanes := [0, 1], filed, last := filed, all, held := 0 }
/-- Its workgroup and package. -/
def binnedWg : Workgroup := wgWith [{ thr 0 with place := .bin }, { thr 1 with place := .bin }]
def binPkg (b : Bin) : State := { package [] with wgs := [binnedWg], bins := [b] }

theorem witness_DrawEvents :
    (Drawable (binPkg (binOf 99 false)) 0 0 15 (binOf 99 false) binnedWg probeRegion ∧ (binOf 99 false).lanes.length = (binnedWg.liveOf 0).length) ∧
    (Drawable (binPkg (binOf 36 false)) 0 0 15 (binOf 36 false) binnedWg probeRegion ∧ (binOf 36 false).filed + ageOf probeRegion + 0 = 100 ∧
      (binPkg (binOf 36 false)).frozenAt binnedWg 0 100 = false) ∧
    ((binPkg (binOf 36 true)).bin? 0 0 15 = some (binOf 36 true) ∧ (binOf 36 true).all = true) ∧
    (∃ g w, ({ onGrp two (runOf 0) none with cyc := 4097, groups := [{ ready with lanes := [0, 1], since := 0 }] } : State).group? 1 = some g ∧
      ({ onGrp two (runOf 0) none with cyc := 4097, groups := [{ ready with lanes := [0, 1], since := 0 }] } : State).wg? g.wg = some w ∧
      g.id = 1 ∧ g.run = none ∧ g.stop = none ∧ g.filing = none ∧ g.parked = false ∧ g.lifted = false ∧ g.since + g.held + 4096 < 4097 ∧
      ({ onGrp two (runOf 0) none with cyc := 4097, groups := [{ ready with lanes := [0, 1], since := 0 }] } : State).debugStopped g.wg = false ∧
      ({ onGrp two (runOf 0) none with cyc := 4097, groups := [{ ready with lanes := [0, 1], since := 0 }] } : State).frozenAt w g.part 4097 = false) ∧
    (((package []).part 255 3).busy = none ∧ ((package []).part 255 3).frozen = none ∧ (package []).pfrz = none) :=
  ⟨⟨⟨rfl, rfl, rfl, by decide, rfl, rfl, by decide⟩, by decide⟩,
    ⟨⟨rfl, rfl, rfl, by decide, rfl, rfl, by decide⟩, by decide, by decide +kernel⟩, ⟨rfl, rfl⟩,
    ⟨_, _, rfl, rfl, rfl, rfl, rfl, rfl, rfl, rfl, by decide, by decide +kernel, by decide +kernel⟩, rfl, rfl, rfl⟩

/-- A store of core 0 in its path, of two bytes. -/
def stored (dest : PathDest) : PathStore :=
  { seq := 3, core := 0, wg := 1, tids := [0], job := 1, dest, bytes := [⟨0x10000, 1, 0xFF, [0]⟩, ⟨0x10001, 2, 0x0F, [0]⟩], after := [], sent := false, tag := 0
    exr := none, va := 0x10000, pc := 0x10000, stepped := false }
/-- The package with it. -/
def pathPkg (dest : PathDest) : State := { onGrp two (runOf 0) none with path := [stored dest] }
/-- A boundary of core 0 at some place in the local order. -/
def boundaryAt (limit : Nat) (next : AfterBoundary) : Boundary := { id := 7, core := 0, wg := 1, tids := [1], limit, after := [], next }
/-- A full cinch line, the threads that wait at it counted. -/
def fullLine (clk : Nat) : State :=
  { package [{ thr 0 with place := .cinch 7 true 0 }] with
    cinch := List.replicate 7 CinchLine.reset ++ [⟨some 1, none, 1, [(1, 0)], some clk⟩] }

/-- Thread 1 on its way to that line, behind its boundary. -/
def crossing : State :=
  { lined [] with wgs := [wgWith [thr 0, { thr 1 with place := .cinch 7 false 7 }]], boundaries := [boundaryAt 3 (.cinch 7)] }

/-- A group's arrival at barrier register 15, behind its boundary. -/
def publishing : State :=
  { barPkg ⟨true, 2, 0, 7, 0⟩ with boundaries := [boundaryAt 3 (.arrive 15 2 7)] }
/-- A save's boundary, with a core-scope store of another workgroup still in the path. -/
def saving : State := { pathPkg .core with path := [{ stored .core with wg := 2 }], boundaries := [boundaryAt 4 .save] }

theorem witness_DrainEvents :
    (∀ d ∈ [PathDest.home, .host, .package 5], ((pathPkg d).path.filter (·.core == 0))[0]? = some (stored d) ∧
      (pathPkg d).mayDrain (stored d) = true ∧ ((stored d).bytes.map (·.pa)).Nodup ∧
      ∀ e ∈ (stored d).bytes, (pathPkg d).touch e.pa = pathPkg d) ∧
    (∃ b, ({ pathPkg .home with boundaries := [boundaryAt 3 .refresh] } : State).boundaries.find? (·.id == b.id) = some b ∧
      (∀ p ∈ (pathPkg .home).path, p.core = b.core → p.seq < b.limit → p.dest = .core) ∧
      ({ pathPkg .home with boundaries := [boundaryAt 3 .refresh] } : State).loadsUntaken b.wg b.tids b.id = false) ∧
    (∃ b p, ({ pathPkg .home with boundaries := [boundaryAt 4 .nothing] } : State).boundaries.find? (·.id == b.id) = some b ∧
      p ∈ (pathPkg .home).path ∧ p.core = b.core ∧ p.seq < b.limit ∧ p.dest ≠ .core) ∧
    (∃ l, (fullLine 53).cinch[7]? = some l ∧ l.full = some 53 ∧ (fullLine 53).cyc < 53 + 48) ∧
    (∃ l w a, (fullLine 52).cinch[7]? = some l ∧ l.full = some 52 ∧ 52 + 48 ≤ (fullLine 52).cyc ∧ (∀ b ∈ (fullLine 52).bins, b.all = false) ∧
      (1, 0) ∈ l.arrived ∧ (fullLine 52).wg? 1 = some w ∧ w.thread? 0 = some a ∧ a.place = .cinch 7 true 0) ∧
    (∃ l w a, crossing.boundaries.find? (·.id == 7) = some (boundaryAt 3 (.cinch 7)) ∧ crossing.cinch[7]? = some l ∧ l.region = some 1 ∧
      l.mask = some [0] ∧ crossing.wg? 1 = some w ∧ w.region = 1 ∧ w.core ∈ [0] ∧ crossing.thread? 1 1 = some a ∧ a.place = .cinch 7 false 7 ∧
      (1, 1) ∉ l.arrived) ∧
    (∃ p, ({ pathPkg .home with path := [{ stored .host with sent := true }] } : State).path[0]? = some p ∧ p.dest = .host ∧ p.sent = true) ∧
    (∃ w r, publishing.boundaries.find? (·.id == 7) = some (boundaryAt 3 (.arrive 15 2 7)) ∧ publishing.clear [] = true ∧
      (∀ p ∈ publishing.path, p.seq < 3 → False) ∧ publishing.wg? 1 = some w ∧ w.bars[15]? = some r ∧ r.exp = 2 ∧ r.arr + 2 = r.exp ∧
      r.arrb + 7 = r.expb ∧ ∀ a ∈ w.threads, a.place ≠ .barwait 15 r.gen) ∧
    (∃ b, saving.boundaries.find? (·.id == b.id) = some b ∧ saving.clear b.after = true ∧ b.next = .save ∧ b.wg ≠ 2 ∧ saving.path ≠ [] ∧
      ∀ p ∈ saving.path, p.dest = .core ∧ p.wg = 2) := by
  refine ⟨?_, ⟨boundaryAt 3 .refresh, rfl, by decide, by decide +kernel⟩, ⟨boundaryAt 4 .nothing, stored .home, rfl, .head _, rfl, by decide, by decide⟩,
    ⟨_, rfl, rfl, by decide⟩, ⟨_, _, _, rfl, rfl, by decide, noneIn _, by decide, rfl, rfl, rfl⟩, ⟨_, _, _, rfl, rfl, rfl, rfl, rfl, rfl, by decide, rfl, rfl, by decide⟩, ⟨_, rfl, rfl, rfl⟩,
    ⟨_, _, rfl, by decide, noneIn _, rfl, rfl, rfl, rfl, rfl, by decide⟩, boundaryAt 4 .save, rfl, by decide, rfl, by decide, by decide, by decide⟩
  intro d h
  have k : d = .home ∨ d = .host ∨ d = .package 5 := by simpa using h
  rcases k with rfl | rfl | rfl <;> exact ⟨rfl, by decide +kernel, by decide, fun e _ => by decide +revert +kernel⟩

/-- A request of another package for bytes of job 1. -/
def req (job pa : Nat) (op : PodOp) : PodRequest := { pkg := 5, job, pa, exr := none, op, tag := 9, bulk := false }
/-- A remote load of thread 0, awaiting its response. -/
def far : Remote := ⟨9, 5, 1, .op 4 0x20000, true⟩

/-- The package with package 5 in the domain table. -/
def domained : State := { package [] with domtab := 0x10005 :: List.replicate 63 0 }

theorem member5 : domained.member 5 = true := by
  unfold State.member
  rw [Bool.or_eq_true]; exact .inr (by decide +kernel)

theorem witness_PodEvents :
    ((∀ p, (req 1 0x10000 (.read 8)).op ≠ .unsupported p) ∧ (∀ k d, (req 1 0x10000 (.read 8)).op ≠ .rollCall k d) ∧
      ({ package [] with jobs := [frozenJob 0 0] } : State).packetsHeld 1 = true) ∧
    ((package []).packetsHeld 2 = false ∧ (0xBFFFFFFFFF : Nat) < 0xC000000000 ∧ ((package []).chunk (0xBFFFFFFFFF / 0x200000)).owner ≠ 2) ∧
    (domained.packetsHeld 1 = false ∧ domained.podFault (req 1 0x10000 (.read 8)) = none ∧ domained.touch 0x10000 = domained ∧
      ∀ e ∈ domained.l1, e.2.dirty = false) ∧
    (domained.podFault (req 1 0x10000 (.write [(0x10000, 1, 0xFF), (0x10001, 2, 0xFF)])) = none ∧ ([(0x10000, (1 : Byte)), (0x10001, 2)].map (·.1)).Nodup ∧
      domained.touch 0x10001 = domained) ∧
    (∃ o, ({ opPkg loading.kind with remotes := [far] } : State).remotes.find? (fun r => r.tag == 9 && r.pkg == 5) = some far ∧
      ({ opPkg loading.kind with remotes := [far] } : State).packetsHeld far.job = false ∧
      ({ opPkg loading.kind with remotes := [far] } : State).op? 4 = some o ∧ o.kind = .load 0x20000 8 true false) := by
  refine ⟨⟨by simp [req], by simp [req], by decide +kernel⟩, ⟨by decide +kernel, by decide, by decide⟩,
    ⟨by decide +kernel, ?_, by decide +kernel, noneIn _⟩, ⟨?_, by decide, by decide +kernel⟩, ⟨_, rfl, by decide +kernel, rfl, rfl⟩⟩
  · unfold State.podFault; rw [show domained.member (req 1 0x10000 (.read 8)).pkg = true from member5]; decide +kernel
  · unfold State.podFault
    rw [show domained.member (req 1 0x10000 (.write [(0x10000, 1, 0xFF), (0x10001, 2, 0xFF)])).pkg = true from member5]; decide +kernel

/-- The clk at which the first epoch ends. -/
def epochEnd (mig : W64) : State := { State.reset with cyc := 2 ^ 24, migctl := mig }

theorem witness_MigrationEvents :
    ((package []).cyc < ((package []).epoch + 1) * 2 ^ 24) ∧
    (((epochEnd 0).epoch + 1) * 2 ^ 24 ≤ (epochEnd 0).cyc ∧ (epochEnd 0).migctl.getLsbD 0 = false) ∧
    (∃ p, (epochEnd 1).migctl.getLsbD 0 = true ∧ ((epochEnd 1).chunk 393215).stack / 3 ≠ 0 ∧ ((epochEnd 1).chunk 393215).loose = true ∧
      (epochEnd 1).partnerOn 0 = some p) ∧
    (({ epochEnd 1 with migrations := [⟨393215, 0⟩] } : State).migrations.find? (·.chunk == 393215) = some ⟨393215, 0⟩ ∧ 393215 ≠ 0) :=
  ⟨by decide, ⟨by decide, by decide⟩, ⟨0, by decide, by decide, by decide, by decide +kernel⟩, rfl, by decide⟩

/-! Accesses to a page whose translation the unit holds: held or walked, they give the same page and change nothing. -/

theorem walkFrom_page {v w : Nat} (h : v / 0x10000 = w / 0x10000) : ∀ (fuel level base : Nat) (s : State), fuel + level ≤ 4 →
    s.walkFrom v fuel level base = s.walkFrom w fuel level base
  | 0, _, _, _, _ => rfl
  | n + 1, level, base, s, k => by
    have i : levelIndex level v = levelIndex level w := by
      unfold levelIndex
      have e : 2 ^ (49 - 11 * level) = 0x10000 * 2 ^ (33 - 11 * level) := by
        rw [show (0x10000 : Nat) = 2 ^ 16 from rfl, ← Nat.pow_add]
        congr 1
        omega
      rw [e, ← Nat.div_div_eq_div_mul, ← Nat.div_div_eq_div_mul, h]
    have f : ∀ w0 w1, walkEntry level w0 w1 v = walkEntry level w0 w1 w := fun w0 w1 => by
      unfold walkEntry entryFault
      rw [i]
    unfold State.walkFrom
    rw [i]
    simp only [f, fun b t => walkFrom_page h n (level + 1) b t (by omega)]

/-- The tables of a root map a page by the entry `w0` at `a`, whose A and D are set already. -/
def Mapped (s : State) (root : Nat) (p : Page) (a w0 : Nat) : Prop :=
  s.walk root p.vbase = (.ok (a, 3, w0, p.w1), s) ∧ ∀ n : Need, s.setAD a w0 n = s

/-- The translation that a unit holds of such a page. -/
def heldEntry (unit asid va : Nat) (p : Page) : TlbEntry :=
  { cluster := unit, asid, vpn := vpnOf false va, block := false, entry := p.w0 % 0x10000 + p.frame + p.w0 / 2 ^ 56 * 2 ^ 56 + p.w1 * 2 ^ 64 }

/-- Whether an access meets that page either way. -/
def fixedAt (s : State) (root : Nat) (u : Accessor) (r : PageRule) (p : Page) (a w0 : Nat) (va : Nat) : Bool :=
  canonical va && va / 0x10000 == p.vbase / 0x10000 && match u.job.bind s.job? with
  | none => false
  | some j =>
    let e := heldEntry u.unit j.asid va p
    s.tlb == [e] && tlbFits u.unit j.asid va r.need e && j.root == root && e.page va == p && p.allows r.need && s.pageFault u r p va == none &&
      !(p.exr || p.share == 1) && s.groupPage a 3 w0 p.w1 va == p &&
      (p.w0 ||| if r.need == .write || r.need == .atomic then 0x600 else 0x200) == p.w0

theorem translate_fixed {s : State} {root : Nat} {u : Accessor} {r : PageRule} {p : Page} {a w0 va : Nat} (m : Mapped s root p a w0)
    (h : fixedAt s root u r p a w0 va = true) : s.translate u r false va = .ok (p, s) := by
  unfold fixedAt at h
  rw [Bool.and_eq_true, Bool.and_eq_true, beq_iff_eq] at h
  obtain ⟨⟨hc, hv⟩, h⟩ := h
  unfold State.translate
  simp only [hc, Bool.not_true, Bool.false_eq_true, if_false]
  cases hj : u.job.bind s.job? with
  | none => rw [hj] at h; cases h
  | some j =>
    rw [hj] at h
    simp only [Bool.and_eq_true, beq_iff_eq, Bool.not_eq_true'] at h ⊢
    obtain ⟨⟨⟨⟨⟨⟨⟨⟨ht, hf⟩, rfl⟩, h1⟩, ha⟩, h2⟩, h3⟩, h4⟩, h6⟩ := h
    have hw : s.walk j.root va = (.ok (a, 3, w0, p.w1), s) := (walkFrom_page hv 4 0 _ s (by omega)).trans m.1
    have back : s.backs p va = s := by
      unfold State.backs
      simp [h3]
    have held : s.tlb.filter (tlbFits u.unit j.asid va r.need) = [heldEntry u.unit j.asid va p] := by rw [ht]; simp [hf]
    have keep : s.tlb.filter (· != heldEntry u.unit j.asid va p) ++ [heldEntry u.unit j.asid va p] = s.tlb := by rw [ht]; simp
    have afresh : s.walkAfresh u j r va = .ok (p, s) := by
      unfold State.walkAfresh
      rw [hw]
      simp only [h4, h2, m.2, back, h6]
      exact congrArg (fun x => Except.ok (p, { s with tlb := x })) keep
    rw [held]
    rcases Nat.mod_two_eq_zero_or_one (Config.freeNat s.fresh (8 * (va / 0x10000) + 3)) with k | k
    · simp only [List.length_cons, List.length_nil, Nat.zero_add, Nat.reduceAdd, k, List.getElem?_cons_zero, h1, ha, Bool.not_true,
        Bool.false_and, Bool.false_eq_true, if_false, h2]
      rw [keep]
      exact congrArg (fun x => Except.ok (p, x)) back
    · simp only [List.length_cons, List.length_nil, Nat.zero_add, Nat.reduceAdd, k]
      exact afresh

/-- Whether reading a byte zero-fills nothing. -/
def filled (s : State) (pa : Nat) : Bool := !(inHbm pa && (s.chunk (chunkOf pa)).fresh.getLsbD (pa / 0x8000 % 64))

theorem homeRead_filled {s : State} {pa n : Nat} (l : s.l1 = []) (h : filled s pa = true) : (s.homeRead none pa n).2 = s := by
  have t : s.touch pa = s := by
    unfold State.touch
    simp only [filled, Bool.not_eq_true'] at h
    simp only [h, Bool.false_eq_true, if_false]
  unfold State.homeRead
  simp only [t]
  unfold State.evictOthers
  simp [l]

/-- Whether the package's own units meet the page `p`, whichever die they name. -/
def ownAt (s : State) (root job : Nat) (n : Need) (p : Page) (a w0 : Nat) (va : Nat) : Bool :=
  ((List.range 4).all fun d => fixedAt s root (ownAccessor d job) (ownRule n) p a w0 va) && p.home va == .home &&
    filled s (p.pa va)

theorem ownPage_fixed {s : State} {root job a w0 va : Nat} {n : Need} {p : Page} (m : Mapped s root p a w0) (l : s.l1 = [])
    (h : ownAt s root job n p a w0 va = true) :
    s.ownPage job n va = .ok (p, s) ∧ p.home va = .home ∧ (s.homeRead none (p.pa va) 8).2 = s := by
  simp only [ownAt, Bool.and_eq_true, beq_iff_eq, List.all_eq_true, List.mem_range] at h
  obtain ⟨⟨h, h1⟩, h2⟩ := h
  refine ⟨?_, h1, homeRead_filled l h2⟩
  unfold State.ownPage State.ownPageBy
  simp only [translate_fixed m (h 0 (by decide)), translate_fixed m (h 1 (by decide)), translate_fixed m (h 2 (by decide)),
    translate_fixed m (h 3 (by decide))]

theorem ownWords_fixed {s : State} {root job a w0 : Nat} {p : Page} (m : Mapped s root p a w0) (l : s.l1 = []) :
    ∀ {k va : Nat}, (∀ i < k, ownAt s root job .read p a w0 (va + 8 * i) = true) →
    s.ownWords job va k = .ok ((List.range k).map fun i => w64 (s.homeNat (p.pa (va + 8 * i)) 8), s)
  | 0, _, _ => rfl
  | k + 1, va, h => by
    obtain ⟨x, b, c⟩ := ownPage_fixed m l (by simpa using h 0 (by omega))
    have ih : s.ownWords job (va + 8) k = .ok ((List.range k).map fun i => w64 (s.homeNat (p.pa (va + 8 + 8 * i)) 8), s) :=
      ownWords_fixed m l fun i hi => by
        have := h (i + 1) (by omega)
        rwa [show va + 8 * (i + 1) = va + 8 + 8 * i by omega] at this
    unfold State.ownWords State.ownNat
    simp only [x, b, c, ih]
    rw [List.range_succ_eq_map, List.map_cons, List.map_map]
    simp only [Nat.mul_zero, Nat.add_zero, State.homeNat, Except.ok.injEq, Prod.mk.injEq, List.cons.injEq, true_and, and_true]
    refine List.map_congr_left fun i _ => ?_
    simp only [Function.comp, show va + 8 * (i + 1) = va + 8 + 8 * i by omega]

/-- Whether an engine meets the page `p` at a byte. -/
def byteAt (s : State) (root : Nat) (u : Accessor) (r : PageRule) (p : Page) (a w0 : Nat) (va : Nat) : Bool :=
  fixedAt s root u r p a w0 va && s.errorIn p va 1 == none && p.home va == .home && filled s (p.pa va)

theorem gather_fixed {s : State} {near : Option Nat} {job : Nat} {u : Accessor} {r : PageRule} {got : Fetched} {use : Nat → RemoteUse} {p : Page} {root x w0 : Nat}
    (m : Mapped s root p x w0) (e : s.l1 = []) : ∀ {l : List Nat} {a : List Byte}, (∀ va ∈ l, byteAt s root u r p x w0 va = true) →
      s.gather near job u r got use l a [] = .bytes (a ++ l.flatMap fun va => (s.homeRead none (p.pa va) 1).1) s
  | [], a, _ => by simp [State.gather]
  | va :: l, a, h => by
    have k := h va (.head _)
    simp only [byteAt, Bool.and_eq_true, beq_iff_eq] at k
    obtain ⟨⟨⟨k1, k2⟩, k3⟩, k4⟩ := k
    unfold State.gather
    simp only [translate_fixed m k1, k2, k3, homeRead_filled e k4, Bool.false_eq_true, if_false]
    cases near <;> simp only [gather_fixed m e fun v hv => h v (.tail _ hv), List.flatMap_cons, List.append_assoc]

/-- The RCB of a leaf of one workgroup of 32 threads under a node at 0x3000. -/
def leafWords : List W64 :=
  [0x0301000000000000, 0x3000, 0, 0, 0, 0, 0, 0, 0x10000, 0, 0x100000001, 1, 0x400820, 0x1010401080] ++ List.replicate 18 0
/-- The live node of job 1. -/
def rootNode : Region :=
  { probeRegion with va := 0x3000, words := 0x0101000000000001 :: List.replicate 31 0, parent := none, state := 2 }
/-- Its bytes at 0x20000 that are not 0. -/
def leafBytes : Sparse Byte :=
  [(0x20006, 0x01), (0x20007, 0x03), (0x20009, 0x30), (0x20042, 0x01), (0x20050, 0x01), (0x20054, 0x01), (0x20058, 0x01), (0x20060, 0x20),
    (0x20061, 0x08), (0x20062, 0x40), (0x20068, 0x80), (0x20069, 0x10), (0x2006A, 0x40), (0x2006B, 0x10), (0x2006C, 0x10)]
/-- The page at 0x20000. -/
def deskPage : Page := { frame := 0x20000, vbase := 0x20000, bytes := 0x10000, w0 := 0x2065D, w1 := 0 }
/-- A package of a job whose own units hold the translation of 0x20000, where some bytes stand. -/
def desk (l : Sparse Byte) : State :=
  { State.reset with
    cyc := 100, seq := 9, mem := l ++ pages, chunks := [(0, { chunkReset 0 with fresh := 0, owner := 1 })], jobs := [probeJob], regions := [rootNode]
    tlb := [⟨96, 1, 2, false, 0x2065D⟩], kernels := [⟨1, 0x10000, []⟩], controls := [], cores := [], procs := [] }
/-- The package with a launch of that leaf waiting. -/
def launching : State := { desk leafBytes with launches := [⟨.queue 0, 1, 0x20000, false, 0⟩] }

theorem mapped {s : State} {root a w0 : Nat} {p : Page}
    (h : (match s.walk root p.vbase with | (.ok x, t) => x == (a, 3, w0, p.w1) && t == s | _ => false) = true) (r : s.setAD a w0 .read = s)
    (w : s.setAD a w0 .write = s) : Mapped s root p a w0 :=
  ⟨by rcases e : s.walk root p.vbase with ⟨_ | _, _⟩ <;> rw [e] at h <;> simp_all, fun n => by cases n <;> first | exact r | exact w⟩

theorem desk_mapped : Mapped (desk leafBytes) 0x100000 deskPage 0x130020 0x2065D := mapped (by decide +kernel) (by decide +kernel) (by decide +kernel)

theorem desk_launch : (∀ i < 32, ownAt (desk leafBytes) 0x100000 1 .read deskPage 0x130020 0x2065D (0x20000 + 8 * i) = true) ∧
    ownAt (desk leafBytes) 0x100000 1 .write deskPage 0x130020 0x2065D 0x20000 = true ∧ ownAt (desk leafBytes) 0x100000 1 .read deskPage 0x130020 0x2065D 0x200FF = true ∧
    ownAt (desk leafBytes) 0x100000 1 .write deskPage 0x130020 0x2065D 0x200FF = true := by decide +kernel

theorem desk_words : (List.range 32).map (fun i => w64 ((desk leafBytes).homeNat (deskPage.pa (0x20000 + 8 * i)) 8)) = leafWords := by decide +kernel

theorem desk_forget : ({ launching with launches := launching.launches.eraseIdx 0 } : State).forget 1 0x20000 = desk leafBytes := by decide +kernel

theorem desk_erase : ({ launching with launches := launching.launches.eraseIdx 0 } : State) = desk leafBytes := by decide +kernel

theorem launch_reads : (desk leafBytes).ownWords 1 0x20000 32 = .ok (leafWords, desk leafBytes) := by
  rw [ownWords_fixed desk_mapped rfl desk_launch.1, desk_words]

theorem launch_reaches : (desk leafBytes).rcbReachable 1 0x20000 = true := by
  have a := ownPage_fixed desk_mapped rfl (desk_launch.1 0 (by decide))
  have b := ownPage_fixed desk_mapped rfl desk_launch.2.1
  have c := ownPage_fixed desk_mapped rfl desk_launch.2.2.1
  have d := ownPage_fixed desk_mapped rfl desk_launch.2.2.2
  unfold State.rcbReachable
  simp only [Nat.mul_zero, Nat.add_zero] at a
  simp only [a.1, b.1, a.2.1, show 0x20000 + 255 = 0x200FF from rfl, c.1, d.1, c.2.1, Bool.and_self]

/-- A leaf whose one workgroup has not started, under the live node of the job. -/
def fresh1 : Region := { probeRegion with id := 2, words := leafWords, parent := some 1, state := 1, nextW := 0 }
/-- The package of that leaf. -/
def queuedPkg : State := { package [] with wgs := [], regions := [rootNode, fresh1], controls := [], cores := [], procs := [] }
/-- A workgroup that is being saved, or has still to stop. -/
def savingPkg (r : Residence) : State := { package [] with wgs := [{ wgWith two with residence := r }] }

theorem witness_PlacementEvents :
    (({ launching with jobs := [frozenJob 0 0] } : State).launches[0]? = some ⟨.queue 0, 1, 0x20000, false, 0⟩ ∧
      ({ launching with jobs := [frozenJob 0 0] } : State).launchWaits ⟨.queue 0, 1, 0x20000, false, 0⟩ = true) ∧
    (∃ l x a u, launching.launches[0]? = some ⟨.queue 0, 1, 0x20000, false, 0⟩ ∧ launching.launchWaits ⟨.queue 0, 1, 0x20000, false, 0⟩ = false ∧
      ({ launching with launches := launching.launches.eraseIdx 0 } : State).rcbReachable 1 0x20000 = true ∧
      (({ launching with launches := launching.launches.eraseIdx 0 } : State).forget 1 0x20000).ownWords 1 0x20000 32 = .ok (l, x) ∧
      (({ launching with launches := launching.launches.eraseIdx 0 } : State).forget 1 0x20000).judgeLeaf 1 0x20000 l = .ok (a, u)) ∧
    ((desk leafBytes).rcbReachable 1 0x50000 = false) ∧
    (∃ r, NoneDone { package [] with wgs := [], regions := [{ probeRegion with ended := 1 }] } ∧
      ({ package [] with wgs := [], regions := [{ probeRegion with ended := 1 }] } : State).region? 1 = some r ∧ r.id = 1 ∧ r.field 0 56 8 = 3 ∧
      1 ≤ r.state ∧ r.state ≤ 3 ∧ r.held = false ∧ r.nextW = r.total ∧ r.ended = r.total ∧
      ∀ w ∈ ({ package [] with wgs := [] } : State).wgs, w.region ≠ r.id) ∧
    (NoneDone (package two) ∧ (package two).region? 1 = some probeRegion ∧ probeRegion.ended < probeRegion.total) ∧
    (∃ c, NoneDone queuedPkg ∧ queuedPkg.requests = [] ∧ queuedPkg.queue.head? = some fresh1 ∧ queuedPkg.region? 2 = some fresh1 ∧
      queuedPkg.nextWg fresh1 = some (none, fresh1.nextW) ∧ (∀ q ∈ queuedPkg.queue, queuedPkg.unplaced q = false) ∧ queuedPkg.coreFor fresh1 fresh1.nextW (queuedPkg.fits fresh1) = some c) ∧
    (∃ w, (savingPkg (.saving 7)).wg? 1 = some w ∧ w.residence = .saving 7 ∧ (savingPkg (.saving 7)).pending 7 = false ∧
      (savingPkg (.saving 7)).unitFrozen ((savingPkg (.saving 7)).jobOf w) = false) ∧
    ({ savingPkg (.saving 7) with ctxsize := Config.contextBytes 1 } : State).savedBytes + Config.contextBytes 1 ≤ Config.contextBytes 1 ∧
    (∃ w, (savingPkg .leaving).wg? 1 = some w ∧ w.residence = .leaving ∧ (savingPkg .leaving).stoppedForSave w = true) := by
  have f := desk_forget
  have j : ∃ a u, (desk leafBytes).judgeLeaf 1 0x20000 leafWords = .ok (a, u) := ok2Of (by decide +kernel)
  obtain ⟨a, u, j⟩ := j
  refine ⟨⟨rfl, by decide +kernel⟩, ⟨leafWords, desk leafBytes, a, u, rfl, by decide +kernel, ?_, ?_, ?_⟩, by decide +kernel,
    ⟨_, by unfold NoneDone; exact noneIn _, rfl, rfl, by decide, by decide, by decide, rfl, by decide, by decide, noneIn _⟩,
    ⟨by unfold NoneDone; decide +kernel, rfl, by decide⟩,
    ⟨0, by unfold NoneDone; exact noneIn _, rfl, by decide +kernel, rfl, by decide +kernel, by decide +kernel, by decide +kernel⟩,
    ⟨_, rfl, rfl, by decide +kernel, by decide +kernel⟩, ?_, ⟨_, rfl, rfl, by decide +kernel⟩⟩
  · rw [desk_erase]; exact launch_reaches
  · rw [f]; exact launch_reads
  · rw [f]; exact j
  · exact Nat.le_of_eq (Nat.zero_add _)

/-- A pending event of no unit for control core 63. -/
def rising : PendingEvent := { control := 63, event := probeEvent, unit := none }
/-- A package whose control core 63 has `n` events queued. -/
def eventPkg (n : Nat) : State :=
  { package [] with events := [rising], controls := List.replicate 63 Control.reset ++ [{ Control.reset with queue := List.replicate n probeEvent }] }
/-- A control core whose handling has lasted as long as its watchdog allows. -/
def late (retried : Bool) : Control := { Control.reset with current := some probeEvent, watch := 50, ccwdog := 50, retried }

theorem witness_ControlEvents :
    (∃ c, (eventPkg 63).events[0]? = some rising ∧ rising.unit = none ∧ (eventPkg 63).control? 63 = some c ∧ c.queue.length < 64 ∧
      ∀ a ∈ c.queue, a.clk ≠ (eventPkg 63).cyc) ∧
    (∃ c, (eventPkg 64).control? 63 = some c ∧ 64 ≤ c.queue.length) ∧
    (∃ c e r, (eventPkg 1).control? 63 = some c ∧ c.trapped = false ∧ c.current = none ∧ c.queue = e :: r) ∧
    ((onCore (late false)).control? 0 = some (late false) ∧ (late false).current = some probeEvent ∧
      (late false).watch + (late false).ccwdog.toNat ≤ (onCore (late false)).cyc ∧ (late false).retried = false) ∧
    ((late true).retried = true ∧ (late true).queue = [] ∧
      ((onCore { late true with current := some { probeEvent with words := [0xFFE000000000] } }).proc? (0xFFE000 % 32)).isSome = true ∧
      (0xFFE000 : Nat) = (0xFFE000000000 : W64).toNat / 2 ^ 24 % 2 ^ 24) ∧
    (inHbm 0xBFFFFFFFFF = true ∧ (package []).job? ((package []).chunk (0xBFFFFFFFFF / 0x200000)).owner = none ∧
      ∀ e ∈ (package []).errors, e.1 ≠ 0xBFFFFFFFFF) ∧
    (∃ j r, inHbm 0x10000 = true ∧ ({ package [] with regions := [rootNode] } : State).job? ((package []).chunk (0x10000 / 0x200000)).owner = some j ∧
      ({ package [] with regions := [rootNode] } : State).region? j.region = some r ∧ r.parent = none) ∧
    ((255 < 256) ∧ (1 : W64).getLsbD 0 = true) ∧
    ((2 : W64).toNat ≤ 2 ∧ ∀ c ∈ (package []).chunks, c.2.exr = false) ∧
    (∃ c, c ∈ ({ package [] with chunks := [(0, { chunkReset 0 with exr := true })] } : State).chunks ∧ c.2.exr = true) :=
  ⟨⟨_, rfl, rfl, rfl, by decide, by decide⟩, ⟨_, rfl, by decide⟩, ⟨_, _, _, rfl, rfl, rfl, rfl⟩, ⟨rfl, rfl, by decide, rfl⟩,
    ⟨rfl, rfl, by decide, by decide⟩, ⟨by decide, by decide +kernel, by decide⟩, ⟨_, _, by decide, rfl, rfl, rfl⟩, ⟨by decide, by decide⟩,
    ⟨by decide, by decide⟩, ⟨_, .head _, rfl⟩⟩

/-- A leaf of eight workgroups, two of them started. -/
def wide : Region := { probeRegion with words := probeRegion.words.set 10 0x100000008, nextW := 2 }
/-- A queued matrix instruction. -/
def matrixOp (m : MatrixWork) (step : Nat) (regs : List W64) : MatrixOp :=
  { instr := m, pc := 0x10000, regs := regs ++ [0, 0, 0], rnd := 0, flush := 0, step, got := [] }
/-- A stream whose oldest one it is. -/
def stepping (q : MatrixOp) : Stream := { running with queue := [q] }
/-- Its workgroup. -/
def stepWg (x : Stream) : Workgroup := { wgWith two with stream := some x }
/-- The workgroup next to it. -/
def receiver (y : Stream) : Workgroup := { wgWith [] with id := 2, w := 1, core := 1, stream := some y }
/-- A package of both. -/
def stepPkg (x y : Stream) : State := { package [] with regions := [wide], wgs := [stepWg x, receiver y] }
/-- A contribution from workgroup 0 to workgroup 1 of the leaf. -/
def sent0 : Contribution := { region := 1, src := 0, dst := 1, tile := 0, vals := [] }
/-- A sender that offers it, and a receiver that expects workgroups 0 and 5. -/
def sender : Stream := { running with outbound := some sent0 }
def expecting : Stream := { running with lists := [⟨0, [0, 5], 0, 15, 0, 0⟩] }

/-- What the clauses about steps of the engine ask. -/
def Due1 (x : Stream) (q : MatrixOp) (fault : Option (Nat × Nat × Nat)) : Prop :=
  StepDue (stepPkg x running) (stepWg x) x wide q [] ∧ (q.step = 0 → (stepPkg x running).matrixCheck (stepWg x) wide q = fault)

theorem due1 {x : Stream} {q : MatrixOp} {fault : Option (Nat × Nat × Nat)} (a : x.queue = [q]) (b : (stepPkg x running).engineRuns (stepWg x) x = true)
    (c : ∀ l ∈ x.lists, l.tile ∉ q.instr.tiles) (d : (stepPkg x running).matrixCheck (stepWg x) wide q = fault)
    (e : (stepPkg x running).torn 1 q.reads = false := by decide) (f : q.upsetCheck (stepWg x) = none := by decide) : Due1 x q fault :=
  ⟨⟨rfl, rfl, rfl, a, b, c, e, f⟩, fun _ => d⟩

theorem witness_MatrixEvents :
    Due1 (stepping (matrixOp (.mzero 3 1) 63 [])) (matrixOp (.mzero 3 1) 63 []) none ∧
    (Due1 (stepping (matrixOp (.drainPeer 0 3) 0 [1])) (matrixOp (.drainPeer 0 3) 0 [1]) none ∧ running.outbound = none) ∧
    Due1 { stepping (matrixOp (.drainPeer 0 3) 0 [1]) with outbound := some sent0 } (matrixOp (.drainPeer 0 3) 0 [1]) none ∧
    (Due1 (stepping (matrixOp (.expect 0 3 15 2) 0 [0x500000001, 0, 0, 0])) (matrixOp (.expect 0 3 15 2) 0 [0x500000001, 0, 0, 0]) none ∧
      running.buffered = []) ∧
    Due1 (stepping (matrixOp (.unpin 3) 0 [])) (matrixOp (.unpin 3) 0 []) none ∧
    (Due1 (stepping (matrixOp (.mzero 4 1) 0 [])) (matrixOp (.mzero 4 1) 0 []) (some (8, 0, 0)) ∧ (matrixOp (.mzero 4 1) 0 []).step = 0) ∧
    (Offering (stepPkg sender running) (stepWg sender) sender sent0 (receiver running) running ∧ offers 1 (.peerContributionReoffer 1) ∧
      running.listFor sent0 = none ∧ (stepPkg sender running).slotsBuffered 1 < 8) ∧
    (8 ≤ (stepPkg sender { running with buffered := List.replicate 8 { sent0 with src := 5 } }).slotsBuffered 1 ∧
      Offering (stepPkg sender { running with buffered := List.replicate 8 { sent0 with src := 5 } }) (stepWg sender) sender sent0
        (receiver { running with buffered := List.replicate 8 { sent0 with src := 5 } }) { running with buffered := List.replicate 8 { sent0 with src := 5 } }) ∧
    (∃ l, Offering (stepPkg sender expecting) (stepWg sender) sender sent0 (receiver expecting) expecting ∧ expecting.listFor sent0 = some l ∧
      expecting.buffered = [] ∧ l.pos + 1 < l.sources.length) ∧
    (({ stepPkg running running with holding := [sent0] } : State).holding[0]? = some sent0 ∧
      ({ stepPkg running running with holding := [sent0] } : State).unitFrozen 1 = false ∧
      ({ stepPkg running running with holding := [sent0] } : State).wgs.find? (fun g => g.region == 1 && g.w == 1) = some (receiver running)) := by
  have o : ∀ y, (stepPkg sender y).unitFrozen 1 = false := fun y => by rfl
  refine ⟨due1 rfl (by decide +kernel) (noneIn _) (by decide +kernel), ⟨due1 rfl (by decide +kernel) (noneIn _) (by decide +kernel), rfl⟩,
    due1 rfl (by decide +kernel) (noneIn _) (by decide +kernel), ⟨due1 rfl (by decide +kernel) (noneIn _) (by decide +kernel), rfl⟩,
    due1 rfl (by decide +kernel) (noneIn _) (by decide +kernel), ⟨due1 rfl (by decide +kernel) (noneIn _) (by decide +kernel), rfl⟩,
    ⟨⟨⟨rfl, rfl, rfl, rfl, rfl⟩, by decide +kernel, ⟨rfl, rfl, rfl, rfl⟩, by decide⟩, .inr ⟨rfl, by decide⟩, rfl, by decide +kernel⟩,
    ⟨by decide +kernel, ⟨rfl, rfl, rfl, rfl, rfl⟩, by decide +kernel, ⟨rfl, rfl, rfl, rfl⟩, by decide⟩,
    ⟨_, ⟨⟨rfl, rfl, rfl, rfl, rfl⟩, by decide +kernel, ⟨rfl, rfl, rfl, rfl⟩, by decide⟩, rfl, rfl, by decide⟩, rfl, by decide +kernel, rfl⟩

/-- A tensor layout record of 32 bytes at 0x20080, of which a box of four is copied (Table 10.1). -/
def tlrWords : List W64 := [0x20080, 0x0100010000000000, 0, 32, 0, 0, 0, 0, 0, 0, 0, 4, 0, 0, 0, 0]
/-- Its bytes at 0x20000 that are not 0, and the four bytes it copies. -/
def tlrBytes : Sparse Byte :=
  [(0x20000, 0x80), (0x20002, 0x02), (0x2000D, 0x01), (0x2000F, 0x01), (0x20018, 0x20), (0x20058, 0x04), (0x20080, 0x01), (0x20081, 0x02),
    (0x20082, 0x03), (0x20083, 0x04)]
/-- A bulk copy by it to the start of the scratchpad. -/
def bulkOf (words : List W64) (stage : CopyStage) : Copy :=
  { halfOpen with kind := .bulk 0 1 [0] 0x20000 [0, 0, 0, 0, 0, 0] 0 words stage (0, 0) }
/-- A thread's copy of four bytes to 0x20000. -/
def outOf : Copy := { halfOpen with kind := .out 0 0x20000 0 4 none (List.replicate 4 none) [] none }
/-- A package with a copy at its engine, whose translation unit holds the page at 0x20000, where some bytes stand. -/
def copyPkg (l : Sparse Byte) (c : Copy) : State :=
  { State.reset with
    cyc := 100, seq := 9, mem := l ++ pages, chunks := [(0, { chunkReset 0 with fresh := 0, owner := 1 })], jobs := [probeJob], regions := [probeRegion]
    tlb := [⟨0, 1, 2, false, 0x2065D⟩], wgs := [wgWith two], copies := [c], controls := [], cores := [], procs := [], queues := [] }
/-- The parts of the bulk copy. -/
def bulk (words : List W64) (stage : CopyStage) : Bulk := ⟨0, 0x20000, [0, 0, 0, 0, 0, 0], 0, words, stage⟩

theorem copyBytes_fixed {s : State} {c : Copy} {near : Option Nat} {l : List Nat} {a w0 : Nat} {p : Page} (m : Mapped s 0x100000 p a w0) (e : s.l1 = [])
    (h : ∀ va ∈ l, byteAt s 0x100000 (s.copyAccessor c) copyRule p a w0 va = true) :
    s.copyBytes c near l = .bytes (l.flatMap fun va => (s.homeRead none (p.pa va) 1).1) s := by
  unfold State.copyBytes
  rw [gather_fixed m e h]
  rfl

theorem copy_mapped (l : Sparse Byte) (h : l = [] ∨ l = tlrBytes) (c : Copy) (k : c = bulkOf [] .ready ∨ c = bulkOf tlrWords .active) :
    Mapped (copyPkg l c) 0x100000 deskPage 0x130020 0x2065D := by
  rcases h with rfl | rfl <;> rcases k with rfl | rfl <;> exact mapped (by decide +kernel) (by decide +kernel) (by decide +kernel)

theorem copy_reads (l : Sparse Byte) (h : l = [] ∨ l = tlrBytes) : ∀ va ∈ (List.range 128).map (0x20000 + ·),
    byteAt (copyPkg l (bulkOf [] .ready)) 0x100000 ((copyPkg l (bulkOf [] .ready)).copyAccessor (bulkOf [] .ready)) copyRule deskPage 0x130020 0x2065D va =
      true := by
  rcases h with rfl | rfl <;> decide +kernel

theorem copy_start (l : Sparse Byte) : (copyPkg l (bulkOf [] .ready)).copyRuns (bulkOf [] .ready) = true →
    bulkOf [] .ready ∈ (copyPkg l (bulkOf [] .ready)).engineCopies 0 →
    StartDue (copyPkg l (bulkOf [] .ready)) (bulkOf [] .ready) (bulk [] .ready) (wgWith two) :=
  fun a b => ⟨rfl, rfl, rfl, rfl, rfl, a, b⟩

theorem pageHome {x : Except Nat (Page × State)} {va : Nat}
    (h : (match x with | .ok (p, _) => p.home va == .home | .error _ => false) = true) : ∃ p u, x = .ok (p, u) ∧ p.home va = .home := by
  match x, h with
  | .ok (p, u), h => exact ⟨p, u, rfl, by simpa using h⟩

theorem witness_CopyEvents :
    (∃ l m, StartDue (copyPkg [] (bulkOf [] .ready)) (bulkOf [] .ready) (bulk [] .ready) (wgWith two) ∧
      (copyPkg [] (bulkOf [] .ready)).copyBytes (bulkOf [] .ready) none ((List.range 128).map (0x20000 + ·)) = .bytes l m ∧
      (layoutOf (wordsOf 16 l)).plain (bulk [] .ready).org = false) ∧
    (∃ l m words u, StartDue (copyPkg tlrBytes (bulkOf [] .ready)) (bulkOf [] .ready) (bulk [] .ready) (wgWith two) ∧
      (copyPkg tlrBytes (bulkOf [] .ready)).copyBytes (bulkOf [] .ready) none ((List.range 128).map (0x20000 + ·)) = .bytes l m ∧
      (layoutOf (wordsOf 16 l)).plain (bulk [] .ready).org = true ∧ m.copyFormat (bulkOf [] .ready) (wordsOf 16 l) = .ok (words, u) ∧
      (layoutOf words).sized (layoutOf words).halves (bulk [] .ready).org = true ∧
      (layoutOf words).inRange (layoutOf words).halves 0 (u.share 1) = true ∧
      (layoutOf words).held = false ∧ (layoutOf words).lines (layoutOf words).halves 0 ≠ 0) ∧
    (∃ f v, LineDue (copyPkg tlrBytes (bulkOf tlrWords .active)) 0 (bulkOf tlrWords .active) (wgWith two) ∧
      (bulkOf tlrWords .active).bulk? = some (bulk tlrWords .active) ∧
      ((copyPkg tlrBytes (bulkOf tlrWords .active)).rotate 4 ((copyPkg tlrBytes (bulkOf tlrWords .active)).engineCopies 0)).copyBytes
          (bulkOf tlrWords .active) (some (wgWith two).core)
          (lineReads (lineHalves (layoutOf tlrWords) (layoutOf tlrWords).halves (bulk tlrWords .active) 0)) =
        .bytes ((lineReads (lineHalves (layoutOf tlrWords) (layoutOf tlrWords).halves (bulk tlrWords .active) 0)).map f) v ∧
      (lineReads (lineHalves (layoutOf tlrWords) (layoutOf tlrWords).halves (bulk tlrWords .active) 0)).length = 4) ∧
    (∃ s n va hi p u, LineDue s 0 outOf (wgWith two) ∧ outOf.bulk? = none ∧ outOf.outFault = none ∧ OutLine s outOf n va hi ∧
      ((s.rotate 4 (s.engineCopies 0)).mapCopy 4 fun _ => outOf.readFor (wgWith two).scr va hi).translate
        (((s.rotate 4 (s.engineCopies 0)).mapCopy 4 fun _ => outOf.readFor (wgWith two).scr va hi).copyAccessor
          (outOf.readFor (wgWith two).scr va hi)) outRule false va = .ok (p, u) ∧ p.home va = .home) := by
  have e : ∀ l (h : l = [] ∨ l = tlrBytes), (copyPkg l (bulkOf [] .ready)).copyBytes (bulkOf [] .ready) none ((List.range 128).map (0x20000 + ·)) =
      .bytes (((List.range 128).map (0x20000 + ·)).flatMap fun va => ((copyPkg l (bulkOf [] .ready)).homeRead none (deskPage.pa va) 1).1)
        (copyPkg l (bulkOf [] .ready)) := fun l h => copyBytes_fixed (copy_mapped l h _ (.inl rfl)) rfl (copy_reads l h)
  have w : wordsOf 16 (((List.range 128).map (0x20000 + ·)).flatMap fun va =>
      ((copyPkg tlrBytes (bulkOf [] .ready)).homeRead none (deskPage.pa va) 1).1) = tlrWords := by decide +kernel
  refine ⟨⟨_, _, copy_start [] (by decide +kernel) (by decide +kernel), e _ (.inl rfl), by decide +kernel⟩,
    ⟨_, _, tlrWords, copyPkg tlrBytes (bulkOf [] .ready), copy_start _ (by decide +kernel) (by decide +kernel), e _ (.inr rfl), ?_⟩,
    ⟨fun va => (((copyPkg tlrBytes (bulkOf tlrWords .active)).homeRead none (deskPage.pa va) 1).1).headD 0,
      copyPkg tlrBytes (bulkOf tlrWords .active), ⟨by decide +kernel, by decide +kernel, rfl⟩, rfl, ?_, by decide +kernel⟩, ?_⟩
  · rw [w]
    exact ⟨by decide +kernel, by rfl, by decide +kernel, by decide +kernel, by decide +kernel, by decide +kernel⟩
  · rw [show (copyPkg tlrBytes (bulkOf tlrWords .active)).rotate 4 ((copyPkg tlrBytes (bulkOf tlrWords .active)).engineCopies 0) =
      copyPkg tlrBytes (bulkOf tlrWords .active) from rfl, copyBytes_fixed (copy_mapped tlrBytes (.inr rfl) _ (.inr rfl)) rfl (by decide +kernel)]
    congr 1
  · let s : State := { copyPkg [] outOf with tlb := [] }
    obtain ⟨p, u, a, b⟩ := pageHome (x := ((s.rotate 4 (s.engineCopies 0)).mapCopy 4 fun _ => outOf.readFor (wgWith two).scr 0x20000 0x20004).translate
      (((s.rotate 4 (s.engineCopies 0)).mapCopy 4 fun _ => outOf.readFor (wgWith two).scr 0x20000 0x20004).copyAccessor
        (outOf.readFor (wgWith two).scr 0x20000 0x20004)) outRule false 0x20000) (va := 0x20000) (by decide +kernel)
    refine ⟨s, 0, 0x20000, 0x20004, p, u, ⟨by decide +kernel, by decide +kernel, rfl⟩, rfl, rfl, ?_, a, b⟩
    show outOf.outLines[Config.freeNat s.fresh (32 * outOf.id + 11) % 1]? = _
    rw [Nat.mod_one]; decide

/-- A transfer at the head of the queue of a processor. -/
def headOf (src dst bytes : W64) : Transfer :=
  { instr := .put, pc := 0x10000, regs := [src, dst, bytes, 0], dst := .k 9, step := 0, begun := false, cld := [], zeroRes := false
    plan := [], sent := false, writing := false, got := [], due := [] }
/-- The processor. -/
def moving (q : Transfer) : FabricProc := { working with queue := [q] }
/-- A package with one processor. -/
def procPkg (p : FabricProc) : State := { package [] with procs := [p], controls := [], cores := [], queues := [] }
/-- A `ttpost` of a processor that nothing precedes. -/
def posting : PendingSignal := ⟨.post true true 0 1, 0x10000, 0, 4, false⟩
/-- A wait of a processor at 0x20000 with a time limit of 50. -/
def waitAt : FWait := { dst := .k 9, va := 0x20000, pc := 0x10000, since := 50, tmo := 50, sent := false }
/-- The processor, and its package with a barrier there: count, expected count. -/
def holding1 : FabricProc := { working with wait := some waitAt }
def waitPkg (count expect : Nat) : State := { procPkg holding1 with mem := memPut (memPut pages 0x20000 8 count) 0x20008 8 expect }

theorem due {q : Transfer} (h : q.sent = false) : TransferDue (procPkg (moving q)) 0 (moving q) q [] :=
  ⟨rfl, rfl, rfl, rfl, rfl, h, rfl, rfl⟩

/-- What a recheck of the barrier meets, its count reached or not. -/
def Rechecks (s : State) (reached : Bool) : Prop :=
  ∃ g m, s.translate (procAccessor 0 1) barrierRule false 0x20000 = .ok (g, m) ∧ m.errorIn g 0x20000 64 = none ∧ g.home 0x20000 = .home ∧
    g.pa 0x20000 % 64 = 0 ∧ m.touch (g.pa 0x20000) = m ∧ (∀ e ∈ m.l1, e.2.dirty = false) ∧
    (∀ i ∈ [4, 5, 6, 7], memNat m.mem (g.pa 0x20000 + 8 * i) 8 = 0) ∧
    decide (memNat m.mem (g.pa 0x20000 + 8) 8 ≤ memNat m.mem (g.pa 0x20000) 8) = reached

theorem rechecks {s : State} {reached : Bool} (h : (match s.translate (procAccessor 0 1) barrierRule false 0x20000 with
    | .ok (g, m) => m.errorIn g 0x20000 64 == none && g.home 0x20000 == .home && g.pa 0x20000 % 64 == 0 && filled m (g.pa 0x20000) &&
      m.l1.isEmpty && [4, 5, 6, 7].all (fun i => memNat m.mem (g.pa 0x20000 + 8 * i) 8 == 0) &&
      decide (memNat m.mem (g.pa 0x20000 + 8) 8 ≤ memNat m.mem (g.pa 0x20000) 8) == reached
    | .error _ => false) = true) : Rechecks s reached := by
  generalize e : s.translate _ _ _ _ = x at h
  match x, h with
  | .ok (g, m), h =>
    simp only [Bool.and_eq_true, beq_iff_eq, List.all_eq_true, List.isEmpty_iff] at h
    obtain ⟨⟨⟨⟨⟨⟨h1, h2⟩, h3⟩, h4⟩, h5⟩, h6⟩, h7⟩ := h
    refine ⟨g, m, e, h1, h2, h3, ?_, by rw [h5]; exact noneIn _, h6, h7⟩
    unfold State.touch
    simp only [filled, Bool.not_eq_true'] at h4
    simp only [h4, Bool.false_eq_true, if_false]

/-- A contribution to the open slot, and a message to the processor. -/
def contributed (epoch index : Nat) : RootContribution := ⟨5, 3, 1, 0, 0, epoch, index, 7⟩
def mail : FabricMessage := ⟨5, 3, 1, 0, 15, [1, 2, 3, 4, 5, 6, 7, 8]⟩
/-- A processor whose channel 15 is full. -/
def fullChannel : FabricProc := { working with channels := [(15, List.replicate 8 [1, 2, 3, 4, 5, 6, 7, 8])] }
/-- A processor whose slot 0 has reached its limit. -/
def lateSlot : FabricProc := { rooted with slots := ⟨some { slot0 with limit := 50, since := 50 }, none⟩ :: List.replicate 15 ⟨none, none⟩ }

/-- A processor that waits behind a checkpoint. -/
def cutAt : FabricProc := { holding1 with queue := [{ headOf 0 0 0 with instr := .ckpt }] }

theorem witness_FabricEvents :
    ((procPkg cutAt).proc? 0 = some cutAt ∧ ∃ q ∈ cutAt.queue, q.instr = .ckpt) ∧
    (TransferDue (procPkg (moving (headOf 0x10000 0x20000 64))) 0 (moving (headOf 0x10000 0x20000 64)) (headOf 0x10000 0x20000 64) [] ∧
      (headOf 0x10000 0x20000 64).reg 0 % 4 = 0 ∧ (headOf 0x10000 0x20000 64).reg 1 % 4 = 0 ∧ (headOf 0x10000 0x20000 64).reg 2 % 4 = 0 ∧
      (headOf 0x10000 0x20000 64).reg 2 ≤ 2 ^ 30 ∧ (headOf 0x10000 0x20000 64).reg 2 ≠ 0) ∧
    (TransferDue (procPkg (moving (headOf 4 8 0))) 0 (moving (headOf 4 8 0)) (headOf 4 8 0) [] ∧ (headOf 4 8 0).reg 2 = 0) ∧
    (TransferDue (procPkg (moving (headOf 2 8 4))) 0 (moving (headOf 2 8 4)) (headOf 2 8 4) [] ∧ (headOf 2 8 4).reg 0 % 4 ≠ 0) ∧
    ((procPkg { working with signals := [posting] }).proc? 0 = some { working with signals := [posting] } ∧ working.job.isSome = true ∧
      (procPkg { working with signals := [posting] }).unitHeld 1 (.fabric 0) = false ∧
      [posting].find? ((procPkg { working with signals := [posting] }).signalDue 0) = some posting) ∧
    (Waits (procPkg holding1) 0 holding1 waitAt ∧ waitAt.tmo ≠ 0 ∧ waitAt.since + waitAt.tmo ≤ (procPkg holding1).cyc) ∧
    (Waits (waitPkg 3 3) 0 holding1 waitAt ∧ Rechecks (waitPkg 3 3) true) ∧ (Waits (waitPkg 2 3) 0 holding1 waitAt ∧ Rechecks (waitPkg 2 3) false) ∧
    ({ procPkg working with jobs := [frozenJob 0 0] } : State).packetsHeld mail.job = true ∧
    ((procPkg working).packetsHeld mail.job = false ∧ (procPkg working).channelWaits mail = false ∧ (procPkg working).proc? mail.proc = some working ∧
      working.job = some mail.job ∧ (sget [] working.channels mail.channel).length < 8) ∧
    ((procPkg fullChannel).channelWaits mail = false ∧ (procPkg fullChannel).proc? mail.proc = some fullChannel ∧ fullChannel.job = some mail.job ∧
      8 ≤ (sget [] fullChannel.channels mail.channel).length) ∧
    ((procPkg { working with job := some 2 }).packetsHeld 1 = false ∧ (procPkg { working with job := some 2 }).waiting = [] ∧
      ({ working with job := some 2 } : FabricProc).job ≠ some mail.job) ∧
    (∃ r, (procPkg working).packetsHeld 1 = false ∧ (procPkg working).waiting = [] ∧ working.slots[0]? = some r ∧ r.active = none ∧
      r.closed = none ∧ working.pool.length < 1024 ∧ working.job = some 1) ∧
    (∃ r, (procPkg rooted).packetsHeld 1 = false ∧ (procPkg rooted).proc? 0 = some rooted ∧ rooted.slots[0]? = some r ∧ r.active = some slot0 ∧
      slot0.epoch = (contributed 0 1).epoch ∧ (contributed 0 1).index < slot0.n ∧ (contributed 0 1).index ∉ slot0.applied ∧
      slot0.applied.length + 1 < slot0.n ∧ (contributed 0 0).index ∈ slot0.applied) ∧
    ∃ r a, (procPkg lateSlot).proc? 0 = some lateSlot ∧ lateSlot.slots[0]? = some r ∧ r.active = some a ∧ a.limit ≠ 0 ∧
      a.since + a.limit ≤ (procPkg lateSlot).cyc ∧ (procPkg lateSlot).unitFrozen 1 = false ∧ a.bitmap = none ∧ (procPkg lateSlot).waiting = [] := by
  refine ⟨⟨rfl, _, .head _, rfl⟩, ⟨due rfl, by decide, by decide, by decide, by decide, by decide⟩, ⟨due rfl, by decide⟩, ⟨due rfl, by decide⟩,
    ⟨rfl, rfl, by decide +kernel, by decide +kernel⟩, ⟨⟨rfl, rfl, rfl, rfl, rfl, nofun⟩, by decide, by decide⟩,
    ⟨⟨rfl, rfl, rfl, rfl, rfl, nofun⟩, rechecks (by decide +kernel)⟩, ⟨⟨rfl, rfl, rfl, rfl, rfl, nofun⟩, rechecks (by decide +kernel)⟩, by decide +kernel,
    ⟨by decide +kernel, rfl, rfl, rfl, by decide⟩, ⟨rfl, rfl, rfl, by decide⟩, ⟨by decide +kernel, rfl, by decide⟩,
    ⟨_, by decide +kernel, rfl, rfl, rfl, rfl, by decide, rfl⟩, ⟨_, by decide +kernel, rfl, rfl, rfl, rfl, by decide, by decide, by decide, by decide⟩,
    ⟨_, _, rfl, rfl, rfl, by decide, by decide, rfl, rfl, rfl⟩⟩


/-- A package of the job `j`. -/
def bellPkg (j : Job) : State := { package [] with jobs := [j], controls := [], cores := [], procs := [] }
/-- A queue whose packet resumes Bell 1 of job 1. -/
def resuming : Queue := { Queue.reset with packet := some ⟨[0x100090000, 1, 0, 0, 0, 0, 0, 0], 4, true⟩ }
/-- The package of a job without a BCB, whose command processor resumes its Bell. -/
def resumePkg (stage shown : Nat) : State := { bellPkg (frozenJob stage shown) with queues := [resuming] }
/-- A BCB copy with a fan-out to package 5, a root and a time limit (Table 16.1). -/
def bcbOf (root limit : Nat) : List W64 := [0x0000000200000001, 0, BitVec.ofNat 64 (root * 2 ^ 32 + limit), 0, 5, 0, 0, 0]
/-- A job with it, at the root and away from it. -/
def rootJob : Job := { frozenJob 0 0 with bcb := some (bcbOf Config.pkg.toNat 1), hstate := 1, hseq := 1, headed := false }
def memberJob : Job := { frozenJob 0 0 with bcb := some (bcbOf (if Config.pkg = 0 then 1 else 0 : W64).toNat 1) }
/-- A Bell of job 1, received. -/
def bellOf (seq : Nat) : BellPacket := ⟨1, seq, 5, 3⟩

theorem rootIs {j : Job} {n : Nat} (b : j.bcb = some (bcbOf n 1)) (h : n < 2 ^ 16) :
    j.atRoot = (n == Config.pkg.toNat) ∧ ((j.bcb.getD []).getD 2 0).toNat % 2 ^ 32 = 1 := by
  unfold Job.atRoot Job.rootPkg Job.bcbField
  simp only [b, bcbOf, Option.getD_some, Option.isSome_some, Bool.true_and, List.getD_cons_succ, List.getD_cons_zero, BitVec.toNat_ofNat]
  exact ⟨congrArg (· == Config.pkg.toNat) (by omega), by omega⟩

theorem thisRoot : rootJob.atRoot = true ∧ ((rootJob.bcb.getD []).getD 2 0).toNat % 2 ^ 32 = 1 := by
  have h := rootIs (j := rootJob) rfl Config.pkg.isLt
  exact ⟨h.1.trans (by simp), h.2⟩

theorem otherRoot : memberJob.atRoot = false := by
  have k := otherPkg
  have l : (if Config.pkg = 0 then 1 else 0 : W64).toNat ≤ 1 := by split <;> decide
  rw [(rootIs (j := memberJob) rfl (by omega)).1, beq_eq_false_iff_ne]
  omega

theorem witness_BellEvents :
    ((bellPkg probeJob).job? 2 = none) ∧ ((bellPkg (frozenJob 0 0)).job? 1 = some (frozenJob 0 0) ∧ ¬after32 1 (frozenJob 0 0).bseq ∧
      ¬after32 (2 ^ 31 + 1) (frozenJob 0 0).bseq) ∧
    ((bellPkg probeJob).job? 1 = some probeJob ∧ after32 1 probeJob.bseq ∧ after32 (2 ^ 31 - 1) probeJob.bseq ∧ probeJob.freeze = none) ∧
    ((bellPkg memberJob).job? 1 = some memberJob ∧ memberJob.bcb.isSome = true ∧ memberJob.freeze = some (freezeAt 0 0) ∧
      (memberJob.atRoot = true → memberJob.headed = true) ∧ (freezeAt 0 0).entry = [] ∧ (freezeAt 0 0).cyc ≤ (bellPkg memberJob).cyc) ∧
    ((bellPkg rootJob).job? 1 = some rootJob ∧ rootJob.atRoot = true ∧ rootJob.freeze = some (freezeAt 0 0) ∧ rootJob.hstate = 1 ∧
      rootJob.bcb.isSome = true ∧ rootJob.headed = false ∧ (freezeAt 0 0).seq = rootJob.hseq ∧ ((rootJob.bcb.getD []).getD 2 0).toNat % 2 ^ 32 = 1 ∧
      ∃ n, (freezeAt 0 0).cyc + 1 * ({ bellPkg rootJob with cyc := n } : State).host.clock ≤ n) ∧
    (StageMay (resumePkg 0 0) (frozenJob 0 0) ∧ StageMay (bellPkg memberJob) memberJob ∧ (resumePkg 0 0).job? 1 = some (frozenJob 0 0) ∧
      (frozenJob 0 0).freeze = some (freezeAt 0 0) ∧ (freezeAt 0 0).shown = 0 ∧ (freezeAt 0 0).cyc ≤ (resumePkg 0 0).cyc ∧ (freezeAt 0 0).stage = 0) ∧
    (StageMay (resumePkg 1 0) (frozenJob 1 0) ∧ (frozenJob 1 0).freeze = some (freezeAt 1 0) ∧ (freezeAt 1 0).shown = 0 ∧
      (freezeAt 1 0).stage = 1 ∧ (resumePkg 1 0).heldPkts = []) ∧
    (StageMay (resumePkg 1 1) (frozenJob 1 1) ∧ (frozenJob 1 1).freeze = some (freezeAt 1 1) ∧ (freezeAt 1 1).shown = 1 ∧ (freezeAt 1 1).stage = 1) ∧
    (StageMay (resumePkg 2 2) (frozenJob 2 2) ∧ (resumePkg 2 2).job? 1 = some (frozenJob 2 2) ∧ (frozenJob 2 2).freeze = some (freezeAt 2 2) ∧
      (freezeAt 2 2).shown = 2 ∧ (freezeAt 2 2).stage = 2) :=
  ⟨rfl, ⟨rfl, by unfold after32; decide, by unfold after32; decide⟩, ⟨rfl, by unfold after32; decide, by unfold after32; decide, rfl⟩,
    ⟨rfl, rfl, rfl, (fun h => by rw [otherRoot] at h; cases h), rfl, by decide⟩,
    ⟨rfl, thisRoot.1, rfl, rfl, rfl, rfl, rfl, thisRoot.2,
      10000, by decide +kernel⟩,
    ⟨.inl ⟨rfl, by decide +kernel⟩, .inr ⟨rfl, otherRoot⟩, rfl, rfl, rfl, by decide, rfl⟩, ⟨.inl ⟨rfl, by decide +kernel⟩, rfl, rfl, rfl, rfl⟩,
    ⟨.inl ⟨rfl, by decide +kernel⟩, rfl, rfl, rfl⟩, ⟨.inl ⟨rfl, by decide +kernel⟩, rfl, rfl, rfl, rfl⟩⟩

/-- The Timetable of job 1 as stage 2 of a pipeline, two entries, once through, a stash of 64; `w` is its head entry (Table 16.8). -/
def headAt (w : W64 × W64) : Timetable :=
  { ticking with tcb := [0x0000024000010002, 0x30000, 0x00060005, 0, 0, 0, 0, 0], entry := some w, frdy := [(15, 3)], brdy := [(15, 3)], crf := 2
                 crb := 2, runs := [(15, (0, 4))] }
/-- The package of it. -/
def ttPkg (t : Timetable) : State := { package [] with tt := t, controls := [], cores := [], procs := [] }
/-- A message of job 1. -/
def ttMail : TtMessage := ⟨1, false, true, 15, 2⟩

/-- A head entry may be tested. -/
def HeadDue (w : W64 × W64) : Prop :=
  let s := ttPkg (headAt w)
  s.tt.state = 1 ∧ s.pfrz = none ∧ s.tt.pass < s.tt.reps ∧ s.tt.since ≤ s.cyc ∧ s.tt.entry = some w ∧ s.tt.changed < s.cyc

theorem headDue (w : W64 × W64) : HeadDue w :=
  ⟨rfl, rfl, by show 0 < fld (0x0000024000010002 : W64).toNat 16 16; decide, by show 0 ≤ 100; decide, rfl, by show 0 < 100; decide⟩

theorem witness_TimetableEvents :
    (HeadDue (4, 0) ∧ (ttEntry (4, 0)).sound = false ∧ HeadDue (0x8000000000000001, 0) ∧ (ttEntry (0x8000000000000001, 0)).sound = false) ∧
    (HeadDue (0x0000000300000001, 0x20000) ∧ (ttEntry (0x0000000300000001, 0x20000)).sound = true ∧
      (ttEntry (0x0000000300000001, 0x20000)).stage ≠ (ttPkg (headAt (0x0000000300000001, 0x20000))).tt.stg) ∧
    (HeadDue (0x0000000200000000, 0) ∧ (ttEntry (0x0000000200000000, 0)).sound = true ∧ (ttEntry (0x0000000200000000, 0)).stage = 2 ∧
      (ttEntry (0x0000000200000000, 0)).kind = 0) ∧
    (∀ w ∈ [((0x00000002020300F1 : W64), (0x20000 : W64)), (0x000000020203FCF2, 0x20000)], HeadDue w ∧ (ttEntry w).sound = true ∧
      (ttEntry w).stage = (ttPkg (headAt w)).tt.stg ∧ (ttEntry w).kind ≠ 0 ∧ (ttPkg (headAt w)).ttWaits (ttEntry w) = (false, false, false) ∧
      (ttPkg (headAt w)).tt.stashError (ttEntry w) false = false) ∧
    ((ttPkg { headAt (4, 0) with changed := 100 }).tt.entry.isSome = true ∧ (ttPkg { headAt (4, 0) with changed := 100 }).tt.changed =
      (ttPkg { headAt (4, 0) with changed := 100 }).cyc) ∧
    ((ttPkg ticking).packetsHeld ttMail.job = false ∧ (ttPkg ticking).tt.state = 1 ∧ (ttPkg ticking).tt.job = ttMail.job) ∧
    ((ttPkg Timetable.reset).tt.state = 0 ∧ (ttPkg Timetable.reset).tt.held.length < 1024) ∧
    ((ttPkg { ticking with state := 4 }).packetsHeld ttMail.job = false ∧ (ttPkg { ticking with state := 4 }).tt.state = 4) ∧
    ((ttPkg { ticking with pass := 1 }).tt.state = 1 ∧ (ttPkg { ticking with pass := 1 }).pfrz = none ∧
      (ttPkg { ticking with pass := 1 }).tt.reps ≤ (ttPkg { ticking with pass := 1 }).tt.pass ∧ (ttPkg { ticking with pass := 1 }).tt.tasks = [] ∧
      (∀ r ∈ (ttPkg { ticking with pass := 1 }).remotes, r.use ≠ .cmb none) ∧ (ttPkg { ticking with pass := 1 }).tt.tcb.getD 3 0 = 0) ∧
    (ttPkg { ticking with tasks := [⟨0, 0, 0, 0, 0x20000, some 1⟩] }).tt.tasks ≠ [] := by
  refine ⟨⟨headDue _, by decide, headDue _, by decide⟩, ⟨headDue _, by decide, by decide +kernel⟩, ⟨headDue _, by decide, by decide, by decide⟩, ?_,
    ⟨rfl, rfl⟩, ⟨by decide +kernel, rfl, rfl⟩, ⟨rfl, by decide⟩, ⟨by decide +kernel, rfl⟩, ⟨rfl, rfl, by decide, rfl, noneIn _, rfl⟩, by decide⟩
  intro w h
  have k : w = (0x00000002020300F1, 0x20000) ∨ w = (0x000000020203FCF2, 0x20000) := by simpa using h
  rcases k with rfl | rfl <;> exact ⟨headDue _, by decide, by decide +kernel, by decide, by decide +kernel, by decide +kernel⟩

/-- A package whose host interface answers, with one queue. -/
def hostPkg (q : Queue) : State :=
  { package [] with host := { State.reset.host with bootstat := 2 }, queues := [q], controls := [], cores := [], procs := [] }
/-- An enabled queue of four packets with one kicked, read `n` times. -/
def kicked (n : Nat) : Queue := { Queue.reset with en := true, qsize := 4, qkick := 1, reads := n }

theorem witness_QueueEvents :
    ((hostPkg (kicked 0)).answers = true ∧ (hostPkg (kicked 0)).queues[0]? = some (kicked 0)) ∧ (package []).answers = false ∧
    Reads (hostPkg (kicked 0)) 0 (kicked 0) true ∧ Reads { hostPkg (kicked 8) with cyc := 1000 } 0 (kicked 8) false ∧
    (∃ q, (hostPkg { kicked 0 with qbase := 0x3FFFFFFFFFFFFFC1 }).queues[0]? = some q ∧ q.due = true ∧ q.reads = 0 ∧ 2 ^ 54 ≤ q.place + 63) := by
  refine ⟨⟨rfl, rfl⟩, rfl, ⟨rfl, by decide, by decide, ?_⟩, ⟨rfl, by decide, by decide, ?_⟩, ⟨_, rfl, by decide, rfl, by decide⟩⟩
  · rfl
  · exact ⟨by decide, by decide +kernel⟩

/-- A packet with an operation for job 1 and its operands, and a queue that has it in hand. -/
def packetOf (op : Nat) (args : List Nat) (started : Bool) : QPacket :=
  ⟨(BitVec.ofNat 64 (2 ^ 32 + op * 2 ^ 16) :: args.map (BitVec.ofNat 64)) ++ List.replicate (7 - args.length) 0, 4, started⟩
def handOf (op : Nat) (args : List Nat) (started : Bool) : Queue := { Queue.reset with packet := some (packetOf op args started) }
/-- A package of a live node with a leaf under it. -/
def tree (leaf : Nat) : State :=
  { package two with regions := [rootNode, { probeRegion with id := 2, parent := some 1, state := leaf }], wgs := [{ wgWith two with region := 2 }],
                     controls := [], cores := [], queues := [] }
/-- It with a packet in the hand of its queue 0. -/
def handed (s : State) (op : Nat) (args : List Nat) (started : Bool) : State := { s with queues := [handOf op args started] }
/-- The bytes of the root's RCB of job 1, and of a TCB of one entry once through, at 0x20000. -/
def rootBytes : Sparse Byte := [(0x20000, 1), (0x20006, 1), (0x20007, 1)]
def tcbBytes : Sparse Byte := [(0x20000, 1), (0x20002, 1)]
/-- The package of the desk for one of them. -/
def deskOf (l : Sparse Byte) (op : Nat) (args : List Nat) : State :=
  { handed (desk l) op args false with regions := [], jobs := [{ probeJob with region := 9 }] }
/-- The fabric's program of job 1 starts on processor 31 with a block of 512 bytes at 0x20000. -/
def fabricOn : State :=
  { deskOf [] 5 [31, 0x10000, 0x20000, 512] with tlb := [⟨95, 1, 2, false, 0x2065D⟩], procs := List.replicate 32 FabricProc.reset }

theorem inHand (s : State) (op : Nat) (args : List Nat) (st : Bool)
    (h : ((packetOf op args st).words.getD 0 0).toNat / 2 ^ 16 % 2 ^ 8 = op ∧ ((packetOf op args st).words.getD 0 0).toNat / 2 ^ 32 % 2 ^ 32 = 1) :
    InHand (handed s op args st) 0 (handOf op args st) (packetOf op args st) op 1 := ⟨rfl, rfl, rfl, h.1, h.2⟩

theorem desk_of (l : Sparse Byte) (op : Nat) (args : List Nat) (h : l = rootBytes ∨ l = tcbBytes) (k : args = [0x100000, 1, 0x20000, 0] ∨ args = [0x20000])
    (o : op = 1 ∨ op = 6) : Mapped (deskOf l op args) 0x100000 deskPage 0x130020 0x2065D ∧
    (∀ i < 32, ownAt (deskOf l op args) 0x100000 1 .read deskPage 0x130020 0x2065D (0x20000 + 8 * i) = true) := by
  rcases h with rfl | rfl <;> rcases k with rfl | rfl <;> rcases o with rfl | rfl <;>
    exact ⟨mapped (by decide +kernel) (by decide +kernel) (by decide +kernel), by decide +kernel⟩

theorem root_reads : (deskOf rootBytes 1 [0x100000, 1, 0x20000, 0]).readRcb 1 0x20000 =
    some ((List.range 32).map fun i => w64 ((deskOf rootBytes 1 [0x100000, 1, 0x20000, 0]).homeNat (deskPage.pa (0x20000 + 8 * i)) 8),
      deskOf rootBytes 1 [0x100000, 1, 0x20000, 0]) := by
  have m := desk_of rootBytes 1 [0x100000, 1, 0x20000, 0] (.inl rfl) (.inl rfl) (.inl rfl)
  have a := ownPage_fixed m.1 rfl (m.2 0 (by decide))
  have b := ownPage_fixed m.1 rfl (va := 0x20000) (n := .write) (job := 1) (by decide +kernel)
  have c := ownPage_fixed m.1 rfl (va := 0x200FF) (n := .read) (job := 1) (by decide +kernel)
  have d := ownPage_fixed m.1 rfl (va := 0x200FF) (n := .write) (job := 1) (by decide +kernel)
  simp only [Nat.mul_zero, Nat.add_zero] at a
  have r : (deskOf rootBytes 1 [0x100000, 1, 0x20000, 0]).rcbReachable 1 0x20000 = true := by
    unfold State.rcbReachable
    simp only [a.1, b.1, a.2.1, show 0x20000 + 255 = 0x200FF from rfl, c.1, d.1, c.2.1, Bool.and_self]
  unfold State.readRcb
  rw [r, ownWords_fixed m.1 rfl m.2]
  rfl

/-- No byte that an engine meets in `p` is another package's. -/
theorem byteAt_local {s : State} {root x w0 va : Nat} {u : Accessor} {r : PageRule} {p : Page} (m : Mapped s root p x w0)
    (h : byteAt s root u r p x w0 va = true) : ∀ g n k, s.translate u r false va = .ok (g, n) → g.home va ≠ .package k := by
  simp only [byteAt, Bool.and_eq_true, beq_iff_eq] at h
  obtain ⟨⟨⟨h1, _⟩, h3⟩, _⟩ := h
  intro g n k e c
  rw [translate_fixed m h1] at e
  injection e with e
  injection e with e _
  rw [← e, h3] at c
  cases c

theorem fabric_reads : ∃ l, fabricOn.gather none 1 (procAccessor 31 1) copyRule (farBytes fabricOn 0x20000 512) (.transfer 31)
      ((List.range 512).map (0x20000 + ·)) [] [] = .bytes l fabricOn ∧ ∀ i < 512, ∀ g n k,
      fabricOn.translate (procAccessor 31 1) copyRule false (0x20000 + i) = .ok (g, n) → g.home (0x20000 + i) = .package k →
      Config.farFault fabricOn.fresh (0x20000 + i) = none := by
  have m : Mapped fabricOn 0x100000 deskPage 0x130020 0x2065D := mapped (by decide +kernel) (by decide +kernel) (by decide +kernel)
  have b : ∀ va ∈ (List.range 512).map (0x20000 + ·), byteAt fabricOn 0x100000 (procAccessor 31 1) copyRule deskPage 0x130020 0x2065D va = true := by
    decide +kernel
  exact ⟨_, gather_fixed m rfl b, fun i h g n k e c =>
    absurd c (byteAt_local m (b _ (List.mem_map.2 ⟨i, List.mem_range.2 h, rfl⟩)) g n k e)⟩

/-- The package in which job 1 is made, before and after it is listed. -/
def creating : State := deskOf rootBytes 1 [0x100000, 1, 0x20000, 0]
def before1 : State := { creating with jobs := [] }

theorem witness_PacketEvents :
    (∃ l m, InHand before1 0 (handOf 1 [0x100000, 1, 0x20000, 0] false) (packetOf 1 [0x100000, 1, 0x20000, 0] false) 1 1 ∧ before1.job? 1 = none ∧
      opnd (packetOf 1 [0x100000, 1, 0x20000, 0] false) 4 = 0 ∧
      State.readRcb { before1 with jobs := before1.jobs ++ [{ id := 1, asid := 1, root := 0x100000, region := before1.seq, bcb := none, bseq := 0
                                                              freeze := none, hstate := 0, hseq := 0, roll := [], headed := true }] } 1 0x20000 = some (l, m) ∧
      jobRcbSound 1 l = true) ∧
    (InHand (handed (tree 2) 1 [0xFFFFFFFFFFFF0000, 0xFFFF] false) 0 (handOf 1 [0xFFFFFFFFFFFF0000, 0xFFFF] false)
      (packetOf 1 [0xFFFFFFFFFFFF0000, 0xFFFF] false) 1 1 ∧ opnd (packetOf 1 [0xFFFFFFFFFFFF0000, 0xFFFF] false) 2 < 2 ^ 16 ∧
      opnd (packetOf 1 [0xFFFFFFFFFFFF0000, 0xFFFF] false) 1 % 2 ^ 16 = 0 ∧ ((handed (tree 2) 1 [] false).job? 1).isSome = true) ∧
    (∀ x ∈ [4, 2], ∃ r, InHand (handed (tree x) 2 [0x3000] false) 0 (handOf 2 [0x3000] false) (packetOf 2 [0x3000] false) 2 1 ∧
      (handed (tree x) 2 [0x3000] false).nodeAt 1 0x3000 false = some r ∧ r.id = 1 ∧ (handed (tree x) 2 [0x3000] false).subtreeOver 1 = (x == 4)) ∧
    (InHand (handed (tree 2) 3 [0x20000] false) 0 (handOf 3 [0x20000] false) (packetOf 3 [0x20000] false) 3 1 ∧ (packetOf 3 [0x20000] false).started = false) ∧
    (InHand (handed (tree 2) 4 [393214, 2, 7] false) 0 (handOf 4 [393214, 2, 7] false) (packetOf 4 [393214, 2, 7] false) 4 1 ∧
      (tree 2).job? 7 = none ∧ (393214 + 2 ≤ 393216) ∧ (∀ c, 393214 ≤ c → c < 393214 + 2 →
        (handed (tree 2) 4 [393214, 2, 7] false).chunkBusy c = false ∧ ∀ m ∈ (handed (tree 2) 4 [393214, 2, 7] false).migrations, m.partner ≠ c)) ∧
    (∃ l e, InHand fabricOn 0 (handOf 5 [31, 0x10000, 0x20000, 512] false) (packetOf 5 [31, 0x10000, 0x20000, 512] false) 5 1 ∧
      fabricOn.proc? 31 = some FabricProc.reset ∧ FabricProc.reset.job = none ∧
      fabricOn.translate (procAccessor 31 1) fetchRule false 0x10000 = .ok e ∧
      (∀ i < 512, ∀ g n k, fabricOn.translate (procAccessor 31 1) copyRule false (0x20000 + i) = .ok (g, n) →
        g.home (0x20000 + i) = .package k → Config.farFault fabricOn.fresh (0x20000 + i) = none) ∧
      fabricOn.gather none 1 (procAccessor 31 1) copyRule (farBytes fabricOn 0x20000 512) (.transfer 31)
        ((List.range 512).map (0x20000 + ·)) [] [] = .bytes l fabricOn) ∧
    (∃ l m, InHand (deskOf tcbBytes 6 [0x20000]) 0 (handOf 6 [0x20000] false) (packetOf 6 [0x20000] false) 6 1 ∧
      (deskOf tcbBytes 6 [0x20000]).tt.state = 0 ∧ (deskOf tcbBytes 6 [0x20000]).tt.held = [] ∧ (deskOf tcbBytes 6 [0x20000]).ownWords 1 0x20000 8 = .ok (l, m) ∧
      tcbSound l = true ∧ ∀ j f, m.job? 1 = some j → j.freeze = some f → 2 ≤ f.stage) ∧
    (InHand (handed (tree 2) 7 [0x3000, 1] false) 0 (handOf 7 [0x3000, 1] false) (packetOf 7 [0x3000, 1] false) 7 1 ∧
      NodeHere (handed (tree 2) 7 [0x3000, 1] false) 1 0x3000 rootNode ∧ rootNode.state < 4 ∧ (handed (tree 2) 7 [0x3000, 1] false).requests = [] ∧
      (handed (tree 2) 7 [0x3000, 1] false).chooseCore ⟨1, none, 1, []⟩ = some 0 ∧ ((handed (tree 2) 7 [0x3000, 1] false).wgsUnder 1 0).length = 1 ∧
      ({ handed (tree 2) 7 [0x3000, 1] false with wgs := [] } : State).coresUnder 1 = []) ∧
    (InHand (handed (tree 2) 8 [0xFFFF] false) 0 (handOf 8 [0xFFFF] false) (packetOf 8 [0xFFFF] false) 8 1 ∧ opnd (packetOf 8 [0xFFFF] false) 1 < 2 ^ 16) ∧
    (InHand (handed (bellPkg (frozenJob 0 0)) 9 [1] false) 0 (handOf 9 [1] false) (packetOf 9 [1] false) 9 1 ∧
      (handed (bellPkg (frozenJob 0 0)) 9 [1] false).job? 1 = some (frozenJob 0 0) ∧ opnd (packetOf 9 [1] false) 1 = (frozenJob 0 0).bseq ∧
      (frozenJob 0 0).bcb = none ∧ opnd (packetOf 9 [2] false) 1 ≠ (frozenJob 0 0).bseq) ∧
    (InHand (handed (tree 2) 10 [0x3000, 0xFFFF] false) 0 (handOf 10 [0x3000, 0xFFFF] false) (packetOf 10 [0x3000, 0xFFFF] false) 10 1 ∧
      NodeHere (handed (tree 2) 10 [0x3000, 0xFFFF] false) 1 0x3000 rootNode ∧ opnd (packetOf 10 [0x3000, 0xFFFF] false) 2 < 2 ^ 16 ∧
      opnd (packetOf 10 [0x3000, 0xFFFF] false) 3 = 0 ∧ rootNode.killable = true) ∧
    (InHand (handed (tree 2) 11 [0, 0x100] false) 0 (handOf 11 [0, 0x100] false) (packetOf 11 [0, 0x100] false) 11 1 ∧
      (handed (tree 2) 11 [0, 0x100] false).host.meas.length = 8) ∧
    (InHand (handed (tree 2) 12 [63, 0x1FFFF] false) 0 (handOf 12 [63, 0x1FFFF] false) (packetOf 12 [63, 0x1FFFF] false) 12 1 ∧
      opnd (packetOf 12 [63, 0x1FFFF] false) 1 < 64 ∧ opnd (packetOf 12 [63, 0x1FFFF] false) 2 < 2 ^ 17) ∧
    (InHand (handed (tree 2) 13 [0x200000000] false) 0 (handOf 13 [0x200000000] false) (packetOf 13 [0x200000000] false) 13 1 ∧
      opnd (packetOf 13 [0x200000000] false) 1 % 0x200000 = 0 ∧ opnd (packetOf 13 [0x200000000] false) 1 ≤ 0x200000000 ∧
      (handed (tree 2) 13 [0x200000000] false).savedBytes ≤ opnd (packetOf 13 [0x200000000] false) 1) ∧
    (InHand (handed (tree 2) 14 [] false) 0 (handOf 14 [] false) (packetOf 14 [] false) 14 1 ∧
      ∀ r ∈ (handed (tree 2) 14 [] false).queues, ∀ x, r.packet = some x → (packetOf 14 [] false).order ≤ x.order) := by
  have m := desk_of tcbBytes 6 [0x20000] (.inr rfl) (.inr rfl) (.inr rfl)
  have w := ownWords_fixed (k := 8) m.1 rfl fun i h => m.2 i (by omega)
  obtain ⟨l, e, far⟩ := fabric_reads
  refine ⟨⟨_, creating, ⟨rfl, rfl, rfl, by decide, by decide⟩, rfl, by decide, root_reads, by decide +kernel⟩,
    ⟨inHand _ _ _ _ (by decide), by decide, by decide, rfl⟩, ?_, ⟨inHand _ _ _ _ (by decide), rfl⟩,
    ⟨inHand _ _ _ _ (by decide), rfl, by decide, ?_⟩, ?_,
    ⟨_, _, ⟨rfl, rfl, rfl, by decide, by decide⟩, rfl, rfl, w, by decide +kernel, fun j f a b => by injection a with a; rw [← a] at b; cases b⟩,
    ⟨inHand _ _ _ _ (by decide), ⟨rfl, rfl, rfl⟩, by decide, rfl, by decide +kernel, by decide +kernel, by decide +kernel⟩,
    ⟨inHand _ _ _ _ (by decide), by decide⟩, ⟨inHand _ _ _ _ (by decide), rfl, by decide, rfl, by decide⟩,
    ⟨inHand _ _ _ _ (by decide), ⟨rfl, rfl, rfl⟩, by decide, by decide, by decide⟩, ⟨inHand _ _ _ _ (by decide), by decide⟩,
    ⟨inHand _ _ _ _ (by decide), by decide, by decide⟩, ⟨inHand _ _ _ _ (by decide), by decide, by decide, by decide +kernel⟩,
    ⟨inHand _ _ _ _ (by decide), ?_⟩⟩
  · intro x h
    have k : x = 4 ∨ x = 2 := by simpa using h
    rcases k with rfl | rfl <;> exact ⟨rootNode, inHand _ _ _ _ (by decide), rfl, rfl, by decide⟩
  · intro c h k
    have e : c = 393214 ∨ c = 393215 := by omega
    rcases e with rfl | rfl <;> exact ⟨by decide +kernel, noneIn _⟩
  · obtain ⟨t, h⟩ := okOf (x := fabricOn.translate (procAccessor 31 1) fetchRule false 0x10000) (by decide +kernel)
    exact ⟨l, t, ⟨rfl, rfl, rfl, by decide, by decide⟩, rfl, rfl, h, far, e⟩
  · intro r h x k
    rcases List.mem_singleton.1 h with rfl
    injection k with k
    subst k
    exact Nat.le_refl _

/-- A package whose host maps slot 127 of the window to chunk 0 for job 1. -/
def mappedPkg : State :=
  { hostPkg Queue.reset with host := { (hostPkg Queue.reset).host with bar2ctl := 0x100000001, bar2map := [(127, 0x8000000000000000)] } }
/-- A package before boot, its link trained or not, and one under an alarm. -/
def booting (linked : Bool) : State := { package [] with host := { State.reset.host with linked } }
def alarmedPkg : State := { package [] with host := { State.reset.host with alarmed := true } }

theorem witness_HostEvents :
    (mappedPkg.answers = true ∧ (∀ i < 4, mappedPkg.bar2 (0xFFFFFFC + i) = some (0x1FFFFC + i) ∧ mappedPkg.touch (0x1FFFFC + i) = mappedPkg) ∧
      ∀ e ∈ mappedPkg.l1, e.2.dirty = false) ∧
    (mappedPkg.bar2 (0xFFFFFFC + 4) = none) ∧ (package []).answers = false ∧
    ((0xFFFFFFFF00000001 : Nat) < 2 ^ 64 ∧ (0xFFFFFFFF00000001 : Nat) % 2 ^ 32 < 2) ∧
    (∃ q, ({ mappedPkg with queues := List.replicate 64 Queue.reset } : State).queues[63]? = some q ∧ (0x3FFFFFFFFFFFF000 : Nat) % 4096 = 0) ∧
    (mappedPkg.host.alarmed = false) ∧ alarmedPkg.host.alarmed = true ∧ (mappedPkg.chunks.map (·.1)).Nodup ∧
    (booting false).host.bootstat = 1 ∧ ((booting true).host.bootstat = 1 ∧ (booting true).host.linked = true) := by
  refine ⟨⟨rfl, ?_, noneIn _⟩, by decide +kernel, rfl, by decide, ⟨_, rfl, by decide⟩, rfl, rfl, by decide, rfl, rfl, rfl⟩
  intro i h
  have k : i = 0 ∨ i = 1 ∨ i = 2 ∨ i = 3 := by omega
  rcases k with rfl | rfl | rfl | rfl <;> exact ⟨by decide +kernel, by decide +kernel⟩

/-! What the words of arithmetic see that trap. -/

/-- A run that holds 16 long-latency words. -/
def oddRun : Run := { probeRun 2 with ordinals := List.replicate 16 [7] }
/-- A leaf whose threads have eight x registers. -/
def narrow : Region := { probeRegion with words := probeRegion.words.set 13 0x1010401008 }

/-- Whether some lanes' prefetches pass. -/
def prefetchesPass (v : View) (f : Form) (m : Form119) : State → List Thread → Bool
  | _, [] => true
  | s, t :: r => addressOf s v f m t % (shapeBits f.shape / 8) == 0 &&
    match s.access (s.wgAccessor v.wg) { plainRule .read with format := fun p => !p.exr || p.cellBytes == shapeBits f.shape / 8 } false
      (addressOf s v f m t) with
    | .ok (_, u) => prefetchesPass v f m u r
    | .error _ => false

theorem prefetches {v : View} {f : Form} {m : Form119} : ∀ {l : List Thread} {s : State}, prefetchesPass v f m s l = true → PrefetchesPass v f m s l
  | [], _, _ => trivial
  | t :: r, s, h => by
    unfold prefetchesPass at h
    simp only [Bool.and_eq_true, beq_iff_eq] at h
    obtain ⟨a, h⟩ := h
    split at h
    · rename_i p u e
      exact ⟨a, p, u, e, prefetches h⟩
    · cases h

/-- The lanes of `two` pass the checks of a prefetch of eight bytes at [x1]. -/
theorem prefetched : let v := seenBy two (runOf 0) none
    let s := atReady (onGrp two (runOf 0) none) v none [.x 1, .zero] [] []
    PrefetchesPass v (form32 .i ⟨.d, .none, .x 1, .zero⟩) (.offset 0) s (v.threads.filter (bit0 s v none)) := prefetches (by decide +kernel)

theorem witness_TrapsTaken :
    (∀ i ∈ [Instr.fadd ⟨.d, .x 127, .x 1, .x 2⟩, .fma ⟨.h, .bf, .x 5, .x 1, .x 2, .x 3, none⟩, .rng ⟨.b, .x 5, .x 1, .x 2⟩,
        .vote .all ⟨.w, .x 5, .x 1, .x 2⟩], ∃ f lat draws, fixedWord i = some (f, lat, draws) ∧
      InRun (onGrp two (runOf 15) none) (seenBy two (runOf 15) none) ∧ Usable (seenBy two (runOf 15) none) f.srcs f.d) ∧
    (∃ f, longWord? (.fdiv ⟨.w, .x 127, .x 1, .x 2⟩) = some f ∧ InRun (onGrp two (runOf 15) none) (seenBy two (runOf 15) none) ∧
      Usable (seenBy two (runOf 15) none) f.srcs f.d ∧ (seenBy two (runOf 15) none).run.ordinals.length < 16) ∧
    (∃ f m, prefetch? (.pref ⟨.d, .none, .x 1, .zero⟩ 0) = some (f, m) ∧ InRun (onGrp two (runOf 0) none) (seenBy two (runOf 0) none) ∧
      Usable (seenBy two (runOf 0) none) [f.a, f.b] .none ∧
      let v := seenBy two (runOf 0) none
      let s := atReady (onGrp two (runOf 0) none) v f.guard [f.a, f.b] [] []
      PrefetchesPass v f m s (v.threads.filter (bit0 s v f.guard))) ∧
    (∃ r, intRow (.add ⟨.d, .x 127, .x 127, .x 127⟩) = some r ∧ plainLane (.add ⟨.d, .x 127, .x 127, .x 127⟩) r.f ∧
      InRun { onGrp two (probeRun 2) none with regions := [narrow] } { seenBy two (probeRun 2) none with leaf := narrow } ∧
      (seenBy two (probeRun 2) none).g.stop = none ∧ (r.f.srcs.all (srcAllowed narrow.regs) && dstAllowed narrow.regs r.f.d) = false) ∧
    (∃ r l u, intRow (.add ⟨.d, .x 127, .o 0, .x 127⟩) = some r ∧ InRun (onGrp two (probeRun 2) none) (seenBy two (probeRun 2) none) ∧
      (seenBy two (probeRun 2) none).g.stop = none ∧ r.f.srcs.all (srcAllowed 128) = true ∧ dstAllowed 128 r.f.d = true ∧
      (seenBy two (probeRun 2) none).threads.filter (fun t => !r.f.srcs.all (hasValue t)) = l :: u) ∧
    (∃ r, longFloatRows (.fsqrt ⟨.w, .x 1, .x 2, .zero⟩) = some r ∧ InRun (onGrp two oddRun none) (seenBy two oddRun none) ∧
      (seenBy two oddRun none).g.stop = none ∧ 16 ≤ (seenBy two oddRun none).run.ordinals.length) ∧
    (∃ w x, ({ onStream running with turn := some ⟨.stream 1, 0x10000, 1, none⟩ } : State).wg? 1 = some w ∧ w.stream = some x) ∧
    (∃ q, ({ onFabric working with turn := some ⟨.fabric 0, 0x10000, 1, none⟩ } : State).proc? 0 = some q) ∧
    ∃ c, ({ onCore handling with turn := some ⟨.control 0, 0x10000, 1, none⟩ } : State).control? 0 = some c := by
  refine ⟨?_, ⟨_, rfl, inRun _ _ _, usable (by decide) (by decide) (by decide), by decide⟩,
    ⟨_, _, rfl, inRun _ _ _, usable (by decide) rfl (by decide), prefetched⟩, ⟨_, rfl, .inl ⟨_, rfl, rfl⟩, ⟨rfl, rfl, rfl, rfl, rfl, rfl⟩, rfl, by decide⟩,
    ⟨_, _, _, rfl, inRun _ _ _, rfl, by decide, by decide, rfl⟩, ⟨_, rfl, inRun _ _ _, rfl, by decide⟩, ⟨_, _, rfl, rfl⟩, ⟨_, rfl⟩, _, rfl⟩
  intro i h
  simp only [List.mem_cons, List.not_mem_nil, or_false] at h
  rcases h with rfl | rfl | rfl | rfl <;>
    exact ⟨_, _, _, rfl, inRun _ _ _, usable (by decide) (by decide) (by decide)⟩

theorem witness_EncodedWordsDecode : (WellFormed (.add ⟨.b, .x 31, .x 0, .imm 7⟩) = true ∧ ∃ w, encode (.add ⟨.b, .x 31, .x 0, .imm 7⟩) = some [w]) ∧
    (WellFormed (.cpslice (.x 127) 31 (.x 127) 15 1 3) = true ∧ ∃ w z, encode (.cpslice (.x 127) 31 (.x 127) 15 1 3) = some [w, z]) := by
  have two : ∀ {l : Option (List Nat)}, (match l with | some [_, _] => true | _ => false) = true → ∃ w z, l = some [w, z] := by
    intro l h
    match l, h with
    | some [w, z], _ => exact ⟨w, z, rfl⟩
  have one : ∀ {l : Option (List Nat)}, (match l with | some [_] => true | _ => false) = true → ∃ w, l = some [w] := by
    intro l h
    match l, h with
    | some [w], _ => exact ⟨w, rfl⟩
  exact ⟨⟨by decide, one (by decide +kernel)⟩, by decide, two (by decide +kernel)⟩

theorem witness_DecodedWordsEncode : (0x000080F3 < 2 ^ 32 ∧ decodeWord 0x000080F3 0xFFFFFFFF = .ok (.add ⟨.d, .x 2, .x 1, .imm 3⟩)) ∧
    decodeWord 0xAD8FF080 0x84090111 = .ok (.cpslice (.x 8) 4 (.x 9) 1 1 2) := ⟨⟨by decide, by rfl⟩, by rfl⟩

/-- A package whose group or other unit has the next turn, with a word and the one after it at 0x10000. -/
def due1Of (u : UnitId) (r : Option Run) (w : Nat) : State :=
  { package two with
    todo := [.unit u], groups := [{ grpWith two (runOf 0) with run := r }], mem := memPut pages 0x10000 8 w, procs := [working] }
/-- The same once its turn is taken. -/
def takenOf (u : UnitId) (r : Option Run) (w : Nat) : State := { due1Of u r w with todo := [], fresh := (due1Of u r w).fresh + 1 }

theorem fetched {x : Except Nat (Nat × Except Nat Nat × State)} {v z : Nat}
    (h : (match x with | .ok (a, .ok b, _) => a == v && b == z | _ => false) = true) : ∃ m, x = .ok (v, .ok z, m) := by
  cases x with
  | error e => cases h
  | ok q =>
    obtain ⟨a, b, m⟩ := q
    cases b with
    | error e => cases h
    | ok b =>
      have k : a = v ∧ b = z := by simpa using h
      rw [k.1, k.2]
      exact ⟨m, rfl⟩

/-- The group of the run `r` may issue in that package. -/
def Issues (r : Option Run) (w : Nat) : Prop :=
  TurnOf (due1Of (.group 1) r w) (.group 1) (takenOf (.group 1) r w) ∧
    MayIssue (takenOf (.group 1) r w) 1 { grpWith two (runOf 0) with run := r } (wgWith two) probeRegion 100
theorem issues (r : Option Run) (w : Nat) : Issues r w := by
  have t : TurnOf (due1Of (.group 1) r w) (.group 1) (takenOf (.group 1) r w) := .inl ⟨[], rfl, rfl⟩
  have m : (takenOf (.group 1) r w).issueClk (wgWith two) 0 = 100 := rfl
  have f : (takenOf (.group 1) r w).groupFrozen (wgWith two) { grpWith two (runOf 0) with run := r } 100 = false := rfl
  have p : (takenOf (.group 1) r w).partitionHeld { grpWith two (runOf 0) with run := r } (wgWith two) = false := rfl
  exact ⟨t, rfl, rfl, rfl, m.symm, rfl, rfl, rfl, by decide, f, p⟩

theorem witness_StepRunsDecoded :
    (∃ h m, Issues none 0xE0023080 ∧ (takenOf (.group 1) none 0xE0023080).fetch ((takenOf (.group 1) none 0xE0023080).wgAccessor (wgWith two)) 0x10000 =
        .ok (0xE0023080, .ok 0, m) ∧ isHeaderWord 0xE0023080 = true ∧ decodeWord 0xE0023080 0 = .ok (.header h)) ∧
    (∃ h m, Issues (some (probeRun 0)) 0x60000000 ∧ (takenOf (.group 1) (some (probeRun 0)) 0x60000000).fetch
        ((takenOf (.group 1) (some (probeRun 0)) 0x60000000).wgAccessor (wgWith two)) 0x10000 = .ok (0x60000000, .ok 0, m) ∧
      isTrailerWord 0x60000000 = true ∧ decodeWord 0x60000000 0 = .ok (.trailer h)) ∧
    (∃ h m, Issues (some (probeRun 2)) 0x44000000 ∧ (takenOf (.group 1) (some (probeRun 2)) 0x44000000).fetch
        ((takenOf (.group 1) (some (probeRun 2)) 0x44000000).wgAccessor (wgWith two)) 0x10000 = .ok (0x44000000, .ok 0, m) ∧
      isPrefixWord 0x44000000 = true ∧ decodeWord 0x44000000 0 = .ok (.prefixWord h)) ∧
    (∃ i m, Issues (some (probeRun 2)) 0xCCCC01D024804011 ∧ (takenOf (.group 1) (some (probeRun 2)) 0xCCCC01D024804011).fetch
        ((takenOf (.group 1) (some (probeRun 2)) 0xCCCC01D024804011).wgAccessor (wgWith two)) 0x10000 = .ok (0x24804011, .ok 0xCCCC01D0, m) ∧
      wordsAre (.ok 0xCCCC01D0) 0x24804011 0xCCCC01D0 ∧ decodeWord 0x24804011 0xCCCC01D0 = .ok i ∧ lenField 0x24804011 < 2 ∧
      FitsRun (probeRun 2) none 0x24804011 0xCCCC01D0 ∧
      ∀ active, (seenBy two (probeRun 2) none).upsetLanes active (codeUse none 0x24804011 0xCCCC01D0) = []) ∧
    (∃ i m, TurnOf (due1Of (.fabric 0) none 0x9C8FF9DC) (.fabric 0) (takenOf (.fabric 0) none 0x9C8FF9DC) ∧
      (takenOf (.fabric 0) none 0x9C8FF9DC).unitState (.fabric 0) = some (0x10000, working.last, procAccessor 0 1) ∧
      (takenOf (.fabric 0) none 0x9C8FF9DC).unitFetch (.fabric 0) (procAccessor 0 1) 0x10000 = .ok (0x9C8FF9DC, .ok 0, m) ∧
      decodeWord 0x9C8FF9DC 0 = .ok i ∧ isUniform 0x9C8FF9DC = true ∧ lenField 0x9C8FF9DC < 2 ∧ mayRun .fabric true (opField 0x9C8FF9DC) = true ∧
      (takenOf (.fabric 0) none 0x9C8FF9DC).unitUpset (.fabric 0) (codeUse none 0x9C8FF9DC 0) = false) ∧
    ((package two).group? 1 = none) ∧ (∃ q r tn, (onGrp two (probeRun 2) none).group? 1 = some q ∧ (onGrp two (probeRun 2) none).turn = some tn ∧
      (onGrp two (probeRun 2) none).hold = false ∧ runControl (.add ⟨.d, .x 2, .x 1, .imm 3⟩) = false ∧ q.run = some r ∧ q.stop = none ∧
      q.skipWatch = false ∧ (onGrp two (probeRun 2) none).wg? q.wg = some (wgWith two)) ∧
    (∃ tn, ({ onGrp two (probeRun 2) none with hold := true } : State).turn = some tn ∧ ({ onGrp two (probeRun 2) none with hold := true } : State).hold = true) := by
  obtain ⟨m1, h1⟩ := fetched (x := (takenOf (.group 1) none 0xE0023080).fetch ((takenOf (.group 1) none 0xE0023080).wgAccessor (wgWith two)) 0x10000)
    (v := 0xE0023080) (z := 0) (by decide +kernel)
  obtain ⟨m2, h2⟩ := fetched (x := (takenOf (.group 1) (some (probeRun 0)) 0x60000000).fetch
    ((takenOf (.group 1) (some (probeRun 0)) 0x60000000).wgAccessor (wgWith two)) 0x10000) (v := 0x60000000) (z := 0) (by decide +kernel)
  obtain ⟨m3, h3⟩ := fetched (x := (takenOf (.group 1) (some (probeRun 2)) 0x44000000).fetch
    ((takenOf (.group 1) (some (probeRun 2)) 0x44000000).wgAccessor (wgWith two)) 0x10000) (v := 0x44000000) (z := 0) (by decide +kernel)
  obtain ⟨m4, h4⟩ := fetched (x := (takenOf (.group 1) (some (probeRun 2)) 0xCCCC01D024804011).fetch
    ((takenOf (.group 1) (some (probeRun 2)) 0xCCCC01D024804011).wgAccessor (wgWith two)) 0x10000) (v := 0x24804011) (z := 0xCCCC01D0) (by decide +kernel)
  obtain ⟨m5, h5⟩ := fetched (x := (takenOf (.fabric 0) none 0x9C8FF9DC).unitFetch (.fabric 0) (procAccessor 0 1) 0x10000) (v := 0x9C8FF9DC) (z := 0)
    (by decide +kernel)
  exact ⟨⟨_, m1, issues _ _, h1, by decide, by rfl⟩, ⟨_, m2, issues _ _, h2, by decide, by rfl⟩, ⟨_, m3, issues _ _, h3, by decide, by rfl⟩,
    ⟨_, m4, issues _ _, h4, .inl rfl, by rfl, by decide, ⟨by decide, by decide, rfl, .inr (by decide), .inl ⟨rfl, rfl⟩⟩, fun _ => rfl⟩,
    ⟨_, m5, .inl ⟨[], rfl, rfl⟩, rfl, h5, by rfl, by decide, by decide, by decide, rfl⟩, rfl, ⟨_, _, _, rfl, rfl, rfl, rfl, rfl, rfl, rfl, rfl⟩, _, rfl, rfl⟩

theorem witness_StepKeepsMemory : mappedPkg.MemoryCanonical ∧
    ∃ t, step { mappedPkg with todo := [.event (.bar2Access ⟨0xFFFFFFC, 0, some [1, 2]⟩)] } = .next t := ⟨by rfl, _, by rfl⟩

/-! ### Single steps: expected values from the spec's worked examples, or worked out by hand from the rule named -/

/-- One lane whose x registers hold some values, before a word under a prefix. -/
def lane0 (x : Sparse W64) (p : Option PrefixFields) : State := onGrp [{ thr 0 with x }] (probeRun 2) p
/-- A prefix of a lane-set word, with rounding and saturation codes. -/
def pre (r : Rnd) (s : Sat) : PrefixFields := ⟨false, r, s, false, false, none, none⟩

/-- Sub-elements of `add.w` wrap apart: 0xFFFFFFFF + 1 carries nothing into the upper half (R24, R94). -/
theorem test_add_wraps : xAfter (exec (.add ⟨.w, .x 3, .x 1, .x 2⟩) (lane0 [(1, 0x00000001FFFFFFFF), (2, 0x0000000100000001)] none)) 0 3 =
    some 0x0000000200000000 := by decide +kernel
/-- `shl.w` by 32 gives 0, by 31 leaves bit 0 at the top (R95). -/
theorem test_shl_width : xAfter (exec (.shl ⟨.w, .x 3, .x 1, .x 2⟩) (lane0 [(1, 0x0000000300000003), (2, 0x0000001F00000020)] none)) 0 3 =
    some 0x8000000000000000 := by decide +kernel
/-- Chapter 4: `abs.b` with a = 0x80 gives 0x80, and `abs.b.sat` gives 0x7F. -/
theorem test_abs : xAfter (exec (.abs ⟨.b, .x 3, .x 1, .zero⟩) (lane0 [(1, 0x80)] none)) 0 3 = some 0x80 ∧
    xAfter (exec (.abs ⟨.b, .x 3, .x 1, .zero⟩) (lane0 [(1, 0x80)] (some (pre .rne .sat)))) 0 3 = some 0x7F := by decide +kernel
/-- 2^64 − 1 plus 0 plus the carry p1 in gives 0 and the carry p2 out (R99). -/
theorem test_addc : let s := onGrp [{ thr 0 with x := [(1, 0xFFFFFFFFFFFFFFFF)], p := [(1, 1)] }] (probeRun 2) none
    let r := exec (.addc ⟨.d, .i, .x 3, .x 1, .x 2, .zero, none⟩ ⟨1, true⟩ ⟨2, true⟩) s
    xAfter r 0 3 = some 0 ∧ pAfter r 0 2 = some 1 := by decide +kernel
/-- Signed `cmp.d.lt` of −1 and 0 holds; the unsigned one of 2^64 − 1 and 0 does not (R98). -/
theorem test_cmp_sign : pAfter (exec (.cmp .lt 1 ⟨.d, .none, .x 1, .x 2⟩) (lane0 [(1, 0xFFFFFFFFFFFFFFFF)] none)) 0 1 = some 1 ∧
    pAfter (exec (.cmp64 .lt 1 ⟨.d, .n, .none, .x 1, .x 2, .zero, none⟩) (lane0 [(1, 0xFFFFFFFFFFFFFFFF)] none)) 0 1 = some 0 := by decide +kernel
/-- Compress packs the bits at the mask's ones; deposit places them there (R115). -/
theorem test_bcs : xAfter (exec (.bcs ⟨.d, .x 3, .x 1, .x 2⟩) (lane0 [(1, 0xA0), (2, 0xF0)] none)) 0 3 = some 0xA ∧
    xAfter (exec (.bcs64 ⟨.d, .n, .x 3, .x 1, .x 2, .zero, none⟩ true) (lane0 [(1, 0xA), (2, 0xF0)] none)) 0 3 = some 0xA0 := by decide +kernel
/-- Chapter 4: `fexp.h.bf` of 0x0001 gives 0xFF7B, and `fscl.h.bf` of 0x3F80 by 0xFF7B gives 0x0001. -/
theorem test_fexp_fscl : xAfter (exec (.fexp64 ⟨.h, .bf, .x 3, .x 1, .zero, .zero, none⟩) (lane0 [(1, 0x0001)] none)) 0 3 =
      some 0x800080008000FF7B ∧
    xAfter (exec (.fscl64 ⟨.h, .bf, .x 3, .x 1, .x 2, .zero, none⟩) (lane0 [(1, 0x3F80), (2, 0xFF7B)] none)) 0 3 = some 0x0001 := by decide +kernel
/-- Chapter 4: `cvt.h.bf.sw.sf.p1 x1, x2, x1` with FP32 1.0 and −2.5 in x2. -/
theorem test_cvt : xAfter (exec (.cvt ⟨.h, .bf, .x 1, .x 2, .x 1, .zero, none⟩ ⟨.w, .f, 1⟩) (lane0 [(2, 0xC02000003F800000)] none)) 0 1 =
    some 0xC0203F8000000000 := by decide +kernel
/-- `fadd` of 1.0 and 2^−53 is a tie that goes to even under RNE, and up under RUP (R46). -/
theorem test_fadd_rounds : xAfter (exec (.fadd ⟨.d, .x 3, .x 1, .x 2⟩) (lane0 [(1, 0x3FF0000000000000), (2, 0x3CA0000000000000)] none)) 0 3 =
      some 0x3FF0000000000000 ∧
    xAfter (exec (.fadd ⟨.d, .x 3, .x 1, .x 2⟩) (lane0 [(1, 0x3FF0000000000000), (2, 0x3CA0000000000000)] (some (pre .rup .off)))) 0 3 =
      some 0x3FF0000000000001 := by decide +kernel
/-- A zero divisor gives all ones; −2^63 / −1 gives −2^63 (R129). -/
theorem test_kdiv : kAfter (exec (.kdiv ⟨.d, .k 3, .k 1, .k 2⟩) (onFabric { working with k := [(1, 7)] })) (.fabric 0) 3 = some 0xFFFFFFFFFFFFFFFF ∧
    kAfter (exec (.kdiv64 ⟨.d, .i, .k 3, .k 1, .k 2, .zero, none⟩) (onFabric { working with k := [(1, 0x8000000000000000), (2, 0xFFFFFFFFFFFFFFFF)] }))
      (.fabric 0) 3 = some 0x8000000000000000 := by decide +kernel

/-- Lanes 0 to 3 of chapter 6's example. -/
def four : List Thread := (List.range 4).map fun i =>
  { thr i with x := [(1, w64 (10 * i)), (2, 77), (3, w64 (i + 1)), (9, 0xFFFFFFFFFFFFFFFF)], p := if i = 2 then [] else [(1, 1)] }
/-- What the four lanes hold in a register after a word. -/
def lanes4 (r : Result) (n : Nat) : List (Option W64) := (List.range 4).map fun i => xAfter r i n

/-- Chapter 6: `xsh.d x2, x1, x3, x9 when p1`. -/
theorem test_xsh : lanes4 (exec (.xsh64 ⟨.d, .i, .x 2, .x 1, .x 3, .x 9, some ⟨false, 1⟩⟩) (onGrp four (probeRun 2) none)) 2 =
    [some 10, some 20, some 77, some 0xFFFFFFFFFFFFFFFF] := by decide +kernel
/-- Chapter 6: `xpush.d x4, x1, x5, zero when p1`. -/
theorem test_xpush : lanes4 (exec (.xpush64 ⟨.d, .i, .x 4, .x 1, .x 5, .zero, some ⟨false, 1⟩⟩) (onGrp four (probeRun 2) none)) 4 =
    [some 30, some 0, some 0, some 0] := by decide +kernel
/-- Chapter 6: `xred.d.add x6, x1`. -/
theorem test_xred : lanes4 (exec (.xred .add ⟨.d, .x 6, .x 1, .zero⟩) (onGrp four (probeRun 2) none)) 6 =
    [some 60, some 60, some 60, some 60] := by decide +kernel
/-- Chapter 9: lanes that store one word leave the value of the highest lane; here in the scratchpad (R234). -/
theorem test_sts_order : (match exec (.sts ⟨.w, .x 3, .x 5, .zero⟩ 0) (onGrp four (probeRun 2) none) with
    | .next t => (t.wg? 1).map fun w => (sget 0 w.scr 0, sget 0 w.scr 4)
    | _ => none) = some (4, 0) := by decide +kernel

/-- Chapter 2: the TRN block of sixteen values: its codes, its scale and the residuals, as FP32; the SGN scale of the same values. -/
def block16 : List Nat :=
  [0x3F800000, 0xBF000000, 0x3E800000, 0xBEC00000, 0x3F400000, 0, 0xBFA00000, 0x3E000000, 0x3F000000, 0xBF200000, 0, 0, 0, 0, 0, 0]
theorem test_trn : let b := compressBlock true block16
    (b.bytes true).take 4 = leBytes 4 0x000C3101 ∧ b.scale = 0x3FA0 ∧ (b.residuals true block16).take 10 =
      [0xBE800000, 0xBF000000, 0x3E800000, 0xBEC00000, 0xBF000000, 0, 0, 0x3E000000, 0x3F000000, 0x3F200000] := by decide +kernel
theorem test_sgn : (compressBlock false block16).scale = 0x3EAC := by decide +kernel

/-- Chapter 7: the leaf entry of the worked translation; the byte of VA 0x0006_8140_91A3_89A0 stands at PA 0x2C63_89A0. -/
theorem test_page : let p := pageOf false 0x2C63324D 2 0x6814091A389A0
    p.pa 0x6814091A389A0 = 0x2C6389A0 ∧ p.share = 2 ∧ p.exr = false ∧ p.efmt = 2 ∧
      (levelIndex 0 0x6814091A389A0, levelIndex 1 0x6814091A389A0, levelIndex 2 0x6814091A389A0, levelIndex 3 0x6814091A389A0) =
        (0x003, 0x205, 0x012, 0x1A3) := by decide +kernel

/-- Chapter 15: the root slot that times out with three of four contributors, here in slot 0 without a bitmap, its results to k4 and k5. -/
theorem test_fslot_timeout :
    let a := { slot0 with n := 4, op := 2, epoch := 7, applied := [0, 1, 3], value := 0x40800000, limit := 50, since := 50, res := .k 4, stat := .k 5 }
    let r := exec (.fslotTimeout 0 0) (onFabric { working with slots := ⟨some a, none⟩ :: List.replicate 15 ⟨none, none⟩ })
    kAfter r (.fabric 0) 4 = some 0x40800000 ∧ kAfter r (.fabric 0) 5 = some 0x8000000200000003 := by decide +kernel
/-- The combination of that slot: famax32 of −4.0 and 3.0 is 4.0. -/
theorem test_famax : slotCombine 2 0 0xC0800000 = 0x40800000 ∧ slotCombine 2 0x40800000 0x40400000 = 0x40800000 := by decide +kernel

/-- Chapter 13: a load of a page whose leaf entry has V = 0, from core 5 slot 0: words 0, 3 and 4 of the event record. -/
theorem test_translation_fault :
    (match exec (.longLatencyComplete 4) { opPkg (.load 0x400000 8 true false) with
        ops := [{ pending (.load 0x400000 8 true false) (.x 5) with core := 5 }]
        wgs := [{ wgWith [{ thr 0 with flags := [(0, 1)], regions := 1 }] with core := 5 }] } with
    | .next t => (t.events.head?).map fun e => (e.control, e.event.words.getD 0 0, e.event.words.getD 3 0, e.event.words.getD 4 0)
    | _ => none) = some (1, 0x05010103, 0x00400000, 0x0000000100000001) := by decide +kernel
/-- A lane-set word on a control core traps it (R318); `eret` there takes the next queued event at CCVEC (R331). -/
theorem test_control_core : (match exec (.add ⟨.d, .x 1, .x 1, .x 1⟩) (onCore handling) with
      | .next t => (t.control? 0).map (·.trapped)
      | _ => none) = some true ∧
    (match exec .eret (onCore { handling with ccvec := 0x40000, queue := [{ probeEvent with clk := 7 }] }) with
      | .next t => (t.control? 0).map fun c => (c.pc, c.current.map (·.clk), c.queue)
      | _ => none) = some (0x40000, some 7, []) := by decide +kernel
/-- CCWDOG reads 2^24 after reset (Table 13.8). -/
theorem test_csrrd : kAfter (exec (.csrrd 3 0x0C) (onCore handling)) (.control 0) 3 = some 0x1000000 := by decide +kernel
/-- An index out of the ring leaves QKICK as it was (R427). -/
theorem test_qkick : (match exec (.qkickWrite 0 4) (hostPkg (kicked 0)) with
    | .next t => (t.queues[0]?).map (·.qkick)
    | _ => none) = some 1 := by decide +kernel

end Sys2Proof.Tests
end

section
/-!
PROOFS. Completions (O39): a failed check does not always end the operation.
-/
namespace Sys2Proof.Machine
open Sys2Proof.Spec

/-- Two threads of a block that issued an atomic together and have diverged since: each stands in a group of its own, between runs. -/
def apartWg : Workgroup :=
  { probeWg with threads := [Thread.start 0 probeBase 0 (.group 1), Thread.start 1 probeBase 0 (.group 2)] }

/-- Their atomic, not yet performed: thread 0's address is misaligned, thread 1's is not. -/
def apartAtomic : LongOp :=
  { newOp State.reset (.group 1) 1 0 1 probeBase (.atom .add .w .i .plain [⟨0, 2, 1, 0⟩, ⟨1, 4, 1, 0⟩]) .none with tids := [0, 1], present := [0, 1] }

/-- The package in which it is pending. -/
def apartState : State :=
  { State.reset with
    jobs := [probeJob], regions := [probeRegion], wgs := [apartWg], ops := [apartAtomic]
    groups := [{ probeGroup none with lanes := [0] }, { probeGroup none with id := 2, lanes := [1] }], seq := 3 }

/-- Thread 0's lane fails its check, and no other lane fails as it does. -/
theorem apartState_opCheck : apartState.opCheck apartAtomic = .error (2, 0, 2, [0]) := rfl

/-- Completing the atomic stops thread 0's group and leaves the operation pending for thread 1, which goes on (log 108). -/
theorem apartState_stays : (match exec (.longLatencyComplete apartAtomic.id) apartState with
    | .next t => (t.op? apartAtomic.id).map (·.present)
    | _ => none) = some [1] := by decide +kernel

/-- The atomic may complete. -/
theorem apartState_mayComplete : MayComplete apartState apartAtomic := ⟨rfl, rfl, rfl, rfl⟩

/-- Refutes O39: its third part says that a group's operation whose check fails is over. An atomic of several threads is over for the
threads whose lanes fail alone (R122, R242); it stays pending for those that go on elsewhere. -/
theorem not_completionEvents : ¬ Obligations.CompletionEvents := by
  intro h
  obtain ⟨-, -, failed, -⟩ := h
  obtain ⟨t, ht, hgone, -⟩ := failed apartState apartAtomic apartState_mayComplete
    (fun m hm => by rw [apartState_opCheck] at hm; cases hm) rfl
  have hstays := apartState_stays
  rw [ht] at hstays
  simp [hgone] at hstays

end Sys2Proof.Machine
end

section
/-!
PROOFS. Uniform words of a group with no lane on (O23).
-/
namespace Sys2Proof.Machine
open Sys2Proof.Spec

/-- A uniform word of a group with no lane on does nothing but hold until its guard can be read; one of long latency is an ordinal. -/
theorem withUni_noLanes {s : State} {v : View} (h : InRun s v) {guard : Option Guard} {n : Nat} {srcs : List Src} {dst : Dst} {long : Bool}
    (hs : srcs.all (srcAllowed v.leaf.regs) = true) (hd : dstAllowed v.leaf.regs dst = true)
    (hl : long = true → v.run.ordinals.length < 16)
    (hoff : ∀ t ∈ v.threads, anyOn n ((s.holdTo v (State.sourcesReady v v.threads [] (guardPreds v guard))).guard v guard t) = false)
    (body : Uni → State → Result) :
    withUni guard n srcs dst long s body =
      let s1 := s.holdTo v (State.sourcesReady v v.threads [] (guardPreds v guard))
      .next (if long then s1.beginOrdinal v.g.id else s1) := by
  have hfull : (long && decide (16 ≤ v.run.ordinals.length)) = false := by
    cases long with
    | false => rfl
    | true => simpa using hl rfl
  have hon : (v.threads.filter fun t =>
      anyOn n ((s.holdTo v (State.sourcesReady v v.threads [] (guardPreds v guard))).guard v guard t)) = [] := by
    rw [List.filter_eq_nil_iff]
    intro t ht
    simp [hoff t ht]
  unfold withUni
  simp only [h.turn, h.unit]
  rw [onGroup_run h]
  simp [hfull, hs, hd, hon]

/-- A uniform word of fixed latency on the operands of a form. -/
def IsUniWord (i : Instr) (f : Form) : Prop := ∃ lat wa wb wc compute, ∀ s, exec i s = uniWord f lat wa wb wc compute s

theorem isUniWord_of_uniInt {i : Instr} {f : Form} (op : IntOp) (h : ∀ s, exec i s = uniInt op f s) : IsUniWord i f :=
  ⟨_, _, _, _, _, h⟩

theorem isUniWord_sum {i : Instr} {r : UniRow} (h : uniSumRow i = some r) : IsUniWord i r.f := by
  unfold uniSumRow at h
  split at h <;> cases h <;> exact isUniWord_of_uniInt _ fun _ => rfl

theorem isUniWord_div {i : Instr} {r : UniRow} (h : uniDivRow i = some r) : IsUniWord i r.f := by
  unfold uniDivRow at h
  split at h <;> cases h <;> exact isUniWord_of_uniInt .div fun _ => rfl

theorem isUniWord_bit {i : Instr} {r : UniRow} (h : uniBitRow i = some r) : IsUniWord i r.f := by
  unfold uniBitRow at h
  split at h
  case h_26 f p m =>
    split at h <;> cases h
    exact ⟨1, (form64 f).w, (form64 f).w, (form64 f).w, fun _ a _ _ => bfxWord (form64 f).kind (form64 f).w p m a, fun _ => rfl⟩
  case h_27 f p m =>
    split at h <;> cases h
    exact ⟨1, (form64 f).w, (form64 f).w, (form64 f).w, fun _ a b _ => bfiWord (form64 f).w p m a b, fun _ => rfl⟩
  all_goals cases h
  all_goals exact isUniWord_of_uniInt _ fun _ => rfl

theorem isUniWord_pick {i : Instr} {r : UniRow} (h : uniPickRow i = some r) : IsUniWord i r.f := by
  unfold uniPickRow at h
  split at h <;> cases h
  case h_1 f c =>
    exact ⟨1, (form64 f).w, (form64 f).w, (form64 f).w, fun _ a b _ => kcmpWord c (form64 f).kind (form64 f).w a b, fun _ => rfl⟩
  case h_2 f =>
    exact ⟨1, (form64 f).w, (form64 f).w, (form64 f).w, fun _ a b c => kselWord (form64 f).w a b c, fun _ => rfl⟩
  case h_3 => exact ⟨1, 64, 64, 64, fun _ a b _ => leaWord 0 a b, fun _ => rfl⟩
  case h_4 f k => exact ⟨1, 64, 64, 64, fun _ a b _ => leaWord k a b, fun _ => rfl⟩
  case h_5 => exact ⟨1, 64, 64, 64, fun _ a b _ => leaWord 0 a b, fun _ => rfl⟩

/-- Every uniform row is a uniform word of fixed latency on its operands. -/
theorem isUniWord_row {i : Instr} {r : UniRow} (h : uniRow i = some r) : IsUniWord i r.f := by
  unfold uniRow at h
  rcases Option.or_eq_some_iff.mp h with h | ⟨-, h⟩
  · rcases Option.or_eq_some_iff.mp h with h | ⟨-, h⟩
    · rcases Option.or_eq_some_iff.mp h with h | ⟨-, h⟩
      · exact isUniWord_sum h
      · exact isUniWord_div h
    · exact isUniWord_bit h
  · exact isUniWord_pick h

/-- Settles O23: every uniform row, and `kld` of the 64-bit form, makes the checks of `withUni` first. -/
theorem uniformWithoutLanes : Obligations.UniformWithoutLanes := by
  constructor
  · intro i r hi s v h hs hd hoff
    obtain ⟨lat, wa, wb, wc, compute, hexec⟩ := isUniWord_row hi
    rw [hexec, uniWord, withUni_noLanes h hs hd (by simp) hoff]
    rfl
  · intro f m s v h hn hs hd hoff
    show uniLoad _ _ (form64 f) s = _
    rw [uniLoad]
    exact withUni_noLanes (guard := (form64 f).guard) (dst := (form64 f).d) (long := true) h hs hd (fun _ => hn) hoff _

end Sys2Proof.Machine
end

section
/-!
PROOFS. Run control (O38): headers, prefixes and trailers.
-/
namespace Sys2Proof.Machine
open Sys2Proof.Spec

/-! ### Threads after an update of a workgroup -/

theorem find_map_tid {f : Thread → Thread} (h : ∀ t, (f t).tid = t.tid) (tid : Nat) (l : List Thread) :
    (l.map f).find? (·.tid == tid) = (l.find? (·.tid == tid)).map f := by
  rw [List.find?_map]
  congr 2
  funext t
  simp [h]

theorem thread_mapThreads (s : State) (wg : Nat) (tids : List Nat) {f : Thread → Thread} (h : ∀ t, (f t).tid = t.tid) (tid : Nat) :
    (s.mapThreads wg tids f).thread? wg tid = (s.thread? wg tid).map fun t => if tids.contains t.tid then f t else t := by
  unfold State.thread? State.mapThreads
  rw [wg_mapWg_same _ _ (by exact fun _ => rfl)]
  cases s.wg? wg with
  | none => rfl
  | some w => exact find_map_tid (fun t => by split <;> simp [h]) tid w.threads

theorem thread_mapWg_threads (s : State) (wg tid : Nat) {f : Workgroup → Workgroup} (h : ∀ w, (f w).id = w.id)
    (ht : ∀ w, (f w).threads = w.threads) : (s.mapWg wg f).thread? wg tid = s.thread? wg tid := by
  unfold State.thread?
  rw [wg_mapWg_same _ _ h]
  cases s.wg? wg with
  | none => rfl
  | some w => simp [Workgroup.thread?, ht]

/-- The threads of a group that a workgroup has. -/
theorem mem_groupThreads {g : Group} {w : Workgroup} {a : Thread} (h : a ∈ g.tids.filterMap w.thread?) :
    w.thread? a.tid = some a ∧ a.tid ∈ g.tids := by
  obtain ⟨n, hn, h⟩ := List.mem_filterMap.mp h
  have e := thread_tid h
  exact ⟨e ▸ h, e ▸ hn⟩

/-! ### Headers -/

theorem foldl_max_le {α : Type} (f : α → Nat) {n : Nat} (l : List α) : ∀ {a : Nat}, a ≤ n → (∀ x ∈ l, f x ≤ n) →
    l.foldl (fun a x => max a (f x)) a ≤ n := by
  induction l with
  | nil => exact fun h _ => h
  | cons x l ih =>
    intro a ha hl
    exact ih (Nat.max_le.mpr ⟨ha, hl x (by simp)⟩) fun y hy => hl y (by simp [hy])

/-- A header that is due in a thread has been ready since the clk or earlier. -/
theorem readyFor_of_due {a : Thread} {h : HeaderWord} {clk : Nat} (hd : Due a h clk) : ∃ r, a.readyFor h = some r ∧ r ≤ clk := by
  obtain ⟨flags, dist⟩ := hd
  have hw : ∀ f ∈ waitFlags h, sget 0 a.flags f = 0 ∧ (sget 0 a.setAt f = 0 ∨ sget 0 a.setAt f < clk) := by
    intro f hf
    simp only [waitFlags, List.mem_filter, List.mem_range] at hf
    exact flags f hf.1 hf.2
  have hclear : (waitFlags h).any (fun f => sget 0 a.flags f != 0) = false :=
    List.any_eq_false.mpr fun f hf => by simp [(hw f hf).1]
  unfold Thread.readyFor
  rw [hclear]
  refine ⟨_, rfl, Nat.max_le.mpr ⟨foldl_max_le _ _ (Nat.zero_le _) fun f hf => ?_, ?_⟩⟩
  · have := (hw f hf).2
    split <;> omega
  · split <;> omega

/-- A header that is due in every thread of a list has been ready in all of them since the clk or earlier. -/
theorem foldl_readyFor {h : HeaderWord} {clk : Nat} (l : List Thread) : ∀ {a : Nat}, a ≤ clk → (∀ t ∈ l, Due t h clk) →
    ∃ r, l.foldl (fun acc t => acc.bind fun a => (t.readyFor h).map (max a)) (some a) = some r ∧ r ≤ clk := by
  induction l with
  | nil => exact fun ha _ => ⟨_, rfl, ha⟩
  | cons t l ih =>
    intro a ha hl
    obtain ⟨r, hr, hle⟩ := readyFor_of_due (hl t (by simp))
    simpa [hr] using ih (Nat.max_le.mpr ⟨ha, hle⟩) fun u hu => hl u (by simp [hu])

theorem groupReady_of_due {s : State} {g : Group} {w : Workgroup} {h : HeaderWord} (hw : s.wg? g.wg = some w)
    (hd : ∀ a ∈ g.tids.filterMap w.thread?, Due a h s.cyc) : ∃ r, s.groupReady g h = some r ∧ r ≤ s.cyc := by
  unfold State.groupReady
  rw [hw]
  exact foldl_readyFor _ (Nat.zero_le _) hd

/-- A candidate that is alone ready is selected. -/
theorem selected_of_alone {s : State} {g : Group} {w : Workgroup} {tn : Turn} (c : Candidate s g w tn) (keys : List Nat) :
    s.selected g w keys = true := by
  rw [State.selected, List.all_eq_true]
  intro q hq
  by_cases hid : q.id = g.id
  · simp [hid]
  by_cases hpart : q.part = g.part
  · by_cases hcore : (s.wg? q.wg).map (·.core) = some w.core
    · simp [c.alone q hq hid hpart hcore]
    · simp [hcore]
  · simp [hpart]

/-- With no operation left to check, an R header changes nothing before it issues. -/
theorem passChecks_none {s : State} {wg : Nat} {tids : List Nat}
    (h : ∀ o ∈ s.ops, o.wg = wg → (∃ a ∈ tids, a ∈ o.present) → o.checked = true ∧ o.sent = false) : s.passChecks wg tids = some s := by
  have hnone : (s.ops.filter fun o => o.wg == wg && (!o.checked || o.sent) && o.present.any tids.contains) = [] := by
    rw [List.filter_eq_nil_iff]
    intro o ho
    simp only [Bool.and_eq_true, beq_iff_eq, List.any_eq_true, List.contains_iff_mem]
    rintro ⟨⟨hwg, hopen⟩, a, ha, hmem⟩
    obtain ⟨hc, hs⟩ := h o ho hwg ⟨a, hmem, ha⟩
    simp [hc, hs] at hopen
  unfold State.passChecks
  rw [hnone]
  rfl

/-- A candidate's header that is due starts the run. -/
theorem execHeader_starts {h : HeaderWord} {s : State} {g : Group} {w : Workgroup} {tn : Turn} (c : Candidate s g w tn)
    (hd : ∀ a ∈ g.tids.filterMap w.thread?, Due a h s.cyc) (hc : h.r = true → s.passChecks g.wg g.tids = some s) :
    execHeader h s = .next (s.startRun g w h) := by
  obtain ⟨ready, hr, hle⟩ := groupReady_of_due c.wg hd
  have hsince : (!g.parked && decide (s.cyc < g.since)) = false := by
    rcases c.since with hp | hs
    · simp [hp]
    · simp [Nat.not_lt.mpr hs]
  unfold execHeader
  cases hR : h.r with
  | true => simp [c.turn, c.unit, c.group, c.wg, c.idle, c.resident, hr, Nat.not_lt.mpr hle, hsince, selected_of_alone c, hc hR]
  | false => simp [c.turn, c.unit, c.group, c.wg, c.idle, c.resident, hr, Nat.not_lt.mpr hle, hsince, selected_of_alone c]

theorem Thread.enter_tid (t : Thread) (pc clk : Nat) (r : Bool) : (t.enter pc clk r).tid = t.tid := by
  cases r <;> rfl

theorem startRun_thread {s : State} {g : Group} {w : Workgroup} (h : HeaderWord) {a : Thread} (hw : s.wg? w.id = some w)
    (ha : a ∈ g.tids.filterMap w.thread?) : (s.startRun g w h).thread? w.id a.tid = some (a.enter g.pc s.cyc h.r) := by
  obtain ⟨hthread, hmem⟩ := mem_groupThreads ha
  have hs : s.thread? w.id a.tid = some a := by simp [State.thread?, hw, hthread]
  calc (s.startRun g w h).thread? w.id a.tid
      = (s.mapThreads w.id g.tids fun t => t.enter g.pc s.cyc h.r).thread? w.id a.tid :=
        thread_mapWg_threads _ _ _ (fun _ => rfl) fun _ => rfl
    _ = some (a.enter g.pc s.cyc h.r) := by
        rw [thread_mapThreads _ _ _ fun t => t.enter_tid _ _ _, hs]
        simp [hmem]

theorem header_startsRun (h : HeaderWord) (s : State) (g : Group) (w : Workgroup) (tn : Turn) (c : Candidate s g w tn)
    (hd : ∀ a ∈ g.tids.filterMap w.thread?, Due a h s.cyc)
    (ho : h.r = true → ∀ o ∈ s.ops, o.wg = g.wg → (∃ a ∈ g.tids, a ∈ o.present) → o.checked = true ∧ o.sent = false) :
    ∃ t, exec (.header h) s = .next t ∧
      t.group? g.id = some { g with
        parked := false, lifted := false, skipWatch := false, run := some { header := g.pc, clk := s.cyc, pc := g.pc + 4, left := h.len + 1, pfx := none, ordinals := [], tail := .fall } } ∧
      (∀ id, id ≠ g.id → t.group? id = s.group? id) ∧
      (∀ a ∈ g.tids.filterMap w.thread?, ∃ b, t.thread? w.id a.tid = some b ∧ b.o = [] ∧ b.l = [] ∧ b.next = g.pc ∧
        b.regions = a.regions + (if h.r then 1 else 0) ∧ b.lastR = (if h.r then g.pc else a.lastR) ∧ b.x = a.x ∧ b.p = a.p ∧ b.flags = a.flags) ∧
      { t with wgs := s.wgs, groups := s.groups, ops := s.ops } = s := by
  have hw : s.wg? w.id = some w := by rw [wg_id c.wg]; exact c.wg
  have hg : ∀ id, ((s.startRun g w h).group? id) = (s.mapGroup g.id fun g' => { g' with
      run := some { header := g.pc, clk := s.cyc, pc := g.pc + 4, left := h.len + 1, pfx := none, ordinals := [], tail := .fall }
      parked := false, lifted := false, skipWatch := false }).group? id := fun _ => rfl
  refine ⟨s.startRun g w h, execHeader_starts c hd fun hr => passChecks_none (ho hr), ?_, fun id hid => ?_, fun a ha => ?_, rfl⟩
  · exact (hg _).trans ((group_mapGroup_same s g.id (by exact fun _ => rfl)).trans (by rw [c.group]; rfl))
  · exact (hg _).trans (group_mapGroup_other s (by exact fun _ => rfl) hid)
  · refine ⟨_, startRun_thread h hw ha, ?_⟩
    cases h.r <;> simp [Thread.enter]

/-! ### Prefixes -/

theorem prefixWord_waits (p : PrefixFields) (s : State) (v : View) (h : InRun s v) (hl : 2 ≤ v.run.left)
    (ho : ∀ x, s.wordAfter v.wg v.turn.pc = some x → orphanBefore p.uniform x = false) :
    ∃ t, exec (.prefixWord p) s = .next t ∧
      t.group? v.g.id = some { v.g with run := some { v.run with pfx := some (v.turn.pc, encodePrefix p) } } ∧
      (∀ id, id ≠ v.g.id → t.group? id = s.group? id) ∧ { t with groups := s.groups } = s := by
  have horphan : ((s.wordAfter v.wg v.turn.pc).map (orphanBefore p.uniform)).getD false = false := by
    cases hx : s.wordAfter v.wg v.turn.pc with
    | none => rfl
    | some x => simpa using ho x hx
  refine ⟨s.mapGroup v.g.id fun g => { g with run := g.run.map fun r => { r with pfx := some (v.turn.pc, encodePrefix p) } }, ?_, ?_,
    fun id hid => group_mapGroup_other s (fun _ => rfl) hid, rfl⟩
  · change execPrefixWord p s = _
    have h0 : v.run.left ≠ 0 := by omega
    have h1 : v.run.left ≠ 1 := by omega
    unfold execPrefixWord
    rw [onGroup_run h]
    simp [horphan, h0, h1]
  · exact (group_mapGroup_same s v.g.id (by exact fun _ => rfl)).trans (by rw [h.group]; simp [h.run])

/-! ### Trailers -/

/-- A thread counts one more operation in a flag. -/
def Thread.addFlag (t : Thread) (flag : Nat) : Thread := { t with flags := sset 0 t.flags flag (sget 0 t.flags flag + 1) }

/-- One operation of a trailer's entry: it takes the entry's flag, and so does every thread it is pending for. -/
def State.addOp (s : State) (wg flag id : Nat) : State :=
  match s.op? id with
  | none => s
  | some o => (s.mapOp id fun o => { o with flags := o.flags ++ [flag] }).mapThreads wg o.present (·.addFlag flag)

theorem addEntry_eq (s : State) (wg : Nat) (r : Run) (e : CompletionEntry) :
    s.addEntry wg r e = (r.ordinals.getD e.ordinal []).foldl (fun s id => s.addOp wg e.flag id) s := rfl

/-- How much one operation adds to a thread's flag. -/
def opCount (s : State) (flag id f tid : Nat) : Nat := if flag = f ∧ (s.op? id).any (fun o => o.present.contains tid) = true then 1 else 0

/-- `t` is `s` after flag `f` of thread `tid` of a workgroup took on `n f tid`. -/
structure Charged (s t : State) (wg : Nat) (n : Nat → Nat → Nat) : Prop where
  threads : ∀ tid a, s.thread? wg tid = some a → ∃ b, t.thread? wg tid = some b ∧
    (∀ f, sget 0 b.flags f = sget 0 a.flags f + n f tid) ∧ { b with flags := a.flags } = a
  present : ∀ id, (t.op? id).map (·.present) = (s.op? id).map (·.present)
  frame   : { t with wgs := s.wgs, ops := s.ops } = s

theorem charged_refl (s : State) (wg : Nat) : Charged s s wg fun _ _ => 0 :=
  ⟨fun _ a h => ⟨a, h, fun _ => rfl, rfl⟩, fun _ => rfl, rfl⟩

theorem charged_trans {s t u : State} {wg : Nat} {n m : Nat → Nat → Nat} (h : Charged s t wg n) (k : Charged t u wg m) :
    Charged s u wg fun f tid => n f tid + m f tid := by
  refine ⟨fun tid a ha => ?_, fun id => (k.present id).trans (h.present id), ?_⟩
  · obtain ⟨b, hb, hn, hrest⟩ := h.threads tid a ha
    obtain ⟨c, hc, hm, hrest'⟩ := k.threads tid b hb
    refine ⟨c, hc, fun f => by rw [hm, hn, Nat.add_assoc], ?_⟩
    rw [← hrest, ← hrest']
  · rw [← h.frame, ← k.frame]

theorem opCount_congr {s t : State} {id : Nat} (h : (t.op? id).map (·.present) = (s.op? id).map (·.present)) (flag f tid : Nat) :
    opCount t flag id f tid = opCount s flag id f tid := by
  have hany : ∀ x : Option LongOp, x.any (fun o => o.present.contains tid) = (x.map (·.present)).any (·.contains tid) := by
    intro x; cases x <;> rfl
  simp only [opCount, hany, h]

theorem op_mapOp_present (s : State) (id j : Nat) {f : LongOp → LongOp} (hid : ∀ o, (f o).id = o.id) (hp : ∀ o, (f o).present = o.present) :
    ((s.mapOp id f).op? j).map (·.present) = (s.op? j).map (·.present) := by
  unfold State.op? State.mapOp
  by_cases hj : j = id
  · rw [hj, find_updFirst_same (fun o ho => by simpa [hid] using ho), Option.map_map]
    congr 1
    funext o
    exact hp o
  · rw [find_updFirst_other fun o ho => ?_]
    have : o.id = id := by simpa using ho
    simp [hid, this, Ne.symm hj]

theorem charged_addOp (s : State) (wg flag id : Nat) : Charged s (s.addOp wg flag id) wg (opCount s flag id) := by
  cases hop : s.op? id with
  | none =>
    have hcount : opCount s flag id = fun _ _ => 0 := by
      funext f tid
      simp [opCount, hop]
    rw [hcount, State.addOp, hop]
    exact charged_refl s wg
  | some o =>
    have heq : s.addOp wg flag id =
        (s.mapOp id fun o => { o with flags := o.flags ++ [flag] }).mapThreads wg o.present (·.addFlag flag) := by
      rw [State.addOp, hop]
    rw [heq]
    refine ⟨fun tid a ha => ?_, fun j => op_mapOp_present s id j (fun _ => rfl) fun _ => rfl, rfl⟩
    have htid : a.tid = tid := by
      obtain ⟨w, -, hw⟩ := Option.bind_eq_some_iff.mp ha
      exact thread_tid hw
    have hfound : ((s.mapOp id fun o => { o with flags := o.flags ++ [flag] }).mapThreads wg o.present (·.addFlag flag)).thread? wg tid =
        some (if o.present.contains tid then a.addFlag flag else a) :=
      (thread_mapThreads _ wg o.present (by exact fun _ => rfl) tid).trans ((congrArg _ ha).trans (by simp [htid]))
    by_cases hmem : o.present.contains tid = true
    · rw [if_pos hmem] at hfound
      refine ⟨_, hfound, fun f => ?_, rfl⟩
      rw [opCount, hop, Option.any_some, hmem, Thread.addFlag, sget_sset]
      by_cases hf : f = flag
      · simp [hf]
      · simp [hf, Ne.symm hf]
    · rw [if_neg hmem] at hfound
      exact ⟨a, hfound, fun f => by rw [opCount, hop, Option.any_some, if_neg fun h => hmem h.2]; rfl, rfl⟩

theorem charged_ops (wg flag : Nat) (s : State) (ids : List Nat) : ∀ {t : State} {n : Nat → Nat → Nat}, Charged s t wg n →
    Charged s (ids.foldl (fun s id => s.addOp wg flag id) t) wg fun f tid => n f tid + (ids.map fun id => opCount s flag id f tid).sum := by
  induction ids with
  | nil => exact fun h => h
  | cons id ids ih =>
    intro t n h
    have hstep := charged_trans h (charged_addOp t wg flag id)
    have hcount : opCount t flag id = opCount s flag id := by
      funext f tid
      exact opCount_congr (h.present id) flag f tid
    rw [hcount] at hstep
    simpa [Nat.add_assoc] using ih hstep

/-- How much one entry adds to a thread's flag. -/
def entryAdds (s : State) (r : Run) (e : CompletionEntry) (f tid : Nat) : Nat :=
  if e.flag = f then ((r.ordinals.getD e.ordinal []).filter fun id => (s.op? id).any fun o => o.present.contains tid).length else 0

theorem sum_opCount (s : State) (flag f tid : Nat) (ids : List Nat) : (ids.map fun id => opCount s flag id f tid).sum =
    if flag = f then (ids.filter fun id => (s.op? id).any fun o => o.present.contains tid).length else 0 := by
  induction ids with
  | nil => simp
  | cons id ids ih =>
    rw [List.map_cons, List.sum_cons, ih, List.filter_cons, opCount]
    by_cases hf : flag = f
    · split <;> simp_all [Nat.add_comm]
    · simp [hf]

theorem charged_entries (wg : Nat) (s : State) (r : Run) (es : List CompletionEntry) : ∀ {t : State} {n : Nat → Nat → Nat},
    Charged s t wg n → Charged s (es.foldl (fun s e => s.addEntry wg r e) t) wg
      fun f tid => n f tid + (es.map fun e => entryAdds s r e f tid).sum := by
  induction es with
  | nil => exact fun h => h
  | cons e es ih =>
    intro t n h
    have hstep := charged_ops wg e.flag s (r.ordinals.getD e.ordinal []) h
    simp only [sum_opCount] at hstep
    simpa [Nat.add_assoc, entryAdds, addEntry_eq] using ih hstep

/-- The entries of a trailer charge their flags. -/
theorem charged_trailer (s : State) (wg : Nat) (r : Run) (tr : TrailerWord) :
    Charged s ((trailerEntries tr).foldl (fun s e => s.addEntry wg r e) s) wg (entryCount s r tr) := by
  have hcount : entryCount s r tr = fun f tid => 0 + ((trailerEntries tr).map fun e => entryAdds s r e f tid).sum := by
    funext f tid
    exact (Nat.zero_add _).symm
  exact hcount ▸ charged_entries wg s r (trailerEntries tr) (charged_refl s wg)

/-- No block of which no bin stands takes the divergent-reform trap. -/
theorem checkReform_noBins {s : State} {wg block : Nat} (h : ∀ b ∈ s.bins, b.wg = wg → b.block ≠ block) (at_ : Nat) :
    s.checkReform wg block at_ = s := by
  unfold State.checkReform
  cases hw : s.wg? wg with
  | none => rfl
  | some w =>
    have hnone : (s.bins.filter fun b => b.wg == w.id && b.block == block) = [] := by
      rw [List.filter_eq_nil_iff]
      intro b hb
      simpa [wg_id hw] using h b hb
    have : s.reformDiverged w block = false := by
      unfold State.reformDiverged
      rw [hnone]
      simp
    simp [this]

/-- What the end of a run does to its workgroup, where the threads go on in the group. -/
def endWg (g : Group) (clk next : Nat) (w : Workgroup) : Workgroup :=
  { w with
    threads := w.threads.map fun t => if g.tids.contains t.tid then t.endRun clk next else t
    ksettling := w.ksettling.map fun e => if e.own == some g.id then { e with own := none, ready := max e.ready clk } else e }

/-- A run that ends with nothing to file leaves its group between runs. -/
theorem endRun_fall {s : State} {g : Group} {w : Workgroup} {r : Run} (ht : r.tail = .fall) (hs : g.step = none)
    (hb : ∀ b ∈ s.bins, b.wg = w.id → b.block ≠ g.block) (park : Bool) (pc : Nat) :
    s.endRun g w r park pc = ((s.mapWg w.id (endWg g s.cyc (pc + 4))).mapGroup g.id fun g' => { g' with
      run := none, pc := pc + 4, since := s.cyc + 1, parked := park, lifted := false, skipWatch := false, step := none, held := 0, filing := none }).mapPart
        w.core g.part (·.release g.id) := by
  have htail : ∀ t : State, t.applyTail g .fall pc = t := by
    intro t
    unfold State.applyTail
    cases t.wg? g.wg <;> rfl
  unfold State.endRun
  simp only [ht, hs, htail, Tail.nextOf, Tail.waits, Option.isSome_none, Bool.and_false, Bool.false_eq_true, if_false]
  exact checkReform_noBins (by exact hb) pc

theorem endWg_thread (s : State) (g : Group) (wg clk next tid : Nat) : (s.mapWg wg (endWg g clk next)).thread? wg tid =
    (s.thread? wg tid).map fun t => if g.tids.contains t.tid then t.endRun clk next else t := by
  unfold State.thread?
  rw [wg_mapWg_same _ _ (by exact fun _ => rfl)]
  cases s.wg? wg with
  | none => rfl
  | some w => exact find_map_tid (fun t => by split <;> rfl) tid w.threads

theorem trailer_endsRun (tr : TrailerWord) (s : State) (v : View) (h : InRun s v) (hl : v.run.left = 0)
    (he : ∀ e ∈ trailerEntries tr, e.ordinal < v.run.ordinals.length) (ht : v.run.tail = .fall)
    (hs : v.g.step = none) (hb : ∀ b ∈ s.bins, b.wg = v.wg.id → b.block ≠ v.g.block) :
    ∃ t, exec (.trailer tr) s = .next t ∧
      t.group? v.g.id = some { v.g with
        run := none, pc := v.turn.pc + 4, since := s.cyc + 1, parked := tr.park, lifted := false, skipWatch := false, step := none, held := 0, filing := none } ∧
      (∀ id, id ≠ v.g.id → t.group? id = s.group? id) ∧
      (∀ a ∈ v.threads, ∃ b, t.thread? v.wg.id a.tid = some b ∧ b.o = [] ∧ b.l = [] ∧ b.next = v.turn.pc + 4 ∧ b.trailer = s.cyc ∧
        b.settling = [] ∧ b.x = a.x ∧ b.p = a.p ∧ b.regions = a.regions ∧ b.place = a.place ∧
        ∀ f, sget 0 b.flags f = sget 0 a.flags f + entryCount s v.run tr f a.tid) ∧
      t.mem = s.mem ∧ t.path = s.path ∧ t.bins = s.bins ∧ t.events = s.events := by
  obtain ⟨m, hm⟩ : ∃ m, m = (trailerEntries tr).foldl (fun s e => s.addEntry v.wg.id v.run e) s := ⟨_, rfl⟩
  have hc : Charged s m v.wg.id (entryCount s v.run tr) := hm ▸ charged_trailer s v.wg.id v.run tr
  have hentries : (trailerEntries tr).any (fun e => decide (v.run.ordinals.length ≤ e.ordinal)) = false :=
    List.any_eq_false.mpr fun e h => by simpa using he e h
  have hexec : exec (.trailer tr) s = .next (m.endRun v.g v.wg v.run tr.park v.turn.pc) := by
    change execTrailer tr s = _
    unfold execTrailer
    rw [onGroup_run h, hm]
    simp [hl, hentries]
  obtain ⟨hcyc, hbins, hgroups, hmem, hpath, hevents⟩ :
      m.cyc = s.cyc ∧ m.bins = s.bins ∧ m.groups = s.groups ∧ m.mem = s.mem ∧ m.path = s.path ∧ m.events = s.events := by
    rw [← hc.frame]
    exact ⟨rfl, rfl, rfl, rfl, rfl, rfl⟩
  have hgroup : ∀ id, m.group? id = s.group? id := fun id => by rw [State.group?, hgroups]; rfl
  rw [hexec, endRun_fall ht hs (hbins ▸ hb), hcyc]
  refine ⟨_, rfl, ?_, fun id hid => ?_, fun a ha => ?_, hmem, hpath, hbins, hevents⟩
  · exact (group_mapGroup_same (m.mapWg _ _) v.g.id (by exact fun _ => rfl)).trans
      ((congrArg _ ((hgroup _).trans h.group)).trans rfl)
  · exact (group_mapGroup_other (m.mapWg _ _) (by exact fun _ => rfl) hid).trans (hgroup id)
  · obtain ⟨hthread, htid⟩ := mem_groupThreads ha
    obtain ⟨b, hbt, hflags, hrest⟩ := hc.threads a.tid a (by simp [State.thread?, inRun_own h, hthread])
    obtain ⟨e1, e2, e3, e4, e5⟩ : b.tid = a.tid ∧ b.x = a.x ∧ b.p = a.p ∧ b.regions = a.regions ∧ b.place = a.place := by
      rw [← hrest]
      exact ⟨rfl, rfl, rfl, rfl, rfl⟩
    refine ⟨b.endRun s.cyc (v.turn.pc + 4), ?_, rfl, rfl, rfl, rfl, rfl, e2, e3, e4, e5, hflags⟩
    exact (endWg_thread m v.g v.wg.id s.cyc (v.turn.pc + 4) a.tid).trans (by rw [hbt]; simp [e1, htid])

/-- Settles O38: headers, prefixes and trailers. -/
theorem runControlWords : Obligations.RunControlWords :=
  ⟨header_startsRun, prefixWord_waits, trailer_endsRun⟩

end Sys2Proof.Machine
end

section
/-!
PROOFS. Where the words of lanes complete (O54).
-/
namespace Sys2Proof.Machine
open Sys2Proof.Spec

/-! ### Words of fixed latency -/

/-- A meaning gives every present lane a result of its own at a fixed latency. -/
structure GivesLanes (exec : State → Result) (f : Form) (lat : Nat) (draws : View → List Src) : Prop where
  runs : ∀ s v, InRun s v → Usable v f.srcs f.d → ∃ t out, exec s = .next t ∧ (∀ l : Thread, (out l).tid = l.tid) ∧
    LaneEffect (atReady s v f.guard f.srcs (draws v) []) t v f.d ((atReady s v f.guard f.srcs (draws v) []).cyc + lat) out

theorem laneWord_givesLanes (f : Form) (lat wa wb wc wg : Nat) (draws : View → List Src)
    (compute : State → View → Thread → W64 → W64 → W64 → W64 × Option PredWrite) :
    GivesLanes (laneWord f lat wa wb wc wg draws [] compute) f lat draws := by
  refine ⟨fun s v h hu => ?_⟩
  obtain ⟨t, ht, he⟩ := laneWord_run h f lat wa wb wc wg draws [] compute hu
  exact ⟨t, _, ht, fun _ => rfl, he⟩

theorem crossWord_givesLanes (f : Form) (draws : View → List Src) (compute : State → View → Positions → Thread → W64 × W64) :
    GivesLanes (crossWord f draws compute) f 5 draws := by
  refine ⟨fun s v h hu => ?_⟩
  obtain ⟨t, ht, he⟩ := crossWord_run h f draws compute hu
  exact ⟨t, _, ht, fun _ => rfl, he⟩

theorem laneFloat_givesLanes (op : FloatOp) (f : Form) : GivesLanes (laneFloat op f) f 4 rsrSources := laneWord_givesLanes ..
theorem laneDot2_givesLanes (addend : Bool) (f : Form) : GivesLanes (laneDot2 addend f) f 4 rsrSources := by unfold laneDot2; exact laneWord_givesLanes ..
theorem laneClass_givesLanes (f : Form) : GivesLanes (laneClass f) f 4 noDraw := laneWord_givesLanes ..
theorem laneExponent_givesLanes (f : Form) : GivesLanes (laneExponent f) f 4 noDraw := laneWord_givesLanes ..
theorem laneFcmp_givesLanes (c : FCond) (q : Nat) (f : Form) : GivesLanes (laneFcmp c q f) f 4 noDraw := laneWord_givesLanes ..
theorem lanePk_givesLanes (f : Form) : GivesLanes (lanePk f) f 2 noDraw := by unfold lanePk; exact laneWord_givesLanes ..
theorem laneUpk_givesLanes (half : Nat) (f : Form) : GivesLanes (laneUpk half f) f 2 noDraw := by unfold laneUpk; exact laneWord_givesLanes ..
theorem laneRng_givesLanes (f : Form) : GivesLanes (laneRng f) f 2 fun _ => [.k 61, .k 62, .k 63] := laneWord_givesLanes ..
theorem execCvt_givesLanes (f : F64) (m : CvtMod) : GivesLanes (execCvt f m) (form64 f) 2 rsrSources := by unfold execCvt; exact laneWord_givesLanes ..
theorem execDqn_givesLanes (f : F64) (m : CvtMod) (band : Bool) : GivesLanes (execDqn f m band) (form64 f) 2 rsrSources :=
  by unfold execDqn; exact laneWord_givesLanes ..
theorem execQnt_givesLanes (f : F64) (m : CvtMod) (scale : Bool) :
    GivesLanes (execQnt f m scale) (form64 f) 2 (if scale then noDraw else rsrSources) := by unfold execQnt; exact laneWord_givesLanes ..
theorem laneGather_givesLanes (f : Form) (index : Nat → Nat → Nat) : GivesLanes (laneGather f index) f 5 noDraw := crossWord_givesLanes ..
theorem execXbc_givesLanes (f : F64) (lane sub : Nat) : GivesLanes (execXbc f lane sub) (form64 f) 5 noDraw := by
  unfold execXbc; exact laneGather_givesLanes ..
theorem execXrot_givesLanes (f : F32) (n : Int) : GivesLanes (execXrot f n) (form32 .i f) 5 noDraw := by
  unfold execXrot; exact laneGather_givesLanes ..
theorem execXrot64_givesLanes (f : F64) (n : Nat) : GivesLanes (execXrot64 f n) (form64 f) 5 noDraw := by
  unfold execXrot64; exact laneGather_givesLanes ..
theorem lanePush_givesLanes (f : Form) : GivesLanes (lanePush f) f 5 noDraw := crossWord_givesLanes ..
theorem laneMatch_givesLanes (f : Form) : GivesLanes (laneMatch f) f 5 noDraw := crossWord_givesLanes ..
theorem laneVote_givesLanes (m : VoteMode) (f : Form) : GivesLanes (laneVote m f) f 5 noDraw := crossWord_givesLanes ..
theorem laneReduce_givesLanes (scan : Bool) (op : RedOp) (f : Form) : GivesLanes (laneReduce scan op f) f 5 rsrSources :=
  by unfold laneReduce; exact crossWord_givesLanes ..

/-- Every float, conversion and cross-lane word of fixed latency gives every present lane a result. -/
theorem fixedWord_givesLanes {i : Instr} {f : Form} {lat : Nat} {draws : View → List Src} (h : fixedWord i = some (f, lat, draws)) :
    GivesLanes (exec i) f lat draws := by
  unfold fixedWord at h
  split at h
  all_goals cases h
  case h_8 | h_17 => exact laneDot2_givesLanes _ _
  case h_24 | h_27 => exact laneClass_givesLanes _
  case h_25 | h_28 => exact laneExponent_givesLanes _
  case h_26 | h_29 | h_30 => exact laneFcmp_givesLanes _ _ _
  case h_31 | h_33 => exact lanePk_givesLanes _
  case h_32 | h_34 => exact laneUpk_givesLanes _ _
  case h_35 | h_36 => exact laneRng_givesLanes _
  case h_37 => exact execCvt_givesLanes _ _
  case h_38 => exact execDqn_givesLanes _ _ _
  case h_39 => exact execQnt_givesLanes _ _ _
  case h_40 => exact laneGather_givesLanes (form32 .i _) fun _ b => b
  case h_45 => exact laneGather_givesLanes (form64 _) fun _ b => b
  case h_41 => exact execXrot_givesLanes _ _
  case h_46 => exact execXbc_givesLanes _ _ _
  case h_47 => exact execXrot64_givesLanes _ _
  case h_42 | h_48 => exact lanePush_givesLanes _
  case h_43 | h_49 => exact laneMatch_givesLanes _
  case h_44 | h_50 => exact laneVote_givesLanes _ _
  case h_51 | h_52 | h_53 | h_54 => exact laneReduce_givesLanes _ _ _
  all_goals exact laneFloat_givesLanes _ _

/-! ### Long-latency words -/

/-- The register that an operation's result will go to is taken from the earlier operations. -/
def State.claim (s : State) (v : View) (dst : Dst) (tids : List Nat) : State :=
  match dst with
  | .x n => s.supersede v.wg.id tids n
  | _ => s

theorem claim_undropped (s : State) (v : View) (dst : Dst) (tids : List Nat) : (s.claim v dst tids).ops.map undropped = s.ops.map undropped := by
  unfold State.claim
  split
  · exact supersede_ops ..
  · rfl

/-- An operation of a group at its issue. -/
def askedOp (s : State) (v : View) (dst : Dst) (a : Asked) : LongOp :=
  { newOp s (.group v.g.id) v.wg.id v.wg.core v.leaf.job v.turn.pc a.kind dst with tids := a.tids, present := a.tids, after := a.after }

/-- The operation joins the last ordinal of the run. -/
def Group.joinOrdinal (g : Group) (id : Nat) : Group :=
  { g with run := g.run.map fun r => { r with ordinals := r.ordinals.dropLast ++ [r.ordinals.getLast?.getD [] ++ [id]] } }

/-- Issuing an operation that returns: its register is claimed, it joins the last ordinal, and it is pending. -/
theorem issueOp_eq (s : State) (v : View) (dst : Dst) (a : Asked) :
    s.issueOp v a.kind dst a.tids a.tids a.after true =
      { s with
        ops := (s.claim v dst a.tids).ops ++ [askedOp s v dst a]
        groups := updFirst (·.id == v.g.id) (·.joinOrdinal s.seq) s.groups
        seq := s.seq + 1 } := by
  unfold State.issueOp State.claim
  cases dst <;> rfl

/-- Some operations of a group, each the next ordinal's. -/
def State.issueAll (s : State) (v : View) (dst : Dst) (asked : List Asked) : State :=
  asked.foldl (fun s a => s.issueOp v a.kind dst a.tids a.tids a.after true) s

/-- Issuing one more operation. -/
theorem issued_snoc {s t : State} {v : View} {dst : Dst} {tail : Tail} {asked : List Asked} (h : Issued s t v dst tail asked)
    (hseq : t.seq = s.seq + asked.length) (a : Asked) :
    Issued s (t.issueOp v a.kind dst a.tids a.tids a.after true) v dst tail (asked ++ [a]) := by
  obtain ⟨new, hops, hnew, hgroup, hother, hframe⟩ := h
  have hcyc : t.cyc = s.cyc := by rw [← hframe]
  rw [issueOp_eq]
  refine ⟨new ++ [askedOp t v dst a], ?_, ?_, ?_, fun id hid => ?_, ?_⟩
  · simp only [List.map_append, claim_undropped] at hops ⊢
    rw [hops, List.append_assoc]
  · rw [List.map_append, hnew, List.zipIdx_append, List.map_append]
    simp [askedOp, newOp, undropped, hseq, hcyc]
  · refine (group_mapGroup_same t v.g.id (f := (·.joinOrdinal t.seq)) fun _ => rfl).trans ?_
    rw [hgroup]
    simp [Group.joinOrdinal, askedOp, newOp]
  · exact (group_mapGroup_other t (f := (·.joinOrdinal t.seq)) (fun _ => rfl) hid).trans (hother id hid)
  · rw [← hframe]

theorem issueOp_seq (s : State) (v : View) (dst : Dst) (a : Asked) :
    (s.issueOp v a.kind dst a.tids a.tids a.after true).seq = s.seq + 1 := by
  rw [issueOp_eq]

theorem issued_all {s : State} {v : View} {dst : Dst} {tail : Tail} (asked : List Asked) : ∀ {t : State} {before : List Asked},
    Issued s t v dst tail before → t.seq = s.seq + before.length → Issued s (t.issueAll v dst asked) v dst tail (before ++ asked) := by
  induction asked with
  | nil => intro t before h _; rwa [List.append_nil]
  | cons a asked ih =>
    intro t before h hseq
    have := ih (issued_snoc h hseq a) (by rw [issueOp_seq, hseq]; simp [Nat.add_assoc])
    rwa [List.append_assoc] at this

/-- The next ordinal begins without an operation. -/
theorem issued_nil {s : State} {v : View} (hg : s.group? v.g.id = some v.g) (hr : v.g.run = some v.run) (dst : Dst) :
    Issued s (s.beginOrdinal v.g.id) v dst v.run.tail [] := by
  refine ⟨[], by rw [List.append_nil]; rfl, rfl, ?_, fun id hid => group_mapGroup_other s (by exact fun _ => rfl) hid, rfl⟩
  refine (group_mapGroup_same s v.g.id (by exact fun _ => rfl)).trans ?_
  rw [hg]
  simp [hr]

/-- A long-latency word of a group that is done at the clk `s` begins the next ordinal with the operations asked for. -/
theorem issued_ordinal {s : State} {v : View} (hg : s.group? v.g.id = some v.g) (hr : v.g.run = some v.run) (dst : Dst)
    (asked : List Asked) : Issued s ((s.beginOrdinal v.g.id).issueAll v dst asked) v dst v.run.tail asked :=
  issued_all asked (issued_nil hg hr dst) rfl

theorem holdTo_group (s : State) (v : View) (c id : Nat) : (s.holdTo v c).group? id = s.group? id := by
  unfold State.holdTo; split <;> rfl

theorem atReady_group (s : State) (v : View) (g : Option Guard) (a b : List Src) (p : List Nat) (id : Nat) :
    (atReady s v g a b p).group? id = s.group? id := by
  unfold atReady; rw [holdTo_group, holdTo_group]

/-- A meaning begins an ordinal with one operation for each lane that a guard bit is on for. -/
structure IssuesLanes (exec : State → Result) (f : Form) : Prop where
  runs : ∀ s v, InRun s v → Usable v f.srcs f.d → v.run.ordinals.length < 16 →
    ∃ t asked, exec s = .next t ∧ Issued (atReady s v f.guard f.srcs (rsrSources v) []) t v f.d v.run.tail asked ∧
      asked.map (·.tids) = (v.threads.filter fun l =>
        anyOn f.n ((atReady s v f.guard f.srcs (rsrSources v) []).guard v f.guard l)).map fun l => [l.tid]

/-- What a float word of long latency asks for one lane. -/
def valueAsked (s : State) (v : View) (f : Form) (compute : State → View → Thread → W64 → W64 → W64) (t : Thread) : Asked :=
  ⟨.value (compute s v t (s.source v t f.w f.a) (s.operandB v t f.w f)) (s.guard v f.guard t) f.shape, [t.tid], []⟩

theorem foldl_ite_filter {α β : Type} (p : α → Bool) (f : β → α → β) (l : List α) : ∀ b : β,
    l.foldl (fun b a => if p a then f b a else b) b = (l.filter p).foldl f b := by
  induction l with
  | nil => exact fun _ => rfl
  | cons a l ih =>
    intro b
    rw [List.foldl_cons, ih, List.filter_cons]
    cases p a <;> rfl

theorem longWord_issuesLanes (f : Form) (compute : State → View → Thread → W64 → W64 → W64) : IssuesLanes (longWord f compute) f := by
  refine ⟨fun s v h hu hn => ?_⟩
  obtain ⟨s1, hs1⟩ : ∃ s1, s1 = atReady s v f.guard f.srcs (rsrSources v) [] := ⟨_, rfl⟩
  have hg : s1.group? v.g.id = some v.g := by rw [hs1, atReady_group]; exact h.group
  refine ⟨_, (v.threads.filter fun l => anyOn f.n (s1.guard v f.guard l)).map (valueAsked s1 v f compute), ?_,
    hs1 ▸ issued_ordinal hg h.run f.d _, ?_⟩
  · unfold longWord
    rw [withLanes_run h hu fun _ => hn, State.issueAll, List.foldl_map, ← foldl_ite_filter, hs1]
    rfl
  · rw [← hs1, List.map_map]
    rfl

theorem longFloat_issuesLanes (op : FloatOp) (f : Form) : IssuesLanes (longFloat op f) f := longWord_issuesLanes ..
theorem laneSpecial_issuesLanes (fn : SpecialFn) (f : Form) : IssuesLanes (laneSpecial fn f) f := longWord_issuesLanes ..

/-- Every float word of long latency begins an ordinal. -/
theorem longWord?_issuesLanes {i : Instr} {f : Form} (h : longWord? i = some f) : IssuesLanes (exec i) f := by
  unfold longWord? at h
  split at h <;> cases h
  case h_1 | h_2 | h_3 | h_9 | h_10 | h_11 | h_17 => exact longFloat_issuesLanes _ _
  all_goals exact laneSpecial_issuesLanes _ _

end Sys2Proof.Machine
end

section
/-!
PROOFS. Prefetches that pass the checks of a load (O54).
-/
namespace Sys2Proof.Machine
open Sys2Proof.Spec

/-! ### What an access leaves alone -/

/-- `t` is `s` but for memory, its chunks and errors, the L1s and the translations held. -/
def SameUnits (s t : State) : Prop :=
  { t with mem := s.mem, l1 := s.l1, tlb := s.tlb, errors := s.errors, chunks := s.chunks } = s

theorem sameUnits_refl (s : State) : SameUnits s s := rfl

theorem sameUnits_trans {s t u : State} (h : SameUnits s t) (k : SameUnits t u) : SameUnits s u := by
  unfold SameUnits at h k ⊢
  rw [← h, ← k]

theorem sameUnits_foldl {α : Type} {f : State → α → State} (h : ∀ s a, SameUnits s (f s a)) (l : List α) : ∀ s, SameUnits s (l.foldl f s) := by
  induction l with
  | nil => exact sameUnits_refl
  | cons a l ih => exact fun s => sameUnits_trans (h s a) (ih (f s a))

theorem sameUnits_touch (s : State) (pa : Nat) : SameUnits s (s.touch pa) := by
  unfold State.touch
  dsimp only
  split <;> rfl

theorem sameUnits_evictOthers (s : State) (core : Option Nat) (pa : Nat) : SameUnits s (s.evictOthers core pa) := by
  unfold State.evictOthers
  dsimp only
  split <;> rfl

theorem sameUnits_homeRead (s : State) (core : Option Nat) (pa n : Nat) : SameUnits s (s.homeRead core pa n).2 :=
  sameUnits_trans (sameUnits_touch s pa) (sameUnits_evictOthers _ core pa)

theorem sameUnits_homeWrite (s : State) (l : List (Nat × Byte)) : SameUnits s (s.homeWrite l) :=
  sameUnits_trans (sameUnits_foldl (f := fun (s : State) (e : Nat × Byte) => s.touch e.1) (fun s e => sameUnits_touch s e.1) l s) rfl

theorem sameUnits_backs (s : State) (p : Page) (va : Nat) : SameUnits s (s.backs p va) := by
  unfold State.backs
  dsimp only
  split <;> rfl

theorem sameUnits_tlb (s : State) (l : List TlbEntry) : SameUnits s { s with tlb := l } := rfl

theorem sameUnits_l1 (s : State) (l : Sparse L1Byte) : SameUnits s { s with l1 := l } := rfl

theorem sameUnits_walkFrom (va : Nat) : ∀ (fuel level base : Nat) (s : State), SameUnits s (s.walkFrom va fuel level base).2 := by
  intro fuel
  induction fuel with
  | zero => exact fun _ _ s => sameUnits_refl s
  | succ fuel ih =>
    intro level base s
    unfold State.walkFrom
    dsimp only
    split
    · exact sameUnits_refl s
    · have hread := sameUnits_homeRead s none (base + 16 * levelIndex level va) 16
      split
      · exact hread
      · exact sameUnits_trans hread (ih _ _ _)
      · exact hread

theorem sameUnits_walkAfresh {s u : State} {a : Accessor} {j : Job} {r : PageRule} {va : Nat} {p : Page}
    (h : s.walkAfresh a j r va = .ok (p, u)) : SameUnits s u := by
  have hwalk : SameUnits s (s.walk j.root va).2 := sameUnits_walkFrom va 4 0 j.root s
  unfold State.walkAfresh at h
  split at h
  · cases h
  · next e =>
    rw [e] at hwalk
    dsimp only at h
    split at h
    · cases h
    · cases h
      exact sameUnits_trans hwalk (sameUnits_trans (sameUnits_homeWrite _ _) (sameUnits_trans (sameUnits_backs _ _ _) (sameUnits_tlb _ _)))

theorem sameUnits_translate {s u : State} {a : Accessor} {r : PageRule} {sticky : Bool} {va : Nat} {p : Page}
    (h : s.translate a r sticky va = .ok (p, u)) : SameUnits s u := by
  unfold State.translate at h
  split at h
  · cases h
  split at h
  · cases h
  dsimp only at h
  split at h
  · split at h
    · exact sameUnits_walkAfresh h
    · split at h
      · cases h
      · cases h
        exact sameUnits_trans (sameUnits_tlb s _) (sameUnits_backs _ _ _)
  · exact sameUnits_walkAfresh h

theorem sameUnits_access {s u : State} {a : Accessor} {r : PageRule} {sticky : Bool} {va : Nat} {p : Page}
    (h : s.access a r sticky va = .ok (p, u)) : SameUnits s u := by
  unfold State.access at h
  split at h
  · split at h
    · cases h
      exact sameUnits_refl s
    · cases h
  · exact sameUnits_translate h

theorem sameUnits_fillSector (s : State) (core : Nat) (coreScope : Bool) (job pa : Nat) : SameUnits s (s.fillSector core coreScope job pa) := by
  have hread := sameUnits_homeRead s (some core) (pa / 32 * 32) 32
  unfold State.fillSector
  dsimp only
  generalize s.homeRead (some core) (pa / 32 * 32) 32 = q at hread ⊢
  exact sameUnits_trans hread (sameUnits_l1 _ _)

/-! ### Prefetches -/

/-- The address form of R119 that an instruction's form of address stands for. -/
def IsForm119 (a : Address) (f : Form) (m : Form119) : Prop := ∀ s v t, State.laneAddress s v a f t = addressOf s v f m t

theorem w64_unsigned (x : Int) : w64 (unsigned 64 x) = BitVec.ofInt 64 x := by
  apply BitVec.eq_of_toNat_eq
  simp only [w64, unsigned, BitVec.toNat_ofNat, BitVec.toNat_ofInt]
  omega

theorem isForm119_scaled (f : Form) (off : Int) : IsForm119 (.scaled off) f (.offset off) := by
  intro s v t
  simp only [State.laneAddress, Address.of, addressOf, w64_unsigned, widthOf]

theorem isForm119_indexed (f : Form) (k : Nat) : IsForm119 (.indexed k) f (.index k) := fun _ _ _ => rfl

theorem isForm119_plain (f : F64I) : IsForm119 .plain (memForm f) (.imm f.imm) := fun _ _ _ => rfl

/-- One lane's prefetch, as `checkLanes` checks it. -/
def prefCheck (a : Address) (f : Form) (v : View) (s : State) (t : Thread) : Checked (Page × Nat) :=
  let va := s.laneAddress v a f t
  if va % widthOf f.shape ≠ 0 then .error (2, 0, va) else
  match s.access (s.wgAccessor v.wg) (loadRule (widthOf f.shape)) false va with
  | .error e => .error (3, e, va)
  | .ok (p, s) => .ok ((p, va), s)

/-- Lanes whose prefetches pass raise no fault, and their checks are accesses. -/
theorem checkLanes_pref {a : Address} {f : Form} {m : Form119} {v : View} (hm : IsForm119 a f m) (l : List Thread) : ∀ {s : State},
    PrefetchesPass v f m s l →
      ∃ ok u, checkLanes s v.wg (prefCheck a f v) l = (ok, [], u) ∧ SameUnits s u := by
  induction l with
  | nil => exact fun _ => ⟨[], _, rfl, sameUnits_refl _⟩
  | cons t l ih =>
    rintro s ⟨halign, p, u, haccess, hrest⟩
    obtain ⟨ok, w, hok, hsame⟩ := ih hrest
    have hone : prefCheck a f v s t = .ok ((p, addressOf s v f m t), u) := by
      have hloads : s.access (s.wgAccessor v.wg) (loadRule (widthOf f.shape)) false (addressOf s v f m t) = .ok (p, u) := haccess
      unfold prefCheck
      rw [hm s v t]
      dsimp only
      rw [if_neg (show ¬(addressOf s v f m t % widthOf f.shape ≠ 0) from fun hbad => hbad halign), hloads]
    refine ⟨(t, p, addressOf s v f m t) :: ok, w, ?_, sameUnits_trans (sameUnits_access haccess) hsame⟩
    rw [checkLanes, hone]
    dsimp only
    rw [hok]

/-- What a lane's prefetch that passed may do: fill the sector of its place. -/
def prefFill (target : PrefTarget) (v : View) (s : State) (e : Thread × Page × Nat) : State :=
  let p := e.2.1
  let fill := target == .l1 && (p.home e.2.2 == .home || p.home e.2.2 == .core)
  if fill && Config.choose s.fresh (32 * p.pa e.2.2 + 5) then s.fillSector v.wg.core (p.share == 0) v.leaf.job (p.pa e.2.2) else s

theorem sameUnits_prefFill (target : PrefTarget) (v : View) (s : State) (e : Thread × Page × Nat) : SameUnits s (prefFill target v s e) := by
  unfold prefFill
  dsimp only
  split
  · exact sameUnits_fillSector ..
  · exact sameUnits_refl s

/-- What a prefetch does once its lanes are checked: the trap of those that failed, or the fills. -/
def prefDone (target : PrefTarget) (v : View) (q : List (Thread × Page × Nat) × List (Nat × Nat × Nat × Nat) × State) : Result :=
  if !q.2.1.isEmpty then .next (q.2.2.trapLanes q.2.1) else .next (q.1.foldl (prefFill target v) q.2.2)

theorem lanePref_eq (a : Address) (target : PrefTarget) (f : Form) (s : State) :
    lanePref a target f s = withLanes f.guard [f.a, f.b] [] .none false s fun v s =>
      prefDone target v (checkLanes s v.wg (prefCheck a f v) (v.threads.filter (bit0 s v f.guard))) := rfl

/-- With no source to be drawn, a word waits for its operands alone. -/
theorem atReady_noDraw (s : State) (v : View) (g : Option Guard) (srcs : List Src) (preds : List Nat) :
    atReady s v g srcs [] preds = s.holdTo v (State.sourcesReady v v.threads srcs (preds ++ guardPreds v g)) := by
  have hnone : State.sourcesReady v v.threads [] [] = 0 := by
    unfold State.sourcesReady
    simp only [List.foldl_nil]
    generalize v.threads = l
    induction l with
    | nil => rfl
    | cons t l ih => exact ih
  unfold atReady
  rw [hnone, State.holdTo, if_pos (Nat.zero_le _)]

theorem atReady_units (s : State) (v : View) (g : Option Guard) (a b : List Src) (p : List Nat) :
    (atReady s v g a b p).ops = s.ops ∧ (atReady s v g a b p).copies = s.copies ∧ (atReady s v g a b p).groups = s.groups := by
  have hhold : ∀ (s : State) c, (s.holdTo v c).ops = s.ops ∧ (s.holdTo v c).copies = s.copies ∧ (s.holdTo v c).groups = s.groups := by
    intro s c
    unfold State.holdTo
    split <;> exact ⟨rfl, rfl, rfl⟩
  obtain ⟨ho, hc, hg⟩ := hhold s (State.sourcesReady v v.threads a (p ++ guardPreds v g))
  obtain ⟨ho', hc', hg'⟩ := hhold (s.holdTo v (State.sourcesReady v v.threads a (p ++ guardPreds v g))) (State.sourcesReady v v.threads b [])
  exact ⟨ho'.trans ho, hc'.trans hc, hg'.trans hg⟩

/-- A meaning completes without a trap where each active lane passes the checks of a load; it changes no group, operation or copy. -/
structure Prefetches (exec : State → Result) (f : Form) (m : Form119) : Prop where
  runs : ∀ s v, InRun s v → Usable v [f.a, f.b] .none →
    PrefetchesPass v f m (atReady s v f.guard [f.a, f.b] [] []) (v.threads.filter (bit0 (atReady s v f.guard [f.a, f.b] [] []) v f.guard)) →
    ∃ t, exec s = .next t ∧ t.group? v.g.id = some v.g ∧ t.ops = s.ops ∧ t.copies = s.copies

theorem lanePref_prefetches {a : Address} {f : Form} {m : Form119} (hm : IsForm119 a f m) (target : PrefTarget) :
    Prefetches (lanePref a target f) f m := by
  refine ⟨fun s v h hu hpass => ?_⟩
  obtain ⟨ok, u, hok, hsame⟩ := checkLanes_pref hm _ hpass
  have hfill : SameUnits (atReady s v f.guard [f.a, f.b] [] []) (ok.foldl (prefFill target v) u) :=
    sameUnits_trans hsame (sameUnits_foldl (sameUnits_prefFill target v) ok u)
  obtain ⟨hops, hcopies, hgroups⟩ := atReady_units s v f.guard [f.a, f.b] [] []
  have hrun : lanePref a target f s = .next (ok.foldl (prefFill target v) u) := by
    rw [lanePref_eq, withLanes_run h hu Bool.noConfusion, ← atReady_noDraw, hok]
    rfl
  obtain ⟨t, ht⟩ : ∃ t, t = ok.foldl (prefFill target v) u := ⟨_, rfl⟩
  rw [← ht] at hfill hrun
  have hu : t.groups = (atReady s v f.guard [f.a, f.b] [] []).groups ∧ t.ops = (atReady s v f.guard [f.a, f.b] [] []).ops ∧
      t.copies = (atReady s v f.guard [f.a, f.b] [] []).copies := by
    rw [← hfill]
    exact ⟨rfl, rfl, rfl⟩
  obtain ⟨hgroup, hop, hcopy⟩ := hu
  refine ⟨t, hrun, ?_, hop.trans hops, hcopy.trans hcopies⟩
  rw [State.group?, hgroup, hgroups]
  exact h.group

/-- Every prefetch completes where its lanes pass the checks of a load. -/
theorem prefetch?_prefetches {i : Instr} {f : Form} {m : Form119} (h : prefetch? i = some (f, m)) : Prefetches (exec i) f m := by
  unfold prefetch? at h
  split at h <;> cases h
  case h_1 => exact lanePref_prefetches (isForm119_scaled _ _) .l1
  case h_2 => exact lanePref_prefetches (isForm119_indexed _ _) _
  case h_3 => exact lanePref_prefetches (isForm119_plain _) .l1

end Sys2Proof.Machine
end

section
/-!
PROOFS. Where the words of lanes trap, and what taking the trap does (O54).
-/
namespace Sys2Proof.Machine
open Sys2Proof.Spec

/-! ### The records of events -/

/-- The words of an event without a detail or an address are the record of its parts. -/
theorem eventWords_record (cause sub handle code : Nat) (cont reexec : Bool) (pc resume regions lanes leaf cyc w job : Nat) :
    eventWords cause sub 0 handle code cont reexec pc resume 0 regions lanes leaf cyc w job =
      record cause sub handle code cont reexec pc resume regions lanes leaf cyc w job := by
  cases cont <;> cases reexec <;> simp [eventWords, record, w64]

theorem jobOf_leaf {s : State} {w : Workgroup} {l : Region} (h : s.leafOf w = some l) : s.jobOf w = l.job := by
  simp [State.jobOf, h]

/-- The event of a thread's stop, in a workgroup whose leaf is found. -/
theorem wgEvent_thread {s : State} {w : Workgroup} {l : Region} {th : Thread} {tid : Nat} {st : Stop} (hl : s.leafOf w = some l)
    (ht : w.thread? tid = some th) (hd : st.detail = 0) (ha : st.addr = 0) :
    s.wgEvent w tid false st = record st.cause st.sub (w.core + w.slot * 2 ^ 8 + tid * 2 ^ 13) st.code st.cont st.reexec st.pc
      (s.resumeHeader w th).1 th.regions.toNat (laneBits st.lanes) l.va s.cyc w.w l.job := by
  unfold State.wgEvent
  dsimp only
  rw [hd, ha, eventWords_record, hl, ht, jobOf_leaf hl]
  rfl

/-! ### Traps of a group -/

/-- The lanes that raise a trap: those named, or all of the group. -/
def raisedBy (g : Group) (lanes : List Nat) : List Nat := if lanes.isEmpty then g.lanes else lanes

/-- A trap of a word that only a re-execution can follow stops its group before it, and its event waits. -/
theorem trapHere_groupTraps {s : State} {v : View} (h : InRun s v) (hs : v.g.stop = none) {cause sub : Nat}
    (hf : stopFlags cause sub = (false, true)) (lanes : List Nat) :
    GroupTraps s (s.trapHere cause sub 0 0 lanes) v cause sub (raisedBy v.g lanes)
      (32 * v.g.block + ((raisedBy v.g lanes).head?.or v.g.lanes.head?).getD 0) := by
  have hfree : (v.g.stop.map fun x => !x.debug).getD false = false := by rw [hs]; rfl
  rw [trapHere_group h]
  refine ⟨⟨_, trapGroup_group h.group h.wg hfree .., ?_⟩, fun id hid => trapGroup_other s hid .., ?_, ?_⟩
  · simp [groupStop, hf, raisedBy]
  · rw [trapGroup_eq h.group h.wg hfree]
    refine ⟨_, rfl, rfl, rfl, rfl, rfl, fun th hth => ?_⟩
    refine (wgEvent_thread h.leaf hth rfl rfl).trans ?_
    simp [groupStop, hf, raisedBy]
  · rw [trapGroup_eq h.group h.wg hfree]

/-! ### Words that check their operands -/

/-- A meaning begins with the checks at issue of a lane-set word on the operands of a form. -/
structure ChecksLanes (exec : State → Result) (f : Form) (long : Bool) : Prop where
  checks : ∃ body, ∀ s, exec s = withLanes f.guard f.srcs [] f.d long s body

theorem laneWord_checksLanes (f : Form) (lat wa wb wc wg : Nat) (draws : View → List Src)
    (compute : State → View → Thread → W64 → W64 → W64 → W64 × Option PredWrite) :
    ChecksLanes (laneWord f lat wa wb wc wg draws [] compute) f false := ⟨_, fun _ => rfl⟩
theorem longWord_checksLanes (f : Form) (compute : State → View → Thread → W64 → W64 → W64) :
    ChecksLanes (longWord f compute) f true := ⟨_, fun _ => rfl⟩

theorem laneInt_checksLanes (op : IntOp) (f : Form) : ChecksLanes (laneInt op f) f false := laneWord_checksLanes ..
theorem laneFloat_checksLanes (op : FloatOp) (f : Form) : ChecksLanes (laneFloat op f) f false := laneWord_checksLanes ..
theorem longFloat_checksLanes (op : FloatOp) (f : Form) : ChecksLanes (longFloat op f) f true := longWord_checksLanes ..
theorem laneSpecial_checksLanes (fn : SpecialFn) (f : Form) : ChecksLanes (laneSpecial fn f) f true := longWord_checksLanes ..

theorem intRow_checksLanes {i : Instr} {r : LaneRow} (h : intRow i = some r) : ChecksLanes (exec i) r.f false := by
  unfold intRow at h
  split at h <;> cases h <;> exact laneInt_checksLanes _ _

theorem shiftRow_checksLanes {i : Instr} {r : LaneRow} (h : shiftRow i = some r) : ChecksLanes (exec i) r.f false := by
  unfold shiftRow at h
  split at h <;> cases h <;> exact laneInt_checksLanes _ _

theorem arithRow_checksLanes {i : Instr} {r : LaneRow} (h : arithRow i = some r) : ChecksLanes (exec i) r.f false := by
  unfold arithRow at h
  split at h <;> cases h <;> exact laneFloat_checksLanes _ _

theorem plainLane_checksLanes {i : Instr} {f : Form} (h : plainLane i f) : ChecksLanes (exec i) f false := by
  rcases h with ⟨r, hr, rfl⟩ | ⟨r, hr, rfl⟩ | ⟨r, hr, rfl⟩
  · exact intRow_checksLanes hr
  · exact shiftRow_checksLanes hr
  · exact arithRow_checksLanes hr

theorem longFloatRows_checksLanes {i : Instr} {r : LongRow} (h : longFloatRows i = some r) : ChecksLanes (exec i) r.f true := by
  unfold longFloatRows at h
  split at h <;> cases h
  case h_1 | h_2 | h_3 | h_4 | h_5 | h_6 | h_7 => exact longFloat_checksLanes _ _
  all_goals exact laneSpecial_checksLanes _ _

section
variable {s : State} {v : View} {f : Form} {long : Bool} {exec : State → Result}

/-- A register beyond the thread's count: the operand subcause. -/
theorem checksLanes_operand (he : ChecksLanes exec f false) (h : InRun s v)
    (hr : (f.srcs.all (srcAllowed v.leaf.regs) && dstAllowed v.leaf.regs f.d) = false) : exec s = .next (s.illegal .operand) := by
  obtain ⟨body, hbody⟩ := he.checks
  rw [hbody, withLanes, onGroup_run h]
  simp [hr]

/-- An operand without a value: the undefined-operand trap, raised by the lanes that lack it. -/
theorem checksLanes_value (he : ChecksLanes exec f false) (h : InRun s v) (hs : f.srcs.all (srcAllowed v.leaf.regs) = true)
    (hd : dstAllowed v.leaf.regs f.d = true) {l : Thread} {r : List Thread}
    (hbad : v.threads.filter (fun t => !f.srcs.all (hasValue t)) = l :: r) :
    exec s = .next (s.trapHere 1 0 0 0 (l.tid % 32 :: r.map (·.tid % 32))) := by
  obtain ⟨body, hbody⟩ := he.checks
  rw [hbody, withLanes, onGroup_run h]
  simp only [hs, hd, hbad]
  rfl

/-- A 17th long-latency word: the reserved-field subcause. -/
theorem checksLanes_full (he : ChecksLanes exec f true) (h : InRun s v) (hn : 16 ≤ v.run.ordinals.length) :
    exec s = .next (s.illegal .reserved) := by
  obtain ⟨body, hbody⟩ := he.checks
  rw [hbody, withLanes, onGroup_run h]
  simp [hn]

/-- On an executor without lanes: the wrong-executor subcause. -/
theorem checksLanes_executor (he : ChecksLanes exec f long) {tn : Turn} (ht : s.turn = some tn) (hu : ∀ g, tn.unit ≠ .group g) :
    exec s = .next (s.illegal .executor) := by
  obtain ⟨body, hbody⟩ := he.checks
  rw [hbody, withLanes, onGroup, ht]
  dsimp only
  split
  · next g hg => exact absurd hg (hu g)
  · rfl

end

/-! ### Traps of executors without lanes -/

/-- The stop that a lane-set word leaves on an executor without lanes. -/
def executorStop (s : State) (code pc : Nat) : Stop :=
  { cause := 0, sub := 2, detail := 0, code, cont := true, reexec := false, pc, addr := 0, lanes := [], tid := 0, clk := s.cyc }

/-- A lane-set word on a stream stops it. -/
theorem illegal_stream {s : State} {n : Nat} {tn : Turn} (ht : s.turn = some tn) (hu : tn.unit = .stream n) {w : Workgroup} (hw : s.wg? n = some w) :
    s.illegal .executor =
      ({ s with grants := s.grants.filter (· != Grant.stream n) }.mapStream n fun x => { x with stop := some (executorStop s 4 tn.pc) }).raise
        (clusterOf w.core) w.core 4 (some (.stream n)) ((s.wgEvent w 0 true (executorStop s 4 tn.pc)).set 4 (w64 0)) := by
  have htrap : s.illegal .executor = s.trapStream n 0 2 0 0 tn.pc 0 := by
    simp [State.illegal, State.trapHere, ht, hu, illegalCode]
  rw [htrap, State.trapStream, hw]
  rfl

theorem stream_stops {s : State} {n pc ws : Nat} {p : Option PrefixFields} (ht : s.turn = some ⟨.stream n, pc, ws, p⟩)
    {w : Workgroup} (hw : s.wg? n = some w) :
    (∀ x, w.stream = some x → ∃ st, (s.illegal .executor).stream? n = some { x with stop := some st } ∧ st.cause = 0 ∧ st.sub = 2 ∧
        st.code = 4 ∧ st.cont = true ∧ st.reexec = false ∧ st.pc = pc) ∧
      (∃ e, (s.illegal .executor).events = s.events ++ [e] ∧ e.unit = some (.stream n) ∧ e.control = w.core / 4 ∧ e.event.part = 4 ∧
        e.event.words.take 5 = (record 0 2 (w.core + w.slot * 2 ^ 8 + 2 ^ 23) 4 true false pc 0 0 0 0 0 0 0).take 5) ∧
      { s.illegal .executor with wgs := s.wgs, events := s.events, grants := s.grants } = s := by
  rw [illegal_stream ht rfl hw]
  refine ⟨fun x hx => ⟨executorStop s 4 pc, ?_, rfl, rfl, rfl, rfl, rfl, rfl⟩, ⟨_, rfl, rfl, rfl, rfl, ?_⟩, rfl⟩
  · have hstream : { s with grants := s.grants.filter (· != Grant.stream n) }.stream? n = some x :=
      (show _ = (s.wg? n).bind (·.stream) from rfl).trans (by rw [hw]; exact hx)
    exact (stream_mapStream_same { s with grants := s.grants.filter (· != Grant.stream n) } n _).trans (congrArg _ hstream)
  · unfold State.wgEvent
    dsimp only [executorStop]
    rw [eventWords_record]
    rfl

/-- A lane-set word on a fabric processor stops it. -/
theorem illegal_proc {s : State} {n : Nat} {tn : Turn} (ht : s.turn = some tn) (hu : tn.unit = .fabric n) {q : FabricProc} (hq : s.proc? n = some q) :
    s.illegal .executor =
      ({ s with grants := s.grants.filter (· != Grant.fabric n) }.mapProc n fun p => { p with stop := some (executorStop s 6 tn.pc) }).raise
        (n / 8 * 16) (n / 8 * 64) 4 (some (.fabric n))
        (eventWords 0 2 0 (0xFFE000 + n) 6 true false tn.pc 0 0 0 0 0 s.cyc 0 (q.job.getD 0)) := by
  have htrap : s.illegal .executor = s.trapProc n 0 2 0 tn.pc := by
    simp [State.illegal, State.trapHere, ht, hu, illegalCode]
  rw [htrap, State.trapProc, hq]
  rfl

theorem proc_stops {s : State} {n pc ws : Nat} {p : Option PrefixFields} (ht : s.turn = some ⟨.fabric n, pc, ws, p⟩)
    {q : FabricProc} (hq : s.proc? n = some q) :
    (∃ st, (s.illegal .executor).proc? n = some { q with stop := some st } ∧ st.cause = 0 ∧ st.sub = 2 ∧ st.pc = pc) ∧
      (∃ e, (s.illegal .executor).events = s.events ++ [e] ∧ e.unit = some (.fabric n) ∧ e.control = 16 * (n / 8) ∧
        e.event.words = record 0 2 (0xFFE000 + n) 6 true false pc 0 0 0 0 s.cyc 0 (q.job.getD 0)) ∧
      { s.illegal .executor with procs := s.procs, events := s.events, grants := s.grants } = s := by
  rw [illegal_proc ht rfl hq, eventWords_record]
  refine ⟨⟨executorStop s 6 pc, ?_, rfl, rfl, rfl⟩, ⟨_, rfl, rfl, Nat.mul_comm .., rfl⟩, rfl⟩
  exact (modify_get_same s.procs n _).trans (congrArg _ hq)

/-- A lane-set word on a control core stops it. -/
theorem control_stops {s : State} {n pc ws : Nat} {p : Option PrefixFields} (ht : s.turn = some ⟨.control n, pc, ws, p⟩)
    {c : Control} (hc : s.control? n = some c) :
    (s.illegal .executor).control? n = some { c with trapped := true } ∧ { s.illegal .executor with controls := s.controls } = s := by
  have htrap : s.illegal .executor = s.trapControl n := by simp [State.illegal, State.trapHere, ht]
  rw [htrap, trapControl_eq]
  exact ⟨(modify_get_same s.controls n _).trans (congrArg _ hc), rfl⟩


/-- A trap with the illegal-instruction cause, raised by every lane of the group. -/
theorem illegal_groupTraps {s : State} {v : View} (h : InRun s v) (hs : v.g.stop = none) (e : IllegalSub) :
    GroupTraps s (s.illegal e) v 0 (illegalCode e) v.g.lanes (32 * v.g.block + v.g.lanes.head?.getD 0) := by
  have htrap := trapHere_groupTraps h hs (cause := 0) (sub := illegalCode e) rfl []
  rw [show raisedBy v.g [] = v.g.lanes from rfl, Option.or_self] at htrap
  exact htrap

/-- An undefined-operand trap, raised by the lanes named. -/
theorem value_groupTraps {s : State} {v : View} (h : InRun s v) (hs : v.g.stop = none) (lane : Nat) (lanes : List Nat) :
    GroupTraps s (s.trapHere 1 0 0 0 (lane :: lanes)) v 1 0 (lane :: lanes) (32 * v.g.block + lane) :=
  trapHere_groupTraps h hs rfl (lane :: lanes)

/-- Settles O54: lane-set words complete where their operands are usable, and trap where one of their checks fails. -/
theorem trapsTaken : Obligations.TrapsTaken := by
  refine ⟨?completes, ?begins, ?prefetches, ?operand, ?value, ?full, ?stream, ?proc, ?control⟩
  case completes => exact fun i f lat draws s v hi h hu => (fixedWord_givesLanes hi).runs s v h hu
  case begins => exact fun i f s v hi h hu hn => (longWord?_issuesLanes hi).runs s v h hu hn
  case prefetches => exact fun i f m s v hi h hu hp => (prefetch?_prefetches hi).runs s v h hu hp
  case operand =>
    exact fun i f s v hi h hs hr => ⟨_, checksLanes_operand (plainLane_checksLanes hi) h hr, illegal_groupTraps h hs .operand⟩
  case value =>
    intro i f s v l r hi h hs hsrc hdst hbad
    rw [List.map_cons]
    exact ⟨_, checksLanes_value (plainLane_checksLanes hi) h hsrc hdst hbad, value_groupTraps h hs _ _⟩
  case full =>
    exact fun i r s v hi h hs hn => ⟨_, checksLanes_full (longFloatRows_checksLanes hi) h hn, illegal_groupTraps h hs .reserved⟩
  case stream =>
    exact fun i f s n pc ws p w hi ht hw => ⟨_, checksLanes_executor (plainLane_checksLanes hi) ht (by simp), stream_stops ht hw⟩
  case proc =>
    exact fun i f s n pc ws p q hi ht hq => ⟨_, checksLanes_executor (plainLane_checksLanes hi) ht (by simp), proc_stops ht hq⟩
  case control =>
    exact fun i f s n pc ws p c hi ht hc => ⟨_, checksLanes_executor (plainLane_checksLanes hi) ht (by simp), control_stops ht hc⟩

end Sys2Proof.Machine
end

section
/-!
PROOFS. A step runs the instruction that the words at its unit's program counter decode to (O58).
-/
namespace Sys2Proof.Machine
open Sys2Proof.Spec

/-! ### The step, its unit and what the unit offers -/

/-- A step that is a unit's turn runs the unit. -/
theorem step_turnOf {s s0 : State} {u : UnitId} (h : TurnOf s u s0) : step s = runUnit s0 u := by
  rcases h with ⟨r, htodo, rfl⟩ | ⟨htodo, hunit, htimed, rfl⟩
  · rw [step_due htodo]
    rfl
  · rw [step_scheduled htodo htimed, hunit]
    rfl

/-- A unit that offers an instruction answers what `exec` answers for it, with the bookkeeping after it. -/
theorem ran_offer {s s0 t : State} {u : UnitId} (h : TurnOf s u s0) {i : Instr} {active : List Nat} {counts : Bool}
    (ho : s0.offer u = .run i active counts t) :
    Ran (step s) (exec i t) (orWaits s0 u fun t => State.finish s0 t u i active counts) := by
  rw [step_turnOf h]
  unfold runUnit
  rw [ho]
  dsimp only
  cases exec i t with
  | next t' =>
    change Host.Outcome.next _ = Host.Outcome.next _
    rw [orWaits]
  | fault e => rfl
  | refused e => rfl

/-! ### Which words decode to what -/

theorem map_ok {α : Type} {f : α → Instr} {x : Except IllegalSub α} {i : Instr} (h : x.map f = .ok i) : ∃ a, x = .ok a ∧ f a = i := by
  cases x with
  | error e => cases h
  | ok a => exact ⟨a, rfl, Except.ok.inj h⟩

theorem decodeWord_header {v : Nat} {h : HeaderWord} (hw : isHeaderWord v = true) (hd : decodeWord v 0 = .ok (.header h)) :
    decodeHeader v = .ok h := by
  have hlen : lenField v = 3 := by simpa using (Bool.and_eq_true_iff.mp hw).1
  have hp : isPrefixWord v = false := by simp [isPrefixWord, hlen]
  simp only [decodeWord, hp, hw, Bool.false_eq_true, if_false, if_true] at hd
  obtain ⟨a, ha, hi⟩ := map_ok hd
  exact Instr.header.inj hi ▸ ha

theorem decodeWord_trailer {v : Nat} {t : TrailerWord} (hw : isTrailerWord v = true) (hd : decodeWord v 0 = .ok (.trailer t)) :
    decodeTrailer v = .ok t := by
  obtain ⟨hlen, huni⟩ := Bool.and_eq_true_iff.mp hw
  have hlen : lenField v = 3 := by simpa using hlen
  have hp : isPrefixWord v = false := by simp [isPrefixWord, hlen]
  have hh : isHeaderWord v = false := by simpa [isHeaderWord] using fun _ => huni
  simp only [decodeWord, hp, hh, hw, Bool.false_eq_true, if_false, if_true] at hd
  obtain ⟨a, ha, hi⟩ := map_ok hd
  exact Instr.trailer.inj hi ▸ ha

theorem decodeWord_prefix {v : Nat} {p : PrefixFields} (hw : isPrefixWord v = true) (hd : decodeWord v 0 = .ok (.prefixWord p)) :
    decodePrefix v = .ok p := by
  simp only [decodeWord, hw, if_true] at hd
  obtain ⟨a, ha, hi⟩ := map_ok hd
  exact Instr.prefixWord.inj hi ▸ ha

/-- A word of an instruction is no run control word, nor one that modifies the next. -/
theorem isPrefixWord_instr {w : Nat} (h : lenField w < 2) : isPrefixWord w = false := by
  have : lenField w ≠ 2 := by omega
  simp [isPrefixWord, this]
theorem isHeaderWord_instr {w : Nat} (h : lenField w < 2) : isHeaderWord w = false := by
  have : lenField w ≠ 3 := by omega
  simp [isHeaderWord, this]
theorem isTrailerWord_instr {w : Nat} (h : lenField w < 2) : isTrailerWord w = false := by
  have : lenField w ≠ 3 := by omega
  simp [isTrailerWord, this]

theorem decodeWord_instr {w0 w1 : Nat} {i : Instr} (h : lenField w0 < 2) (hd : decodeWord w0 w1 = .ok i) : decodeInstr w0 w1 = .ok i := by
  simpa [decodeWord, isPrefixWord_instr h, isHeaderWord_instr h, isTrailerWord_instr h] using hd

/-! ### What a group offers -/

theorem mayIssue_groupIdle {s : State} {gid : Nat} {g : Group} {w : Workgroup} {l : Region} {clk : Nat} (h : MayIssue s gid g w l clk) :
    s.groupIdle g w clk = false := by
  obtain ⟨-, -, -, -, hstop, hstopped, hfiling, hresidence, hfrozen, hheld⟩ := h
  simp [State.groupIdle, hstop, hstopped, hfiling, hresidence, hfrozen, hheld]

/-- A group that may issue a header offers what stands at its header. -/
theorem offer_header {s : State} {gid : Nat} {g : Group} {w : Workgroup} {l : Region} {clk : Nat} (h : MayIssue s gid g w l clk)
    (hr : g.run = none) : s.offer (.group gid) = s.offerHeader g w clk := by
  obtain ⟨hg, hw, hl, hclk, -⟩ := id h
  change s.offerGroup gid = _
  unfold State.offerGroup
  simp only [hg, hw, hl, ← hclk, mayIssue_groupIdle h, hr, Bool.false_eq_true, if_false]

/-- A group that may issue a word of its run offers what stands there. -/
theorem offer_word {s : State} {gid : Nat} {g : Group} {w : Workgroup} {l : Region} {r : Run} {clk : Nat} (h : MayIssue s gid g w l clk)
    (hr : g.run = some r) : s.offer (.group gid) = s.offerWord g w l r clk := by
  obtain ⟨hg, hw, hl, hclk, -⟩ := id h
  change s.offerGroup gid = _
  unfold State.offerGroup
  simp only [hg, hw, hl, ← hclk, mayIssue_groupIdle h, hr, Bool.false_eq_true, if_false]

theorem offerHeader_header {s s1 : State} {g : Group} {w : Workgroup} {clk v : Nat} {n : Except Nat Nat} {h : HeaderWord}
    (hf : s.fetch (s.wgAccessor w) g.pc = .ok (v, n, s1)) (hw : isHeaderWord v = true) (hd : decodeHeader v = .ok h) :
    s.offerHeader g w clk = .run (.header h) g.lanes false { s1 with turn := some ⟨.group g.id, g.pc, 1, none⟩, cyc := clk } := by
  unfold State.offerHeader
  rw [hf]
  simp only [hw, hd]
  rfl

theorem offerWord_trailer {s s1 : State} {g : Group} {w : Workgroup} {l : Region} {r : Run} {clk v : Nat} {n : Except Nat Nat}
    {t : TrailerWord} (hf : s.fetch (s.wgAccessor w) r.pc = .ok (v, n, s1)) (hl : r.left = 0) (hw : isTrailerWord v = true)
    (hd : decodeTrailer v = .ok t) :
    s.offerWord g w l r clk = .run (.trailer t) g.lanes false { s1 with turn := some ⟨.group g.id, r.pc, 1, none⟩, cyc := clk } := by
  unfold State.offerWord
  rw [hf]
  simp only [hl, if_true]
  unfold State.offerTrailer
  simp only [hw, hd]
  rfl

theorem offerWord_prefix {s s1 : State} {g : Group} {w : Workgroup} {l : Region} {r : Run} {clk v : Nat} {n : Except Nat Nat}
    {p : PrefixFields} (hf : s.fetch (s.wgAccessor w) r.pc = .ok (v, n, s1)) (hl : 0 < r.left) (hw : isPrefixWord v = true)
    (hd : decodePrefix v = .ok p) :
    s.offerWord g w l r clk = .run (.prefixWord p) g.lanes false { s1 with turn := some ⟨.group g.id, r.pc, 1, none⟩, cyc := clk } := by
  have hleft : r.left ≠ 0 := by omega
  unfold State.offerWord
  rw [hf]
  simp only [hleft, hw, if_false, if_true]
  unfold State.offerPrefix
  rw [hd]
  rfl

/-- A word without a fault of its place passes the checks of R79. -/
theorem groupCheck_fits {r : Run} {pfx : Option PrefixFields} {w0 w1 : Nat} {i : Instr} (h : FitsRun r pfx w0 w1) (hl : lenField w0 < 2)
    (hd : decodeInstr w0 w1 = .ok i) :
    groupCheck r.left (decide (16 ≤ r.ordinals.length)) (r.pfx.map fun p => decodePrefix p.2) w0 w1 = .ok i := by
  obtain ⟨hfits, hlast, hmay, hfull, hpfx⟩ := h
  have hfull : (decide (16 ≤ r.ordinals.length) && longOp w0) = false := by
    rcases hfull with h | h
    · simp [Nat.not_le.mpr h]
    · simp [h]
  have hlast : (lastOnly (isUniform w0) (opField w0) && r.left != sizeOf0 w0) = false := by
    cases hb : lastOnly (isUniform w0) (opField w0) with
    | false => rfl
    | true => simp [hlast hb]
  have hopcode : (decide (r.left < sizeOf0 w0) || isHeaderWord w0 || isTrailerWord w0 ||
      (lastOnly (isUniform w0) (opField w0) && r.left != sizeOf0 w0)) = false := by
    simp [hlast, isHeaderWord_instr hl, isTrailerWord_instr hl, hfits]
  unfold sizeOf0 at hopcode
  unfold groupCheck
  dsimp only
  rw [hopcode, hd]
  rcases hpfx with ⟨hnone, -⟩ | ⟨p, q, hsome, hq, -, hfit⟩
  · simp [hnone, hmay, hfull]
  · simp [hsome, hq, hfit, hmay, hfull]

/-- A word of a run that has no fault of its place and reads no register in error is offered. -/
theorem offerWord_instr {s s1 s2 : State} {g : Group} {w : Workgroup} {l : Region} {r : Run} {clk w0 w1 : Nat} {n : Except Nat Nat}
    {i : Instr} {pfx : Option PrefixFields} (hf : s.fetch (s.wgAccessor w) r.pc = .ok (w0, n, s1)) (hn : wordsAre n w0 w1)
    (hd : decodeInstr w0 w1 = .ok i) (hl : lenField w0 < 2) (hfit : FitsRun r pfx w0 w1)
    (hs2 : s2 = { s1 with turn := some ⟨.group g.id, r.pc, sizeOf0 w0, pfx⟩, cyc := clk + sizeOf0 w0 - 1 })
    (hu : View.upsetLanes ⟨g, r, w, l, ⟨.group g.id, r.pc, sizeOf0 w0, pfx⟩⟩
      (s2.activeLanes ⟨g, r, w, l, ⟨.group g.id, r.pc, sizeOf0 w0, pfx⟩⟩ w0 w1) (codeUse (r.pfx.map (·.2)) w0 w1) = []) :
    s.offerWord g w l r clk = .run i (s2.activeLanes ⟨g, r, w, l, ⟨.group g.id, r.pc, sizeOf0 w0, pfx⟩⟩ w0 w1) true s2 := by
  have hcheck := groupCheck_fits hfit hl hd
  obtain ⟨hsize, -, -, -, hpfx⟩ := hfit
  have hpos : r.left ≠ 0 := by
    have : 1 ≤ sizeOf0 w0 := by unfold sizeOf0; split <;> omega
    omega
  have hbind : ((r.pfx.map fun p => decodePrefix p.2).bind Except.toOption) = pfx := by
    rcases hpfx with ⟨hnone, rfl⟩ | ⟨p, q, hsome, hq, rfl, -⟩
    · rw [hnone]
      rfl
    · rw [hsome, Option.map_some, hq]
      rfl
  unfold State.offerWord
  rw [hf]
  dsimp only
  rw [if_neg hpos, isPrefixWord_instr hl]
  simp only [Bool.false_eq_true, if_false]
  split
  · next e hdouble =>
    rcases hn with hn | ⟨hsingle, -⟩
    · cases hn
    · simp [hsingle] at hdouble
  · have hturn : s1.giveTurn (.group g.id) r.pc (sizeOf0 w0) pfx (clk + sizeOf0 w0 - 1) = s2 := hs2.symm
    unfold sizeOf0 at hturn hu ⊢
    rw [hbind, hturn]
    rcases hn with rfl | ⟨-, rfl, e, rfl⟩ <;> dsimp only <;> rw [hcheck] <;> dsimp only <;> rw [hu]

/-! ### What an executor without lanes offers -/

theorem unitCheck_instr {x : Executor} {w0 w1 : Nat} {i : Instr} (hd : decodeInstr w0 w1 = .ok i) (hu : isUniform w0 = true)
    (hl : lenField w0 < 2) (hm : mayRun x true (opField w0) = true) : unitCheck x w0 w1 = .ok i := by
  unfold unitCheck
  simp [isHeaderWord_instr hl, isPrefixWord_instr hl, hu, hd, hm]

/-- A word of an executor without lanes that it may run, and that reads no register in error, is offered. -/
theorem offer_unit {s s1 s2 : State} {u : UnitId} {pc last w0 w1 : Nat} {a : Accessor} {n : Except Nat Nat} {i : Instr}
    (hg : isGroup u = false) (hstate : s.unitState u = some (pc, last, a)) (hf : s.unitFetch u a pc = .ok (w0, n, s1))
    (hn : wordsAre n w0 w1) (hcheck : unitCheck u.executor w0 w1 = .ok i)
    (hs2 : s2 = { s1 with turn := some ⟨u, pc, sizeOf0 w0, none⟩, cyc := s.unitClk u last + sizeOf0 w0 - 1 })
    (hu : s2.unitUpset u (codeUse none w0 w1) = false) :
    s.offer u = .run i [] true (s2.setUnitPc u (pc + 4 * sizeOf0 w0)) := by
  have hoffer : s.offer u = s.offerUnit u := by
    cases u with
    | group g => cases hg
    | _ => rfl
  rw [hoffer, State.offerUnit, hstate]
  dsimp only
  rw [hf]
  dsimp only
  split
  · next e hdouble =>
    rcases hn with hn | ⟨hsingle, -⟩
    · cases hn
    · simp [hsingle] at hdouble
  · have hturn : s1.giveTurn u pc (sizeOf0 w0) none (s.unitClk u last + sizeOf0 w0 - 1) = s2 := hs2.symm
    unfold sizeOf0 at hturn ⊢
    rw [hturn]
    rcases hn with rfl | ⟨-, rfl, e, rfl⟩ <;> dsimp only <;> rw [hcheck] <;> dsimp only <;> rw [hu] <;> rfl

/-! ### After the word -/

theorem finish_held_group {b t : State} {gid : Nat} {g : Group} {tn : Turn} (hg : b.group? gid = some g) (ht : t.turn = some tn)
    (hh : t.hold = true) (i : Instr) (active : List Nat) (counts : Bool) :
    State.finish b t (.group gid) i active counts = { t with turn := none, hold := false, cyc := b.cyc, parts := b.parts } := by
  unfold State.finish State.finishGroup
  simp only [hg, ht, hh, if_true]

theorem finish_held_unit {b t : State} {u : UnitId} {tn : Turn} (hu : isGroup u = false) (ht : t.turn = some tn)
    (hh : t.hold = true) (i : Instr) (active : List Nat) (counts : Bool) :
    State.finish b t u i active counts = { ({ t with hold := false, cyc := b.cyc }.setUnitPc u tn.pc) with turn := none } := by
  have hfinish : State.finish b t u i active counts = { b.finishUnit t u with turn := none, hold := false } := by
    cases u with
    | group g => cases hu
    | _ => rfl
  have hunit : b.finishUnit t u = { t with hold := false, cyc := b.cyc }.setUnitPc u tn.pc := by
    unfold State.finishUnit
    simp only [ht, hh, if_true]
  rw [hfinish, hunit]
  cases u <;> rfl

/-- A group's word that completed: the group passes it, its partition notes the clk, and its lanes are counted. -/
theorem finishGroup_passes {b t : State} {gid : Nat} {g q : Group} {w : Workgroup} {tn : Turn} {i : Instr} (hg : b.group? gid = some g)
    (hw : b.wg? g.wg = some w) (ht : t.turn = some tn) (hh : t.hold = false) (hi : runControl i = false) (hq : t.group? gid = some q)
    (hstop : q.stop = none) (hskip : q.skipWatch = false) (active : List Nat) (counts : Bool) :
    b.finishGroup t gid i active counts =
      ((t.mapPart w.core g.part fun p => { p with lastIssue := t.cyc, busy := some gid }).countWord g w tn.pc t.cyc active).advance g tn.words counts := by
  have hmap : ∀ f, (t.mapPart w.core g.part f).group? gid = some q := fun _ => hq
  unfold State.finishGroup
  simp only [hg, ht, hh, hw, hi, hmap, Bool.false_eq_true, if_false]
  split
  · cases hi
  · cases hi
  · next q' _ _ hq' =>
    cases hq'
    simp [Group.haltedAt, hstop, hskip]
  · next hq' => cases hq'

theorem countWord_lastIssue (s : State) (g : Group) (w : Workgroup) (addr clk : Nat) (active : List Nat) :
    ((s.countWord g w addr clk active).part w.core g.part).lastIssue = (s.part w.core g.part).lastIssue := by
  unfold State.countWord State.mapPart State.part
  rw [sget_sset_same]
  rfl

theorem advance_parts (s : State) (g : Group) (words : Nat) (counts : Bool) : (s.advance g words counts).parts = s.parts := by
  cases counts <;> rfl

theorem advance_frame (s : State) (g : Group) (words : Nat) (counts : Bool) :
    { s.advance g words counts with groups := s.groups, wgs := s.wgs } = s := by
  cases counts <;> rfl

theorem advance_group {s : State} {g q : Group} {r : Run} (hq : s.group? g.id = some q) (hr : q.run = some r) (words : Nat) (counts : Bool) :
    (s.advance g words counts).group? g.id = some { q with
      skipWatch := false
      run := some { r with pc := r.pc + 4 * words, left := r.left - words, pfx := if counts then none else r.pfx } } := by
  have hmap := group_mapGroup_same s g.id (f := fun g => { g with skipWatch := false, run := g.run.map fun r =>
    { r with pc := r.pc + 4 * words, left := r.left - words, pfx := if counts then none else r.pfx } }) fun _ => rfl
  rw [hq, Option.map_some, hr] at hmap
  cases counts <;> exact hmap

theorem advance_thread {s : State} {g : Group} {tid : Nat} {th : Thread} (ht : s.thread? g.wg tid = some th) (words : Nat) (counts : Bool) :
    (s.advance g words counts).thread? g.wg tid =
      some (if counts ∧ g.tids.contains tid then { th with retired := th.retired + 1 } else th) := by
  have htid : th.tid = tid := by
    obtain ⟨w, -, hw⟩ := Option.bind_eq_some_iff.mp ht
    exact thread_tid hw
  cases counts with
  | false => exact ht
  | true =>
    refine (thread_mapThreads _ g.wg g.tids (by exact fun _ => rfl) tid).trans ((congrArg _ ht).trans ?_)
    simp [htid]

/-- After a group's word that completed. -/
theorem finish_passes (b t : State) (gid : Nat) (g : Group) (w : Workgroup) (q : Group) (r : Run) (tn : Turn) (i : Instr)
    (active : List Nat) (counts : Bool) (hg : b.group? gid = some g) (hw : b.wg? g.wg = some w) (ht : t.turn = some tn)
    (hh : t.hold = false) (hi : runControl i = false) (hq : t.group? gid = some q) (hr : q.run = some r) (hstop : q.stop = none)
    (hskip : q.skipWatch = false) (hid : g.id = gid) :
    let f := State.finish b t (.group gid) i active counts
    f.group? gid = some { q with skipWatch := false
                                 run := some { r with pc := r.pc + 4 * tn.words, left := r.left - tn.words
                                                      pfx := if counts then none else r.pfx } } ∧
    (∀ tid th, t.thread? g.wg tid = some th →
      f.thread? g.wg tid = some (if counts ∧ g.tids.contains tid then { th with retired := th.retired + 1 } else th)) ∧
    f.turn = none ∧ (f.part w.core g.part).lastIssue = t.cyc ∧
    { f with turn := t.turn, parts := t.parts, groups := t.groups, wgs := t.wgs } = t := by
  obtain ⟨m, hm⟩ : ∃ m, m = (t.mapPart w.core g.part fun p => { p with lastIssue := t.cyc, busy := some gid }).countWord g w tn.pc t.cyc active :=
    ⟨_, rfl⟩
  have hmt : { m with parts := t.parts } = t := by rw [hm]; rfl
  have hgroups : m.groups = t.groups := by rw [hm]; rfl
  have hwgs : m.wgs = t.wgs := by rw [hm]; rfl
  have hlast : (m.part w.core g.part).lastIssue = t.cyc := by
    rw [hm, countWord_lastIssue]
    unfold State.mapPart State.part
    rw [sget_sset_same]
  have hfinish : State.finish b t (.group gid) i active counts = { m.advance g tn.words counts with turn := none, hold := false } := by
    rw [hm, ← finishGroup_passes hg hw ht hh hi hq hstop hskip active counts]
    rfl
  have hframe := advance_frame m g tn.words counts
  obtain ⟨a, ha⟩ : ∃ a, a = m.advance g tn.words counts := ⟨_, rfl⟩
  intro f
  have hf : f = { a with turn := none, hold := false } := by rw [ha]; exact hfinish
  rw [hf]
  refine ⟨?_, fun tid th hth => ?_, rfl, ?_, ?_⟩
  · have hqm : m.group? g.id = some q := by rw [State.group?, hgroups, hid]; exact hq
    have := advance_group hqm hr tn.words counts
    rw [← ha, hid] at this
    exact this
  · have htm : m.thread? g.wg tid = some th := by rw [State.thread?, State.wg?, hwgs]; exact hth
    have := advance_thread htm tn.words counts
    rw [← ha] at this
    exact this
  · have hparts : a.parts = m.parts := by rw [ha, advance_parts]
    refine Eq.trans ?_ hlast
    unfold State.part
    rw [← hparts]
  · rw [← ha] at hframe
    have hhold : { t with hold := false } = t := by rw [← hh]
    calc { a with turn := t.turn, hold := false, parts := t.parts, groups := t.groups, wgs := t.wgs }
        = { { { a with groups := m.groups, wgs := m.wgs } with parts := t.parts } with
            turn := t.turn, hold := false, groups := t.groups, wgs := t.wgs } := rfl
      _ = { t with hold := false } := by rw [hframe, hmt]
      _ = t := hhold

/-- Settles O58: what a unit offers is what its words decode to, and a step answers what `exec` answers for it. -/
theorem stepRunsDecoded : Obligations.StepRunsDecoded := by
  refine ⟨?header, ?trailer, ?prefixWord, ?word, ?unit, finish_passes, ?heldGroup, ?heldUnit⟩
  case header =>
    intro s s0 s1 gid g w l clk v n h hturn hmay hrun hf hw hd
    exact ran_offer hturn ((offer_header hmay hrun).trans (offerHeader_header hf hw (decodeWord_header hw hd)))
  case trailer =>
    intro s s0 s1 gid g w l r clk v n h hturn hmay hrun hleft hf hw hd
    exact ran_offer hturn ((offer_word hmay hrun).trans (offerWord_trailer hf hleft hw (decodeWord_trailer hw hd)))
  case prefixWord =>
    intro s s0 s1 gid g w l r clk v n p hturn hmay hrun hleft hf hw hd
    exact ran_offer hturn ((offer_word hmay hrun).trans (offerWord_prefix hf hleft hw (decodeWord_prefix hw hd)))
  case word =>
    intro s s0 s1 s2 gid g w l r clk w0 w1 n i pfx hturn hmay hrun hf hn hd hl hfit hs2 v active hu
    exact ran_offer hturn ((offer_word hmay hrun).trans (offerWord_instr hf hn (decodeWord_instr hl hd) hl hfit hs2 hu))
  case unit =>
    intro s s0 s1 s2 u pc last a w0 w1 n i hturn hg hstate hf hn hd huni hl hm hs2 hu
    exact ran_offer hturn (offer_unit hg hstate hf hn (unitCheck_instr (decodeWord_instr hl hd) huni hl hm) hs2 hu)
  case heldGroup =>
    intro b t gid g tn i active counts hg ht hh
    exact finish_held_group hg ht hh i active counts
  case heldUnit =>
    intro b t u tn i active counts hu ht hh
    exact finish_held_unit hu ht hh i active counts

end Sys2Proof.Machine
end

section
/-!
PROOFS. Phases and fences (O21): what each word leaves for the later accesses of its threads.
-/
namespace Sys2Proof.Machine
open Sys2Proof.Spec

theorem phasePub_run {s : State} {v : View} (h : InRun s v) : exec .phasePub s =
    .next ((s.boundary v.wg.core v.wg.id v.tids .nothing).gateThreads v.wg.id v.tids s.seq false) := by
  change execPhasePub s = _
  rw [execPhasePub, onGroup_run h]

theorem phaseAr_run {s : State} {v : View} (h : InRun s v) : exec .phaseAr s =
    .next ((s.boundary v.wg.core v.wg.id v.tids .refresh).gateThreads v.wg.id v.tids s.seq false) := by
  change execPhaseAr s = _
  rw [execPhaseAr, onGroup_run h]

theorem phaseAcq_run {s : State} {v : View} (h : InRun s v) : exec .phaseAcq s =
    .next ((s.boundaryAt 0 v.wg.core v.wg.id v.tids .refresh).gateThreads v.wg.id v.tids s.seq true) := by
  change execPhaseAcq s = _
  rw [execPhaseAcq, onGroup_run h]

/-- `fence.ld` holds the run while a load of its threads is pending (R22, R248). -/
theorem fenceLd_run {s : State} {v : View} (h : InRun s v) : exec .fenceLd s =
    if s.loadsPending v.wg.id v.tids true s.seq then holdWord s else .next s := by
  change execFenceLd s = _
  rw [execFenceLd, onGroup_run h]

theorem fenceIo_run {s : State} {v : View} (h : InRun s v) : exec .fenceIo s =
    .next ((s.mapThreads v.wg.id v.tids fun t =>
      { t with fences := t.fences.filter (s.hostUnacked v.wg.id t.tid) ++ [s.seq] }).bump) := by
  change execFenceIo s = _
  rw [execFenceIo, onGroup_run h]

theorem fenceSp_run {s : State} {v : View} (h : InRun s v) : exec .fenceSp s =
    .next (s.mapThreads v.wg.id v.tids fun t => { t with spFence := s.unreadOf v.wg.id t.tid }) := by
  change execFenceSp s = _
  rw [execFenceSp, onGroup_run h]

/-- The copies `fence.sp` waits for are the copies out of the thread: a bulk copy is no thread's (R248). -/
theorem unreadOf_eq (s : State) (wg tid : Nat) : s.unreadOf wg tid =
    (s.copies.filter fun c => c.wg == wg && c.unread && match c.kind with
      | .out u .. => u == tid
      | .bulk .. => false).map (·.id) := by
  unfold State.unreadOf
  congr 2
  funext c
  cases c.kind <;> rfl

/-- Settles O21: in a run each word acts on the threads present, and `fence.ld` has nothing to hold for. -/
theorem phaseWords : Obligations.PhaseWords := by
  refine ⟨fun _ _ => phasePub_run, fun _ _ => phaseAr_run, fun _ _ => phaseAcq_run, ?ld, fun _ _ => fenceIo_run, ?sp⟩
  case ld =>
    intro s v h hnone
    simp [fenceLd_run h, hnone]
  case sp =>
    intro s v h
    simp only [fenceSp_run h, unreadOf_eq] <;> rfl

end Sys2Proof.Machine
end
